-- ==== Sys2Proof/Word.lean ====
section
/-!
DEFINITION. The words of the machine and nothing more: bytes, halfwords, 32-bit and 64-bit words, and the 57-bit
virtual address.
-/

namespace Sys2Proof

/-- A byte; the byte at the lowest address holds bits 7:0 (R2). -/
abbrev Byte := BitVec 8

/-- A thread register or an instruction word. -/
abbrev Word := BitVec 32

/-- A uniform register or a control register. -/
abbrev DWord := BitVec 64

/-- A virtual address (R316). -/
abbrev VAddr := BitVec 57

end Sys2Proof
end

