-- ==== Sys2Proof/Syntax.lean ====
section
/-!
DEFINITION. The instructions and events of the FZ-8640: one constructor for each row of the opcode table.

An encoded row takes one structure that holds the fields of its encoding as they stand in the word (R29 to R63);
`e` is the stint-end bit E. The rows without a word are the machine's other steps (commands, scheduling, memory
system, firmware and outside events); their arguments say which unit or object the step is about.
-/

namespace Sys2Proof

/-- Fields of MOV, ADD_16, SUB_16, MUL_16 and others of the layout. -/
structure H16 where
  s : BitVec 6
  d : BitVec 5
  deriving DecidableEq, Repr

/-- Fields of ADD, SUB, MUL, MULH_S and others of the layout. -/
structure T3 where
  w : Bool
  g : BitVec 3
  b : BitVec 6
  a : BitVec 6
  d : BitVec 6
  e : Bool
  deriving DecidableEq, Repr

/-- Fields of ABS, NEG, CLZ, POPC and others of the layout. -/
structure T2 where
  w : Bool
  g : BitVec 3
  a : BitVec 6
  d : BitVec 6
  e : Bool
  deriving DecidableEq, Repr

/-- Fields of CMP, FCMP. -/
structure CmpF where
  g : BitVec 3
  b : BitVec 6
  a : BitVec 6
  c : BitVec 3
  p : BitVec 3
  e : Bool
  deriving DecidableEq, Repr

/-- Fields of CVT. -/
structure CvtF where
  w : Bool
  g : BitVec 3
  s : BitVec 3
  t : BitVec 3
  a : BitVec 6
  d : BitVec 6
  e : Bool
  deriving DecidableEq, Repr

/-- Fields of SCAN. -/
structure ScanF where
  w : Bool
  g : BitVec 3
  x : Bool
  o : BitVec 4
  a : BitVec 6
  d : BitVec 6
  e : Bool
  deriving DecidableEq, Repr

/-- Fields of SSCAN. -/
structure SscanF where
  w : Bool
  g : BitVec 3
  p : BitVec 3
  o : BitVec 3
  a : BitVec 6
  d : BitVec 6
  e : Bool
  deriving DecidableEq, Repr

/-- Fields of RDX. -/
structure RdxF where
  w : Bool
  g : BitVec 3
  o : BitVec 4
  a : BitVec 6
  d : BitVec 6
  e : Bool
  deriving DecidableEq, Repr

/-- Fields of VOTE. -/
structure VoteF where
  w : Bool
  g : BitVec 3
  m : BitVec 6
  a : BitVec 6
  d : BitVec 6
  e : Bool
  deriving DecidableEq, Repr

/-- Fields of FFMA, MAD, FFMA2_F16, FFMA2_BF16 and others of the layout. -/
structure Q4 where
  c : BitVec 6
  b : BitVec 6
  a : BitVec 6
  d : BitVec 6
  e : Bool
  deriving DecidableEq, Repr

/-- Fields of SEL. -/
structure SelF where
  p : BitVec 6
  b : BitVec 6
  a : BitVec 6
  d : BitVec 6
  e : Bool
  deriving DecidableEq, Repr

/-- Fields of ADDI, MULI, ANDI, ORI, XORI. -/
structure LaneImm where
  i : BitVec 10
  a : BitVec 6
  d : BitVec 6
  e : Bool
  deriving DecidableEq, Repr

/-- Fields of SHLI, SHRI, SARI. -/
structure LaneSh where
  n : BitVec 5
  a : BitVec 6
  d : BitVec 6
  e : Bool
  deriving DecidableEq, Repr

/-- Fields of CMPI. -/
structure CmpImm where
  i : BitVec 10
  a : BitVec 6
  c : BitVec 3
  p : BitVec 3
  e : Bool
  deriving DecidableEq, Repr

/-- Fields of MOVI, MOVHI. -/
structure LaneMov where
  i : BitVec 16
  d : BitVec 6
  e : Bool
  deriving DecidableEq, Repr

/-- Fields of GADD, GSUB, GMUL, GAND and others of the layout. -/
structure UniF where
  i : BitVec 7
  b : BitVec 5
  a : BitVec 5
  d : BitVec 5
  e : Bool
  deriving DecidableEq, Repr

/-- Fields of GCMP. -/
structure UniCmp where
  c : BitVec 3
  b : BitVec 5
  a : BitVec 5
  d : BitVec 5
  e : Bool
  deriving DecidableEq, Repr

/-- Fields of GMOVI. -/
structure UniMov17 where
  i : BitVec 17
  d : BitVec 5
  e : Bool
  deriving DecidableEq, Repr

/-- Fields of GMOVHI. -/
structure UniMov16 where
  i : BitVec 16
  d : BitVec 5
  e : Bool
  deriving DecidableEq, Repr

/-- Fields of GTAKE. -/
structure TakeF where
  f : Bool
  t : BitVec 5
  a : BitVec 6
  d : BitVec 5
  e : Bool
  deriving DecidableEq, Repr

/-- Fields of GPUT. -/
structure PutF where
  a : BitVec 5
  d : BitVec 6
  e : Bool
  deriving DecidableEq, Repr

/-- Fields of GBALLOT. -/
structure BallotF where
  p : BitVec 3
  d : BitVec 5
  e : Bool
  deriving DecidableEq, Repr

/-- Fields of LD, ST. -/
structure LaneMem where
  s : BitVec 3
  o : Bool
  z : BitVec 3
  w : BitVec 3
  a : BitVec 6
  d : BitVec 6
  e : Bool
  deriving DecidableEq, Repr

/-- Fields of LDI, STI. -/
structure LaneMemImm where
  i : BitVec 10
  z : BitVec 3
  w : BitVec 3
  d : BitVec 6
  e : Bool
  deriving DecidableEq, Repr

/-- Fields of ATOM, RED. -/
structure AtomF where
  s : BitVec 3
  o : BitVec 4
  w : BitVec 3
  a : BitVec 6
  d : BitVec 6
  e : Bool
  deriving DecidableEq, Repr

/-- Fields of LDA. -/
structure LdaF where
  r : Bool
  z : BitVec 3
  w : BitVec 3
  a : BitVec 6
  d : BitVec 6
  e : Bool
  deriving DecidableEq, Repr

/-- Fields of STA. -/
structure StaF where
  z : BitVec 3
  w : BitVec 3
  a : BitVec 6
  d : BitVec 6
  e : Bool
  deriving DecidableEq, Repr

/-- Fields of GLD, GST. -/
structure UniMem where
  s : BitVec 3
  o : Bool
  z : BitVec 3
  w : BitVec 3
  a : BitVec 5
  d : BitVec 5
  e : Bool
  deriving DecidableEq, Repr

/-- Fields of WOPEN. -/
structure WopenF where
  n : Bool
  x : Bool
  r : Bool
  b : BitVec 5
  a : BitVec 5
  w : BitVec 3
  e : Bool
  deriving DecidableEq, Repr

/-- Fields of BLD, BST. -/
structure BenchF where
  z : BitVec 3
  a : BitVec 6
  d : BitVec 6
  e : Bool
  deriving DecidableEq, Repr

/-- Fields of BATOM. -/
structure BatomF where
  o : BitVec 4
  a : BitVec 6
  d : BitVec 6
  e : Bool
  deriving DecidableEq, Repr

/-- Fields of FENCE. -/
structure FenceF where
  s : BitVec 3
  k : BitVec 2
  e : Bool
  deriving DecidableEq, Repr

/-- Fields of CACHE. -/
structure CacheF where
  o : BitVec 4
  b : BitVec 5
  a : BitVec 5
  w : BitVec 3
  e : Bool
  deriving DecidableEq, Repr

/-- Fields of BR. -/
structure BrF where
  f : BitVec 19
  g : BitVec 3
  e : Bool
  deriving DecidableEq, Repr

/-- Fields of JMP, JOIN, MEET, CALL. -/
structure JmpF where
  f : BitVec 22
  e : Bool
  deriving DecidableEq, Repr

/-- Fields of BRX, CALLI. -/
structure RegF where
  a : BitVec 5
  e : Bool
  deriving DecidableEq, Repr

/-- Fields of RET, NOP, YIELD, TFENCE, PEND, RTE, PARK. -/
structure PlainF where
  e : Bool
  deriving DecidableEq, Repr

/-- Fields of SWITCH. -/
structure SwitchF where
  f : BitVec 16
  a : BitVec 6
  e : Bool
  deriving DecidableEq, Repr

/-- Fields of EXIT. -/
structure ExitF where
  g : BitVec 3
  e : Bool
  deriving DecidableEq, Repr

/-- Fields of WAIT. -/
structure WaitF where
  s : BitVec 3
  z : BitVec 3
  b : BitVec 5
  a : BitVec 5
  w : BitVec 3
  e : Bool
  deriving DecidableEq, Repr

/-- Fields of MARK. -/
structure MarkF where
  c : BitVec 11
  l : BitVec 11
  e : Bool
  deriving DecidableEq, Repr

/-- Fields of TCALL. -/
structure TcallF where
  n : BitVec 8
  e : Bool
  deriving DecidableEq, Repr

/-- Fields of BRK. -/
structure BrkF where
  c : BitVec 16
  e : Bool
  deriving DecidableEq, Repr

/-- Fields of SPAWN. -/
structure SpawnF where
  a : BitVec 6
  p : BitVec 3
  t : Bool
  n : BitVec 10
  e : Bool
  deriving DecidableEq, Repr

/-- Fields of LAUNCH. -/
structure LaunchF where
  w : BitVec 3
  a : BitVec 5
  e : Bool
  deriving DecidableEq, Repr

/-- Fields of BAR. -/
structure BarF where
  x : Bool
  s : BitVec 3
  n : BitVec 5
  e : Bool
  deriving DecidableEq, Repr

/-- Fields of XPAND. -/
structure XpandF where
  o : BitVec 4
  z : BitVec 2
  b : BitVec 6
  a : BitVec 6
  e : Bool
  deriving DecidableEq, Repr

/-- Fields of XNEXT. -/
structure XnextF where
  p : BitVec 3
  d : BitVec 6
  e : Bool
  deriving DecidableEq, Repr

/-- Fields of SRED. -/
structure SredF where
  a : BitVec 6
  e : Bool
  deriving DecidableEq, Repr

/-- Fields of XEND. -/
structure XendF where
  d : BitVec 6
  e : Bool
  deriving DecidableEq, Repr

/-- Fields of COPY. -/
structure CopyF where
  k : BitVec 6
  a : BitVec 5
  s : BitVec 3
  d : BitVec 3
  e : Bool
  deriving DecidableEq, Repr

/-- Fields of GATHER, SCATTER. -/
structure GatherF where
  z : BitVec 2
  k : BitVec 6
  a : BitVec 5
  i : BitVec 3
  s : BitVec 3
  d : BitVec 3
  e : Bool
  deriving DecidableEq, Repr

/-- Fields of CWAIT, CARM. -/
structure CwaitF where
  a : BitVec 5
  k : BitVec 6
  e : Bool
  deriving DecidableEq, Repr

/-- Fields of CPOLL. -/
structure CpollF where
  k : BitVec 6
  d : BitVec 5
  e : Bool
  deriving DecidableEq, Repr

/-- Fields of MMA. -/
structure MmaF where
  t : BitVec 4
  y : BitVec 2
  h : BitVec 2
  n : Bool
  w : BitVec 3
  a : BitVec 5
  v : BitVec 3
  e : Bool
  deriving DecidableEq, Repr

/-- Fields of MMAT, MSP. -/
structure MmatF where
  y : BitVec 3
  h : BitVec 2
  a : BitVec 5
  b : BitVec 3
  c : BitVec 3
  t : BitVec 4
  e : Bool
  deriving DecidableEq, Repr

/-- Fields of MLUT. -/
structure MlutF where
  h : BitVec 2
  y : Bool
  x : Bool
  a : BitVec 5
  b : BitVec 3
  c : BitVec 3
  t : BitVec 4
  e : Bool
  deriving DecidableEq, Repr

/-- Fields of MZERO. -/
structure MzeroF where
  q : Bool
  t : BitVec 4
  e : Bool
  deriving DecidableEq, Repr

/-- Fields of MDRAIN_REG. -/
structure MdrainRegF where
  r : Bool
  y : BitVec 3
  v : BitVec 6
  t : BitVec 4
  e : Bool
  deriving DecidableEq, Repr

/-- Fields of MDRAIN_MEM. -/
structure MdrainMemF where
  s : BitVec 3
  r : Bool
  b : Bool
  y : BitVec 3
  a : BitVec 5
  w : BitVec 3
  q : Bool
  t : BitVec 4
  e : Bool
  deriving DecidableEq, Repr

/-- Fields of MLOAD. -/
structure MloadF where
  y : BitVec 3
  a : BitVec 5
  w : BitVec 3
  q : Bool
  t : BitVec 4
  e : Bool
  deriving DecidableEq, Repr

/-- Fields of PATH. -/
structure PathF where
  o : BitVec 2
  u : Bool
  n : BitVec 10
  a : BitVec 5
  e : Bool
  deriving DecidableEq, Repr

/-- Fields of SEG. -/
structure SegF where
  p : BitVec 3
  k : BitVec 2
  a : BitVec 6
  e : Bool
  deriving DecidableEq, Repr

/-- Fields of TBIND. -/
structure TbindF where
  i : BitVec 2
  a : BitVec 5
  w : BitVec 3
  s : BitVec 4
  e : Bool
  deriving DecidableEq, Repr

/-- Fields of CDEP. -/
structure CdepF where
  d : BitVec 5
  s : BitVec 4
  e : Bool
  deriving DecidableEq, Repr

/-- Fields of CSCAN, CLPUSH, CLPOP, CSPAN, TFLUSH. -/
structure SlotF where
  s : BitVec 4
  e : Bool
  deriving DecidableEq, Repr

/-- Fields of TBLEND. -/
structure TblendF where
  m : BitVec 2
  a : BitVec 6
  e : Bool
  deriving DecidableEq, Repr

/-- Fields of TLOAD. -/
structure TloadF where
  a : BitVec 5
  w : BitVec 3
  s : BitVec 4
  e : Bool
  deriving DecidableEq, Repr

/-- Fields of COVGET. -/
structure CovgetF where
  a : BitVec 6
  s : BitVec 4
  w : BitVec 2
  d : BitVec 6
  e : Bool
  deriving DecidableEq, Repr

/-- Fields of CGET. -/
structure CgetF where
  n : BitVec 12
  d : BitVec 5
  e : Bool
  deriving DecidableEq, Repr

/-- Fields of CPUT. -/
structure CputF where
  n : BitVec 12
  a : BitVec 5
  e : Bool
  deriving DecidableEq, Repr

/-- Fields of TLBINV. -/
structure TlbinvF where
  k : BitVec 3
  a : BitVec 5
  e : Bool
  deriving DecidableEq, Repr

/-- Which view a register write comes through (R307), or the firmware's own port. -/
inductive RegView where
  | unprivileged
  | privileged
  | firmware
  deriving DecidableEq, Repr

/-- A register named from outside the instruction set (R371, R372, R382). Front end 64 is the administration queue. -/
inductive RegName where
  | management (die number : Nat)
  | queue (fe q offset : Nat)
  | contextReg (asid number : Nat)
  deriving DecidableEq, Repr

/-- Where a machine check strikes (R364). -/
inductive CheckUnit where
  | core (c : Nat)
  | die (d : Nat)
  deriving DecidableEq, Repr

/-- A Page Request response (R320). -/
inductive PriResponse where
  | success
  | invalidRequest
  | responseFailure
  deriving DecidableEq, Repr

/-- A part of another module's `gather` or `scatter`, served here (R203, R377): the pod job, the element size,
the indexed window's base and limit, the element numbers in list order, and for a scatter the values with each element's first
place in the operation's output and the rounding sampled at issue (R158, R218). What the link carries is the model's (log entry
25). -/
structure RemotePart where
  tag     : Nat
  die     : Nat
  job     : Nat
  esize   : Nat
  base    : Nat
  limit   : Nat
  elems   : List Nat
  values  : Option (List (List Byte))
  firsts  : List Nat
  rm      : BitVec 3
  seed    : BitVec 64
  lidx    : Nat
  count   : Nat
  deriving DecidableEq, Repr

/-- An arrival at a pod barrier as its message brings it: the barrier's number and the E of the group that arrived (R108, R210,
R377). -/
structure BarArrival where
  number : Nat
  epoch  : Nat
  deriving DecidableEq, Repr

/-- One constructor per row of the opcode table. -/
inductive Instr where
  | mov (f : H16)
  | add_16 (f : H16)
  | sub_16 (f : H16)
  | mul_16 (f : H16)
  | and_16 (f : H16)
  | or_16 (f : H16)
  | xor_16 (f : H16)
  | shl_16 (f : H16)
  | shr_16 (f : H16)
  | fadd_16 (f : H16)
  | fsub_16 (f : H16)
  | fmul_16 (f : H16)
  | fmin_16 (f : H16)
  | fmax_16 (f : H16)
  | ffmb (f : H16)
  | fadd2F16_16 (f : H16)
  | nop_16
  | add (f : T3)
  | sub (f : T3)
  | mul (f : T3)
  | mulhS (f : T3)
  | mulhN (f : T3)
  | minS (f : T3)
  | minN (f : T3)
  | maxS (f : T3)
  | maxN (f : T3)
  | and (f : T3)
  | or (f : T3)
  | xor (f : T3)
  | andn (f : T3)
  | shl (f : T3)
  | shr (f : T3)
  | sar (f : T3)
  | rotl (f : T3)
  | bfeS (f : T3)
  | bfeN (f : T3)
  | abs (f : T2)
  | neg (f : T2)
  | clz (f : T2)
  | popc (f : T2)
  | brev (f : T2)
  | cmp (f : CmpF)
  | fadd (f : T3)
  | fsub (f : T3)
  | fmul (f : T3)
  | fmin (f : T3)
  | fmax (f : T3)
  | fdiv (f : T3)
  | fsqrt (f : T2)
  | frcp (f : T2)
  | frsq (f : T2)
  | fexp2 (f : T2)
  | flog2 (f : T2)
  | fsin (f : T2)
  | fcos (f : T2)
  | frnd (f : T2)
  | fcmp (f : CmpF)
  | fclass (f : T2)
  | cvt (f : CvtF)
  | fadd2F16 (f : T3)
  | fmul2F16 (f : T3)
  | fadd2Bf16 (f : T3)
  | fmul2Bf16 (f : T3)
  | scan (f : ScanF)
  | sscan (f : SscanF)
  | prev (f : T3)
  | next (f : T3)
  | bcast (f : T3)
  | perm (f : T3)
  | rdx (f : RdxF)
  | vote (f : VoteF)
  | rank (f : T2)
  | ffma (f : Q4)
  | mad (f : Q4)
  | ffma2F16 (f : Q4)
  | ffma2Bf16 (f : Q4)
  | fdot2F16 (f : Q4)
  | dp4S8 (f : Q4)
  | dp4N8 (f : Q4)
  | sel (f : SelF)
  | bfi (f : Q4)
  | shf (f : Q4)
  | mulwS (f : Q4)
  | mulwN (f : Q4)
  | addi (f : LaneImm)
  | muli (f : LaneImm)
  | andi (f : LaneImm)
  | ori (f : LaneImm)
  | xori (f : LaneImm)
  | shli (f : LaneSh)
  | shri (f : LaneSh)
  | sari (f : LaneSh)
  | cmpi (f : CmpImm)
  | movi (f : LaneMov)
  | movhi (f : LaneMov)
  | gadd (f : UniF)
  | gsub (f : UniF)
  | gmul (f : UniF)
  | gand (f : UniF)
  | gor (f : UniF)
  | gxor (f : UniF)
  | gshl (f : UniF)
  | gshr (f : UniF)
  | gmin (f : UniF)
  | gmax (f : UniF)
  | gcmp (f : UniCmp)
  | gmovi (f : UniMov17)
  | gmovhi (f : UniMov16)
  | gtake (f : TakeF)
  | gput (f : PutF)
  | gballot (f : BallotF)
  | ld (f : LaneMem)
  | st (f : LaneMem)
  | ldi (f : LaneMemImm)
  | sti (f : LaneMemImm)
  | atom (f : AtomF)
  | red (f : AtomF)
  | lda (f : LdaF)
  | sta (f : StaF)
  | gld (f : UniMem)
  | gst (f : UniMem)
  | wopen (f : WopenF)
  | bld (f : BenchF)
  | bst (f : BenchF)
  | batom (f : BatomF)
  | fence (f : FenceF)
  | cache (f : CacheF)
  | br (f : BrF)
  | jmp (f : JmpF)
  | join (f : JmpF)
  | meet (f : JmpF)
  | brx (f : RegF)
  | call (f : JmpF)
  | calli (f : RegF)
  | ret (f : PlainF)
  | switch (f : SwitchF)
  | exit (f : ExitF)
  | nop (f : PlainF)
  | yield (f : PlainF)
  | wait (f : WaitF)
  | mark (f : MarkF)
  | tfence (f : PlainF)
  | tcall (f : TcallF)
  | brk (f : BrkF)
  | spawn (f : SpawnF)
  | launch (f : LaunchF)
  | bar (f : BarF)
  | xpand (f : XpandF)
  | xnext (f : XnextF)
  | sred (f : SredF)
  | xend (f : XendF)
  | copy (f : CopyF)
  | gather (f : GatherF)
  | scatter (f : GatherF)
  | cwait (f : CwaitF)
  | cpoll (f : CpollF)
  | carm (f : CwaitF)
  | mma (f : MmaF)
  | mmat (f : MmatF)
  | mlut (f : MlutF)
  | msp (f : MmatF)
  | mzero (f : MzeroF)
  | mdrainReg (f : MdrainRegF)
  | mdrainMem (f : MdrainMemF)
  | mload (f : MloadF)
  | path (f : PathF)
  | seg (f : SegF)
  | pend (f : PlainF)
  | tbind (f : TbindF)
  | cdep (f : CdepF)
  | cscan (f : SlotF)
  | clpush (f : SlotF)
  | clpop (f : SlotF)
  | cspan (f : SlotF)
  | tblend (f : TblendF)
  | tload (f : TloadF)
  | tflush (f : SlotF)
  | covget (f : CovgetF)
  | cget (f : CgetF)
  | cput (f : CputF)
  | rte (f : PlainF)
  | tlbinv (f : TlbinvF)
  | park (f : PlainF)
  | launchCommand (fe : Nat) (q : Nat)
  | copyCommand (fe : Nat) (q : Nat)
  | signal (fe : Nat) (q : Nat)
  | waitCommand (fe : Nat) (q : Nat)
  | fenceCommand (fe : Nat) (q : Nat)
  | contextCreate
  | contextWrite
  | contextDestroy
  | answerRetry
  | answerDeliver
  | answerRefuse
  | answerStop
  | preemptSoft
  | preemptHard
  | resume
  | partset
  | fwload
  | qtailWrite (fe : Nat) (q : Nat) (value : Nat)
  | queueEnable (fe : Nat) (q : Nat)
  | queueDisable (fe : Nat) (q : Nat)
  | fbtailWrite (asid : Nat) (value : Nat)
  | warmReset (die : Nat)
  | benchszWrite (core : Nat) (value : Nat)
  | amaskWrite (value : Nat)
  | registerWrite (view : RegView) (r : RegName) (value : Nat)
  | coldReset
  | packingTimerExpiry (asid : Nat) (core : Nat) (entry : Nat) (grid : Nat)
  | packedGroupAdmit (asid : Nat) (core : Nat)
  | blockPlace (fe : Nat)
  | laneSelect (core : Nat) (lane : Nat)
  | stintBreak (core : Nat) (lane : Nat)
  | parkFill (core : Nat)
  | idlePark (core : Nat) (gid : Nat)
  | rotation (core : Nat)
  | parkMoveComplete (core : Nat)
  | waitWake (gid : Nat)
  | waitTimeout (gid : Nat)
  | loadDataArrival (gid : Nat)
  | enginePageFault (op : Nat)
  | engineFailure (op : Nat)
  | engineOpComplete (op : Nat)
  | matrixStepDone (core : Nat)
  | matrixInstrDone (core : Nat)
  | accumulatorSwap (core : Nat)
  | tileStoreSwap (core : Nat) (asid : Nat)
  | scribeDone (gid : Nat)
  | depositDone (gid : Nat)
  | blendApply (asid : Nat) (core : Nat) (slot : Nat) (cell : Nat)
  | contributionApply (asid : Nat) (core : Nat) (slot : Nat)
  | quantumEnd (gid : Nat)
  | commitApply (asid : Nat)
  | l1WritebackTimeout (core : Nat) (sector : Nat)
  | l1CleanDropTimeout (core : Nat) (sector : Nat)
  | rdcDropTimeout (die : Nat) (line : Nat)
  | tlbinvDone (gid : Nat)
  | preemptDeadline (asid : Nat)
  | bboxMirror (die : Nat)
  | powerSample (die : Nat) (watts : Nat)
  | thermalGate (die : Nat) (tj : Nat)
  | thermalTrip (die : Nat) (tj : Nat)
  | thermalRecover (die : Nat) (tj : Nat)
  | machineCheck (unit : CheckUnit) (syndrome : Nat)
  | coreFence (core : Nat)
  | dramRowSparing (die : Nat) (channel : Nat)
  | laneDrop (die : Nat) (link : Nat)
  | recalibration (die : Nat) (unit : Nat)
  | dirtyLineError (line : Nat)
  | firmwareSwitch (die : Nat)
  | atsInvalidate (pasid : Nat) (page : Nat) (pages : Nat)
  | atsTranslationCompletion (pasid : Nat) (page : Nat) (readable : Bool) (writable : Bool) (target : Nat)
  | priResponse (request : Nat) (response : PriResponse)
  | attestationRequest (partition : Nat) (nonce : Nat)
  | ideKeyProgram (stream : Nat) (key : Nat)
  | tdispLock (partition : Nat)
  | tdispStart (partition : Nat)
  | tdispStop (partition : Nat)
  | queueWaitPoll (fe : Nat) (q : Nat)
  | queueSwitch (fe : Nat) (q : Nat)
  | dieReady (die : Nat)
  | remoteGatherPart (part : RemotePart)
  | podBarrierArrival (job : Nat) (a : BarArrival)
  deriving DecidableEq, Repr

end Sys2Proof
end

