-- ==== Sys2Proof/Decode.lean ====
section
/-!
DEFINITION. The decoder, the encoder and what the encoding tables ask of each instruction's fields.

`decode` is total on bytes. A word that is no row of the opcode map is rejected with its ILLOP cause (R51): cause 1,
an opcode its class does not assign, or cause 2, a fixed field with another value. Selector fields stay in the
instruction as they stand in the word; `Instr.needs` says what R51 asks of them, of the operand codes and of the
registers, in one place.
-/

namespace Sys2Proof

/-- The field of `n` bits that begins at bit `lo` of a word. -/
def fieldAt (w lo n : Nat) : BitVec n := BitVec.ofNat n (w / 2 ^ lo)

/-- A single bit of a word. -/
def flagAt (w lo : Nat) : Bool := w / 2 ^ lo % 2 == 1

/-- The value `n` bits at `lo` hold. -/
def bitsAt (w lo n : Nat) : Nat := w / 2 ^ lo % 2 ^ n

/-- A one-bit field as a number. -/
def bit (b : Bool) : Nat := if b then 1 else 0

/-- Why the decoder rejects a word (R48, R51), or that too few bytes stand there. -/
inductive Reject where
  | unassigned
  | reservedField
  | tooShort
  deriving DecidableEq, Repr

/-- The ILLOP cause of a rejected word (R51). -/
def Reject.cause : Reject → Nat
  | .unassigned => 1
  | .reservedField => 2
  | .tooShort => 1

/-- `H16` from its word. -/
def H16.read (w : Nat) : H16 :=
  { s := fieldAt w 10 6, d := fieldAt w 5 5 }

/-- The bits the fields of `H16` take in the word. -/
def H16.bits (f : H16) : Nat :=
  f.s.toNat * 1024 + f.d.toNat * 32

/-- `T3` from its word. -/
def T3.read (w : Nat) : T3 :=
  { w := flagAt w 31, g := fieldAt w 28 3, b := fieldAt w 22 6, a := fieldAt w 16 6, d := fieldAt w 10 6, e := flagAt w 1 }

/-- The bits the fields of `T3` take in the word. -/
def T3.bits (f : T3) : Nat :=
  bit f.w * 2147483648 + f.g.toNat * 268435456 + f.b.toNat * 4194304 + f.a.toNat * 65536 + f.d.toNat * 1024 + bit f.e * 2

/-- `T2` from its word. -/
def T2.read (w : Nat) : T2 :=
  { w := flagAt w 31, g := fieldAt w 28 3, a := fieldAt w 16 6, d := fieldAt w 10 6, e := flagAt w 1 }

/-- The bits the fields of `T2` take in the word. -/
def T2.bits (f : T2) : Nat :=
  bit f.w * 2147483648 + f.g.toNat * 268435456 + f.a.toNat * 65536 + f.d.toNat * 1024 + bit f.e * 2

/-- `CmpF` from its word. -/
def CmpF.read (w : Nat) : CmpF :=
  { g := fieldAt w 28 3, b := fieldAt w 22 6, a := fieldAt w 16 6, c := fieldAt w 13 3, p := fieldAt w 10 3, e := flagAt w 1 }

/-- The bits the fields of `CmpF` take in the word. -/
def CmpF.bits (f : CmpF) : Nat :=
  f.g.toNat * 268435456 + f.b.toNat * 4194304 + f.a.toNat * 65536 + f.c.toNat * 8192 + f.p.toNat * 1024 + bit f.e * 2

/-- `CvtF` from its word. -/
def CvtF.read (w : Nat) : CvtF :=
  { w := flagAt w 31, g := fieldAt w 28 3, s := fieldAt w 25 3, t := fieldAt w 22 3, a := fieldAt w 16 6, d := fieldAt w 10 6, e := flagAt w 1 }

/-- The bits the fields of `CvtF` take in the word. -/
def CvtF.bits (f : CvtF) : Nat :=
  bit f.w * 2147483648 + f.g.toNat * 268435456 + f.s.toNat * 33554432 + f.t.toNat * 4194304 + f.a.toNat * 65536 + f.d.toNat * 1024 + bit f.e * 2

/-- `ScanF` from its word. -/
def ScanF.read (w : Nat) : ScanF :=
  { w := flagAt w 31, g := fieldAt w 28 3, x := flagAt w 26, o := fieldAt w 22 4, a := fieldAt w 16 6, d := fieldAt w 10 6, e := flagAt w 1 }

/-- The bits the fields of `ScanF` take in the word. -/
def ScanF.bits (f : ScanF) : Nat :=
  bit f.w * 2147483648 + f.g.toNat * 268435456 + bit f.x * 67108864 + f.o.toNat * 4194304 + f.a.toNat * 65536 + f.d.toNat * 1024 + bit f.e * 2

/-- `SscanF` from its word. -/
def SscanF.read (w : Nat) : SscanF :=
  { w := flagAt w 31, g := fieldAt w 28 3, p := fieldAt w 25 3, o := fieldAt w 22 3, a := fieldAt w 16 6, d := fieldAt w 10 6, e := flagAt w 1 }

/-- The bits the fields of `SscanF` take in the word. -/
def SscanF.bits (f : SscanF) : Nat :=
  bit f.w * 2147483648 + f.g.toNat * 268435456 + f.p.toNat * 33554432 + f.o.toNat * 4194304 + f.a.toNat * 65536 + f.d.toNat * 1024 + bit f.e * 2

/-- `RdxF` from its word. -/
def RdxF.read (w : Nat) : RdxF :=
  { w := flagAt w 31, g := fieldAt w 28 3, o := fieldAt w 22 4, a := fieldAt w 16 6, d := fieldAt w 10 6, e := flagAt w 1 }

/-- The bits the fields of `RdxF` take in the word. -/
def RdxF.bits (f : RdxF) : Nat :=
  bit f.w * 2147483648 + f.g.toNat * 268435456 + f.o.toNat * 4194304 + f.a.toNat * 65536 + f.d.toNat * 1024 + bit f.e * 2

/-- `VoteF` from its word. -/
def VoteF.read (w : Nat) : VoteF :=
  { w := flagAt w 31, g := fieldAt w 28 3, m := fieldAt w 22 6, a := fieldAt w 16 6, d := fieldAt w 10 6, e := flagAt w 1 }

/-- The bits the fields of `VoteF` take in the word. -/
def VoteF.bits (f : VoteF) : Nat :=
  bit f.w * 2147483648 + f.g.toNat * 268435456 + f.m.toNat * 4194304 + f.a.toNat * 65536 + f.d.toNat * 1024 + bit f.e * 2

/-- `Q4` from its word. -/
def Q4.read (w : Nat) : Q4 :=
  { c := fieldAt w 26 6, b := fieldAt w 20 6, a := fieldAt w 14 6, d := fieldAt w 8 6, e := flagAt w 1 }

/-- The bits the fields of `Q4` take in the word. -/
def Q4.bits (f : Q4) : Nat :=
  f.c.toNat * 67108864 + f.b.toNat * 1048576 + f.a.toNat * 16384 + f.d.toNat * 256 + bit f.e * 2

/-- `SelF` from its word. -/
def SelF.read (w : Nat) : SelF :=
  { p := fieldAt w 26 6, b := fieldAt w 20 6, a := fieldAt w 14 6, d := fieldAt w 8 6, e := flagAt w 1 }

/-- The bits the fields of `SelF` take in the word. -/
def SelF.bits (f : SelF) : Nat :=
  f.p.toNat * 67108864 + f.b.toNat * 1048576 + f.a.toNat * 16384 + f.d.toNat * 256 + bit f.e * 2

/-- `LaneImm` from its word. -/
def LaneImm.read (w : Nat) : LaneImm :=
  { i := fieldAt w 22 10, a := fieldAt w 16 6, d := fieldAt w 10 6, e := flagAt w 1 }

/-- The bits the fields of `LaneImm` take in the word. -/
def LaneImm.bits (f : LaneImm) : Nat :=
  f.i.toNat * 4194304 + f.a.toNat * 65536 + f.d.toNat * 1024 + bit f.e * 2

/-- `LaneSh` from its word. -/
def LaneSh.read (w : Nat) : LaneSh :=
  { n := fieldAt w 22 5, a := fieldAt w 16 6, d := fieldAt w 10 6, e := flagAt w 1 }

/-- The bits the fields of `LaneSh` take in the word. -/
def LaneSh.bits (f : LaneSh) : Nat :=
  f.n.toNat * 4194304 + f.a.toNat * 65536 + f.d.toNat * 1024 + bit f.e * 2

/-- `CmpImm` from its word. -/
def CmpImm.read (w : Nat) : CmpImm :=
  { i := fieldAt w 22 10, a := fieldAt w 16 6, c := fieldAt w 13 3, p := fieldAt w 10 3, e := flagAt w 1 }

/-- The bits the fields of `CmpImm` take in the word. -/
def CmpImm.bits (f : CmpImm) : Nat :=
  f.i.toNat * 4194304 + f.a.toNat * 65536 + f.c.toNat * 8192 + f.p.toNat * 1024 + bit f.e * 2

/-- `LaneMov` from its word. -/
def LaneMov.read (w : Nat) : LaneMov :=
  { i := fieldAt w 16 16, d := fieldAt w 10 6, e := flagAt w 1 }

/-- The bits the fields of `LaneMov` take in the word. -/
def LaneMov.bits (f : LaneMov) : Nat :=
  f.i.toNat * 65536 + f.d.toNat * 1024 + bit f.e * 2

/-- `UniF` from its word. -/
def UniF.read (w : Nat) : UniF :=
  { i := fieldAt w 25 7, b := fieldAt w 20 5, a := fieldAt w 15 5, d := fieldAt w 10 5, e := flagAt w 1 }

/-- The bits the fields of `UniF` take in the word. -/
def UniF.bits (f : UniF) : Nat :=
  f.i.toNat * 33554432 + f.b.toNat * 1048576 + f.a.toNat * 32768 + f.d.toNat * 1024 + bit f.e * 2

/-- `UniCmp` from its word. -/
def UniCmp.read (w : Nat) : UniCmp :=
  { c := fieldAt w 25 3, b := fieldAt w 20 5, a := fieldAt w 15 5, d := fieldAt w 10 5, e := flagAt w 1 }

/-- The bits the fields of `UniCmp` take in the word. -/
def UniCmp.bits (f : UniCmp) : Nat :=
  f.c.toNat * 33554432 + f.b.toNat * 1048576 + f.a.toNat * 32768 + f.d.toNat * 1024 + bit f.e * 2

/-- `UniMov17` from its word. -/
def UniMov17.read (w : Nat) : UniMov17 :=
  { i := fieldAt w 15 17, d := fieldAt w 10 5, e := flagAt w 1 }

/-- The bits the fields of `UniMov17` take in the word. -/
def UniMov17.bits (f : UniMov17) : Nat :=
  f.i.toNat * 32768 + f.d.toNat * 1024 + bit f.e * 2

/-- `UniMov16` from its word. -/
def UniMov16.read (w : Nat) : UniMov16 :=
  { i := fieldAt w 16 16, d := fieldAt w 10 5, e := flagAt w 1 }

/-- The bits the fields of `UniMov16` take in the word. -/
def UniMov16.bits (f : UniMov16) : Nat :=
  f.i.toNat * 65536 + f.d.toNat * 1024 + bit f.e * 2

/-- `TakeF` from its word. -/
def TakeF.read (w : Nat) : TakeF :=
  { f := flagAt w 26, t := fieldAt w 21 5, a := fieldAt w 15 6, d := fieldAt w 10 5, e := flagAt w 1 }

/-- The bits the fields of `TakeF` take in the word. -/
def TakeF.bits (f : TakeF) : Nat :=
  bit f.f * 67108864 + f.t.toNat * 2097152 + f.a.toNat * 32768 + f.d.toNat * 1024 + bit f.e * 2

/-- `PutF` from its word. -/
def PutF.read (w : Nat) : PutF :=
  { a := fieldAt w 16 5, d := fieldAt w 10 6, e := flagAt w 1 }

/-- The bits the fields of `PutF` take in the word. -/
def PutF.bits (f : PutF) : Nat :=
  f.a.toNat * 65536 + f.d.toNat * 1024 + bit f.e * 2

/-- `BallotF` from its word. -/
def BallotF.read (w : Nat) : BallotF :=
  { p := fieldAt w 15 3, d := fieldAt w 10 5, e := flagAt w 1 }

/-- The bits the fields of `BallotF` take in the word. -/
def BallotF.bits (f : BallotF) : Nat :=
  f.p.toNat * 32768 + f.d.toNat * 1024 + bit f.e * 2

/-- `LaneMem` from its word. -/
def LaneMem.read (w : Nat) : LaneMem :=
  { s := fieldAt w 29 3, o := flagAt w 28, z := fieldAt w 25 3, w := fieldAt w 22 3, a := fieldAt w 16 6, d := fieldAt w 10 6, e := flagAt w 1 }

/-- The bits the fields of `LaneMem` take in the word. -/
def LaneMem.bits (f : LaneMem) : Nat :=
  f.s.toNat * 536870912 + bit f.o * 268435456 + f.z.toNat * 33554432 + f.w.toNat * 4194304 + f.a.toNat * 65536 + f.d.toNat * 1024 + bit f.e * 2

/-- `LaneMemImm` from its word. -/
def LaneMemImm.read (w : Nat) : LaneMemImm :=
  { i := fieldAt w 22 10, z := fieldAt w 19 3, w := fieldAt w 16 3, d := fieldAt w 10 6, e := flagAt w 1 }

/-- The bits the fields of `LaneMemImm` take in the word. -/
def LaneMemImm.bits (f : LaneMemImm) : Nat :=
  f.i.toNat * 4194304 + f.z.toNat * 524288 + f.w.toNat * 65536 + f.d.toNat * 1024 + bit f.e * 2

/-- `AtomF` from its word. -/
def AtomF.read (w : Nat) : AtomF :=
  { s := fieldAt w 29 3, o := fieldAt w 25 4, w := fieldAt w 22 3, a := fieldAt w 16 6, d := fieldAt w 10 6, e := flagAt w 1 }

/-- The bits the fields of `AtomF` take in the word. -/
def AtomF.bits (f : AtomF) : Nat :=
  f.s.toNat * 536870912 + f.o.toNat * 33554432 + f.w.toNat * 4194304 + f.a.toNat * 65536 + f.d.toNat * 1024 + bit f.e * 2

/-- `LdaF` from its word. -/
def LdaF.read (w : Nat) : LdaF :=
  { r := flagAt w 28, z := fieldAt w 25 3, w := fieldAt w 22 3, a := fieldAt w 16 6, d := fieldAt w 10 6, e := flagAt w 1 }

/-- The bits the fields of `LdaF` take in the word. -/
def LdaF.bits (f : LdaF) : Nat :=
  bit f.r * 268435456 + f.z.toNat * 33554432 + f.w.toNat * 4194304 + f.a.toNat * 65536 + f.d.toNat * 1024 + bit f.e * 2

/-- `StaF` from its word. -/
def StaF.read (w : Nat) : StaF :=
  { z := fieldAt w 25 3, w := fieldAt w 22 3, a := fieldAt w 16 6, d := fieldAt w 10 6, e := flagAt w 1 }

/-- The bits the fields of `StaF` take in the word. -/
def StaF.bits (f : StaF) : Nat :=
  f.z.toNat * 33554432 + f.w.toNat * 4194304 + f.a.toNat * 65536 + f.d.toNat * 1024 + bit f.e * 2

/-- `UniMem` from its word. -/
def UniMem.read (w : Nat) : UniMem :=
  { s := fieldAt w 27 3, o := flagAt w 26, z := fieldAt w 23 3, w := fieldAt w 20 3, a := fieldAt w 15 5, d := fieldAt w 10 5, e := flagAt w 1 }

/-- The bits the fields of `UniMem` take in the word. -/
def UniMem.bits (f : UniMem) : Nat :=
  f.s.toNat * 134217728 + bit f.o * 67108864 + f.z.toNat * 8388608 + f.w.toNat * 1048576 + f.a.toNat * 32768 + f.d.toNat * 1024 + bit f.e * 2

/-- `WopenF` from its word. -/
def WopenF.read (w : Nat) : WopenF :=
  { n := flagAt w 25, x := flagAt w 24, r := flagAt w 23, b := fieldAt w 18 5, a := fieldAt w 13 5, w := fieldAt w 10 3, e := flagAt w 1 }

/-- The bits the fields of `WopenF` take in the word. -/
def WopenF.bits (f : WopenF) : Nat :=
  bit f.n * 33554432 + bit f.x * 16777216 + bit f.r * 8388608 + f.b.toNat * 262144 + f.a.toNat * 8192 + f.w.toNat * 1024 + bit f.e * 2

/-- `BenchF` from its word. -/
def BenchF.read (w : Nat) : BenchF :=
  { z := fieldAt w 25 3, a := fieldAt w 16 6, d := fieldAt w 10 6, e := flagAt w 1 }

/-- The bits the fields of `BenchF` take in the word. -/
def BenchF.bits (f : BenchF) : Nat :=
  f.z.toNat * 33554432 + f.a.toNat * 65536 + f.d.toNat * 1024 + bit f.e * 2

/-- `BatomF` from its word. -/
def BatomF.read (w : Nat) : BatomF :=
  { o := fieldAt w 25 4, a := fieldAt w 16 6, d := fieldAt w 10 6, e := flagAt w 1 }

/-- The bits the fields of `BatomF` take in the word. -/
def BatomF.bits (f : BatomF) : Nat :=
  f.o.toNat * 33554432 + f.a.toNat * 65536 + f.d.toNat * 1024 + bit f.e * 2

/-- `FenceF` from its word. -/
def FenceF.read (w : Nat) : FenceF :=
  { s := fieldAt w 12 3, k := fieldAt w 10 2, e := flagAt w 1 }

/-- The bits the fields of `FenceF` take in the word. -/
def FenceF.bits (f : FenceF) : Nat :=
  f.s.toNat * 4096 + f.k.toNat * 1024 + bit f.e * 2

/-- `CacheF` from its word. -/
def CacheF.read (w : Nat) : CacheF :=
  { o := fieldAt w 23 4, b := fieldAt w 18 5, a := fieldAt w 13 5, w := fieldAt w 10 3, e := flagAt w 1 }

/-- The bits the fields of `CacheF` take in the word. -/
def CacheF.bits (f : CacheF) : Nat :=
  f.o.toNat * 8388608 + f.b.toNat * 262144 + f.a.toNat * 8192 + f.w.toNat * 1024 + bit f.e * 2

/-- `BrF` from its word. -/
def BrF.read (w : Nat) : BrF :=
  { f := fieldAt w 13 19, g := fieldAt w 10 3, e := flagAt w 1 }

/-- The bits the fields of `BrF` take in the word. -/
def BrF.bits (f : BrF) : Nat :=
  f.f.toNat * 8192 + f.g.toNat * 1024 + bit f.e * 2

/-- `JmpF` from its word. -/
def JmpF.read (w : Nat) : JmpF :=
  { f := fieldAt w 10 22, e := flagAt w 1 }

/-- The bits the fields of `JmpF` take in the word. -/
def JmpF.bits (f : JmpF) : Nat :=
  f.f.toNat * 1024 + bit f.e * 2

/-- `RegF` from its word. -/
def RegF.read (w : Nat) : RegF :=
  { a := fieldAt w 10 5, e := flagAt w 1 }

/-- The bits the fields of `RegF` take in the word. -/
def RegF.bits (f : RegF) : Nat :=
  f.a.toNat * 1024 + bit f.e * 2

/-- `PlainF` from its word. -/
def PlainF.read (w : Nat) : PlainF :=
  { e := flagAt w 1 }

/-- The bits the fields of `PlainF` take in the word. -/
def PlainF.bits (f : PlainF) : Nat :=
  bit f.e * 2

/-- `SwitchF` from its word. -/
def SwitchF.read (w : Nat) : SwitchF :=
  { f := fieldAt w 16 16, a := fieldAt w 10 6, e := flagAt w 1 }

/-- The bits the fields of `SwitchF` take in the word. -/
def SwitchF.bits (f : SwitchF) : Nat :=
  f.f.toNat * 65536 + f.a.toNat * 1024 + bit f.e * 2

/-- `ExitF` from its word. -/
def ExitF.read (w : Nat) : ExitF :=
  { g := fieldAt w 10 3, e := flagAt w 1 }

/-- The bits the fields of `ExitF` take in the word. -/
def ExitF.bits (f : ExitF) : Nat :=
  f.g.toNat * 1024 + bit f.e * 2

/-- `WaitF` from its word. -/
def WaitF.read (w : Nat) : WaitF :=
  { s := fieldAt w 26 3, z := fieldAt w 23 3, b := fieldAt w 18 5, a := fieldAt w 13 5, w := fieldAt w 10 3, e := flagAt w 1 }

/-- The bits the fields of `WaitF` take in the word. -/
def WaitF.bits (f : WaitF) : Nat :=
  f.s.toNat * 67108864 + f.z.toNat * 8388608 + f.b.toNat * 262144 + f.a.toNat * 8192 + f.w.toNat * 1024 + bit f.e * 2

/-- `MarkF` from its word. -/
def MarkF.read (w : Nat) : MarkF :=
  { c := fieldAt w 21 11, l := fieldAt w 10 11, e := flagAt w 1 }

/-- The bits the fields of `MarkF` take in the word. -/
def MarkF.bits (f : MarkF) : Nat :=
  f.c.toNat * 2097152 + f.l.toNat * 1024 + bit f.e * 2

/-- `TcallF` from its word. -/
def TcallF.read (w : Nat) : TcallF :=
  { n := fieldAt w 10 8, e := flagAt w 1 }

/-- The bits the fields of `TcallF` take in the word. -/
def TcallF.bits (f : TcallF) : Nat :=
  f.n.toNat * 1024 + bit f.e * 2

/-- `BrkF` from its word. -/
def BrkF.read (w : Nat) : BrkF :=
  { c := fieldAt w 10 16, e := flagAt w 1 }

/-- The bits the fields of `BrkF` take in the word. -/
def BrkF.bits (f : BrkF) : Nat :=
  f.c.toNat * 1024 + bit f.e * 2

/-- `SpawnF` from its word. -/
def SpawnF.read (w : Nat) : SpawnF :=
  { a := fieldAt w 24 6, p := fieldAt w 21 3, t := flagAt w 20, n := fieldAt w 10 10, e := flagAt w 1 }

/-- The bits the fields of `SpawnF` take in the word. -/
def SpawnF.bits (f : SpawnF) : Nat :=
  f.a.toNat * 16777216 + f.p.toNat * 2097152 + bit f.t * 1048576 + f.n.toNat * 1024 + bit f.e * 2

/-- `LaunchF` from its word. -/
def LaunchF.read (w : Nat) : LaunchF :=
  { w := fieldAt w 15 3, a := fieldAt w 10 5, e := flagAt w 1 }

/-- The bits the fields of `LaunchF` take in the word. -/
def LaunchF.bits (f : LaunchF) : Nat :=
  f.w.toNat * 32768 + f.a.toNat * 1024 + bit f.e * 2

/-- `BarF` from its word. -/
def BarF.read (w : Nat) : BarF :=
  { x := flagAt w 18, s := fieldAt w 15 3, n := fieldAt w 10 5, e := flagAt w 1 }

/-- The bits the fields of `BarF` take in the word. -/
def BarF.bits (f : BarF) : Nat :=
  bit f.x * 262144 + f.s.toNat * 32768 + f.n.toNat * 1024 + bit f.e * 2

/-- `XpandF` from its word. -/
def XpandF.read (w : Nat) : XpandF :=
  { o := fieldAt w 24 4, z := fieldAt w 22 2, b := fieldAt w 16 6, a := fieldAt w 10 6, e := flagAt w 1 }

/-- The bits the fields of `XpandF` take in the word. -/
def XpandF.bits (f : XpandF) : Nat :=
  f.o.toNat * 16777216 + f.z.toNat * 4194304 + f.b.toNat * 65536 + f.a.toNat * 1024 + bit f.e * 2

/-- `XnextF` from its word. -/
def XnextF.read (w : Nat) : XnextF :=
  { p := fieldAt w 16 3, d := fieldAt w 10 6, e := flagAt w 1 }

/-- The bits the fields of `XnextF` take in the word. -/
def XnextF.bits (f : XnextF) : Nat :=
  f.p.toNat * 65536 + f.d.toNat * 1024 + bit f.e * 2

/-- `SredF` from its word. -/
def SredF.read (w : Nat) : SredF :=
  { a := fieldAt w 10 6, e := flagAt w 1 }

/-- The bits the fields of `SredF` take in the word. -/
def SredF.bits (f : SredF) : Nat :=
  f.a.toNat * 1024 + bit f.e * 2

/-- `XendF` from its word. -/
def XendF.read (w : Nat) : XendF :=
  { d := fieldAt w 10 6, e := flagAt w 1 }

/-- The bits the fields of `XendF` take in the word. -/
def XendF.bits (f : XendF) : Nat :=
  f.d.toNat * 1024 + bit f.e * 2

/-- `CopyF` from its word. -/
def CopyF.read (w : Nat) : CopyF :=
  { k := fieldAt w 21 6, a := fieldAt w 16 5, s := fieldAt w 13 3, d := fieldAt w 10 3, e := flagAt w 1 }

/-- The bits the fields of `CopyF` take in the word. -/
def CopyF.bits (f : CopyF) : Nat :=
  f.k.toNat * 2097152 + f.a.toNat * 65536 + f.s.toNat * 8192 + f.d.toNat * 1024 + bit f.e * 2

/-- `GatherF` from its word. -/
def GatherF.read (w : Nat) : GatherF :=
  { z := fieldAt w 30 2, k := fieldAt w 24 6, a := fieldAt w 19 5, i := fieldAt w 16 3, s := fieldAt w 13 3, d := fieldAt w 10 3, e := flagAt w 1 }

/-- The bits the fields of `GatherF` take in the word. -/
def GatherF.bits (f : GatherF) : Nat :=
  f.z.toNat * 1073741824 + f.k.toNat * 16777216 + f.a.toNat * 524288 + f.i.toNat * 65536 + f.s.toNat * 8192 + f.d.toNat * 1024 + bit f.e * 2

/-- `CwaitF` from its word. -/
def CwaitF.read (w : Nat) : CwaitF :=
  { a := fieldAt w 16 5, k := fieldAt w 10 6, e := flagAt w 1 }

/-- The bits the fields of `CwaitF` take in the word. -/
def CwaitF.bits (f : CwaitF) : Nat :=
  f.a.toNat * 65536 + f.k.toNat * 1024 + bit f.e * 2

/-- `CpollF` from its word. -/
def CpollF.read (w : Nat) : CpollF :=
  { k := fieldAt w 15 6, d := fieldAt w 10 5, e := flagAt w 1 }

/-- The bits the fields of `CpollF` take in the word. -/
def CpollF.bits (f : CpollF) : Nat :=
  f.k.toNat * 32768 + f.d.toNat * 1024 + bit f.e * 2

/-- `MmaF` from its word. -/
def MmaF.read (w : Nat) : MmaF :=
  { t := fieldAt w 26 4, y := fieldAt w 24 2, h := fieldAt w 22 2, n := flagAt w 21, w := fieldAt w 18 3, a := fieldAt w 13 5, v := fieldAt w 10 3, e := flagAt w 1 }

/-- The bits the fields of `MmaF` take in the word. -/
def MmaF.bits (f : MmaF) : Nat :=
  f.t.toNat * 67108864 + f.y.toNat * 16777216 + f.h.toNat * 4194304 + bit f.n * 2097152 + f.w.toNat * 262144 + f.a.toNat * 8192 + f.v.toNat * 1024 + bit f.e * 2

/-- `MmatF` from its word. -/
def MmatF.read (w : Nat) : MmatF :=
  { y := fieldAt w 27 3, h := fieldAt w 25 2, a := fieldAt w 20 5, b := fieldAt w 17 3, c := fieldAt w 14 3, t := fieldAt w 10 4, e := flagAt w 1 }

/-- The bits the fields of `MmatF` take in the word. -/
def MmatF.bits (f : MmatF) : Nat :=
  f.y.toNat * 134217728 + f.h.toNat * 33554432 + f.a.toNat * 1048576 + f.b.toNat * 131072 + f.c.toNat * 16384 + f.t.toNat * 1024 + bit f.e * 2

/-- `MlutF` from its word. -/
def MlutF.read (w : Nat) : MlutF :=
  { h := fieldAt w 27 2, y := flagAt w 26, x := flagAt w 25, a := fieldAt w 20 5, b := fieldAt w 17 3, c := fieldAt w 14 3, t := fieldAt w 10 4, e := flagAt w 1 }

/-- The bits the fields of `MlutF` take in the word. -/
def MlutF.bits (f : MlutF) : Nat :=
  f.h.toNat * 134217728 + bit f.y * 67108864 + bit f.x * 33554432 + f.a.toNat * 1048576 + f.b.toNat * 131072 + f.c.toNat * 16384 + f.t.toNat * 1024 + bit f.e * 2

/-- `MzeroF` from its word. -/
def MzeroF.read (w : Nat) : MzeroF :=
  { q := flagAt w 14, t := fieldAt w 10 4, e := flagAt w 1 }

/-- The bits the fields of `MzeroF` take in the word. -/
def MzeroF.bits (f : MzeroF) : Nat :=
  bit f.q * 16384 + f.t.toNat * 1024 + bit f.e * 2

/-- `MdrainRegF` from its word. -/
def MdrainRegF.read (w : Nat) : MdrainRegF :=
  { r := flagAt w 28, y := fieldAt w 24 3, v := fieldAt w 16 6, t := fieldAt w 10 4, e := flagAt w 1 }

/-- The bits the fields of `MdrainRegF` take in the word. -/
def MdrainRegF.bits (f : MdrainRegF) : Nat :=
  bit f.r * 268435456 + f.y.toNat * 16777216 + f.v.toNat * 65536 + f.t.toNat * 1024 + bit f.e * 2

/-- `MdrainMemF` from its word. -/
def MdrainMemF.read (w : Nat) : MdrainMemF :=
  { s := fieldAt w 29 3, r := flagAt w 28, b := flagAt w 27, y := fieldAt w 24 3, a := fieldAt w 19 5, w := fieldAt w 16 3, q := flagAt w 14, t := fieldAt w 10 4, e := flagAt w 1 }

/-- The bits the fields of `MdrainMemF` take in the word. -/
def MdrainMemF.bits (f : MdrainMemF) : Nat :=
  f.s.toNat * 536870912 + bit f.r * 268435456 + bit f.b * 134217728 + f.y.toNat * 16777216 + f.a.toNat * 524288 + f.w.toNat * 65536 + bit f.q * 16384 + f.t.toNat * 1024 + bit f.e * 2

/-- `MloadF` from its word. -/
def MloadF.read (w : Nat) : MloadF :=
  { y := fieldAt w 23 3, a := fieldAt w 18 5, w := fieldAt w 15 3, q := flagAt w 14, t := fieldAt w 10 4, e := flagAt w 1 }

/-- The bits the fields of `MloadF` take in the word. -/
def MloadF.bits (f : MloadF) : Nat :=
  f.y.toNat * 8388608 + f.a.toNat * 262144 + f.w.toNat * 32768 + bit f.q * 16384 + f.t.toNat * 1024 + bit f.e * 2

/-- `PathF` from its word. -/
def PathF.read (w : Nat) : PathF :=
  { o := fieldAt w 26 2, u := flagAt w 25, n := fieldAt w 15 10, a := fieldAt w 10 5, e := flagAt w 1 }

/-- The bits the fields of `PathF` take in the word. -/
def PathF.bits (f : PathF) : Nat :=
  f.o.toNat * 67108864 + bit f.u * 33554432 + f.n.toNat * 32768 + f.a.toNat * 1024 + bit f.e * 2

/-- `SegF` from its word. -/
def SegF.read (w : Nat) : SegF :=
  { p := fieldAt w 18 3, k := fieldAt w 16 2, a := fieldAt w 10 6, e := flagAt w 1 }

/-- The bits the fields of `SegF` take in the word. -/
def SegF.bits (f : SegF) : Nat :=
  f.p.toNat * 262144 + f.k.toNat * 65536 + f.a.toNat * 1024 + bit f.e * 2

/-- `TbindF` from its word. -/
def TbindF.read (w : Nat) : TbindF :=
  { i := fieldAt w 22 2, a := fieldAt w 17 5, w := fieldAt w 14 3, s := fieldAt w 10 4, e := flagAt w 1 }

/-- The bits the fields of `TbindF` take in the word. -/
def TbindF.bits (f : TbindF) : Nat :=
  f.i.toNat * 4194304 + f.a.toNat * 131072 + f.w.toNat * 16384 + f.s.toNat * 1024 + bit f.e * 2

/-- `CdepF` from its word. -/
def CdepF.read (w : Nat) : CdepF :=
  { d := fieldAt w 14 5, s := fieldAt w 10 4, e := flagAt w 1 }

/-- The bits the fields of `CdepF` take in the word. -/
def CdepF.bits (f : CdepF) : Nat :=
  f.d.toNat * 16384 + f.s.toNat * 1024 + bit f.e * 2

/-- `SlotF` from its word. -/
def SlotF.read (w : Nat) : SlotF :=
  { s := fieldAt w 10 4, e := flagAt w 1 }

/-- The bits the fields of `SlotF` take in the word. -/
def SlotF.bits (f : SlotF) : Nat :=
  f.s.toNat * 1024 + bit f.e * 2

/-- `TblendF` from its word. -/
def TblendF.read (w : Nat) : TblendF :=
  { m := fieldAt w 16 2, a := fieldAt w 10 6, e := flagAt w 1 }

/-- The bits the fields of `TblendF` take in the word. -/
def TblendF.bits (f : TblendF) : Nat :=
  f.m.toNat * 65536 + f.a.toNat * 1024 + bit f.e * 2

/-- `TloadF` from its word. -/
def TloadF.read (w : Nat) : TloadF :=
  { a := fieldAt w 17 5, w := fieldAt w 14 3, s := fieldAt w 10 4, e := flagAt w 1 }

/-- The bits the fields of `TloadF` take in the word. -/
def TloadF.bits (f : TloadF) : Nat :=
  f.a.toNat * 131072 + f.w.toNat * 16384 + f.s.toNat * 1024 + bit f.e * 2

/-- `CovgetF` from its word. -/
def CovgetF.read (w : Nat) : CovgetF :=
  { a := fieldAt w 22 6, s := fieldAt w 18 4, w := fieldAt w 16 2, d := fieldAt w 10 6, e := flagAt w 1 }

/-- The bits the fields of `CovgetF` take in the word. -/
def CovgetF.bits (f : CovgetF) : Nat :=
  f.a.toNat * 4194304 + f.s.toNat * 262144 + f.w.toNat * 65536 + f.d.toNat * 1024 + bit f.e * 2

/-- `CgetF` from its word. -/
def CgetF.read (w : Nat) : CgetF :=
  { n := fieldAt w 15 12, d := fieldAt w 10 5, e := flagAt w 1 }

/-- The bits the fields of `CgetF` take in the word. -/
def CgetF.bits (f : CgetF) : Nat :=
  f.n.toNat * 32768 + f.d.toNat * 1024 + bit f.e * 2

/-- `CputF` from its word. -/
def CputF.read (w : Nat) : CputF :=
  { n := fieldAt w 15 12, a := fieldAt w 10 5, e := flagAt w 1 }

/-- The bits the fields of `CputF` take in the word. -/
def CputF.bits (f : CputF) : Nat :=
  f.n.toNat * 32768 + f.a.toNat * 1024 + bit f.e * 2

/-- `TlbinvF` from its word. -/
def TlbinvF.read (w : Nat) : TlbinvF :=
  { k := fieldAt w 15 3, a := fieldAt w 10 5, e := flagAt w 1 }

/-- The bits the fields of `TlbinvF` take in the word. -/
def TlbinvF.bits (f : TlbinvF) : Nat :=
  f.k.toNat * 32768 + f.a.toNat * 1024 + bit f.e * 2

/-- The sixteen 16-bit forms (R33); the halfword 0x0000 is the `nop` of R32. -/
def decode16 (w : Nat) : Except Reject Instr :=
  if w % 65536 == 0 then .ok .nop_16 else
  match bitsAt w 1 4 with
  | 0 => .ok (.mov (H16.read w))
  | 1 => .ok (.add_16 (H16.read w))
  | 2 => .ok (.sub_16 (H16.read w))
  | 3 => .ok (.mul_16 (H16.read w))
  | 4 => .ok (.and_16 (H16.read w))
  | 5 => .ok (.or_16 (H16.read w))
  | 6 => .ok (.xor_16 (H16.read w))
  | 7 => .ok (.shl_16 (H16.read w))
  | 8 => .ok (.shr_16 (H16.read w))
  | 9 => .ok (.fadd_16 (H16.read w))
  | 10 => .ok (.fsub_16 (H16.read w))
  | 11 => .ok (.fmul_16 (H16.read w))
  | 12 => .ok (.fmin_16 (H16.read w))
  | 13 => .ok (.fmax_16 (H16.read w))
  | 14 => .ok (.ffmb (H16.read w))
  | _ => .ok (.fadd2F16_16 (H16.read w))

/-- The rows of class 00 (R53). -/
def decodeClass0 (op w : Nat) : Except Reject Instr :=
  match op with
  | 0 => .ok (.add (T3.read w))
  | 1 => .ok (.sub (T3.read w))
  | 2 => .ok (.mul (T3.read w))
  | 3 => .ok (.mulhS (T3.read w))
  | 4 => .ok (.mulhN (T3.read w))
  | 5 => .ok (.minS (T3.read w))
  | 6 => .ok (.minN (T3.read w))
  | 7 => .ok (.maxS (T3.read w))
  | 8 => .ok (.maxN (T3.read w))
  | 9 => .ok (.and (T3.read w))
  | 10 => .ok (.or (T3.read w))
  | 11 => .ok (.xor (T3.read w))
  | 12 => .ok (.andn (T3.read w))
  | 13 => .ok (.shl (T3.read w))
  | 14 => .ok (.shr (T3.read w))
  | 15 => .ok (.sar (T3.read w))
  | 16 => .ok (.rotl (T3.read w))
  | 17 => .ok (.bfeS (T3.read w))
  | 18 => .ok (.bfeN (T3.read w))
  | 19 => if bitsAt w 22 6 == 60 then .ok (.abs (T2.read w)) else .error .reservedField
  | 20 => if bitsAt w 22 6 == 60 then .ok (.neg (T2.read w)) else .error .reservedField
  | 21 => if bitsAt w 22 6 == 60 then .ok (.clz (T2.read w)) else .error .reservedField
  | 22 => if bitsAt w 22 6 == 60 then .ok (.popc (T2.read w)) else .error .reservedField
  | 23 => if bitsAt w 22 6 == 60 then .ok (.brev (T2.read w)) else .error .reservedField
  | 24 => if bitsAt w 31 1 == 0 then .ok (.cmp (CmpF.read w)) else .error .reservedField
  | 25 => .ok (.fadd (T3.read w))
  | 26 => .ok (.fsub (T3.read w))
  | 27 => .ok (.fmul (T3.read w))
  | 28 => .ok (.fmin (T3.read w))
  | 29 => .ok (.fmax (T3.read w))
  | 30 => .ok (.fdiv (T3.read w))
  | 31 => if bitsAt w 22 6 == 60 then .ok (.fsqrt (T2.read w)) else .error .reservedField
  | 32 => if bitsAt w 22 6 == 60 then .ok (.frcp (T2.read w)) else .error .reservedField
  | 33 => if bitsAt w 22 6 == 60 then .ok (.frsq (T2.read w)) else .error .reservedField
  | 34 => if bitsAt w 22 6 == 60 then .ok (.fexp2 (T2.read w)) else .error .reservedField
  | 35 => if bitsAt w 22 6 == 60 then .ok (.flog2 (T2.read w)) else .error .reservedField
  | 36 => if bitsAt w 22 6 == 60 then .ok (.fsin (T2.read w)) else .error .reservedField
  | 37 => if bitsAt w 22 6 == 60 then .ok (.fcos (T2.read w)) else .error .reservedField
  | 38 => if bitsAt w 22 6 == 60 then .ok (.frnd (T2.read w)) else .error .reservedField
  | 39 => if bitsAt w 31 1 == 0 then .ok (.fcmp (CmpF.read w)) else .error .reservedField
  | 40 => if bitsAt w 22 6 == 60 then .ok (.fclass (T2.read w)) else .error .reservedField
  | 41 => .ok (.cvt (CvtF.read w))
  | 42 => .ok (.fadd2F16 (T3.read w))
  | 43 => .ok (.fmul2F16 (T3.read w))
  | 44 => .ok (.fadd2Bf16 (T3.read w))
  | 45 => .ok (.fmul2Bf16 (T3.read w))
  | 46 => if bitsAt w 27 1 == 0 then .ok (.scan (ScanF.read w)) else .error .reservedField
  | 47 => .ok (.sscan (SscanF.read w))
  | 48 => .ok (.prev (T3.read w))
  | 49 => .ok (.next (T3.read w))
  | 50 => .ok (.bcast (T3.read w))
  | 51 => .ok (.perm (T3.read w))
  | 52 => if bitsAt w 26 2 == 0 then .ok (.rdx (RdxF.read w)) else .error .reservedField
  | 53 => .ok (.vote (VoteF.read w))
  | 54 => if bitsAt w 22 6 == 60 then .ok (.rank (T2.read w)) else .error .reservedField
  | _ => .error .unassigned

/-- The rows of class 01 (R57). -/
def decodeClass1 (op w : Nat) : Except Reject Instr :=
  match op with
  | 0 => .ok (.ffma (Q4.read w))
  | 1 => .ok (.mad (Q4.read w))
  | 2 => .ok (.ffma2F16 (Q4.read w))
  | 3 => .ok (.ffma2Bf16 (Q4.read w))
  | 4 => .ok (.fdot2F16 (Q4.read w))
  | 5 => .ok (.dp4S8 (Q4.read w))
  | 6 => .ok (.dp4N8 (Q4.read w))
  | 7 => .ok (.sel (SelF.read w))
  | 8 => .ok (.bfi (Q4.read w))
  | 9 => .ok (.shf (Q4.read w))
  | 10 => .ok (.mulwS (Q4.read w))
  | 11 => .ok (.mulwN (Q4.read w))
  | _ => .error .unassigned

/-- The rows of class 10 (R58). -/
def decodeClass2 (op w : Nat) : Except Reject Instr :=
  match op with
  | 0 => .ok (.addi (LaneImm.read w))
  | 1 => .ok (.muli (LaneImm.read w))
  | 2 => .ok (.andi (LaneImm.read w))
  | 3 => .ok (.ori (LaneImm.read w))
  | 4 => .ok (.xori (LaneImm.read w))
  | 5 => if bitsAt w 27 5 == 0 then .ok (.shli (LaneSh.read w)) else .error .reservedField
  | 6 => if bitsAt w 27 5 == 0 then .ok (.shri (LaneSh.read w)) else .error .reservedField
  | 7 => if bitsAt w 27 5 == 0 then .ok (.sari (LaneSh.read w)) else .error .reservedField
  | 8 => .ok (.cmpi (CmpImm.read w))
  | 9 => .ok (.movi (LaneMov.read w))
  | 10 => .ok (.movhi (LaneMov.read w))
  | 11 => .ok (.gadd (UniF.read w))
  | 12 => .ok (.gsub (UniF.read w))
  | 13 => .ok (.gmul (UniF.read w))
  | 14 => .ok (.gand (UniF.read w))
  | 15 => .ok (.gor (UniF.read w))
  | 16 => .ok (.gxor (UniF.read w))
  | 17 => .ok (.gshl (UniF.read w))
  | 18 => .ok (.gshr (UniF.read w))
  | 19 => .ok (.gmin (UniF.read w))
  | 20 => .ok (.gmax (UniF.read w))
  | 21 => if bitsAt w 28 4 == 0 then .ok (.gcmp (UniCmp.read w)) else .error .reservedField
  | 22 => .ok (.gmovi (UniMov17.read w))
  | 23 => if bitsAt w 15 1 == 0 then .ok (.gmovhi (UniMov16.read w)) else .error .reservedField
  | 24 => if bitsAt w 27 5 == 0 then .ok (.gtake (TakeF.read w)) else .error .reservedField
  | 25 => if bitsAt w 21 11 == 0 then .ok (.gput (PutF.read w)) else .error .reservedField
  | 26 => if bitsAt w 18 14 == 0 then .ok (.gballot (BallotF.read w)) else .error .reservedField
  | 27 => .ok (.ld (LaneMem.read w))
  | 28 => .ok (.st (LaneMem.read w))
  | 29 => .ok (.ldi (LaneMemImm.read w))
  | 30 => .ok (.sti (LaneMemImm.read w))
  | 31 => .ok (.atom (AtomF.read w))
  | 32 => .ok (.red (AtomF.read w))
  | 33 => if bitsAt w 29 3 == 0 then .ok (.lda (LdaF.read w)) else .error .reservedField
  | 34 => if bitsAt w 28 4 == 0 then .ok (.sta (StaF.read w)) else .error .reservedField
  | 35 => if bitsAt w 30 2 == 0 then .ok (.gld (UniMem.read w)) else .error .reservedField
  | 36 => if bitsAt w 30 2 == 0 then .ok (.gst (UniMem.read w)) else .error .reservedField
  | 37 => if bitsAt w 26 6 == 0 then .ok (.wopen (WopenF.read w)) else .error .reservedField
  | 38 => if bitsAt w 22 3 == 0 && bitsAt w 28 4 == 0 then .ok (.bld (BenchF.read w)) else .error .reservedField
  | 39 => if bitsAt w 22 3 == 0 && bitsAt w 28 4 == 0 then .ok (.bst (BenchF.read w)) else .error .reservedField
  | 40 => if bitsAt w 22 3 == 0 && bitsAt w 29 3 == 0 then .ok (.batom (BatomF.read w)) else .error .reservedField
  | 41 => if bitsAt w 15 17 == 0 then .ok (.fence (FenceF.read w)) else .error .reservedField
  | 42 => if bitsAt w 27 5 == 0 then .ok (.cache (CacheF.read w)) else .error .reservedField
  | 43 => .ok (.br (BrF.read w))
  | 44 => .ok (.jmp (JmpF.read w))
  | 45 => .ok (.join (JmpF.read w))
  | 46 => .ok (.meet (JmpF.read w))
  | 47 => if bitsAt w 15 17 == 0 then .ok (.brx (RegF.read w)) else .error .reservedField
  | 48 => .ok (.call (JmpF.read w))
  | 49 => if bitsAt w 15 17 == 0 then .ok (.calli (RegF.read w)) else .error .reservedField
  | 50 => if bitsAt w 10 22 == 0 then .ok (.ret (PlainF.read w)) else .error .reservedField
  | 51 => .ok (.switch (SwitchF.read w))
  | 52 => if bitsAt w 13 19 == 0 then .ok (.exit (ExitF.read w)) else .error .reservedField
  | 53 => if bitsAt w 10 22 == 0 then .ok (.nop (PlainF.read w)) else .error .reservedField
  | 54 => if bitsAt w 10 22 == 0 then .ok (.yield (PlainF.read w)) else .error .reservedField
  | 55 => if bitsAt w 29 3 == 0 then .ok (.wait (WaitF.read w)) else .error .reservedField
  | 56 => .ok (.mark (MarkF.read w))
  | 57 => if bitsAt w 10 22 == 0 then .ok (.tfence (PlainF.read w)) else .error .reservedField
  | 58 => if bitsAt w 18 14 == 0 then .ok (.tcall (TcallF.read w)) else .error .reservedField
  | 59 => if bitsAt w 26 6 == 0 then .ok (.brk (BrkF.read w)) else .error .reservedField
  | _ => .error .unassigned

/-- The rows of class 11 (R63). -/
def decodeClass3 (op w : Nat) : Except Reject Instr :=
  match op with
  | 0 => if bitsAt w 30 2 == 0 then .ok (.spawn (SpawnF.read w)) else .error .reservedField
  | 1 => if bitsAt w 18 14 == 0 then .ok (.launch (LaunchF.read w)) else .error .reservedField
  | 2 => if bitsAt w 19 13 == 0 then .ok (.bar (BarF.read w)) else .error .reservedField
  | 3 => if bitsAt w 28 4 == 0 then .ok (.xpand (XpandF.read w)) else .error .reservedField
  | 4 => if bitsAt w 19 13 == 0 then .ok (.xnext (XnextF.read w)) else .error .reservedField
  | 5 => if bitsAt w 16 16 == 0 then .ok (.sred (SredF.read w)) else .error .reservedField
  | 6 => if bitsAt w 16 16 == 0 then .ok (.xend (XendF.read w)) else .error .reservedField
  | 7 => if bitsAt w 27 5 == 0 then .ok (.copy (CopyF.read w)) else .error .reservedField
  | 8 => .ok (.gather (GatherF.read w))
  | 9 => .ok (.scatter (GatherF.read w))
  | 10 => if bitsAt w 21 11 == 0 then .ok (.cwait (CwaitF.read w)) else .error .reservedField
  | 11 => if bitsAt w 21 11 == 0 then .ok (.cpoll (CpollF.read w)) else .error .reservedField
  | 12 => if bitsAt w 21 11 == 0 then .ok (.carm (CwaitF.read w)) else .error .reservedField
  | 13 => if bitsAt w 30 2 == 0 then .ok (.mma (MmaF.read w)) else .error .reservedField
  | 14 => if bitsAt w 30 2 == 0 then .ok (.mmat (MmatF.read w)) else .error .reservedField
  | 15 => if bitsAt w 29 3 == 0 then .ok (.mlut (MlutF.read w)) else .error .reservedField
  | 16 => if bitsAt w 30 2 == 0 then .ok (.msp (MmatF.read w)) else .error .reservedField
  | 17 => if bitsAt w 15 17 == 0 then .ok (.mzero (MzeroF.read w)) else .error .reservedField
  | 18 => if flagAt w 15 then .ok (.mdrainMem (MdrainMemF.read w)) else if bitsAt w 14 2 == 0 && bitsAt w 22 2 == 0 && bitsAt w 27 1 == 0 && bitsAt w 29 3 == 0 then .ok (.mdrainReg (MdrainRegF.read w)) else .error .reservedField
  | 19 => if bitsAt w 26 6 == 0 then .ok (.mload (MloadF.read w)) else .error .reservedField
  | 20 => if bitsAt w 28 4 == 0 then .ok (.path (PathF.read w)) else .error .reservedField
  | 21 => if bitsAt w 21 11 == 0 then .ok (.seg (SegF.read w)) else .error .reservedField
  | 22 => if bitsAt w 10 22 == 0 then .ok (.pend (PlainF.read w)) else .error .reservedField
  | 23 => if bitsAt w 24 8 == 0 then .ok (.tbind (TbindF.read w)) else .error .reservedField
  | 24 => if bitsAt w 19 13 == 0 then .ok (.cdep (CdepF.read w)) else .error .reservedField
  | 25 => if bitsAt w 14 18 == 0 then .ok (.cscan (SlotF.read w)) else .error .reservedField
  | 26 => if bitsAt w 14 18 == 0 then .ok (.clpush (SlotF.read w)) else .error .reservedField
  | 27 => if bitsAt w 14 18 == 0 then .ok (.clpop (SlotF.read w)) else .error .reservedField
  | 28 => if bitsAt w 14 18 == 0 then .ok (.cspan (SlotF.read w)) else .error .reservedField
  | 29 => if bitsAt w 18 14 == 0 then .ok (.tblend (TblendF.read w)) else .error .reservedField
  | 30 => if bitsAt w 22 10 == 0 then .ok (.tload (TloadF.read w)) else .error .reservedField
  | 31 => if bitsAt w 14 18 == 0 then .ok (.tflush (SlotF.read w)) else .error .reservedField
  | 32 => if bitsAt w 28 4 == 0 then .ok (.covget (CovgetF.read w)) else .error .reservedField
  | 33 => if bitsAt w 27 5 == 0 then .ok (.cget (CgetF.read w)) else .error .reservedField
  | 34 => if bitsAt w 27 5 == 0 then .ok (.cput (CputF.read w)) else .error .reservedField
  | 35 => if bitsAt w 10 22 == 0 then .ok (.rte (PlainF.read w)) else .error .reservedField
  | 36 => if bitsAt w 18 14 == 0 then .ok (.tlbinv (TlbinvF.read w)) else .error .reservedField
  | 37 => if bitsAt w 10 22 == 0 then .ok (.park (PlainF.read w)) else .error .reservedField
  | _ => .error .unassigned

/-- A 32-bit word (R35). -/
def decode32 (w : Nat) : Except Reject Instr :=
  match bitsAt w 2 2 with
  | 0 => decodeClass0 (bitsAt w 4 6) w
  | 1 => decodeClass1 (bitsAt w 4 4) w
  | 2 => decodeClass2 (bitsAt w 4 6) w
  | _ => decodeClass3 (bitsAt w 4 6) w

/-- The little-endian number of a list of bytes (R2). -/
def leNat : List Byte → Nat
  | [] => 0
  | b :: rest => b.toNat + 256 * leNat rest

/-- Decode the instruction at the head of a list of bytes: the instruction and its length in bytes (R29, R35). -/
def decode (bytes : List Byte) : Except Reject (Instr × Nat) :=
  match bytes with
  | b0 :: b1 :: rest =>
    if b0.toNat % 2 == 0 then (decode16 (leNat [b0, b1])).map fun i => (i, 2)
    else
      match rest with
      | b2 :: b3 :: _ => (decode32 (leNat [b0, b1, b2, b3])).map fun i => (i, 4)
      | _ => .error .tooShort
  | _ => .error .tooShort

/-- The low `n` bytes of a number, lowest first. -/
def leBytes : Nat → Nat → List Byte
  | 0, _ => []
  | n + 1, w => BitVec.ofNat 8 w :: leBytes n (w / 256)

/-- The instruction the decoder reads from a word of the opcode table's numbering. -/
def decodeTableWord (nbits w : Nat) : Option Instr :=
  if nbits == 0 then none else
  match decode (leBytes 4 (w % 2 ^ nbits)) with
  | .ok (i, _) => some i
  | .error _ => none

/-- Length in bytes of an encoded instruction; 0 for a row without a word. -/
def Instr.size : Instr → Nat
  | .mov _ => 2
  | .add_16 _ => 2
  | .sub_16 _ => 2
  | .mul_16 _ => 2
  | .and_16 _ => 2
  | .or_16 _ => 2
  | .xor_16 _ => 2
  | .shl_16 _ => 2
  | .shr_16 _ => 2
  | .fadd_16 _ => 2
  | .fsub_16 _ => 2
  | .fmul_16 _ => 2
  | .fmin_16 _ => 2
  | .fmax_16 _ => 2
  | .ffmb _ => 2
  | .fadd2F16_16 _ => 2
  | .nop_16 => 2
  | .add _ => 4
  | .sub _ => 4
  | .mul _ => 4
  | .mulhS _ => 4
  | .mulhN _ => 4
  | .minS _ => 4
  | .minN _ => 4
  | .maxS _ => 4
  | .maxN _ => 4
  | .and _ => 4
  | .or _ => 4
  | .xor _ => 4
  | .andn _ => 4
  | .shl _ => 4
  | .shr _ => 4
  | .sar _ => 4
  | .rotl _ => 4
  | .bfeS _ => 4
  | .bfeN _ => 4
  | .abs _ => 4
  | .neg _ => 4
  | .clz _ => 4
  | .popc _ => 4
  | .brev _ => 4
  | .cmp _ => 4
  | .fadd _ => 4
  | .fsub _ => 4
  | .fmul _ => 4
  | .fmin _ => 4
  | .fmax _ => 4
  | .fdiv _ => 4
  | .fsqrt _ => 4
  | .frcp _ => 4
  | .frsq _ => 4
  | .fexp2 _ => 4
  | .flog2 _ => 4
  | .fsin _ => 4
  | .fcos _ => 4
  | .frnd _ => 4
  | .fcmp _ => 4
  | .fclass _ => 4
  | .cvt _ => 4
  | .fadd2F16 _ => 4
  | .fmul2F16 _ => 4
  | .fadd2Bf16 _ => 4
  | .fmul2Bf16 _ => 4
  | .scan _ => 4
  | .sscan _ => 4
  | .prev _ => 4
  | .next _ => 4
  | .bcast _ => 4
  | .perm _ => 4
  | .rdx _ => 4
  | .vote _ => 4
  | .rank _ => 4
  | .ffma _ => 4
  | .mad _ => 4
  | .ffma2F16 _ => 4
  | .ffma2Bf16 _ => 4
  | .fdot2F16 _ => 4
  | .dp4S8 _ => 4
  | .dp4N8 _ => 4
  | .sel _ => 4
  | .bfi _ => 4
  | .shf _ => 4
  | .mulwS _ => 4
  | .mulwN _ => 4
  | .addi _ => 4
  | .muli _ => 4
  | .andi _ => 4
  | .ori _ => 4
  | .xori _ => 4
  | .shli _ => 4
  | .shri _ => 4
  | .sari _ => 4
  | .cmpi _ => 4
  | .movi _ => 4
  | .movhi _ => 4
  | .gadd _ => 4
  | .gsub _ => 4
  | .gmul _ => 4
  | .gand _ => 4
  | .gor _ => 4
  | .gxor _ => 4
  | .gshl _ => 4
  | .gshr _ => 4
  | .gmin _ => 4
  | .gmax _ => 4
  | .gcmp _ => 4
  | .gmovi _ => 4
  | .gmovhi _ => 4
  | .gtake _ => 4
  | .gput _ => 4
  | .gballot _ => 4
  | .ld _ => 4
  | .st _ => 4
  | .ldi _ => 4
  | .sti _ => 4
  | .atom _ => 4
  | .red _ => 4
  | .lda _ => 4
  | .sta _ => 4
  | .gld _ => 4
  | .gst _ => 4
  | .wopen _ => 4
  | .bld _ => 4
  | .bst _ => 4
  | .batom _ => 4
  | .fence _ => 4
  | .cache _ => 4
  | .br _ => 4
  | .jmp _ => 4
  | .join _ => 4
  | .meet _ => 4
  | .brx _ => 4
  | .call _ => 4
  | .calli _ => 4
  | .ret _ => 4
  | .switch _ => 4
  | .exit _ => 4
  | .nop _ => 4
  | .yield _ => 4
  | .wait _ => 4
  | .mark _ => 4
  | .tfence _ => 4
  | .tcall _ => 4
  | .brk _ => 4
  | .spawn _ => 4
  | .launch _ => 4
  | .bar _ => 4
  | .xpand _ => 4
  | .xnext _ => 4
  | .sred _ => 4
  | .xend _ => 4
  | .copy _ => 4
  | .gather _ => 4
  | .scatter _ => 4
  | .cwait _ => 4
  | .cpoll _ => 4
  | .carm _ => 4
  | .mma _ => 4
  | .mmat _ => 4
  | .mlut _ => 4
  | .msp _ => 4
  | .mzero _ => 4
  | .mdrainReg _ => 4
  | .mdrainMem _ => 4
  | .mload _ => 4
  | .path _ => 4
  | .seg _ => 4
  | .pend _ => 4
  | .tbind _ => 4
  | .cdep _ => 4
  | .cscan _ => 4
  | .clpush _ => 4
  | .clpop _ => 4
  | .cspan _ => 4
  | .tblend _ => 4
  | .tload _ => 4
  | .tflush _ => 4
  | .covget _ => 4
  | .cget _ => 4
  | .cput _ => 4
  | .rte _ => 4
  | .tlbinv _ => 4
  | .park _ => 4
  | .launchCommand _ _ => 0
  | .copyCommand _ _ => 0
  | .signal _ _ => 0
  | .waitCommand _ _ => 0
  | .fenceCommand _ _ => 0
  | .contextCreate => 0
  | .contextWrite => 0
  | .contextDestroy => 0
  | .answerRetry => 0
  | .answerDeliver => 0
  | .answerRefuse => 0
  | .answerStop => 0
  | .preemptSoft => 0
  | .preemptHard => 0
  | .resume => 0
  | .partset => 0
  | .fwload => 0
  | .qtailWrite _ _ _ => 0
  | .queueEnable _ _ => 0
  | .queueDisable _ _ => 0
  | .fbtailWrite _ _ => 0
  | .warmReset _ => 0
  | .benchszWrite _ _ => 0
  | .amaskWrite _ => 0
  | .registerWrite _ _ _ => 0
  | .coldReset => 0
  | .packingTimerExpiry _ _ _ _ => 0
  | .packedGroupAdmit _ _ => 0
  | .blockPlace _ => 0
  | .laneSelect _ _ => 0
  | .stintBreak _ _ => 0
  | .parkFill _ => 0
  | .idlePark _ _ => 0
  | .rotation _ => 0
  | .parkMoveComplete _ => 0
  | .waitWake _ => 0
  | .waitTimeout _ => 0
  | .loadDataArrival _ => 0
  | .enginePageFault _ => 0
  | .engineFailure _ => 0
  | .engineOpComplete _ => 0
  | .matrixStepDone _ => 0
  | .matrixInstrDone _ => 0
  | .accumulatorSwap _ => 0
  | .tileStoreSwap _ _ => 0
  | .scribeDone _ => 0
  | .depositDone _ => 0
  | .blendApply _ _ _ _ => 0
  | .contributionApply _ _ _ => 0
  | .quantumEnd _ => 0
  | .commitApply _ => 0
  | .l1WritebackTimeout _ _ => 0
  | .l1CleanDropTimeout _ _ => 0
  | .rdcDropTimeout _ _ => 0
  | .tlbinvDone _ => 0
  | .preemptDeadline _ => 0
  | .bboxMirror _ => 0
  | .powerSample _ _ => 0
  | .thermalGate _ _ => 0
  | .thermalTrip _ _ => 0
  | .thermalRecover _ _ => 0
  | .machineCheck _ _ => 0
  | .coreFence _ => 0
  | .dramRowSparing _ _ => 0
  | .laneDrop _ _ => 0
  | .recalibration _ _ => 0
  | .dirtyLineError _ => 0
  | .firmwareSwitch _ => 0
  | .atsInvalidate _ _ _ => 0
  | .atsTranslationCompletion _ _ _ _ _ => 0
  | .priResponse _ _ => 0
  | .attestationRequest _ _ => 0
  | .ideKeyProgram _ _ => 0
  | .tdispLock _ => 0
  | .tdispStart _ => 0
  | .tdispStop _ => 0
  | .queueWaitPoll _ _ => 0
  | .queueSwitch _ _ => 0
  | .dieReady _ => 0
  | .remoteGatherPart _ => 0
  | .podBarrierArrival _ _ => 0

/-- The word of an encoded instruction, from the encoding tables (R33 to R63). -/
def encodeWord : Instr → Option Nat
  | .mov f => some (f.bits + 0)
  | .add_16 f => some (f.bits + 2)
  | .sub_16 f => some (f.bits + 4)
  | .mul_16 f => some (f.bits + 6)
  | .and_16 f => some (f.bits + 8)
  | .or_16 f => some (f.bits + 10)
  | .xor_16 f => some (f.bits + 12)
  | .shl_16 f => some (f.bits + 14)
  | .shr_16 f => some (f.bits + 16)
  | .fadd_16 f => some (f.bits + 18)
  | .fsub_16 f => some (f.bits + 20)
  | .fmul_16 f => some (f.bits + 22)
  | .fmin_16 f => some (f.bits + 24)
  | .fmax_16 f => some (f.bits + 26)
  | .ffmb f => some (f.bits + 28)
  | .fadd2F16_16 f => some (f.bits + 30)
  | .nop_16 => some 0
  | .add f => some (f.bits + 1)
  | .sub f => some (f.bits + 17)
  | .mul f => some (f.bits + 33)
  | .mulhS f => some (f.bits + 49)
  | .mulhN f => some (f.bits + 65)
  | .minS f => some (f.bits + 81)
  | .minN f => some (f.bits + 97)
  | .maxS f => some (f.bits + 113)
  | .maxN f => some (f.bits + 129)
  | .and f => some (f.bits + 145)
  | .or f => some (f.bits + 161)
  | .xor f => some (f.bits + 177)
  | .andn f => some (f.bits + 193)
  | .shl f => some (f.bits + 209)
  | .shr f => some (f.bits + 225)
  | .sar f => some (f.bits + 241)
  | .rotl f => some (f.bits + 257)
  | .bfeS f => some (f.bits + 273)
  | .bfeN f => some (f.bits + 289)
  | .abs f => some (f.bits + 251658545)
  | .neg f => some (f.bits + 251658561)
  | .clz f => some (f.bits + 251658577)
  | .popc f => some (f.bits + 251658593)
  | .brev f => some (f.bits + 251658609)
  | .cmp f => some (f.bits + 385)
  | .fadd f => some (f.bits + 401)
  | .fsub f => some (f.bits + 417)
  | .fmul f => some (f.bits + 433)
  | .fmin f => some (f.bits + 449)
  | .fmax f => some (f.bits + 465)
  | .fdiv f => some (f.bits + 481)
  | .fsqrt f => some (f.bits + 251658737)
  | .frcp f => some (f.bits + 251658753)
  | .frsq f => some (f.bits + 251658769)
  | .fexp2 f => some (f.bits + 251658785)
  | .flog2 f => some (f.bits + 251658801)
  | .fsin f => some (f.bits + 251658817)
  | .fcos f => some (f.bits + 251658833)
  | .frnd f => some (f.bits + 251658849)
  | .fcmp f => some (f.bits + 625)
  | .fclass f => some (f.bits + 251658881)
  | .cvt f => some (f.bits + 657)
  | .fadd2F16 f => some (f.bits + 673)
  | .fmul2F16 f => some (f.bits + 689)
  | .fadd2Bf16 f => some (f.bits + 705)
  | .fmul2Bf16 f => some (f.bits + 721)
  | .scan f => some (f.bits + 737)
  | .sscan f => some (f.bits + 753)
  | .prev f => some (f.bits + 769)
  | .next f => some (f.bits + 785)
  | .bcast f => some (f.bits + 801)
  | .perm f => some (f.bits + 817)
  | .rdx f => some (f.bits + 833)
  | .vote f => some (f.bits + 849)
  | .rank f => some (f.bits + 251659105)
  | .ffma f => some (f.bits + 5)
  | .mad f => some (f.bits + 21)
  | .ffma2F16 f => some (f.bits + 37)
  | .ffma2Bf16 f => some (f.bits + 53)
  | .fdot2F16 f => some (f.bits + 69)
  | .dp4S8 f => some (f.bits + 85)
  | .dp4N8 f => some (f.bits + 101)
  | .sel f => some (f.bits + 117)
  | .bfi f => some (f.bits + 133)
  | .shf f => some (f.bits + 149)
  | .mulwS f => some (f.bits + 165)
  | .mulwN f => some (f.bits + 181)
  | .addi f => some (f.bits + 9)
  | .muli f => some (f.bits + 25)
  | .andi f => some (f.bits + 41)
  | .ori f => some (f.bits + 57)
  | .xori f => some (f.bits + 73)
  | .shli f => some (f.bits + 89)
  | .shri f => some (f.bits + 105)
  | .sari f => some (f.bits + 121)
  | .cmpi f => some (f.bits + 137)
  | .movi f => some (f.bits + 153)
  | .movhi f => some (f.bits + 169)
  | .gadd f => some (f.bits + 185)
  | .gsub f => some (f.bits + 201)
  | .gmul f => some (f.bits + 217)
  | .gand f => some (f.bits + 233)
  | .gor f => some (f.bits + 249)
  | .gxor f => some (f.bits + 265)
  | .gshl f => some (f.bits + 281)
  | .gshr f => some (f.bits + 297)
  | .gmin f => some (f.bits + 313)
  | .gmax f => some (f.bits + 329)
  | .gcmp f => some (f.bits + 345)
  | .gmovi f => some (f.bits + 361)
  | .gmovhi f => some (f.bits + 377)
  | .gtake f => some (f.bits + 393)
  | .gput f => some (f.bits + 409)
  | .gballot f => some (f.bits + 425)
  | .ld f => some (f.bits + 441)
  | .st f => some (f.bits + 457)
  | .ldi f => some (f.bits + 473)
  | .sti f => some (f.bits + 489)
  | .atom f => some (f.bits + 505)
  | .red f => some (f.bits + 521)
  | .lda f => some (f.bits + 537)
  | .sta f => some (f.bits + 553)
  | .gld f => some (f.bits + 569)
  | .gst f => some (f.bits + 585)
  | .wopen f => some (f.bits + 601)
  | .bld f => some (f.bits + 617)
  | .bst f => some (f.bits + 633)
  | .batom f => some (f.bits + 649)
  | .fence f => some (f.bits + 665)
  | .cache f => some (f.bits + 681)
  | .br f => some (f.bits + 697)
  | .jmp f => some (f.bits + 713)
  | .join f => some (f.bits + 729)
  | .meet f => some (f.bits + 745)
  | .brx f => some (f.bits + 761)
  | .call f => some (f.bits + 777)
  | .calli f => some (f.bits + 793)
  | .ret f => some (f.bits + 809)
  | .switch f => some (f.bits + 825)
  | .exit f => some (f.bits + 841)
  | .nop f => some (f.bits + 857)
  | .yield f => some (f.bits + 873)
  | .wait f => some (f.bits + 889)
  | .mark f => some (f.bits + 905)
  | .tfence f => some (f.bits + 921)
  | .tcall f => some (f.bits + 937)
  | .brk f => some (f.bits + 953)
  | .spawn f => some (f.bits + 13)
  | .launch f => some (f.bits + 29)
  | .bar f => some (f.bits + 45)
  | .xpand f => some (f.bits + 61)
  | .xnext f => some (f.bits + 77)
  | .sred f => some (f.bits + 93)
  | .xend f => some (f.bits + 109)
  | .copy f => some (f.bits + 125)
  | .gather f => some (f.bits + 141)
  | .scatter f => some (f.bits + 157)
  | .cwait f => some (f.bits + 173)
  | .cpoll f => some (f.bits + 189)
  | .carm f => some (f.bits + 205)
  | .mma f => some (f.bits + 221)
  | .mmat f => some (f.bits + 237)
  | .mlut f => some (f.bits + 253)
  | .msp f => some (f.bits + 269)
  | .mzero f => some (f.bits + 285)
  | .mdrainReg f => some (f.bits + 301)
  | .mdrainMem f => some (f.bits + 33069)
  | .mload f => some (f.bits + 317)
  | .path f => some (f.bits + 333)
  | .seg f => some (f.bits + 349)
  | .pend f => some (f.bits + 365)
  | .tbind f => some (f.bits + 381)
  | .cdep f => some (f.bits + 397)
  | .cscan f => some (f.bits + 413)
  | .clpush f => some (f.bits + 429)
  | .clpop f => some (f.bits + 445)
  | .cspan f => some (f.bits + 461)
  | .tblend f => some (f.bits + 477)
  | .tload f => some (f.bits + 493)
  | .tflush f => some (f.bits + 509)
  | .covget f => some (f.bits + 525)
  | .cget f => some (f.bits + 541)
  | .cput f => some (f.bits + 557)
  | .rte f => some (f.bits + 573)
  | .tlbinv f => some (f.bits + 589)
  | .park f => some (f.bits + 605)
  | .launchCommand _ _ => none
  | .copyCommand _ _ => none
  | .signal _ _ => none
  | .waitCommand _ _ => none
  | .fenceCommand _ _ => none
  | .contextCreate => none
  | .contextWrite => none
  | .contextDestroy => none
  | .answerRetry => none
  | .answerDeliver => none
  | .answerRefuse => none
  | .answerStop => none
  | .preemptSoft => none
  | .preemptHard => none
  | .resume => none
  | .partset => none
  | .fwload => none
  | .qtailWrite _ _ _ => none
  | .queueEnable _ _ => none
  | .queueDisable _ _ => none
  | .fbtailWrite _ _ => none
  | .warmReset _ => none
  | .benchszWrite _ _ => none
  | .amaskWrite _ => none
  | .registerWrite _ _ _ => none
  | .coldReset => none
  | .packingTimerExpiry _ _ _ _ => none
  | .packedGroupAdmit _ _ => none
  | .blockPlace _ => none
  | .laneSelect _ _ => none
  | .stintBreak _ _ => none
  | .parkFill _ => none
  | .idlePark _ _ => none
  | .rotation _ => none
  | .parkMoveComplete _ => none
  | .waitWake _ => none
  | .waitTimeout _ => none
  | .loadDataArrival _ => none
  | .enginePageFault _ => none
  | .engineFailure _ => none
  | .engineOpComplete _ => none
  | .matrixStepDone _ => none
  | .matrixInstrDone _ => none
  | .accumulatorSwap _ => none
  | .tileStoreSwap _ _ => none
  | .scribeDone _ => none
  | .depositDone _ => none
  | .blendApply _ _ _ _ => none
  | .contributionApply _ _ _ => none
  | .quantumEnd _ => none
  | .commitApply _ => none
  | .l1WritebackTimeout _ _ => none
  | .l1CleanDropTimeout _ _ => none
  | .rdcDropTimeout _ _ => none
  | .tlbinvDone _ => none
  | .preemptDeadline _ => none
  | .bboxMirror _ => none
  | .powerSample _ _ => none
  | .thermalGate _ _ => none
  | .thermalTrip _ _ => none
  | .thermalRecover _ _ => none
  | .machineCheck _ _ => none
  | .coreFence _ => none
  | .dramRowSparing _ _ => none
  | .laneDrop _ _ => none
  | .recalibration _ _ => none
  | .dirtyLineError _ => none
  | .firmwareSwitch _ => none
  | .atsInvalidate _ _ _ => none
  | .atsTranslationCompletion _ _ _ _ _ => none
  | .priResponse _ _ => none
  | .attestationRequest _ _ => none
  | .ideKeyProgram _ _ => none
  | .tdispLock _ => none
  | .tdispStart _ => none
  | .tdispStop _ => none
  | .queueWaitPoll _ _ => none
  | .queueSwitch _ _ => none
  | .dieReady _ => none
  | .remoteGatherPart _ => none
  | .podBarrierArrival _ _ => none

/-- The bytes of an encoded instruction, lowest address first; none for a row without a word. -/
def encode (i : Instr) : Option (List Byte) :=
  (encodeWord i).map fun w => leBytes i.size w

/-! ## What R51 asks of the fields -/

/-- What an instruction asks for at decode. `sel` is the part of cause 2 that concerns only fields of the word;
`srcs` are lane source codes, `dsts` thread-register codes that admit no other code (cause 3); `vruns` are runs of
thread registers as base, length and alignment, `sruns` runs of uniform registers as base and length, `tile4` says
that a tile must be a multiple of 4 (cause 6); `wins` are the windows that must be set (cause 9); `samples` says that
the instruction samples FPMODE (R215, cause 8); `priv` that it is privileged whatever its operands (cause 5). -/
structure Needs where
  sel     : Bool := true
  srcs    : List (BitVec 6) := []
  dsts    : List (BitVec 6) := []
  vruns   : List (Nat × Nat × Nat) := []
  sruns   : List (Nat × Nat) := []
  tile4   : Option (BitVec 4) := none
  wins    : List (BitVec 3) := []
  samples : Bool := false
  priv    : Bool := false
  deriving DecidableEq, Repr

/-- The control register numbers that R64 and R309 assign. -/
def cregAssigned (n : Nat) : Bool :=
  n ≤ 7 || n == 0x800 || n == 0x801 || (0x810 ≤ n && n ≤ 0x817) || (0x820 ≤ n && n ≤ 0x825) ||
  (0x880 ≤ n && n ≤ 0x884) || (0x900 ≤ n && n ≤ 0x904) || (0x908 ≤ n && n ≤ 0x90B)

/-- A size code's run of thread registers (R60): a pair for `b64`, a quad for `b128`. -/
def sizeRun (z : BitVec 3) (d : BitVec 6) : List (Nat × Nat × Nat) :=
  if z == 5#3 then [(d.toNat, 2, 2)] else if z == 6#3 then [(d.toNat, 4, 4)] else []

/-- An atomic op's run of thread registers (R61). -/
def atomRun (o : BitVec 4) (d : BitVec 6) : List (Nat × Nat × Nat) :=
  if o == 9#4 || o == 10#4 then [(d.toNat, 2, 2)] else if o == 15#4 then [(d.toNat, 4, 4)] else []

/-- A scope other than `grp` needs the order bit (R188), and 7 is reserved (R22). -/
def orderOk (s : BitVec 3) (o : Bool) : Bool := s != 7#3 && (o || s == 0#3)

/-- Whether a conversion rounds (R238). -/
def cvtSamples (src dst : BitVec 3) : Bool :=
  let isF (c : BitVec 3) := c == 2#3 || c == 3#3 || c == 4#3
  if !(isF src) then isF dst
  else if dst == 2#3 then false else true

/-- Registers the A operand of `mma` takes in each thread (R255). -/
def mmaRegs (shape ty : BitVec 2) : Nat :=
  let k := if shape == 3#2 then 64 else 32
  if ty == 2#2 then k / 4 + k / 32 else k / 2

/-- A register name that a register write may carry (R372, R382). -/
def RegName.ok : RegName → Bool
  | .management die n => die < 4 && (n == 0x902 || n == 0x90A || n == 0x90B || cregAssigned n && 0x900 ≤ n)
  | .queue fe q off => (fe < 64 && q < 8 || fe == 64 && q == 0) && (off == 0 || off == 8 || off == 16 || off == 24)
  | .contextReg asid n => asid < 2048 && cregAssigned n && 0x800 ≤ n

/-- A queue's name: front end and queue number, front end 64 being the administration queue. -/
def queueOk (fe q : Nat) : Bool := fe < 64 && q < 8 || fe == 64 && q == 0

/-- R51 and the chapters of the instructions, field by field. The points of `seg` and the colours of `tblend` are sources: their
codes 61 to 63 are cause 3, and codes 48 to 60 runs past v47. The spec does not say what the field c of `mulw` holds; the
model checks it as a source code (log entry 94). The field d of a form with W = 1 is checked as a destination (log entry 133). -/
def Instr.needs : Instr → Needs
  | .mov f => { srcs := [f.s], dsts := [BitVec.ofNat 6 f.d.toNat] }
  | .add_16 f => { srcs := [f.s], dsts := [BitVec.ofNat 6 f.d.toNat] }
  | .sub_16 f => { srcs := [f.s], dsts := [BitVec.ofNat 6 f.d.toNat] }
  | .mul_16 f => { srcs := [f.s], dsts := [BitVec.ofNat 6 f.d.toNat] }
  | .and_16 f => { srcs := [f.s], dsts := [BitVec.ofNat 6 f.d.toNat] }
  | .or_16 f => { srcs := [f.s], dsts := [BitVec.ofNat 6 f.d.toNat] }
  | .xor_16 f => { srcs := [f.s], dsts := [BitVec.ofNat 6 f.d.toNat] }
  | .shl_16 f => { srcs := [f.s], dsts := [BitVec.ofNat 6 f.d.toNat] }
  | .shr_16 f => { srcs := [f.s], dsts := [BitVec.ofNat 6 f.d.toNat] }
  | .fadd_16 f => { srcs := [f.s], dsts := [BitVec.ofNat 6 f.d.toNat], samples := true }
  | .fsub_16 f => { srcs := [f.s], dsts := [BitVec.ofNat 6 f.d.toNat], samples := true }
  | .fmul_16 f => { srcs := [f.s], dsts := [BitVec.ofNat 6 f.d.toNat], samples := true }
  | .fmin_16 f => { srcs := [f.s], dsts := [BitVec.ofNat 6 f.d.toNat] }
  | .fmax_16 f => { srcs := [f.s], dsts := [BitVec.ofNat 6 f.d.toNat] }
  | .ffmb f => { srcs := [f.s, 56#6], dsts := [BitVec.ofNat 6 f.d.toNat], samples := true }
  | .fadd2F16_16 f => { srcs := [f.s], dsts := [BitVec.ofNat 6 f.d.toNat], samples := true }
  | .nop_16 => {}
  | .add f => { srcs := [f.a, f.b], dsts := [f.d] }
  | .sub f => { srcs := [f.a, f.b], dsts := [f.d] }
  | .mul f => { srcs := [f.a, f.b], dsts := [f.d] }
  | .mulhS f => { srcs := [f.a, f.b], dsts := [f.d] }
  | .mulhN f => { srcs := [f.a, f.b], dsts := [f.d] }
  | .minS f => { srcs := [f.a, f.b], dsts := [f.d] }
  | .minN f => { srcs := [f.a, f.b], dsts := [f.d] }
  | .maxS f => { srcs := [f.a, f.b], dsts := [f.d] }
  | .maxN f => { srcs := [f.a, f.b], dsts := [f.d] }
  | .and f => { srcs := [f.a, f.b], dsts := [f.d] }
  | .or f => { srcs := [f.a, f.b], dsts := [f.d] }
  | .xor f => { srcs := [f.a, f.b], dsts := [f.d] }
  | .andn f => { srcs := [f.a, f.b], dsts := [f.d] }
  | .shl f => { srcs := [f.a, f.b], dsts := [f.d] }
  | .shr f => { srcs := [f.a, f.b], dsts := [f.d] }
  | .sar f => { srcs := [f.a, f.b], dsts := [f.d] }
  | .rotl f => { srcs := [f.a, f.b], dsts := [f.d] }
  | .bfeS f => { srcs := [f.a, f.b], dsts := [f.d] }
  | .bfeN f => { srcs := [f.a, f.b], dsts := [f.d] }
  | .abs f => { srcs := [f.a], dsts := [f.d] }
  | .neg f => { srcs := [f.a], dsts := [f.d] }
  | .clz f => { srcs := [f.a], dsts := [f.d] }
  | .popc f => { srcs := [f.a], dsts := [f.d] }
  | .brev f => { srcs := [f.a], dsts := [f.d] }
  | .cmp f => { sel := f.p != 0#3, srcs := [f.a, f.b] }
  | .fadd f => { srcs := [f.a, f.b], dsts := [f.d], samples := true }
  | .fsub f => { srcs := [f.a, f.b], dsts := [f.d], samples := true }
  | .fmul f => { srcs := [f.a, f.b], dsts := [f.d], samples := true }
  | .fmin f => { srcs := [f.a, f.b], dsts := [f.d] }
  | .fmax f => { srcs := [f.a, f.b], dsts := [f.d] }
  | .fdiv f => { srcs := [f.a, f.b], dsts := [f.d], samples := true }
  | .fsqrt f => { srcs := [f.a], dsts := [f.d], samples := true }
  | .frcp f => { srcs := [f.a], dsts := [f.d], samples := true }
  | .frsq f => { srcs := [f.a], dsts := [f.d], samples := true }
  | .fexp2 f => { srcs := [f.a], dsts := [f.d], samples := true }
  | .flog2 f => { srcs := [f.a], dsts := [f.d], samples := true }
  | .fsin f => { srcs := [f.a], dsts := [f.d], samples := true }
  | .fcos f => { srcs := [f.a], dsts := [f.d], samples := true }
  | .frnd f => { srcs := [f.a], dsts := [f.d], samples := true }
  | .fcmp f => { sel := f.p != 0#3, srcs := [f.a, f.b] }
  | .fclass f => { srcs := [f.a], dsts := [f.d] }
  | .cvt f => { sel := f.s != 7#3 && f.t != 7#3 && f.s != f.t, srcs := [f.a], dsts := [f.d], samples := cvtSamples f.s f.t }
  | .fadd2F16 f => { srcs := [f.a, f.b], dsts := [f.d], samples := true }
  | .fmul2F16 f => { srcs := [f.a, f.b], dsts := [f.d], samples := true }
  | .fadd2Bf16 f => { srcs := [f.a, f.b], dsts := [f.d], samples := true }
  | .fmul2Bf16 f => { srcs := [f.a, f.b], dsts := [f.d], samples := true }
  | .scan f => { sel := f.o.toNat ≤ 11, srcs := [f.a], dsts := [f.d], samples := f.o == 8#4 }
  | .sscan f => { sel := f.p != 0#3, srcs := [f.a], dsts := [f.d], samples := f.o == 5#3 }
  | .prev f => { srcs := [f.a, f.b], dsts := [f.d] }
  | .next f => { srcs := [f.a, f.b], dsts := [f.d] }
  | .bcast f => { srcs := [f.a, f.b], dsts := [f.d] }
  | .perm f => { srcs := [f.a, f.b], dsts := [f.d] }
  | .rdx f => { sel := f.o.toNat ≤ 11, srcs := [f.a], dsts := [f.d], samples := f.o == 8#4 }
  | .vote f => { sel := f.m.toNat ≤ 3, srcs := [f.a], dsts := [f.d] }
  | .rank f => { srcs := [f.a], dsts := [f.d] }
  | .ffma f => { srcs := [f.a, f.b, f.c], dsts := [f.d], samples := true }
  | .mad f => { srcs := [f.a, f.b, f.c], dsts := [f.d] }
  | .ffma2F16 f => { srcs := [f.a, f.b, f.c], dsts := [f.d], samples := true }
  | .ffma2Bf16 f => { srcs := [f.a, f.b, f.c], dsts := [f.d], samples := true }
  | .fdot2F16 f => { srcs := [f.a, f.b, f.c], dsts := [f.d], samples := true }
  | .dp4S8 f => { srcs := [f.a, f.b, f.c], dsts := [f.d] }
  | .dp4N8 f => { srcs := [f.a, f.b, f.c], dsts := [f.d] }
  | .sel f => { sel := 1 ≤ f.p.toNat && f.p.toNat ≤ 7, srcs := [f.a, f.b], dsts := [f.d] }
  | .bfi f => { srcs := [f.a, f.b, f.c], dsts := [f.d] }
  | .shf f => { srcs := [f.a, f.b, f.c], dsts := [f.d] }
  | .mulwS f => { srcs := [f.a, f.b, f.c], dsts := [f.d], vruns := [(f.d.toNat, 2, 2)] }
  | .mulwN f => { srcs := [f.a, f.b, f.c], dsts := [f.d], vruns := [(f.d.toNat, 2, 2)] }
  | .addi f => { srcs := [f.a], dsts := [f.d] }
  | .muli f => { srcs := [f.a], dsts := [f.d] }
  | .andi f => { srcs := [f.a], dsts := [f.d] }
  | .ori f => { srcs := [f.a], dsts := [f.d] }
  | .xori f => { srcs := [f.a], dsts := [f.d] }
  | .shli f => { srcs := [f.a], dsts := [f.d] }
  | .shri f => { srcs := [f.a], dsts := [f.d] }
  | .sari f => { srcs := [f.a], dsts := [f.d] }
  | .cmpi f => { sel := f.p != 0#3, srcs := [f.a] }
  | .movi f => { dsts := [f.d] }
  | .movhi f => { dsts := [f.d] }
  | .gadd f => { sel := f.i == 0#7 || f.b == 0#5 }
  | .gsub f => { sel := f.i == 0#7 || f.b == 0#5 }
  | .gmul f => { sel := f.i == 0#7 || f.b == 0#5 }
  | .gand f => { sel := f.i == 0#7 || f.b == 0#5 }
  | .gor f => { sel := f.i == 0#7 || f.b == 0#5 }
  | .gxor f => { sel := f.i == 0#7 || f.b == 0#5 }
  | .gshl f => { sel := f.i == 0#7 || f.b == 0#5 }
  | .gshr f => { sel := f.i == 0#7 || f.b == 0#5 }
  | .gmin f => { sel := f.i == 0#7 || f.b == 0#5 }
  | .gmax f => { sel := f.i == 0#7 || f.b == 0#5 }
  | .gcmp _ => {}
  | .gmovi _ => {}
  | .gmovhi _ => {}
  | .gtake f => { sel := !f.f || f.t == 0#5, srcs := [f.a] }
  | .gput f => { dsts := [f.d] }
  | .gballot f => { sel := f.p != 0#3 }
  | .ld f => { sel := f.z != 7#3 && orderOk f.s f.o, srcs := [f.a], dsts := [f.d], vruns := sizeRun f.z f.d, wins := [f.w] }
  | .st f => { sel := f.z != 7#3 && orderOk f.s f.o && !(f.z.toNat ≥ 5 && 48 ≤ f.d.toNat && f.d.toNat ≤ 60), srcs := [f.d, f.a], vruns := sizeRun f.z f.d, wins := [f.w], samples := 4 ≤ f.z.toNat }
  | .ldi f => { sel := f.z != 7#3, dsts := [f.d], vruns := sizeRun f.z f.d, wins := [f.w] }
  | .sti f => { sel := f.z != 7#3 && !(f.z.toNat ≥ 5 && 48 ≤ f.d.toNat && f.d.toNat ≤ 60), srcs := [f.d], vruns := sizeRun f.z f.d, wins := [f.w], samples := 4 ≤ f.z.toNat }
  | .atom f => { sel := f.s != 7#3, srcs := [f.a], dsts := [f.d], vruns := atomRun f.o f.d, wins := [f.w], samples := f.o == 11#4 }
  | .red f => { sel := f.s != 7#3 && f.o != 8#4 && f.o != 9#4 && f.o != 15#4 && !(f.o == 10#4 && 48 ≤ f.d.toNat && f.d.toNat ≤ 60), srcs := [f.d, f.a], vruns := atomRun f.o f.d, wins := [f.w], samples := f.o == 11#4 }
  | .lda f => { sel := f.z != 7#3, srcs := [f.a], dsts := [f.d], vruns := sizeRun f.z f.d, wins := [f.w] }
  | .sta f => { sel := f.z != 7#3 && !(f.z.toNat ≥ 5 && 48 ≤ f.d.toNat && f.d.toNat ≤ 60), srcs := [f.d, f.a], vruns := sizeRun f.z f.d, wins := [f.w], samples := 4 ≤ f.z.toNat }
  | .gld f => { sel := (f.z == 4#3 || f.z == 5#3) && orderOk f.s f.o, wins := [f.w] }
  | .gst f => { sel := (f.z == 4#3 || f.z == 5#3) && orderOk f.s f.o, wins := [f.w] }
  | .wopen f => { sel := f.r || f.x }
  | .bld f => { sel := f.z != 7#3, srcs := [f.a], dsts := [f.d], vruns := sizeRun f.z f.d }
  | .bst f => { sel := f.z != 7#3 && !(f.z.toNat ≥ 5 && 48 ≤ f.d.toNat && f.d.toNat ≤ 60), srcs := [f.d, f.a], vruns := sizeRun f.z f.d }
  | .batom f => { srcs := [f.a], dsts := [f.d], vruns := atomRun f.o f.d, samples := f.o == 11#4 }
  | .fence f => { sel := f.k != 3#2 && f.s != 7#3 }
  | .cache f => { sel := f.o.toNat ≤ 4, wins := [f.w] }
  | .br _ => {}
  | .jmp _ => {}
  | .join _ => {}
  | .meet _ => {}
  | .brx _ => {}
  | .call _ => {}
  | .calli _ => {}
  | .ret _ => {}
  | .switch f => { srcs := [f.a] }
  | .exit _ => {}
  | .nop _ => {}
  | .yield _ => {}
  | .wait f => { sel := (f.z == 4#3 || f.z == 5#3) && f.s != 7#3, wins := [f.w] }
  | .mark _ => {}
  | .tfence _ => {}
  | .tcall _ => {}
  | .brk _ => {}
  | .spawn f => { sel := f.t == (f.p != 0#3), dsts := [f.a], vruns := [(f.a.toNat, 4, 4)] }
  | .launch f => { wins := [f.w] }
  | .bar f => { sel := 1 ≤ f.s.toNat && f.s.toNat ≤ 5 && (f.s != 3#3 || f.n.toNat < 16) && (f.s != 4#3 || f.n.toNat < 8) && (f.s != 5#3 || f.n.toNat < 4) }
  | .xpand f => { sel := f.z != 3#2 && f.o.toNat ≤ 11, srcs := [f.a, f.b] }
  | .xnext f => { sel := f.p != 0#3, dsts := [f.d] }
  | .sred f => { srcs := [f.a], samples := true }
  | .xend f => { dsts := [f.d] }
  | .copy f => { sruns := [(f.a.toNat, 3)], wins := [f.d, f.s], samples := true }
  | .gather f => { sruns := [(f.a.toNat, 3)], wins := [f.d, f.s, f.i], samples := true }
  | .scatter f => { sruns := [(f.a.toNat, 3)], wins := [f.d, f.s, f.i], samples := true }
  | .cwait _ => {}
  | .cpoll _ => {}
  | .carm _ => {}
  | .mma f => { sel := f.v.toNat ≤ 5 && f.y != 3#2 && (!f.n || f.w == 0#3), vruns := [(8 * f.v.toNat, mmaRegs f.h f.y, 1)], wins := if f.n then [] else [f.w] }
  | .mmat f => { sel := f.y.toNat ≤ 4, sruns := [(f.a.toNat, 2)], tile4 := if f.h.toNat ≥ 2 then some f.t else none, wins := [f.c, f.b] }
  | .mlut f => { sruns := [(f.a.toNat, 2)], tile4 := if f.h.toNat ≥ 2 then some f.t else none, wins := [f.c, f.b] }
  | .msp f => { sel := f.y.toNat ≤ 4, sruns := [(f.a.toNat, 2)], tile4 := if f.h.toNat ≥ 2 then some f.t else none, wins := [f.c, f.b] }
  | .mzero f => { tile4 := if f.q then some f.t else none }
  | .mdrainReg f => { sel := f.y.toNat ≤ 2, dsts := [f.v], vruns := [(f.v.toNat, if f.y == 0#3 then 32 else 16, 1)], samples := true }
  | .mdrainMem f => { sel := f.y.toNat ≤ 5 && f.s != 7#3, sruns := [(f.a.toNat, if f.s != 0#3 then 3 else if f.b then 2 else 1)], tile4 := if f.q then some f.t else none, wins := [f.w], samples := true }
  | .mload f => { sel := f.y.toNat ≤ 5, tile4 := if f.q then some f.t else none, wins := [f.w] }
  | .path f => { sel := f.o != 3#2 && (f.o == 0#2 || f.n == 0#10), sruns := [(f.a.toNat, if f.o == 2#2 then 2 else 3)] }
  | .seg f => { sel := f.k != 3#2 && f.p != 0#3, srcs := [f.a], vruns := [(f.a.toNat, 2 * f.k.toNat + 4, 8)] }
  | .pend _ => {}
  | .tbind f => { sel := f.i != 3#2, sruns := [(f.a.toNat, 2)], wins := [f.w], samples := f.i == 1#2 }
  | .cdep f => { sruns := [(f.d.toNat, 3)] }
  | .cscan _ => {}
  | .clpush _ => {}
  | .clpop _ => {}
  | .cspan _ => {}
  | .tblend f => { srcs := [f.a], vruns := [(f.a.toNat, 2, 2)] }
  | .tload f => { wins := [f.w] }
  | .tflush _ => { samples := true }
  | .covget f => { srcs := [f.a], dsts := [f.d] }
  | .cget f => { sel := cregAssigned f.n.toNat }
  | .cput f => { sel := cregAssigned f.n.toNat && f.n.toNat != 4 && f.n.toNat != 6 && f.n.toNat != 7 }
  | .rte _ => { priv := true }
  | .tlbinv f => { sel := f.k.toNat ≤ 3, priv := true }
  | .park _ => { priv := true }
  | .launchCommand fe q => { sel := queueOk fe q }
  | .copyCommand fe q => { sel := queueOk fe q }
  | .signal fe q => { sel := queueOk fe q }
  | .waitCommand fe q => { sel := queueOk fe q }
  | .fenceCommand fe q => { sel := queueOk fe q }
  | .contextCreate => {}
  | .contextWrite => {}
  | .contextDestroy => {}
  | .answerRetry => {}
  | .answerDeliver => {}
  | .answerRefuse => {}
  | .answerStop => {}
  | .preemptSoft => {}
  | .preemptHard => {}
  | .resume => {}
  | .partset => {}
  | .fwload => {}
  | .qtailWrite fe q _ => { sel := queueOk fe q }
  | .queueEnable fe q => { sel := queueOk fe q }
  | .queueDisable fe q => { sel := queueOk fe q }
  | .fbtailWrite asid _ => { sel := asid < 2048 }
  | .warmReset die => { sel := die < 4 }
  | .benchszWrite core _ => { sel := core < 256 }
  | .amaskWrite _ => {}
  | .registerWrite _ r _ => { sel := r.ok }
  | .coldReset => {}
  | .packingTimerExpiry asid core entry _ => { sel := asid < 2048 && core < 256 && entry < 1024 }
  | .packedGroupAdmit asid core => { sel := asid < 2048 && core < 256 }
  | .blockPlace fe => { sel := fe < 64 }
  | .laneSelect core lane => { sel := core < 256 && lane < 128 }
  | .stintBreak core lane => { sel := core < 256 && lane < 128 }
  | .parkFill core => { sel := core < 256 }
  | .idlePark core _ => { sel := core < 256 }
  | .rotation core => { sel := core < 256 }
  | .parkMoveComplete core => { sel := core < 256 }
  | .waitWake _ => {}
  | .waitTimeout _ => {}
  | .loadDataArrival _ => {}
  | .enginePageFault _ => {}
  | .engineFailure _ => {}
  | .engineOpComplete _ => {}
  | .matrixStepDone core => { sel := core < 256 }
  | .matrixInstrDone core => { sel := core < 256 }
  | .accumulatorSwap core => { sel := core < 256 }
  | .tileStoreSwap core asid => { sel := core < 256 && asid < 2048 }
  | .scribeDone _ => {}
  | .depositDone _ => {}
  | .blendApply asid core slot cell => { sel := asid < 2048 && core < 256 && slot < 16 && cell < 256 }
  | .contributionApply asid core slot => { sel := asid < 2048 && core < 256 && slot < 16 }
  | .quantumEnd _ => {}
  | .commitApply asid => { sel := asid < 2048 }
  | .l1WritebackTimeout core _ => { sel := core < 256 }
  | .l1CleanDropTimeout core _ => { sel := core < 256 }
  | .rdcDropTimeout die _ => { sel := die < 4 }
  | .tlbinvDone _ => {}
  | .preemptDeadline asid => { sel := asid < 2048 }
  | .bboxMirror die => { sel := die < 4 }
  | .powerSample die _ => { sel := die < 4 }
  | .thermalGate die _ => { sel := die < 4 }
  | .thermalTrip die _ => { sel := die < 4 }
  | .thermalRecover die _ => { sel := die < 4 }
  | .machineCheck _ _ => {}
  | .coreFence core => { sel := core < 256 }
  | .dramRowSparing die channel => { sel := die < 4 && channel < 512 }
  | .laneDrop die _ => { sel := die < 4 }
  | .recalibration die _ => { sel := die < 4 }
  | .dirtyLineError _ => {}
  | .firmwareSwitch die => { sel := die < 4 }
  | .atsInvalidate _ _ _ => {}
  | .atsTranslationCompletion _ _ _ _ _ => {}
  | .priResponse _ _ => {}
  | .attestationRequest partition _ => { sel := (partition < 64 || partition == 0xFFFFFFFF) }
  | .ideKeyProgram stream _ => { sel := stream < 65 }
  | .tdispLock partition => { sel := partition < 64 }
  | .tdispStart partition => { sel := partition < 64 }
  | .tdispStop partition => { sel := partition < 64 }
  | .queueWaitPoll fe q => { sel := queueOk fe q }
  | .queueSwitch fe q => { sel := queueOk fe q }
  | .dieReady die => { sel := die < 4 }
  | .remoteGatherPart _ => {}
  | .podBarrierArrival job a => { sel := job < 4096 && a.number < 4 }

end Sys2Proof
end

