-- ==== Sys2Proof/Config.lean ====
section
/-!
DEFINITION. What one module fixes and the spec leaves open. Every constant here is opaque: no proof can see its value.
-/

namespace Sys2Proof.Config

/-- R167: whether, of two threads' stores of one instruction to one byte, the later thread's stands last. The argument
is the state's free-value counter. (log entry 13) -/
opaque laterStoreWins : Nat → Bool

/-- R159: whether a `.rep` load that a replica could serve is served by it. (log entry 15) -/
opaque replicaServes : Nat → Bool

/-- R330: whether both signatures of a firmware image verify. The argument is the image's bytes. (log entry 14) -/
opaque signaturesVerify : List Byte → Bool

/-- R330: the digests fused in a die, of the Ed25519 public key and of the ML-DSA-65 one. (log entry 14) -/
opaque fusedDigests : Nat → List Byte × List Byte

/-- R330: the security version fused in a die. (log entry 14) -/
opaque fusedMinimum : Nat → Nat

/-- R331: the two signatures of a die's alias keys over a message. (log entry 14) -/
opaque signReport : Nat → List Byte → List Byte

/-- R139: how many contributions of an expansion its spill area holds beyond the 64 on chip. (log entry 24) -/
opaque spillRoom : Nat

/-- A byte the spec gives no value. The first argument is the state's free-value counter, the second the place.
(log entry 3) -/
opaque freeByte : Nat → Nat → Byte

end Sys2Proof.Config
end

