-- ==== Sys2Proof/Machine/Flags.lean ====
section
/-!
DEFINITION. The flags of FFLAGS and the one rounding function of the machine (R215 to R217), with the stochastic
bits of R218. Everything that rounds calls `roundTo` or `roundInt`, and everything that sets a flag uses the names
of this file.
-/

namespace Sys2Proof.Machine

/-- The seven flags of FFLAGS (R221), bit 0 being NX. -/
abbrev Flags := BitVec 7

def flagNX  : Flags := 0x01#7
def flagUF  : Flags := 0x02#7
def flagOF  : Flags := 0x04#7
def flagDZ  : Flags := 0x08#7
def flagNV  : Flags := 0x10#7
def flagFMT : Flags := 0x20#7
def flagCOV : Flags := 0x40#7

/-- A flag when a condition holds. -/
def flagIf (c : Bool) (f : Flags) : Flags := if c then f else 0#7

/-- The rounding modes of FPMODE.RM (R215). -/
inductive RMode where
  | rne | rtz | rup | rdn | rsr
  deriving DecidableEq, Repr

/-- The mode an RM code names; codes 5 to 7 name none (ILLOP cause 8 when sampled, R215). -/
def RMode.ofCode (c : BitVec 3) : Option RMode :=
  match c.toNat with
  | 0 => some .rne
  | 1 => some .rtz
  | 2 => some .rup
  | 3 => some .rdn
  | 4 => some .rsr
  | _ => none

/-- A rounding's inputs: the sampled mode and its 32 stochastic bits (R216, R218). -/
structure Rnd where
  mode : RMode
  bits : Nat
  deriving DecidableEq, Repr

/-- A sampled mode with the RNE fallback that no sampling instruction reaches (cause 8 comes first). -/
def rmodeOf (c : BitVec 3) : RMode := (RMode.ofCode c).getD .rne

/-- R218: the 32 bits mixed from two 64-bit words. -/
def mix (a b : Nat) : Nat :=
  let m := 2 ^ 64
  let z := (a + b * 0xD6E8FEB86659FD93) % m
  let z := ((z ^^^ (z >>> 30)) * 0xBF58476D1CE4E5B9) % m
  let z := ((z ^^^ (z >>> 27)) * 0x94D049BB133111EB) % m
  let z := z ^^^ (z >>> 31)
  z / 2 ^ 32 % 2 ^ 32

/-- R218: the word `a` of an origin, D being 0 for a launched group's lane instruction, 1 for a packed thread's,
2 for an engine or matrix operation; `c0` counts only with D = 1. -/
def mixA (fpseed lidx d c0 : Nat) : Nat :=
  let a := fpseed ^^^ (lidx * 0x9E3779B97F4A7C15 % 2 ^ 64) ^^^ (d * 2 ^ 62)
  if d = 1 then a ^^^ (c0 * 0xC2B2AE3D27D4EB4F % 2 ^ 64) else a

/-- R218: the word `b` of a lane instruction. -/
def mixLane (c t j : Nat) : Nat := c % 2 ^ 48 + t * 2 ^ 48 + j * 2 ^ 53

/-- R218: the word `b` of an engine or matrix operation's output element. -/
def mixEngine (c n : Nat) : Nat := c % 2 ^ 32 + n % 2 ^ 32 * 2 ^ 32

/-- A nonnegative real to be rounded: `(m + θ) × 2^e` with θ = 0, or 0 < θ < 1 when `sticky`. A sticky value's `m`
always has far more bits than any format keeps, so θ only breaks ties and comparisons. -/
structure Mag where
  m      : Nat
  e      : Int
  sticky : Bool := false
  deriving DecidableEq, Repr

/-- R216: a magnitude rounded to a multiple of `2^g`; answers the multiple and whether it differs from the value.
Rounding away from zero is decided exactly, under `rsr` by `r < f × 2^32`. -/
def roundMag (r : Rnd) (neg : Bool) (x : Mag) (g : Int) : Nat × Bool :=
  if g ≤ x.e then (x.m * 2 ^ (x.e - g).toNat, x.sticky)
  else
    let d := (g - x.e).toNat
    let q := x.m / 2 ^ d
    let rem := x.m % 2 ^ d
    let inexact := rem != 0 || x.sticky
    let up :=
      match r.mode with
      | .rne => decide (2 ^ d < 2 * rem) || (2 * rem == 2 ^ d && (x.sticky || q % 2 == 1))
      | .rtz => false
      | .rup => !neg && inexact
      | .rdn => neg && inexact
      | .rsr => decide (r.bits * 2 ^ d < rem * 2 ^ 32) || (r.bits * 2 ^ d == rem * 2 ^ 32 && x.sticky)
    (if up then q + 1 else q, inexact)

/-- R216 to an integer: the integral neighbour the mode chooses, and whether it differs from the value. -/
def roundInt (r : Rnd) (neg : Bool) (x : Mag) : Int × Bool :=
  let (q, inexact) := roundMag r neg x 0
  (if neg then -(q : Int) else (q : Int), inexact)

/-- A binary format of R213: the precision with the hidden bit, the exponent field's width, emin and emax. -/
structure FFmt where
  p     : Nat
  ebits : Nat
  emin  : Int
  emax  : Int
  deriving DecidableEq, Repr

def fp32 : FFmt := ⟨24, 8, -126, 127⟩
def fp16 : FFmt := ⟨11, 5, -14, 15⟩
def bf16 : FFmt := ⟨8, 8, -126, 127⟩

/-- The all-ones exponent field of a format, over its fraction. -/
def FFmt.infBits (f : FFmt) : Nat := (2 ^ f.ebits - 1) * 2 ^ (f.p - 1)

/-- R214: the canonical quiet NaN. -/
def FFmt.nanBits (f : FFmt) : Nat := f.infBits + 2 ^ (f.p - 2)

/-- The sign bit of a format. -/
def FFmt.signBit (f : FFmt) : Nat := 2 ^ (f.ebits + f.p - 1)

/-- A signed pattern. -/
def FFmt.signed (f : FFmt) (neg : Bool) (mag : Nat) : Nat := if neg then f.signBit + mag else mag

/-- A result with the flags its operation sets. -/
structure FRes where
  bits  : Nat
  flags : Flags := 0#7
  deriving DecidableEq, Repr

/-- The pattern of a magnitude `n × 2^g` on the format's grid, below the overflow threshold. -/
def FFmt.pack (f : FFmt) (n : Nat) (g : Int) : Nat :=
  if n < 2 ^ (f.p - 1) then n
  else if n = 2 ^ f.p then
    (g + f.p - f.emin + 1).toNat * 2 ^ (f.p - 1)
  else
    (g + (f.p - 1) - f.emin + 1).toNat * 2 ^ (f.p - 1) + (n - 2 ^ (f.p - 1))

/-- R216, R217: round a nonzero magnitude with a sign to a format, with NX, OF and UF. -/
def roundTo (f : FFmt) (r : Rnd) (neg : Bool) (x : Mag) : FRes :=
  let top : Int := Nat.log2 x.m + x.e
  let gu : Int := top - (f.p - 1)
  let gmin : Int := f.emin - (f.p - 1)
  let nu := (roundMag r neg x gu).1
  let topU : Int := if nu = 2 ^ f.p then top + 1 else top
  if f.emax < topU then
    let toInf := match r.mode with
      | .rne => true
      | .rtz => false
      | .rup => !neg
      | .rdn => neg
      | .rsr => true
    ⟨f.signed neg (if toInf then f.infBits else f.infBits - 1), flagOF ||| flagNX⟩
  else
    let g := if gu < gmin then gmin else gu
    let (n, inexact) := roundMag r neg x g
    let tiny := decide (topU < f.emin)
    ⟨f.signed neg (f.pack n g), flagIf inexact flagNX ||| flagIf (tiny && inexact) flagUF⟩

end Sys2Proof.Machine
end

