-- ==== Sys2Proof/Machine/Float.lean ====
section
/-!
DEFINITION. Floating point on bit patterns (R213, R214, R234 to R239): every result is computed exactly, as an
integer times a power of two, and rounded once by `roundTo`. Irrational results are computed to far more bits than
any format keeps and marked sticky (log entry 12).
-/

namespace Sys2Proof.Machine

/-- A decoded pattern: a NaN with its signalling mark, an infinity, or `(-1)^neg × m × 2^e`. -/
inductive FVal where
  | nan (signalling : Bool)
  | inf (neg : Bool)
  | fin (neg : Bool) (m : Nat) (e : Int)
  deriving DecidableEq, Repr

/-- R213: the value of a pattern. -/
def FFmt.decode (f : FFmt) (b : Nat) : FVal :=
  let frac := b % 2 ^ (f.p - 1)
  let ex := b / 2 ^ (f.p - 1) % 2 ^ f.ebits
  let neg := b / f.signBit % 2 == 1
  if ex = 2 ^ f.ebits - 1 then
    if frac = 0 then .inf neg else .nan (frac < 2 ^ (f.p - 2))
  else if ex = 0 then .fin neg frac (f.emin - (f.p - 1))
  else .fin neg (frac + 2 ^ (f.p - 1)) (f.emin + (ex : Int) - 1 - (f.p - 1))

def FVal.isNaN : FVal → Bool
  | .nan _ => true
  | _ => false

/-- R214: a signalling NaN operand sets NV. -/
def FVal.snan : FVal → Flags
  | .nan true => flagNV
  | _ => 0#7

/-- NV when any operand is a signalling NaN. -/
def snans (vs : List FVal) : Flags := vs.foldl (fun f v => f ||| v.snan) 0#7

/-- A signed exact term `(-1)^neg × m × 2^e`. -/
structure Term where
  neg : Bool
  m   : Nat
  e   : Int
  deriving DecidableEq, Repr

/-- The exact sum of terms, as an integer over the least exponent. -/
def sumTerms (ts : List Term) : Int × Int :=
  match ts with
  | [] => (0, 0)
  | t :: rest =>
    let e := rest.foldl (fun e u => if u.e < e then u.e else e) t.e
    (ts.foldl (fun s u =>
      let v : Int := ((u.m * 2 ^ (u.e - e).toNat : Nat) : Int)
      if u.neg then s - v else s + v) 0, e)

/-- R214: the sign of an exact zero: the common sign of the terms, else minus under `rdn` alone. -/
def zeroNeg (r : Rnd) (ts : List Term) : Bool :=
  if ts.all (·.neg) then true else if ts.all (fun t => !t.neg) then false else r.mode == .rdn

/-- One rounding of the exact sum of terms. -/
def roundSum (f : FFmt) (r : Rnd) (ts : List Term) : FRes :=
  let (v, e) := sumTerms ts
  if v = 0 then ⟨f.signed (zeroNeg r ts) 0, 0#7⟩
  else roundTo f r (decide (v < 0)) ⟨v.natAbs, e, false⟩

/-- A NaN result with the flags of the operation. -/
def nanRes (f : FFmt) (fl : Flags) : FRes := ⟨f.nanBits, fl⟩

/-- Addition in one format (R234, R235). -/
def fAdd (f : FFmt) (r : Rnd) (a b : Nat) : FRes :=
  match f.decode a, f.decode b with
  | .nan s, y => nanRes f (snans [.nan s, y])
  | x, .nan s => nanRes f (snans [x, .nan s])
  | .inf s, .inf t => if s == t then ⟨f.signed s f.infBits, 0#7⟩ else nanRes f flagNV
  | .inf s, .fin .. => ⟨f.signed s f.infBits, 0#7⟩
  | .fin .., .inf t => ⟨f.signed t f.infBits, 0#7⟩
  | .fin s m e, .fin t n g => roundSum f r [⟨s, m, e⟩, ⟨t, n, g⟩]

/-- Subtraction: addition of the negated operand; a NaN keeps its kind under negation. -/
def fSub (f : FFmt) (r : Rnd) (a b : Nat) : FRes := fAdd f r a (b ^^^ f.signBit)

/-- Multiplication in one format (R234, R235). -/
def fMul (f : FFmt) (r : Rnd) (a b : Nat) : FRes :=
  match f.decode a, f.decode b with
  | .nan s, y => nanRes f (snans [.nan s, y])
  | x, .nan s => nanRes f (snans [x, .nan s])
  | .inf s, .inf t => ⟨f.signed (s != t) f.infBits, 0#7⟩
  | .inf s, .fin t n _ => if n = 0 then nanRes f flagNV else ⟨f.signed (s != t) f.infBits, 0#7⟩
  | .fin s m _, .inf t => if m = 0 then nanRes f flagNV else ⟨f.signed (s != t) f.infBits, 0#7⟩
  | .fin s m e, .fin t n g => roundSum f r [⟨s != t, m * n, e + g⟩]

/-- An exact product, before any sum: a NaN operand, an invalid product, an infinity or a term. -/
inductive Prod where
  | nan
  | invalid
  | inf (neg : Bool)
  | term (t : Term)
  deriving DecidableEq, Repr

/-- The exact product of two decoded values. -/
def mulExact (x y : FVal) : Prod :=
  match x, y with
  | .nan _, _ => .nan
  | _, .nan _ => .nan
  | .inf s, .inf t => .inf (s != t)
  | .inf s, .fin t n _ => if n = 0 then .invalid else .inf (s != t)
  | .fin s m _, .inf t => if m = 0 then .invalid else .inf (s != t)
  | .fin s m e, .fin t n g => .term ⟨s != t, m * n, e + g⟩

/-- A decoded value as an addend. -/
def FVal.addend : FVal → Prod
  | .nan _ => .nan
  | .inf s => .inf s
  | .fin s m e => .term ⟨s, m, e⟩

/-- The finite terms of a list of addends. -/
def finiteTerms (ps : List Prod) : List Term :=
  ps.filterMap fun p => match p with
    | .term t => some t
    | _ => none

/-- R232: one rounding of an exact sum of products and addends. An invalid product, beside a quiet NaN too (log entry 134), or opposite
infinities set NV; `snan` holds the flags of signalling operands. -/
def roundProds (f : FFmt) (r : Rnd) (snan : Flags) (ps : List Prod) : FRes :=
  let invalid := ps.any (· == .invalid)
  let pinf := ps.any (· == .inf false)
  let ninf := ps.any (· == .inf true)
  if invalid then nanRes f (snan ||| flagNV)
  else if ps.any (· == .nan) then nanRes f snan
  else if pinf && ninf then nanRes f (snan ||| flagNV)
  else if pinf then ⟨f.signed false f.infBits, snan⟩
  else if ninf then ⟨f.signed true f.infBits, snan⟩
  else roundSum f r (finiteTerms ps)

/-- R232: `a × b + c` with one rounding. -/
def fFma (f : FFmt) (r : Rnd) (a b c : Nat) : FRes :=
  let x := f.decode a
  let y := f.decode b
  let z := f.decode c
  roundProds f r (snans [x, y, z]) [mulExact x y, z.addend]

/-- R232: `a0 × b0 + a1 × b1 + c` with packed FP16 factors and an FP32 addend, rounded once to FP32. -/
def fDot2 (r : Rnd) (a b c : Nat) : FRes :=
  let a0 := fp16.decode (a % 2 ^ 16)
  let a1 := fp16.decode (a / 2 ^ 16)
  let b0 := fp16.decode (b % 2 ^ 16)
  let b1 := fp16.decode (b / 2 ^ 16)
  let z := fp32.decode c
  roundProds fp32 r (snans [a0, a1, b0, b1, z]) [mulExact a0 b0, mulExact a1 b1, z.addend]

/-- R239: a packed operation on the two halves, element 0 in bits 15:0; `r e` gives the rounding of element `e`. -/
def packed2 (op : Rnd → Nat → Nat → FRes) (r : Nat → Rnd) (a b : Nat) : FRes :=
  let lo := op (r 0) (a % 2 ^ 16) (b % 2 ^ 16)
  let hi := op (r 1) (a / 2 ^ 16 % 2 ^ 16) (b / 2 ^ 16 % 2 ^ 16)
  ⟨lo.bits + hi.bits * 2 ^ 16, lo.flags ||| hi.flags⟩

/-- R232: a packed fused multiply-add. -/
def packedFma2 (f : FFmt) (r : Nat → Rnd) (a b c : Nat) : FRes :=
  let lo := fFma f (r 0) (a % 2 ^ 16) (b % 2 ^ 16) (c % 2 ^ 16)
  let hi := fFma f (r 1) (a / 2 ^ 16 % 2 ^ 16) (b / 2 ^ 16 % 2 ^ 16) (c / 2 ^ 16 % 2 ^ 16)
  ⟨lo.bits + hi.bits * 2 ^ 16, lo.flags ||| hi.flags⟩

/-- Bits kept by a quotient or a root before rounding. -/
def workBits : Nat := 192

/-- A nonzero quotient, rounded once. -/
def roundQuot (f : FFmt) (r : Rnd) (neg : Bool) (m : Nat) (e : Int) (n : Nat) (g : Int) : FRes :=
  let num := m * 2 ^ workBits
  roundTo f r neg ⟨num / n, e - g - workBits, num % n != 0⟩

/-- FP32 division (R234, R235). -/
def fDiv (r : Rnd) (a b : Nat) : FRes :=
  match fp32.decode a, fp32.decode b with
  | .nan s, y => nanRes fp32 (snans [.nan s, y])
  | x, .nan s => nanRes fp32 (snans [x, .nan s])
  | .inf _, .inf _ => nanRes fp32 flagNV
  | .inf s, .fin t _ _ => ⟨fp32.signed (s != t) fp32.infBits, 0#7⟩
  | .fin s _ _, .inf t => ⟨fp32.signed (s != t) 0, 0#7⟩
  | .fin s m e, .fin t n g =>
    if n = 0 then
      if m = 0 then nanRes fp32 flagNV else ⟨fp32.signed (s != t) fp32.infBits, flagDZ⟩
    else if m = 0 then ⟨fp32.signed (s != t) 0, 0#7⟩
    else roundQuot fp32 r (s != t) m e n g

/-- The reciprocal: division of 1 (R234). -/
def fRcp (r : Rnd) (a : Nat) : FRes := fDiv r 0x3F800000 a

/-- One bit of an integer square root: keeps `s` when `(s + 2^k)² ≤ n` fails. -/
def isqrtBits (n : Nat) : Nat → Nat → Nat
  | 0, s => s
  | k + 1, s =>
    let t := s + 2 ^ k
    isqrtBits n k (if t * t ≤ n then t else s)

/-- The integer square root, floor. -/
def isqrt (n : Nat) : Nat := isqrtBits n (Nat.log2 n / 2 + 1) 0

/-- The square root of a positive magnitude, with the exponent made even first. -/
def sqrtMag (m : Nat) (e : Int) : Mag :=
  let m' := if e % 2 = 0 then m else 2 * m
  let e' := if e % 2 = 0 then e else e - 1
  let n := m' * 2 ^ (2 * workBits)
  let s := isqrt n
  ⟨s, e' / 2 - workBits, s * s != n⟩

/-- FP32 square root (R234, R235). -/
def fSqrt (r : Rnd) (a : Nat) : FRes :=
  match fp32.decode a with
  | .nan s => nanRes fp32 (FVal.nan s).snan
  | .inf neg => if neg then nanRes fp32 flagNV else ⟨fp32.infBits, 0#7⟩
  | .fin neg m e =>
    if m = 0 then ⟨fp32.signed neg 0, 0#7⟩
    else if neg then nanRes fp32 flagNV
    else roundTo fp32 r false (sqrtMag m e)

/-- The reciprocal square root (R234, R235). -/
def fRsq (r : Rnd) (a : Nat) : FRes :=
  match fp32.decode a with
  | .nan s => nanRes fp32 (FVal.nan s).snan
  | .inf neg => if neg then nanRes fp32 flagNV else ⟨0, 0#7⟩
  | .fin neg m e =>
    if m = 0 then ⟨fp32.signed neg fp32.infBits, flagDZ⟩
    else if neg then nanRes fp32 flagNV
    else
      let m' := if e % 2 = 0 then m else 2 * m
      let e' := if e % 2 = 0 then e else e - 1
      let n := 2 ^ (2 * workBits)
      let s := isqrt (n / m')
      roundTo fp32 r false ⟨s, -(workBits : Int) - e' / 2, s * s * m' != n⟩

/-- Fixed-point bits of the function series, and how many of the lowest are dropped before rounding. -/
def fixBits : Nat := 512
def guardBits : Nat := 64

/-- floor(ln 2 × 2^512) and floor(2π × 2^512 / 2), to the last guard bits. -/
def fixLn2 : Nat :=
  0xb17217f7d1cf79abc9e3b39803f2f6af40f343267298b62d8a0d175b8baafa2be7b876206debac98559552fb4afa1b10ed2eae35c138214427573b291169b825
def fixPi : Nat :=
  0x3243f6a8885a308d313198a2e03707344a4093822299f31d0082efa98ec4e6c89452821e638d01377be5466cf34e90c6cc0ac29b7c97c50dd3f84d5b5b5470917

/-- A sum of terms `t, t×x/k, …` of an exponential series: `fuel` further terms, `k` the next divisor. -/
def expTerms (x : Nat) : Nat → Nat → Nat → Nat → Nat
  | 0, _, _, acc => acc
  | fuel + 1, k, t, acc =>
    let t' := t * x / 2 ^ fixBits / k
    expTerms x fuel (k + 1) t' (acc + t')

/-- e^x in fixed point, 0 ≤ x < 1. -/
def fixExp (x : Nat) : Nat := expTerms x 120 1 (2 ^ fixBits) (2 ^ fixBits)

/-- The terms `±x^k/k!` of a sine or cosine series, two powers a step, alternating. -/
def trigTerms (x2 : Nat) : Nat → Nat → Nat → Bool → Nat → Nat → Nat
  | 0, _, _, _, pos, neg => pos - neg
  | fuel + 1, k, t, minus, pos, neg =>
    let t' := t * x2 / 2 ^ fixBits / (k * (k + 1))
    if minus then trigTerms x2 fuel (k + 2) t' false pos (neg + t')
    else trigTerms x2 fuel (k + 2) t' true (pos + t') neg

/-- sin x and cos x in fixed point, 0 ≤ x ≤ π/2. -/
def fixSin (x : Nat) : Nat := trigTerms (x * x / 2 ^ fixBits) 64 2 x true x 0
def fixCos (x : Nat) : Nat :=
  trigTerms (x * x / 2 ^ fixBits) 64 1 (2 ^ fixBits) true (2 ^ fixBits) 0

/-- The terms `z^(2k+1)/(2k+1)` of the inverse hyperbolic tangent. -/
def atanhTerms (z2 : Nat) : Nat → Nat → Nat → Nat → Nat
  | 0, _, _, acc => acc
  | fuel + 1, k, t, acc =>
    let t' := t * z2 / 2 ^ fixBits
    atanhTerms z2 fuel (k + 2) t' (acc + t' / k)

/-- ln y in fixed point for `y = m / 2^k` in [1, 2). -/
def fixLn (m k : Nat) : Nat :=
  let z := (m - 2 ^ k) * 2 ^ fixBits / (m + 2 ^ k)
  2 * atanhTerms (z * z / 2 ^ fixBits) 170 3 z z

/-- A fixed-point magnitude of an irrational value, its guard bits dropped. -/
def irrational (v : Nat) (shift : Int) : Mag := ⟨v / 2 ^ guardBits, shift - fixBits + guardBits, true⟩

/-- 2^a (R234, R235). -/
def fExp2 (r : Rnd) (a : Nat) : FRes :=
  match fp32.decode a with
  | .nan s => nanRes fp32 (FVal.nan s).snan
  | .inf neg => ⟨if neg then 0 else fp32.infBits, 0#7⟩
  | .fin neg m e =>
    if m = 0 then ⟨0x3F800000, 0#7⟩
    else if 0 ≤ e && decide (1024 ≤ m * 2 ^ e.toNat) || decide (0 ≤ (Nat.log2 m : Int) + e - 10) then
      roundTo fp32 r false ⟨1, if neg then -1000 else 1000, true⟩
    else
      -- |a| < 1024: split into an integer and a fraction in [0, 1)
      let k := (-e).toNat
      let v := m * 2 ^ e.toNat
      let n : Int := if neg then -(((v + 2 ^ k - 1) / 2 ^ k : Nat) : Int) else ((v / 2 ^ k : Nat) : Int)
      let frac := if neg then (2 ^ k - v % 2 ^ k) % 2 ^ k else v % 2 ^ k
      if frac = 0 then roundTo fp32 r false ⟨1, n, false⟩
      else
        let x := frac * fixLn2 / 2 ^ k
        roundTo fp32 r false (irrational (fixExp x) n)

/-- log₂ a (R234, R235). -/
def fLog2 (r : Rnd) (a : Nat) : FRes :=
  match fp32.decode a with
  | .nan s => nanRes fp32 (FVal.nan s).snan
  | .inf neg => if neg then nanRes fp32 flagNV else ⟨fp32.infBits, 0#7⟩
  | .fin neg m e =>
    if m = 0 then ⟨fp32.signed true fp32.infBits, flagDZ⟩
    else if neg then nanRes fp32 flagNV
    else
      let k := Nat.log2 m
      let n : Int := (k : Int) + e
      if m = 2 ^ k then
        if n = 0 then ⟨0, 0#7⟩ else roundTo fp32 r (decide (n < 0)) ⟨n.natAbs, 0, false⟩
      else
        let l := fixLn m k * 2 ^ fixBits / fixLn2
        if 0 ≤ n then roundTo fp32 r false (irrational (n.toNat * 2 ^ fixBits + l) 0)
        else roundTo fp32 r true (irrational ((-n).toNat * 2 ^ fixBits - l) 0)

/-- sin or cos of 2πa, where `quarter` is 0 for the sine and 1 for the cosine (R234, R235). -/
def fTrig (r : Rnd) (a quarter : Nat) : FRes :=
  match fp32.decode a with
  | .nan s => nanRes fp32 (FVal.nan s).snan
  | .inf _ => nanRes fp32 flagNV
  | .fin neg m e =>
    -- |a| = v / 2^k; four times it, a whole number of quadrants and a fraction
    let k := (-e).toNat
    let v := 4 * m * 2 ^ e.toNat
    let quad := v / 2 ^ k
    let frac := v % 2 ^ k
    let q := (quad + quarter) % 4
    let flip := if quarter = 0 then neg else false
    if frac = 0 then
      if q % 2 = 0 then ⟨fp32.signed (if quarter = 0 then neg else false) 0, 0#7⟩
      else ⟨fp32.signed (flip != (q == 3)) 0x3F800000, 0#7⟩
    else
      let x := frac * fixPi / 2 ^ k / 2
      roundTo fp32 r (flip != decide (2 ≤ q)) (irrational (if q % 2 = 0 then fixSin x else fixCos x) 0)

def fSin (r : Rnd) (a : Nat) : FRes := fTrig r a 0
def fCos (r : Rnd) (a : Nat) : FRes := fTrig r a 1

/-- A pattern's place in the order of R214, −0 just below +0. -/
def FFmt.key (f : FFmt) (b : Nat) : Int :=
  let mag := b % f.signBit
  if b / f.signBit % 2 = 1 then -(mag : Int) - 1 else mag

/-- minimumNumber and maximumNumber (R214). -/
def fMinMax (f : FFmt) (max : Bool) (a b : Nat) : FRes :=
  let x := f.decode a
  let y := f.decode b
  let fl := snans [x, y]
  if x.isNaN then ⟨if y.isNaN then f.nanBits else b, fl⟩
  else if y.isNaN then ⟨a, fl⟩
  else if max then ⟨if f.key a < f.key b then b else a, 0#7⟩
  else ⟨if f.key b < f.key a then b else a, 0#7⟩

/-- The absolute value of a pattern. -/
def FFmt.absBits (f : FFmt) (b : Nat) : Nat := b % f.signBit

/-- A value rounded to an integral FP32 value (R234, R235). -/
def fRnd (r : Rnd) (a : Nat) : FRes :=
  match fp32.decode a with
  | .nan s => nanRes fp32 (FVal.nan s).snan
  | .inf _ => ⟨a, 0#7⟩
  | .fin neg m e =>
    if 0 ≤ e then ⟨a, 0#7⟩
    else
      let (q, inexact) := roundMag r neg ⟨m, e, false⟩ 0
      let fl := flagIf inexact flagNX
      if q = 0 then ⟨fp32.signed neg 0, fl⟩ else ⟨(roundTo fp32 r neg ⟨q, 0, false⟩).bits, fl⟩

/-- R236: the one-hot class word. -/
def fClass (a : Nat) : Nat :=
  match fp32.decode a with
  | .nan true => 256
  | .nan false => 512
  | .inf true => 1
  | .inf false => 128
  | .fin neg m _ =>
    if m = 0 then (if neg then 8 else 16)
    else if m < 2 ^ 23 then (if neg then 4 else 32)
    else (if neg then 2 else 64)

/-- R237: a comparison of FP32 patterns under a condition of R54, with its flags. -/
def fCompare (cond a b : Nat) : Bool × Flags :=
  let x := fp32.decode a
  let y := fp32.decode b
  let nan := x.isNaN || y.isNaN
  let val (c : Nat) : Int := if c % 2 ^ 31 = 0 then 0 else fp32.key c + (if c / 2 ^ 31 % 2 = 1 then 1 else 0)
  let p := val a
  let q := val b
  let quiet := snans [x, y]
  let loud := flagIf nan flagNV
  match cond with
  | 0 => (!nan && p == q, quiet)
  | 1 => (nan || p != q, quiet)
  | 2 => (!nan && decide (p < q), loud)
  | 3 => (!nan && decide (q ≤ p), loud)
  | 4 => (!nan && decide (p ≤ q), loud)
  | 5 => (!nan && decide (q < p), loud)
  | 6 => (nan, quiet)
  | _ => (!nan, quiet)

/-- The type codes of R56. -/
inductive CvtType where
  | int (signed : Bool) (bits : Nat)
  | flt (f : FFmt)
  deriving DecidableEq, Repr

def cvtType (c : BitVec 3) : CvtType :=
  match c.toNat with
  | 0 => .int true 32
  | 1 => .int false 32
  | 2 => .flt fp32
  | 3 => .flt fp16
  | 4 => .flt bf16
  | 5 => .int true 16
  | _ => .int false 16

/-- An integer type's range. -/
def intRange (signed : Bool) (bits : Nat) : Int × Int :=
  if signed then (-(2 ^ (bits - 1) : Int), 2 ^ (bits - 1) - 1) else (0, 2 ^ bits - 1)

/-- R212: an exact integer clamped to a type's range. -/
def satTo (signed : Bool) (bits : Nat) (x : Int) : Int :=
  let (lo, hi) := intRange signed bits
  if x < lo then lo else if hi < x then hi else x

/-- The 32-bit pattern of an integer. -/
def patOf (x : Int) : Nat := (x % 2 ^ 32).toNat

/-- The integer a pattern holds under a type; bits above a 16-bit type are ignored (R238). -/
def intOf (signed : Bool) (bits a : Nat) : Int :=
  let m := a % 2 ^ bits
  if signed && 2 ^ (bits - 1) ≤ m then (m : Int) - 2 ^ bits else m

/-- R238: conversion between two types. -/
def fConvert (r : Rnd) (src dst : CvtType) (a : Nat) : FRes :=
  match src, dst with
  | .int s n, .int t k => ⟨patOf (satTo t k (intOf s n a)), 0#7⟩
  | .int s n, .flt f =>
    let v := intOf s n a
    if v = 0 then ⟨0, 0#7⟩ else roundTo f r (decide (v < 0)) ⟨v.natAbs, 0, false⟩
  | .flt g, .flt f =>
    match g.decode (a % 2 ^ (g.ebits + g.p)) with
    | .nan s => nanRes f (FVal.nan s).snan
    | .inf neg => ⟨f.signed neg f.infBits, 0#7⟩
    | .fin neg m e => if m = 0 then ⟨f.signed neg 0, 0#7⟩ else roundTo f r neg ⟨m, e, false⟩
  | .flt g, .int t k =>
    let (lo, hi) := intRange t k
    match g.decode (a % 2 ^ (g.ebits + g.p)) with
    | .nan _ => ⟨0, flagNV⟩
    | .inf neg => ⟨patOf (if neg then lo else hi), flagNV⟩
    | .fin neg m e =>
      let (q, inexact) := roundInt r neg ⟨m, e, false⟩
      if q < lo then ⟨patOf lo, flagNV⟩
      else if hi < q then ⟨patOf hi, flagNV⟩
      else ⟨patOf q, flagIf inexact flagNX⟩

end Sys2Proof.Machine
end

