-- ==== Sys2Proof/Machine/Alu.lean ====
section
/-!
DEFINITION. The value functions of the integer lane and uniform instructions (R229 to R233, R244) on patterns, the
conditions of R54, and the steps and identities of the folds (R136, R196, R241).
-/

namespace Sys2Proof.Machine

/-- R229: bits 63:32 of the exact product. -/
def mulHi (signed : Bool) (a b : Word) : Word :=
  let p : Int := if signed then a.toInt * b.toInt else (a.toNat * b.toNat : Nat)
  BitVec.ofInt 32 (p / 2 ^ 32)

/-- R232: the exact product, low word and high word. -/
def mulLo (a b : Word) : Word := a * b

def minS (a b : Word) : Word := if b.slt a then b else a
def maxS (a b : Word) : Word := if a.slt b then b else a
def minN (a b : Word) : Word := if b.ult a then b else a
def maxN (a b : Word) : Word := if a.ult b then b else a

/-- R230: the shift count, bits 7:0 of the control word. -/
def shiftCount (b : Word) : Nat := b.toNat % 256

def shl (a b : Word) : Word := if shiftCount b < 32 then a <<< shiftCount b else 0#32
def shr (a b : Word) : Word := if shiftCount b < 32 then a >>> shiftCount b else 0#32
def sar (a b : Word) : Word :=
  if shiftCount b < 32 then a.sshiftRight (shiftCount b) else if a.msb then 0xFFFFFFFF#32 else 0#32
def rotl (a b : Word) : Word := a.rotateLeft (b.toNat % 32)

/-- R230: the place and the length of a field, from a control word. -/
def fieldPos (b : Word) : Nat := b.toNat % 32
def fieldLen (b : Word) : Nat := min (b.toNat / 256 % 64) 32

/-- R230: the bit field of a, its missing high bits copies of bit 31 or zeros. -/
def bfe (signed : Bool) (a b : Word) : Word :=
  let pos := fieldPos b
  let len := fieldLen b
  let x : Int := if signed then a.toInt else a.toNat
  let f := x / 2 ^ pos % 2 ^ len
  let f := if signed && 0 < len && decide ((2 : Int) ^ (len - 1) ≤ f) then f - 2 ^ len else f
  BitVec.ofInt 32 f

/-- R232: a with the low bits of b inserted; bits beyond 31 are dropped. -/
def bfi (a b c : Word) : Word :=
  let pos := fieldPos c
  let len := fieldLen c
  let mask := BitVec.ofNat 32 ((2 ^ len - 1) * 2 ^ pos)
  (a &&& ~~~mask) ||| (BitVec.ofNat 32 (b.toNat % 2 ^ len * 2 ^ pos) &&& mask)

/-- R232: bits 31:0 of the 64-bit pair shifted right. -/
def shf (a b c : Word) : Word := BitVec.ofNat 32 ((b.toNat * 2 ^ 32 + a.toNat) / 2 ^ (c.toNat % 32))

def absS (a : Word) : Word := if a.msb then -a else a

/-- R229: the number of leading zeros. -/
def clz (a : Word) : Word := if a = 0#32 then 32#32 else BitVec.ofNat 32 (31 - Nat.log2 a.toNat)

/-- The number of 1 bits below a place. -/
def countBits (a : Nat) : Nat → Nat
  | 0 => 0
  | k + 1 => countBits a k + (if a.testBit k then 1 else 0)

def popc (a : Word) : Word := BitVec.ofNat 32 (countBits a.toNat 32)

/-- The bits below a place in reverse order. -/
def reverseBits (a : Nat) : Nat → Nat
  | 0 => 0
  | k + 1 => 2 * reverseBits a k + (if a.testBit k then 1 else 0)

def brev (a : Word) : Word := BitVec.ofNat 32 (reverseBits a.toNat 32)

/-- A byte of a word read as signed or unsigned. -/
def byteOf (signed : Bool) (a : Word) (i : Nat) : Int :=
  let x := a.toNat / 2 ^ (8 * i) % 256
  if signed && 128 ≤ x then (x : Int) - 256 else x

/-- R232: the sum of four byte products and an addend. -/
def dp4 (signed : Bool) (a b c : Word) : Word :=
  BitVec.ofInt 32 ((List.range 4).foldl (fun s i => s + byteOf signed a i * byteOf signed b i) (c.toNat : Int))

/-- R54: a condition on two patterns of one width. -/
def condHolds {n : Nat} (cond : BitVec 3) (a b : BitVec n) : Bool :=
  match cond.toNat with
  | 0 => a == b
  | 1 => a != b
  | 2 => a.slt b
  | 3 => !a.slt b
  | 4 => a.ult b
  | 5 => !a.ult b
  | 6 => a &&& b != 0#n
  | _ => a &&& b == 0#n

/-- R55: the ops of scans, reductions and expansions. -/
inductive FoldOp where
  | add | smin | smax | nmin | nmax | and | or | xor | fadd | fmin | fmax | famax
  deriving DecidableEq, Repr

def FoldOp.ofCode (c : Nat) : FoldOp :=
  match c with
  | 0 => .add
  | 1 => .smin
  | 2 => .smax
  | 3 => .nmin
  | 4 => .nmax
  | 5 => .and
  | 6 => .or
  | 7 => .xor
  | 8 => .fadd
  | 9 => .fmin
  | 10 => .fmax
  | _ => .famax

/-- R55: the segmented ops of `sscan`. -/
def FoldOp.ofSegCode (c : Nat) : FoldOp :=
  match c with
  | 0 => .add
  | 1 => .smin
  | 2 => .smax
  | 3 => .nmin
  | 4 => .nmax
  | 5 => .fadd
  | 6 => .fmin
  | _ => .fmax

/-- R136: the identity that opens a fold. -/
def FoldOp.identity : FoldOp → Word
  | .add => 0#32
  | .smin => 0x7FFFFFFF#32
  | .smax => 0x80000000#32
  | .nmin => 0xFFFFFFFF#32
  | .nmax => 0#32
  | .and => 0xFFFFFFFF#32
  | .or => 0#32
  | .xor => 0#32
  | .fadd => 0x80000000#32
  | .fmin => 0x7F800000#32
  | .fmax => 0xFF800000#32
  | .famax => 0#32

/-- R214, R241: a NaN that starts a fold enters as the canonical NaN; a signalling one sets NV. -/
def FoldOp.enter (op : FoldOp) (x : Word) : Word × Flags :=
  match op with
  | .fadd | .fmin | .fmax | .famax =>
    let y := if op = .famax then fp32.absBits x.toNat else x.toNat
    let v := fp32.decode y
    if v.isNaN then (BitVec.ofNat 32 fp32.nanBits, v.snan) else (BitVec.ofNat 32 y, 0#7)
  | _ => (x, 0#7)

/-- A floating result as a word. -/
def FRes.word (r : FRes) : Word × Flags := (BitVec.ofNat 32 r.bits, r.flags)

/-- R241: one step `acc op x`; `famax` compares magnitudes with the sign cleared. -/
def FoldOp.step (op : FoldOp) (r : Rnd) (acc x : Word) : Word × Flags :=
  match op with
  | .add => (acc + x, 0#7)
  | .smin => (minS acc x, 0#7)
  | .smax => (maxS acc x, 0#7)
  | .nmin => (minN acc x, 0#7)
  | .nmax => (maxN acc x, 0#7)
  | .and => (acc &&& x, 0#7)
  | .or => (acc ||| x, 0#7)
  | .xor => (acc ^^^ x, 0#7)
  | .fadd => (fAdd fp32 r acc.toNat x.toNat).word
  | .fmin => (fMinMax fp32 false acc.toNat x.toNat).word
  | .fmax => (fMinMax fp32 true acc.toNat x.toNat).word
  | .famax => (fMinMax fp32 true (fp32.absBits acc.toNat) (fp32.absBits x.toNat)).word

/-- R244: the uniform shifts, with the count in bits 7:0. -/
def gshl (a y : DWord) : DWord := if y.toNat % 256 < 64 then a <<< (y.toNat % 256) else 0#64
def gshr (a y : DWord) : DWord := if y.toNat % 256 < 64 then a >>> (y.toNat % 256) else 0#64
def gminS (a y : DWord) : DWord := if y.slt a then y else a
def gmaxS (a y : DWord) : DWord := if a.slt y then y else a

end Sys2Proof.Machine
end

