-- ==== Sys2Proof/Machine/State.lean ====
section
/-!
DEFINITION. All the state the spec gives the module, as plain data, the reasons a step can stop, and the state right
after cold reset (R7, R378). INVENTORY.md lists each piece with its rule and its reset value.

Sparse tables are lists of numbered entries in rising order of number; a missing entry stands for the initial value
that the operation reading it names.
-/

namespace Sys2Proof.Machine

/-- A sparse table: entries in rising order of their numbers. -/
abbrev NMap (α : Type) := List (Nat × α)

/-- Bytes at addresses, in the canonical form of `Memory.wf`: an unlisted byte reads zero. -/
abbrev Memory := List Host.Cell

/-! ## Threads and groups -/

/-- One latch entry and its valid bit (R79). -/
structure Latch where
  value : Word
  valid : Bool
  deriving DecidableEq, Repr

/-- An item's origin (R129): the issuer's launch index, thread and retired-instruction count. -/
structure Origin where
  lidx   : Nat
  thread : Nat
  count  : Nat
  deriving DecidableEq, Repr

/-- R286: the slot, the cell and the stamp an item may blend into, and its effective coverage. -/
structure Ticket where
  slot  : Nat
  cell  : Nat
  stamp : Nat
  cov   : Nat
  deriving DecidableEq, Repr

/-- A work item (R67, R96), with its ticket, the issuer's commit key (R210) and its issuer's identity (R102). Its spot
is 0 on chip, 1 in the overflow area, 2 in the eighth kept for items of packed groups (R99). -/
structure Item where
  entry   : Nat
  grid    : Nat
  payload : Vector Word 4
  origin  : Origin
  ticket  : Option Ticket
  cls     : Nat
  bcnt    : Nat
  bidx    : Nat
  args    : Vector DWord 4
  prefixKey : List Nat
  block   : Nat
  spot    : Nat
  deriving DecidableEq, Repr

/-- One thread of a group (R67); `own` counts a packed thread's deterministic contributions (R210). -/
structure Thread where
  v       : Vector Word 48
  p       : BitVec 8
  b0      : Latch
  b1      : Latch
  ox      : Word
  current : Option (Nat × Nat)
  ticket  : Option Ticket
  origin  : Origin
  payload : Vector Word 4
  prefixKey : List Nat
  own     : Nat
  deriving DecidableEq, Repr

/-- The element format of a page (R155, R315). -/
inductive PageFmt where
  | raw | g3 | g5 | g8
  deriving DecidableEq, Repr

/-- Whose access reaches a line: the key slot of the page and the partition (R324, R329). -/
structure Owner where
  key  : Nat
  part : Nat
  deriving DecidableEq, Repr

/-- A page as a translation gives it (R315, R316): where it starts and how many logical bytes it spans, its frame,
its format and key, the partition whose second stage gave it, the rights of both stages and the levels of the two
leaves. -/
structure Page where
  vbase  : Nat
  span   : Nat
  frame  : Nat
  fmt    : PageFmt
  key    : Nat
  part   : Nat
  rd1    : Bool
  wr1    : Bool
  ex1    : Bool
  rd2    : Bool
  wr2    : Bool
  ex2    : Bool
  ho     : Bool
  level1 : Nat
  level2 : Nat
  deriving DecidableEq, Repr

/-- A window register (R152). -/
structure Window where
  set   : Bool
  base  : BitVec 57
  limit : BitVec 33
  rd    : Bool
  wr    : Bool
  pin   : Bool
  stale : Bool
  page  : Page
  deriving DecidableEq, Repr

/-- A reconvergence-stack entry (R83) or the handler marker (R345). -/
inductive StackEntry where
  | join (mask : Word) (reconv : VAddr)
  | path (pc : VAddr) (mask : Word) (reconv : VAddr)
  | marker
  deriving DecidableEq, Repr

inductive Mode where
  | user
  | handler
  deriving DecidableEq, Repr

/-- A barrier (R107, R108): the block's own at core or quad scope, or a wide one. -/
inductive BarRef where
  | core (block core number : Nat)
  | quad (block number : Nat)
  | die (die number : Nat)
  | pkg (number : Nat)
  | pod (job number : Nat)
  deriving DecidableEq, Repr

/-- What a record reports beyond the fault itself (R340); `ask` is the untranslated host page that a host fault needs, and
whether it needs to read and to write it (R320); `posted` the record's words where the host delivers it (R341). -/
structure Report where
  host    : Bool := false
  ask     : Option (Nat × Bool × Bool) := none
  refused : Bool := false
  walk    : Option (Nat × Nat) := none
  expand  : Option DWord := none
  matrix  : Option DWord := none
  engine  : Option DWord := none
  inH     : Bool := false
  wasPending : Bool := false
  posted  : Option (Vector DWord 8) := none
  deriving DecidableEq, Repr

/-- An event of R335, before its record is written: the code and cause, the address the group resumes at, the
threads that run the instruction again, the instruction's address and the value at 0x10. -/
structure Event where
  code   : Nat
  cause  : Nat := 0
  epc    : VAddr
  replay : Word
  info   : DWord
  instr  : VAddr
  shown  : Word
  report : Report := {}
  deriving DecidableEq, Repr

/-- Why a group is not ready (R78, R85). -/
inductive Wait where
  | none
  | bar (b : BarRef) (gen : Nat)
  | barArrive (b : BarRef) (gen : Nat)
  | word (sector writes until_ : Nat)
  | counter (k target : Nat)
  | spawn
  | cspan (slot : Nat)
  | tflush (slot : Nat)
  | launch
  | engine
  | tlbinv
  | detAtom
  | xpand
  | xend
  | host
  | room
  | parked
  | stintBreak
  | preempted
  deriving DecidableEq, Repr

/-- What `mark` keeps (R355). -/
structure Flash where
  mark   : VAddr
  live   : BitVec 128
  recipe : VAddr
  count  : Nat
  lmask  : Word
  fpmode : BitVec 3
  fpseed : DWord
  deriving DecidableEq, Repr

/-- The latches and counts of a stint that a trap, a fault or a break interrupted (R80). -/
structure KeptStint where
  b0    : List Latch
  b1    : List Latch
  count : Nat
  deriving DecidableEq, Repr

/-- R272: a piece's cell within its tile and its two increments. -/
structure Piece where
  cell : Nat
  c    : Int
  a    : Int
  deriving DecidableEq, Repr

/-- A rectangle of tiles, both corners included. -/
structure Box where
  x0 : Nat
  y0 : Nat
  x1 : Nat
  y1 : Nat
  deriving DecidableEq, Repr

/-- The open path of a binning group (R278, R289): role 0 paint, 1 push, 2 pop; `rows` are the tile rows charged so far, which
keep their charge to its `pend` (R282). -/
structure OpenPath where
  index  : Nat
  role   : Nat
  evenOdd : Bool
  entry  : Nat
  paint  : Word
  tol    : Nat
  pieces : NMap (List Piece)
  carry  : NMap (List Int)
  carryL : NMap (List Int)
  rows   : List Nat := []
  deriving DecidableEq, Repr

/-- The binning state of a group (R278); an open box of `none` is empty (R279). -/
structure Binning where
  open_  : Option OpenPath := none
  boxes  : List (Option Box) := []
  closed : Option Nat := none
  deriving DecidableEq, Repr

/-- A deterministic contribution's key (R210): E, B, e, r, i and the further fields of a packed thread. -/
structure DetKey where
  wide   : Nat
  bidx   : Nat
  epoch  : Nat
  rank   : Nat
  count  : Nat
  more   : List Nat
  deriving DecidableEq, Repr

/-- The place of a 4-byte word: at its home, or in a block's bench on a core. -/
inductive Loc where
  | home (pa : Nat)
  | bench (block core offset : Nat)
  deriving DecidableEq, Repr

/-- A buffered floating-point contribution (R210): ops 11 to 14 of R61. `due` is set when a `bar`, `wait`, `cwait` or `exit`
of its group `gid` has ended the quantum, so that later accesses come after it (R178); `instr` and `va` are the instruction's address and the one it was issued for. -/
structure Contribution where
  gid   : Nat
  grid  : Nat
  key   : DetKey
  loc   : Loc
  own   : Owner
  op    : Nat
  x     : Word
  rnd   : Rnd
  core  : Nat
  scope : Nat
  due   : Bool
  instr : VAddr
  va    : Nat
  deriving DecidableEq, Repr

/-- A group's deterministic state (R208 to R210), with how many `spawn` and `cspan` instructions it has completed, and the
destination of an `atom` that waits for its fold (R211). -/
structure Det where
  en     : Bool := false
  qlog   : Nat := 13
  run    : Nat := 0
  buffer : List Contribution := []
  count  : Nat := 0
  spawns : Nat := 0
  wide   : Nat := 0
  epoch  : Nat := 0
  atom   : List (Nat × DetKey × Loc) := []
  dest   : Nat := 0
  deriving DecidableEq, Repr

/-- Where a group stands with the lane arbiter and the park engine (R85 to R90); `held` names the spots that a packed
group's items keep until it is resident (R111); `endDue` is set while a `seg` or `cdep` that ends the stint still waits for its
unit (R78). -/
structure Sched where
  lane       : Option Nat := none
  moving     : Bool := false
  inStint    : Bool := false
  resumeStint : Bool := false
  stintCount : Nat := 0
  stintWait  : Nat := 0
  readySince : Nat := 0
  residentSince : Nat := 0
  idleSince  : Nat := 0
  lastEnd    : Nat := 0
  held       : List Nat := []
  endDue     : Bool := false
  deriving DecidableEq, Repr

/-- A group (R67). The stack's top stands first; `line` is the fetch line whose header has been checked, and `fresh`
marks a line that must be of kind 2 (R115). `replay` holds the mask to return to when a replay ends (R186), and
`opening` the scope at which the group's first instruction is an acquire (R128, R132, R177), 0 when none is due. `relDue` is
set by a release store until an acquiring load at `pkg` or wider comes (R181 to R183), `pkgSeen` by an acquire at `pkg` scope or
wider (R173). -/
structure Group where
  asid   : Nat
  core   : Nat
  block  : Nat
  grid   : Nat
  entry  : Nat
  nregs  : Nat
  cls    : Nat
  mode   : Mode
  pc     : VAddr
  line   : Option VAddr
  fresh  : Bool
  lmask  : Word
  amask  : Word
  threads : Vector Thread 32
  s      : Vector DWord 32
  w      : Vector Window 8
  stack  : List StackEntry
  lidx   : Nat
  packed : Bool
  gcnt   : Nat
  rank   : Nat
  bcnt   : Nat
  bidx   : Nat
  args   : Vector DWord 4
  fpmode : BitVec 3
  fpseed : DWord
  fflags : Flags
  ftrapen : Flags
  recipe : Bool
  retired : Nat
  opening : Nat
  wait   : Wait
  sched  : Sched
  flash  : Option Flash
  replay : Option Word
  kept   : Option KeptStint
  frame  : Nat
  frameEpc : VAddr
  frameEvent : Option Event
  pending : Option Event
  loads  : List Nat
  scribe : Bool
  deposit : Bool
  matrix : Nat
  bin    : Binning
  spawned : List Nat
  expand : Option (Nat × Nat)
  det    : Det
  relDue : Bool
  pkgSeen : Bool
  deriving DecidableEq, Repr

/-! ## Blocks, grids and barriers -/

/-- A barrier's open generation (R109): its number, the groups that have arrived, and the largest E at which one of these has
retired (R210). -/
structure Barrier where
  gen     : Nat := 0
  arrived : List Nat := []
  top     : Nat := 0
  deriving DecidableEq, Repr

/-- A wide barrier bound by a grid (R108). -/
structure BoundBar where
  scope  : Nat
  number : Nat
  count  : Nat
  deriving DecidableEq, Repr

/-- A live block (R67, R107, R144): the bench of each of its cores and, as bits, the units of 256 bytes it takes there (R161),
its groups not yet retired, its barriers. -/
structure Block where
  asid  : Nat
  grid  : Nat
  index : Nat
  gpb   : Nat
  cores : List Nat
  live  : List Nat
  benchSize : Nat
  bench : NMap Memory
  benchAt : NMap Nat
  cbar  : Nat
  qbar  : Nat
  coreBars : NMap Barrier
  quadBars : NMap Barrier
  packed : Bool
  deriving DecidableEq, Repr

/-- Who made a grid: a queue's command, or `launch` on a core (R130, R373). -/
inductive GridSource where
  | queue (fe q command : Nat)
  | device (fe core : Nat)
  deriving DecidableEq, Repr

/-- A live grid (R67, R130, R132). -/
structure Grid where
  asid   : Nat
  source : GridSource
  entry  : Nat
  tpg    : Nat
  gpb    : Nat
  blocks : Nat
  args   : Vector DWord 4
  cls    : Nat
  k      : Nat
  ken    : Bool
  bars   : List BoundBar
  bound  : Bool
  nextBlock : Nat
  live   : Nat
  core   : Option Nat
  deriving DecidableEq, Repr

/-! ## What lives with a core for a context (R383) -/

/-- A completion counter with its error mark and flag field (R162, R204, R221). -/
structure Counter where
  value : DWord := 0#64
  err   : Option Nat := none
  flags : Flags := 0#7
  deriving DecidableEq, Repr

/-- A blend that waits in a cell's queue (R286, R287): `none` while its ticket is unused, then the mode and colour of
its `tblend`, mode 4 being the empty blend. -/
structure Blend where
  stamp  : Nat
  cov    : Nat
  colour : Option (Nat × Vector (BitVec 16) 4)
  deriving DecidableEq, Repr

/-- A cell of a tile slot (R284). -/
structure SlotCell where
  c      : BitVec 32 := 0#32
  a      : BitVec 48 := 0#48
  cov    : Nat := 0
  clip   : Vector Nat 8 := Vector.replicate 8 0
  colour : Vector (BitVec 16) 4 := Vector.replicate 4 0#16
  queue  : List Blend := []
  deriving DecidableEq, Repr

/-- R285. -/
inductive SlotState where
  | unbound
  | idle
  | deposited (role : Nat)
  | scanned (role : Nat)
  deriving DecidableEq, Repr

/-- An entry of a tile's bin (R281), with the keys that order it and the row charge it shares (R282). -/
structure BinEntry where
  index  : Nat
  role   : Nat
  evenOdd : Bool
  entry  : Nat
  paint  : Word
  pieces : List Piece
  back   : List Int
  lidx   : Nat
  packed : Bool
  origin : Origin
  row    : Nat
  deriving DecidableEq, Repr

/-- A tile slot (R284). -/
structure Slot where
  state  : SlotState := .unbound
  tx     : Nat := 0
  ty     : Nat := 0
  win    : Option Window := none
  back   : List Int := []
  depth  : Nat := 0
  stamp  : Nat := 0
  entry  : Option BinEntry := none
  cells  : NMap SlotCell := []
  deriving DecidableEq, Repr

/-- A contribution to an expansion (R138); `gid` receives its flags. An empty one stands for an iteration that closed without a
contribution (R139). -/
structure XContribution where
  k     : Nat
  owner : Nat
  value : Word
  rnd   : Rnd
  gid   : Nat
  empty : Bool
  deriving DecidableEq, Repr

/-- A member that has issued `xpand` (R103, R135). -/
structure XArrival where
  gid   : Nat
  block : Nat
  rank  : Nat
  size  : Nat
  op    : Nat
  mask  : Word
  starts : List Word
  lens   : List Word
  deriving DecidableEq, Repr

/-- An open expansion (R104, R142): per member its group, receiver mask, wave and the register of its `xend`; per owner
`applied` counts the iterations up to the last whose contribution has been applied (R370). -/
structure Expansion where
  size   : Nat
  op     : Nat
  gids   : List Nat
  masks  : List Word
  waves  : List Nat
  ends   : List (Option Nat)
  starts : List Word
  lens   : List Word
  partials : List Word
  applied : List Nat
  held   : List XContribution
  deriving DecidableEq, Repr

/-- A memory operand captured at issue (R249): pages in rising order with the host translations of their 4 KiB pages (R320), or a
bench; `fault` is the code, the address and the report of a translation that failed at a resumption (R252). -/
structure MemRef where
  va    : Nat
  pages : List Page
  bench : Option (Nat × Nat) := none
  host  : NMap Nat := []
  fault : Option (Nat × Nat × Report) := none
  deriving DecidableEq, Repr

/-- A queued matrix instruction (R249, R252): the instruction, what it captured, its next step and whether its steps
are done, the greatest magnitude drained so far; `seen` holds the sectors its steps have read, each of them read once (R176), by
twice their number and one for those read through L1. -/
structure MatInstr where
  instr  : Instr
  gid    : Nat
  grid   : Nat
  va     : VAddr
  rm     : BitVec 3
  seed   : DWord
  lidx   : Nat
  count  : Nat
  grpid  : DWord
  staged : List (List Word)
  ops    : List MemRef
  det    : Option (Nat × DetKey)
  lmask  : Word
  step   : Nat
  flags  : Flags
  peak   : Option Word
  stopped : Bool
  seen   : NMap (List Byte)
  deriving DecidableEq, Repr

/-- A packed group formed and waiting for admission (R97, R100). -/
structure Formed where
  items : List Item
  deriving DecidableEq, Repr

/-- The set of a context on a core (R20, R383): accumulator elements keyed tile × 16,384 + row × 128 + column. -/
structure CoreSet where
  tiles    : NMap Word := []
  counters : NMap Counter := []
  slots    : NMap Slot := []
  xwait    : List XArrival := []
  expands  : NMap Expansion := []
  mq       : List MatInstr := []
  items    : List Item := []
  timers   : NMap Nat := []
  formed   : List Formed := []
  deriving DecidableEq, Repr

/-! ## Cores, dies and the memory system -/

/-- A 64-byte sector held in an L1 (R145, R148): its bytes, its dirty bytes, the cycles it was filled and first made dirty,
and through whose page it was filled. -/
structure L1Sector where
  bytes : Vector Byte 64
  dirty : Vector Bool 64
  since : Nat
  wrote : Nat
  own   : Owner
  deriving DecidableEq, Repr

/-- A sector dirty at its home L2 slice (R146): the bytes DRAM still has and which of them are uncorrectable there (R361), its slice
and whose line it is (R324, R329). -/
structure L2Sector where
  old   : List Byte
  hurt  : List Nat
  slice : Nat
  own   : Owner
  deriving DecidableEq, Repr

/-- The park engine's move in progress (R89, R90): the lane whose slot is freed, the group written out and the group
read in. -/
structure ParkMove where
  lane  : Nat
  out   : Option Nat
  into  : Option Nat
  deriving DecidableEq, Repr

/-- A core (R16, R17, R160): SIZE of BENCHSZ and a change in progress, its L1, which contexts hold its accumulator and
tile stores (R248, R284) and which wait for them, and the group that each lane ran last (R86). -/
structure Core where
  bench    : Nat := 0
  pend     : Option Nat := none
  l1       : NMap L1Sector := []
  accHolder  : Option Nat := none
  accWant    : Option Nat := none
  tileHolder : Option Nat := none
  tileWant   : Option Nat := none
  move     : Option ParkMove := none
  last     : NMap Nat := []
  fenced   : Bool := false
  absent   : Bool := false
  deriving DecidableEq, Repr

/-- A line of 256 bytes held in an RDC (R147), in the part of a colour of its partition (R324). -/
structure RdcLine where
  bytes : List Byte
  since : Nat
  slot  : Nat
  own   : Owner
  deriving DecidableEq, Repr

/-- A black-box record (R368). -/
structure BoxRecord where
  time : Nat
  cls  : Nat
  die  : Nat
  unit : Nat
  data : Nat
  deriving DecidableEq, Repr

/-- Where a die stands between reset and service (R378, R381). -/
inductive Boot where
  | rom
  | loaded
  | ready
  | held
  deriving DecidableEq, Repr

/-- A firmware image as loaded (R379): its bytes and security version. -/
structure Image where
  bytes : List Byte
  svn   : Nat
  deriving DecidableEq, Repr

/-- A die: its RDC, its management registers 0x900 to 0x90B by number (R382), its black box with the count of records
ever made (R368), its controller's state; `trip` is set while a thermal trip waits for the contexts to be saved (R381), `down` from a warm reset
until the die is ready again (R364). -/
structure Die where
  rdc     : NMap RdcLine := []
  mgmt    : NMap DWord := []
  ring    : List BoxRecord := []
  logged  : Nat := 0
  boot    : Boot := .rom
  image   : Option Image := none
  staged  : Option Image := none
  samples : List Nat := []
  gate    : Nat := 0
  trip    : Bool := false
  bornAt  : Nat := 0
  down    : Bool := false
  deriving DecidableEq, Repr

/-- A cached translation (R317), held by a core's TLB. -/
structure TlbEntry where
  core : Nat
  asid : Nat
  part : Nat
  page : Page
  deriving DecidableEq, Repr

/-- A granted host translation (R320): PASID, 4 KiB page number, rights, and the page it leads to. -/
structure AtcEntry where
  pasid : Nat
  page  : Nat
  rd    : Bool
  wr    : Bool
  target : Nat
  deriving DecidableEq, Repr

/-- A Page Request (R320): the record it serves, the page with its read and write needs, and whether it is among the 512
outstanding (R321) or waits to be sent. -/
structure PageRequest where
  asid : Nat
  seq  : Nat
  page : Nat
  rd   : Bool
  wr   : Bool
  sent : Bool
  deriving DecidableEq, Repr

/-- A replica of a line (R159): die, context, tagged grid, line address, its bytes, and the slice of the die's L2 that
holds it. -/
structure Replica where
  die  : Nat
  asid : Nat
  grid : Nat
  line : Nat
  bytes : List Byte
  own  : Owner
  slice : Nat
  deriving DecidableEq, Repr

/-! ## Engine operations -/

inductive OpKind where
  | copy | gather | scatter
  deriving DecidableEq, Repr

/-- Who issued an engine operation: a group with a counter of its core, or a queue's COPY. -/
inductive OpSource where
  | group (gid core k : Nat)
  | queue (fe q command : Nat)
  deriving DecidableEq, Repr

/-- An engine operation not yet complete (R174, R200 to R203), with everything it captured at issue. -/
structure EngineOp where
  kind   : OpKind
  asid   : Nat
  mode   : Mode
  die    : Nat
  source : OpSource
  dst    : Window
  src    : Window
  idx    : Option Window
  dstOff : Nat
  srcOff : Nat
  len    : Nat
  idxOff : Nat
  esize  : Nat
  rm     : BitVec 3
  seed   : DWord
  lidx   : Nat
  count  : Nat
  instr  : VAddr
  grpid  : DWord
  place  : DWord
  done   : Nat
  held   : Option Nat
  flags  : Flags
  deriving DecidableEq, Repr

/-- An ATS invalidation whose completion waits (R321): its PASID and page, the engine operations it waits for, and the queued
matrix instructions, by group and count, whose captured host translations it covers. -/
structure Inval where
  pasid : Nat
  page  : Nat
  ops   : List Nat
  mats  : List (Nat × Nat)
  deriving DecidableEq, Repr

/-! ## Contexts, partitions and queues -/

/-- Whose record a posted record is (R341). -/
inductive RecordOwner where
  | group (gid : Nat)
  | engine (op : Nat)
  | queue (fe q : Nat)
  | nobody
  deriving DecidableEq, Repr

/-- A record of the fault buffer: its words, its owner, whether the host has answered (R341), and the Page Request it
makes (R320). -/
structure Posted where
  words : Vector DWord 8
  owner : RecordOwner
  event : Option Event
  answered : Bool
  ask   : Option (Nat × Bool × Bool)
  deriving DecidableEq, Repr

/-- R352. -/
inductive Preempt where
  | none
  | soft
  | hard (t0 d : Nat)
  | saved
  deriving DecidableEq, Repr

/-- A unit of saved state waiting to be placed (R383): the core it was on, the number above 255 that stands for it
meanwhile, its blocks and the set of that core. -/
structure SavedUnit where
  core   : Nat
  away   : Nat
  blocks : List Nat
  set    : CoreSet
  deriving DecidableEq, Repr

/-- A charge on the bin area that several entries share (R282): how many entries have yet to pass. -/
structure RowCharge where
  id   : Nat
  left : Nat
  deriving DecidableEq, Repr

/-- A context (R308): its registers by number (R208, R310, R337), its partition and pod job, the fault buffer's
counters and records, its bins; the PREEMPT and RESUME commands that wait for it, and whether the firmware resumes it by itself
(R365). -/
structure Context where
  cfg    : Vector DWord 8
  detctl : DWord
  hvec   : DWord
  hctl   : DWord
  fbuf   : DWord
  fbhead : Nat
  fbtail : Nat
  seq    : Nat
  part   : Nat
  job    : Nat
  stopped : Option Nat
  preempt : Preempt
  preemptCmds : List Nat
  autoResume : Bool
  units  : List SavedUnit
  records : NMap Posted
  waiting : List Posted
  frames : NMap Nat
  parkCores : List Nat
  bins   : NMap (List BinEntry)
  binUsed : Nat
  rows   : List RowCharge
  deriving DecidableEq, Repr

/-- A partition (R312): PARTCFG0 to 5, its trusted interface's state held in PARTCFG1, its pinned lines (R326), and whether
PARTCFG0 has been written, so that it holds cores and ASIDs (log entry 31). -/
structure Partition where
  cfg  : Vector DWord 6
  pins : List Nat
  made : Bool
  deriving DecidableEq, Repr

/-- A command begun and not complete (R372, R373): its number, opcode, the grid or operation it waits for. -/
structure Command where
  number : Nat
  op     : Nat
  words  : List DWord
  irq    : Bool
  target : Nat
  done   : Bool
  deriving DecidableEq, Repr

/-- A queue (R372): its registers, the next command to fetch, and the commands begun. -/
structure Queue where
  base : DWord := 0#64
  ctl  : DWord := 4#64
  tail : Nat := 0
  prog : Nat := 0
  head : Nat := 0
  begun : List Command := []
  deriving DecidableEq, Repr

/-- A wide barrier instance (R108): bound to a grid, arrivals of the open generation; `remote` lists the E of each of those of
other modules (R210). -/
structure WideBarrier where
  scope  : Nat
  place  : Nat
  number : Nat
  grid   : Nat
  bar    : Barrier
  remote : List Nat
  deriving DecidableEq, Repr

/-- A turn of the machine: the step taken next. `damage`, `corrected`, `badRead` and `badStep` are errors of stored data
(R361): in memory, corrected, met by the instruction a lane issues next at one of its threads, met by the running step of a
core's matrix engine. `reply` is the answer of another module to an element of an engine operation (R203): code 0 with its
value, or the code of R201 that it fails with. `keyLoad` is the firmware's loading of a key slot (R329), `hostStore` and `hostLoad`
the host's accesses to its own memory (R164), `barRead` and `barWrite` its accesses through BAR0 (R371), `cellFence` the fencing of
rows or columns of a core's cells (R265), `telemetry` the die controller's measurements (R382). -/
inductive Turn where
  | issue (core lane : Nat)
  | event (i : Instr)
  | l2Evict (sector : Nat)
  | damage (sector unit syndrome : Nat)
  | corrected (die unit syndrome : Nat)
  | badRead (core lane thread syndrome : Nat)
  | badStep (core syndrome : Nat)
  | reply (op element code : Nat) (value : List Byte)
  | keyLoad (slot value : Nat)
  | hostStore (address : Nat) (bytes : List Byte)
  | hostLoad (address n : Nat)
  | barRead (function offset : Nat)
  | barWrite (function offset value : Nat)
  | cellFence (core : Nat)
  | telemetry (die tj inlet flow links : Nat)
  | tick (n : Nat)
  deriving DecidableEq, Repr

/-- A message the module has sent: an MSI-X vector of a function, an SPDM report, an ATS completion, an answer to a remote part
or to an access of the host, a firmware's report. -/
inductive Sent where
  | signal (function vector : Nat)
  | report (bytes : List Byte)
  | invalidated (pasid page : Nat)
  | pageRequest (pasid page : Nat) (read write : Bool)
  | partAnswer (tag code : Nat) (values : List (List Byte))
  | podArrival (job number epoch : Nat)
  | remoteScatter (module : Nat) (elem : Nat) (value : List Byte)
  | refusal (what : Nat)
  | barValue (function offset : Nat) (value : DWord)
  | hostValue (address : Nat) (bytes : List Byte)
  | retired (page : Nat)
  deriving DecidableEq, Repr

/-! ## The machine -/

/-- The module. `mem` holds what the home slices serve, in plaintext, and host memory; `l2` holds the sectors dirty in
L2 (R146); `seals` the key value under which DRAM holds a sector, and `keys` the value each key slot holds (R329); `bad` the
offsets in each sector whose data is uncorrectable (R187, R361); `dead` the sectors whose only copy was uncorrectable in L2 as
they were written back (R363); `watch` how many writes have reached a sector that a `wait`
watches (R110). `podEarly` lists the arrivals of other
modules at a pod barrier that no grid here has bound yet, each by its E (R108, R210). `invals` holds the ATS invalidations whose completion waits
(R321), `parked` the parts of other modules' operations that wait for a die that is down (R364). `stir` is set when a result has come that a broken stint may
await (R81), `freed` when a context's room has come free. -/
structure State where
  now      : Nat
  agenda   : List Turn
  cur      : Nat
  fresh    : Nat
  free     : Nat
  mem      : Memory
  l2       : NMap L2Sector
  seals    : NMap Nat
  bad      : NMap (List Nat)
  dead     : List Nat
  watch    : NMap Nat
  groups   : NMap Group
  blocks   : NMap Block
  grids    : NMap Grid
  contexts : NMap Context
  sets     : NMap CoreSet
  cores    : NMap Core
  dies     : NMap Die
  parts    : NMap Partition
  queues   : NMap Queue
  feGrids  : NMap (List Nat)
  wide     : List WideBarrier
  podEarly : NMap (List Nat)
  ops      : NMap EngineOp
  tlb      : List TlbEntry
  atc      : List AtcEntry
  requests : NMap PageRequest
  invals   : List Inval
  parked   : List RemotePart
  replicas : List Replica
  pool     : List Contribution
  base     : List (Nat × Loc × Word)
  streams  : NMap Nat
  keys     : NMap Nat
  stir     : Bool
  freed    : Bool
  sent     : List Sent
  replies  : NMap (Nat × List Byte)
  deriving DecidableEq, Repr

/-- The reasons the machine stops with a fault. The machine itself takes every exception the spec names as a next
state; these stop the model where its own step has nothing to run. -/
inductive Fault where
  /-- Raised by an instruction's meaning when no group is issuing: `exec` was asked to run an instruction with no
  group behind it. Safe: no machine does this. -/
  | noIssuingGroup
  deriving DecidableEq, Repr

/-- The reasons a meaning is refused. -/
inductive Refusal where
  /-- Raised by an arm of `exec` whose instruction has no meaning yet. Safe: the run stops. -/
  | notModelled (mnemonic : String)
  deriving DecidableEq, Repr

/-- R7, R378: the module right after cold reset: no context, no group, every register at its reset value (the tables
are empty, and an absent entry reads as its reset value), memory scrubbed to zero. -/
def State.reset : State where
  now := 0
  agenda := []
  cur := 0
  fresh := 1
  free := 0
  mem := []
  l2 := []
  seals := []
  bad := []
  dead := []
  watch := []
  groups := []
  blocks := []
  grids := []
  contexts := []
  sets := []
  cores := []
  dies := []
  parts := []
  queues := []
  feGrids := []
  wide := []
  podEarly := []
  ops := []
  tlb := []
  atc := []
  requests := []
  invals := []
  parked := []
  replicas := []
  pool := []
  base := []
  streams := []
  keys := []
  stir := false
  freed := false
  sent := []
  replies := []

end Sys2Proof.Machine
end

