-- ==== Sys2Proof/Machine/Data.lean ====
section
/-!
DEFINITION. The operations on sparse tables and on memory: one lookup, one insertion and one removal for each, and
wider accesses built from bytes in one place (little-endian, R2).
-/

namespace Sys2Proof.Machine

/-- The entry of a number, if there is one. -/
def look {α : Type} (k : Nat) : NMap α → Option α
  | [] => none
  | (j, x) :: m => if k = j then some x else look k m

/-- The table with an entry set, in its place by number. -/
def put {α : Type} (k : Nat) (x : α) : NMap α → NMap α
  | [] => [(k, x)]
  | (j, y) :: m => if k < j then (k, x) :: (j, y) :: m else if k = j then (k, x) :: m else (j, y) :: put k x m

/-- The table without an entry. -/
def drop {α : Type} (k : Nat) : NMap α → NMap α
  | [] => []
  | (j, y) :: m => if k = j then m else (j, y) :: drop k m

/-- The numbers rise strictly. -/
def rising : List Nat → Bool
  | a :: b :: l => decide (a < b) && rising (b :: l)
  | _ => true

/-! ## Memory -/

/-- The byte at an address; an unlisted byte reads zero (log entry 2 for host memory, R378 for DRAM). -/
def Memory.get (m : Memory) (a : Nat) : Byte := (look a m).getD 0#8

/-- Memory with one byte written; a zero byte is not listed. -/
def Memory.set (m : Memory) (a : Nat) (b : Byte) : Memory := if b = 0#8 then drop a m else put a b m

/-- The canonical form: addresses strictly rising, no zero byte listed. -/
def Memory.wf (m : Memory) : Bool := rising (m.map (·.1)) && m.all (fun c => c.2 != 0#8)

/-- `n` bytes from an address upward. -/
def Memory.bytes (m : Memory) (a : Nat) : Nat → List Byte
  | 0 => []
  | n + 1 => m.get a :: Memory.bytes m (a + 1) n

/-- Bytes written from an address upward. -/
def Memory.write (m : Memory) (a : Nat) : List Byte → Memory
  | [] => m
  | b :: bs => Memory.write (m.set a b) (a + 1) bs

/-- R2: the number little-endian bytes hold. -/
def ofBytes : List Byte → Nat
  | [] => 0
  | b :: bs => b.toNat + 256 * ofBytes bs

/-- R2: the little-endian bytes of a number. -/
def toBytes : Nat → Nat → List Byte
  | 0, _ => []
  | n + 1, x => BitVec.ofNat 8 x :: toBytes n (x / 256)

/-- Bits `hi : lo` of a number. -/
def field (x hi lo : Nat) : Nat := x / 2 ^ lo % 2 ^ (hi + 1 - lo)

/-- A number with bits `hi : lo` replaced. -/
def setField (x hi lo v : Nat) : Nat := x - field x hi lo * 2 ^ lo + v % 2 ^ (hi + 1 - lo) * 2 ^ lo

/-- A 64-bit register with bits `hi : lo` replaced. -/
def DWord.setF (x : DWord) (hi lo v : Nat) : DWord := BitVec.ofNat 64 (setField x.toNat hi lo v)

/-- Bits of a 64-bit register. -/
def DWord.f (x : DWord) (hi lo : Nat) : Nat := field x.toNat hi lo

/-- A number read as a signed one of `n` bits. -/
def signed (n x : Nat) : Int := if 2 ^ (n - 1) ≤ x % 2 ^ n then (x % 2 ^ n : Nat) - (2 ^ n : Nat) else (x % 2 ^ n : Nat)

/-- The greatest of a list, by a measure; the first among equals. -/
def bestBy {α : Type} (better : α → α → Bool) : List α → Option α
  | [] => none
  | x :: xs => some (xs.foldl (fun b y => if better y b then y else b) x)

end Sys2Proof.Machine
end

