-- ==== Sys2Proof/Machine/Access.lean ====
section
/-!
DEFINITION. One reader and one writer for each table of State, with the initial value an absent entry stands for, and
the fields of the configuration registers (R310, R312, R337).
-/

namespace Sys2Proof.Machine

/-- The answer of a meaning. -/
abbrev Res := Host.Outcome State Fault Refusal

/-! ## Initial values -/

def Latch.init : Latch := ⟨0#32, false⟩

def Thread.init : Thread where
  v := Vector.replicate 48 0#32
  p := 0#8
  b0 := Latch.init
  b1 := Latch.init
  ox := 0#32
  current := none
  ticket := none
  origin := ⟨0, 0, 0⟩
  payload := Vector.replicate 4 0#32
  prefixKey := []
  own := 0

def Page.init : Page where
  vbase := 0
  span := 0
  frame := 0
  fmt := .raw
  key := 0
  part := 0
  rd1 := false
  wr1 := false
  ex1 := false
  rd2 := false
  wr2 := false
  ex2 := false
  ho := false
  level1 := 0
  level2 := 0

def Window.init : Window where
  set := false
  base := 0#57
  limit := 0#33
  rd := false
  wr := false
  pin := false
  stale := false
  page := Page.init

/-- R68, R115, R116: a new group at its entry line, before what its creator sets. -/
def Group.init : Group where
  asid := 0
  core := 0
  block := 0
  grid := 0
  entry := 0
  nregs := 8
  cls := 0
  mode := .user
  pc := 0#57
  line := none
  fresh := true
  lmask := 0#32
  amask := 0#32
  threads := Vector.replicate 32 Thread.init
  s := Vector.replicate 32 0#64
  w := Vector.replicate 8 Window.init
  stack := []
  lidx := 0
  packed := false
  gcnt := 0
  rank := 0
  bcnt := 0
  bidx := 0
  args := Vector.replicate 4 0#64
  fpmode := 0#3
  fpseed := 0#64
  fflags := 0#7
  ftrapen := 0#7
  recipe := false
  retired := 0
  opening := 0
  wait := .none
  sched := {}
  flash := none
  replay := none
  kept := none
  frame := 0
  frameEpc := 0#57
  frameEvent := none
  pending := none
  loads := []
  scribe := false
  deposit := false
  matrix := 0
  bin := {}
  spawned := []
  expand := none
  det := {}
  relDue := false
  pkgSeen := false

/-- R308, R310: a context as it is created; PTIMER is 255 and DETCTL.QLOG 13. -/
def Context.init (part job : Nat) : Context where
  cfg := (Vector.replicate 8 0#64).setIfInBounds 6 (BitVec.ofNat 64 (255 * 2 ^ 32))
  detctl := BitVec.ofNat 64 (13 * 2 ^ 8)
  hvec := 0#64
  hctl := 0#64
  fbuf := 0#64
  fbhead := 0
  fbtail := 0
  seq := 0
  part := part
  job := job
  stopped := none
  preempt := .none
  preemptCmds := []
  autoResume := false
  units := []
  records := []
  waiting := []
  frames := []
  parkCores := []
  bins := []
  binUsed := 0
  rows := []

/-- Eight class limits of 14 (R312). -/
def lclogReset : Nat := (List.range 8).foldl (fun x c => x + 14 * 2 ^ (5 * c)) 0

/-- R312. -/
def Partition.init : Partition where
  cfg := #v[0#64, BitVec.ofNat 64 (16 * 2 ^ 32), 0#64, 0#64, 0#64, BitVec.ofNat 64 lclogReset]
  pins := []
  made := false

/-- R382: the reset value of management register `n` (0 to 11) of a die. -/
def mgmtReset (d n : Nat) : DWord :=
  match n with
  | 0 => BitVec.ofNat 64 (d * 16)
  | 2 => BitVec.ofNat 64 (10 * 2 ^ 16 + 2400)
  | 9 => 4#64
  | _ => 0#64

/-! ## Tables -/

namespace State

def grp (s : State) : Option Group := look s.cur s.groups
def group? (s : State) (gid : Nat) : Option Group := look gid s.groups
def setGroup (s : State) (gid : Nat) (g : Group) : State := { s with groups := put gid g s.groups }
def setGrp (s : State) (g : Group) : State := s.setGroup s.cur g

/-- Change one group, if it lives. -/
def modGroup (s : State) (gid : Nat) (f : Group → Group) : State :=
  match look gid s.groups with
  | some g => s.setGroup gid (f g)
  | none => s

/-- Change the issuing group. -/
def modGrp (s : State) (f : Group → Group) : State := s.modGroup s.cur f

/-- Change every group. -/
def mapGroups (s : State) (f : Nat → Group → Group) : State :=
  { s with groups := s.groups.map fun e => (e.1, f e.1 e.2) }

def ctx? (s : State) (asid : Nat) : Option Context := look asid s.contexts
def setCtx (s : State) (asid : Nat) (c : Context) : State := { s with contexts := put asid c s.contexts }
def modCtx (s : State) (asid : Nat) (f : Context → Context) : State :=
  match look asid s.contexts with
  | some c => s.setCtx asid (f c)
  | none => s

def core (s : State) (c : Nat) : Core := (look c s.cores).getD {}
def setCore (s : State) (c : Nat) (x : Core) : State := { s with cores := put c x s.cores }
def modCore (s : State) (c : Nat) (f : Core → Core) : State := s.setCore c (f (s.core c))

def die (s : State) (d : Nat) : Die := (look d s.dies).getD {}
def setDie (s : State) (d : Nat) (x : Die) : State := { s with dies := put d x s.dies }
def modDie (s : State) (d : Nat) (f : Die → Die) : State := s.setDie d (f (s.die d))

def part (s : State) (p : Nat) : Partition := (look p s.parts).getD Partition.init
def setPart (s : State) (p : Nat) (x : Partition) : State := { s with parts := put p x s.parts }
def modPart (s : State) (p : Nat) (f : Partition → Partition) : State := s.setPart p (f (s.part p))

/-- The number of a context's set on a core. -/
def setKey (asid core : Nat) : Nat := asid * 256 + core
def set (s : State) (asid core : Nat) : CoreSet := (look (setKey asid core) s.sets).getD {}
def setSet (s : State) (asid core : Nat) (x : CoreSet) : State :=
  { s with sets := put (setKey asid core) x s.sets }
def modSet (s : State) (asid core : Nat) (f : CoreSet → CoreSet) : State :=
  s.setSet asid core (f (s.set asid core))

/-- A queue's number; front end 64 is the administration queue. -/
def queueKey (fe q : Nat) : Nat := fe * 8 + q
def queue (s : State) (fe q : Nat) : Queue := (look (queueKey fe q) s.queues).getD {}
def setQueue (s : State) (fe q : Nat) (x : Queue) : State :=
  { s with queues := put (queueKey fe q) x s.queues }
def modQueue (s : State) (fe q : Nat) (f : Queue → Queue) : State := s.setQueue fe q (f (s.queue fe q))

def block? (s : State) (b : Nat) : Option Block := look b s.blocks
def modBlock (s : State) (b : Nat) (f : Block → Block) : State :=
  match look b s.blocks with
  | some x => { s with blocks := put b (f x) s.blocks }
  | none => s

def grid? (s : State) (n : Nat) : Option Grid := look n s.grids
def modGrid (s : State) (n : Nat) (f : Grid → Grid) : State :=
  match look n s.grids with
  | some x => { s with grids := put n (f x) s.grids }
  | none => s

/-- A management register of a die by its number less 0x900. -/
def mgmt (s : State) (d n : Nat) : DWord := (look n (s.die d).mgmt).getD (mgmtReset d n)
def setMgmt (s : State) (d n : Nat) (x : DWord) : State := s.modDie d fun e => { e with mgmt := put n x e.mgmt }

/-- A name no group, block, grid or operation has had. -/
def takeName (s : State) : Nat × State := (s.fresh, { s with fresh := s.fresh + 1 })

/-- Send a message to the outside. -/
def send (s : State) (m : Sent) : State := { s with sent := s.sent ++ [m] }

end State

/-! ## Register fields -/

def Context.asid (c : Context) : Nat := DWord.f c.cfg[0] 10 0
def Context.pasid (c : Context) : Nat := DWord.f c.cfg[0] 35 16
def Context.groot (c : Context) : Nat := DWord.f c.cfg[1] 51 12 * 4096
def Context.etbase (c : Context) : Nat := DWord.f c.cfg[2] 56 12 * 4096
def Context.ecnt (c : Context) : Nat := DWord.f c.cfg[2] 10 0
def Context.parkb (c : Context) : Nat := DWord.f c.cfg[3] 56 16 * 65536
def Context.parkn (c : Context) : Nat := DWord.f c.cfg[3] 15 0
def Context.ovfn (c : Context) : Nat := DWord.f c.cfg[4] 15 0
def Context.binn (c : Context) : Nat := DWord.f c.cfg[5] 15 0
def Context.binb (c : Context) : Nat := DWord.f c.cfg[5] 56 16 * 65536
def Context.ptimer (c : Context) : Nat := DWord.f c.cfg[6] 47 32 + 1
def Context.gh (c : Context) : Nat := DWord.f c.cfg[6] 27 16 + 1
def Context.gw (c : Context) : Nat := DWord.f c.cfg[6] 11 0 + 1
def Context.seed (c : Context) : DWord := c.cfg[7]
def Context.detEn (c : Context) : Bool := DWord.f c.detctl 0 0 == 1
def Context.detQlog (c : Context) : Nat := DWord.f c.detctl 12 8
def Context.hline (c : Context) : Nat := DWord.f c.hvec 56 7 * 128
def Context.hostbrk (c : Context) : Bool := DWord.f c.hctl 16 16 == 1
def Context.dlg (c : Context) (code : Nat) : Bool := code != 5 && DWord.f c.hctl 9 3 / 2 ^ (code - 3) % 2 == 1
def Context.fbase (c : Context) : Nat := DWord.f c.fbuf 56 12 * 4096
def Context.fslots (c : Context) : Nat := 64 * (DWord.f c.fbuf 11 0 + 1)

def Partition.cbase (p : Partition) : Nat := DWord.f p.cfg[0] 7 0
def Partition.climit (p : Partition) : Nat := DWord.f p.cfg[0] 15 8
def Partition.abase (p : Partition) : Nat := DWord.f p.cfg[0] 26 16
def Partition.alimit (p : Partition) : Nat := DWord.f p.cfg[0] 42 32
def Partition.kbase (p : Partition) : Nat := DWord.f p.cfg[1] 10 0
def Partition.klimit (p : Partition) : Nat := DWord.f p.cfg[1] 26 16
def Partition.qlog (p : Partition) : Nat := DWord.f p.cfg[1] 36 32
def Partition.bww (p : Partition) : Nat := DWord.f p.cfg[1] 47 40
def Partition.tdis (p : Partition) : Nat := DWord.f p.cfg[1] 63 60
def Partition.colour (p : Partition) : Nat := p.cfg[2].toNat
def Partition.sroot (p : Partition) : Nat := DWord.f p.cfg[3] 51 12 * 4096
def Partition.pinq (p : Partition) : Nat := DWord.f p.cfg[4] 31 0
def Partition.lclog (p : Partition) (c : Nat) : Nat := DWord.f p.cfg[5] (5 * c + 4) (5 * c)

/-- GRPID (R70). -/
def Group.grpid (g : Group) : DWord :=
  if g.packed then BitVec.ofNat 64 (g.lidx % 2 ^ 32 * 2 ^ 32 + 2 ^ 31)
  else BitVec.ofNat 64 (g.lidx % 2 ^ 32 * 2 ^ 32 + g.gcnt % 1024 * 2 ^ 16 + g.rank % 1024)

/-- BLKID (R70). -/
def Group.blkid (g : Group) : DWord := BitVec.ofNat 64 (g.bcnt % 2 ^ 32 * 2 ^ 32 + g.bidx % 2 ^ 32)

/-- The die of a core, and its quad (R15). -/
def dieOf (core : Nat) : Nat := core / 64
def quadOf (core : Nat) : Nat := core / 4

/-- The threads of a mask, in ascending index (R8). -/
def threadsOf (m : Word) : List Nat := (List.range 32).filter fun t => m.getLsbD t

/-- The mask of a list of threads. -/
def maskOf (ts : List Nat) : Word := ts.foldl (fun m t => m ||| (1#32 <<< t)) 0#32

/-- A thread of a group by its index; an index past 31 names the first thread's place and is never used. -/
def Group.thread (g : Group) (t : Nat) : Thread := g.threads[t]?.getD Thread.init
def Group.setThread (g : Group) (t : Nat) (x : Thread) : Group :=
  { g with threads := g.threads.setIfInBounds t x }
def Group.modThread (g : Group) (t : Nat) (f : Thread → Thread) : Group := g.setThread t (f (g.thread t))

def Thread.reg (x : Thread) (n : Nat) : Word := x.v[n]?.getD 0#32
def Thread.setReg (x : Thread) (n : Nat) (w : Word) : Thread := { x with v := x.v.setIfInBounds n w }
def Thread.pred (x : Thread) (k : Nat) : Bool := x.p.getLsbD k
def Thread.setPred (x : Thread) (k : Nat) (b : Bool) : Thread :=
  { x with p := if b then x.p ||| (1#8 <<< k) else x.p &&& ~~~(1#8 <<< k) }

def Group.sreg (g : Group) (n : Nat) : DWord := g.s[n]?.getD 0#64
def Group.setSreg (g : Group) (n : Nat) (x : DWord) : Group := { g with s := g.s.setIfInBounds n x }
def Group.win (g : Group) (n : Nat) : Window := g.w[n]?.getD Window.init
def Group.setWin (g : Group) (n : Nat) (x : Window) : Group := { g with w := g.w.setIfInBounds n x }

/-- The active threads, in ascending index. -/
def Group.active (g : Group) : List Nat := threadsOf g.amask

end Sys2Proof.Machine
end

