-- ==== Sys2Proof/Machine/Cipher.lean ====
section
/-!
DEFINITION. The cipher of memory (R12, R329): AES-256 in XTS mode, a line being the data unit and its direct address the tweak. The spec
names the cipher and leaves its text to the standards; the model takes FIPS 197 and IEEE 1619 (PRESUMED, log entry 90). Bytes are
numbers here, blocks lists of sixteen, a byte's place in a block its row plus four times its column.
-/

namespace Sys2Proof.Machine.Cipher

/-! ## The field of 256 elements -/

/-- A byte times x, modulo x⁸ + x⁴ + x³ + x + 1. -/
def xtime (a : Nat) : Nat := if a < 128 then 2 * a else (2 * a) % 256 ^^^ 0x1B

/-- The product of two bytes, for the lowest `n` bits of the second. -/
def mulBits (a b : Nat) : Nat → Nat
  | 0 => 0
  | n + 1 => (if b % 2 = 1 then a else 0) ^^^ mulBits (xtime a) (b / 2) n

def mul (a b : Nat) : Nat := mulBits a b 8

/-- The inverse of a byte, its 254th power; that of 0 is 0. -/
def inverse (a : Nat) : Nat :=
  let a2 := mul a a
  let a4 := mul a2 a2
  let a8 := mul a4 a4
  let a16 := mul a8 a8
  let a32 := mul a16 a16
  let a64 := mul a32 a32
  mul (mul (mul a2 a4) (mul a8 a16)) (mul (mul a32 a64) (mul a64 a64))

/-- A byte turned left. -/
def turn (a n : Nat) : Nat := a * 2 ^ n % 256 + a / 2 ^ (8 - n)

/-- The substitution of a byte and its inverse. -/
def sub (a : Nat) : Nat :=
  let b := inverse a
  b ^^^ turn b 1 ^^^ turn b 2 ^^^ turn b 3 ^^^ turn b 4 ^^^ 0x63

def unsub (a : Nat) : Nat := inverse (turn a 1 ^^^ turn a 3 ^^^ turn a 6 ^^^ 0x05)

/-! ## Blocks -/

/-- Two lists of bytes, added. -/
def add (a b : List Nat) : List Nat := List.zipWith (· ^^^ ·) a b

/-- The rows turned left, each by its number, and back. -/
def shiftRows (a : List Nat) : List Nat := (List.range 16).map fun i => a.getD (i % 4 + 4 * ((i / 4 + i % 4) % 4)) 0

def unshiftRows (a : List Nat) : List Nat := (List.range 16).map fun i => a.getD (i % 4 + 4 * ((i / 4 + 4 - i % 4) % 4)) 0

/-- Each column times a polynomial, given by the factors of a row's own byte and those that follow it. -/
def mix (c0 c1 c2 c3 : Nat) (a : List Nat) : List Nat :=
  (List.range 16).map fun i =>
    let at_ (k : Nat) : Nat := a.getD (4 * (i / 4) + (i % 4 + k) % 4) 0
    mul c0 (at_ 0) ^^^ mul c1 (at_ 1) ^^^ mul c2 (at_ 2) ^^^ mul c3 (at_ 3)

/-! ## AES-256 -/

/-- The next eight words of the key schedule from eight, with the round constant. -/
def nextWords (ws : List (List Nat)) (rcon : Nat) : List (List Nat) :=
  let last := ws.getD 7 []
  let w0 := add (add (ws.getD 0 []) ((last.drop 1 ++ last.take 1).map sub)) [rcon, 0, 0, 0]
  let w1 := add (ws.getD 1 []) w0
  let w2 := add (ws.getD 2 []) w1
  let w3 := add (ws.getD 3 []) w2
  let w4 := add (ws.getD 4 []) (w3.map sub)
  let w5 := add (ws.getD 5 []) w4
  let w6 := add (ws.getD 6 []) w5
  let w7 := add (ws.getD 7 []) w6
  [w0, w1, w2, w3, w4, w5, w6, w7]

/-- The words of the schedule from eight on. -/
def schedule (ws : List (List Nat)) (rcon : Nat) : Nat → List (List Nat)
  | 0 => ws
  | n + 1 => ws ++ schedule (nextWords ws rcon) (xtime rcon) n

/-- Round keys: the schedule's words, four by four, fifteen in all. -/
def roundKeys (key : List Nat) : List (List Nat) :=
  let ws := schedule ((List.range 8).map fun i => (key.drop (4 * i)).take 4) 1 7
  (List.range 15).map fun i => ((ws.drop (4 * i)).take 4).flatten

/-- A block encrypted under round keys. -/
def encryptBlock (rks : List (List Nat)) (a : List Nat) : List Nat :=
  let a := ((rks.drop 1).take 13).foldl (fun a k => add (mix 2 3 1 1 (shiftRows (a.map sub))) k) (add a (rks.getD 0 []))
  add (shiftRows (a.map sub)) (rks.getD 14 [])

/-- A block decrypted under round keys. -/
def decryptBlock (rks : List (List Nat)) (a : List Nat) : List Nat :=
  let a := ((rks.drop 1).take 13).reverse.foldl (fun a k => mix 14 11 13 9 (add ((unshiftRows a).map unsub) k))
    (add a (rks.getD 14 []))
  add ((unshiftRows a).map unsub) (rks.getD 0 [])

/-! ## XTS -/

/-- The bytes of a number, least significant first, and back. -/
def bytesOf (x n : Nat) : List Nat := (List.range n).map fun i => x / 2 ^ (8 * i) % 256

def number : List Nat → Nat
  | [] => 0
  | b :: bs => b + 256 * number bs

/-- A tweak times x as often as given, modulo x¹²⁸ + x⁷ + x² + x + 1. -/
def alpha (t : Nat) : Nat → Nat
  | 0 => t
  | n + 1 =>
    let u := 2 * t
    alpha (if u < 2 ^ 128 then u else u % 2 ^ 128 ^^^ 0x87) n

/-- The tweak of a block of a line under a key pair. The pair's low 256 bits are the data's key, its high ones the tweak's. -/
def tweak (pair line block : Nat) : List Nat :=
  bytesOf (alpha (number (encryptBlock (roundKeys (bytesOf (pair / 2 ^ 256) 32)) (bytesOf line 16))) block) 16

/-- R329: a block of a line, encrypted under a key pair. -/
def encrypt (pair line block : Nat) (a : List Nat) : List Nat :=
  let t := tweak pair line block
  add (encryptBlock (roundKeys (bytesOf pair 32)) (add a t)) t

/-- R329: a block of a line, decrypted under a key pair. -/
def decrypt (pair line block : Nat) (a : List Nat) : List Nat :=
  let t := tweak pair line block
  add (decryptBlock (roundKeys (bytesOf pair 32)) (add a t)) t

end Sys2Proof.Machine.Cipher
end

