-- ==== Sys2Proof/Machine/Translate.lean ====
section
/-!
DEFINITION. Physical addresses (R150, R151), the two-stage walk (R315, R316), the TLBs (R317) and host translations
(R320).
-/

namespace Sys2Proof.Machine

/-- A fault before it is tied to an instruction (R335, R340): the code, the cause, the value at 0x10, the report. -/
structure Trap where
  code   : Nat
  cause  : Nat := 0
  info   : Nat := 0
  report : Report := {}
  deriving DecidableEq, Repr

def codeXLATE : Nat := 1
def codePERM : Nat := 2
def codeALIGN : Nat := 3
def codeFORMAT : Nat := 4
def codeDATAERR : Nat := 5
def codeLINE : Nat := 6
def codeILLOP : Nat := 7
def codeMASK : Nat := 8
def codeENGINE : Nat := 9
def codeTCALL : Nat := 16
def codeBRK : Nat := 17
def codeARITH : Nat := 18
def codePARKED : Nat := 19
def codeCTXERR : Nat := 32

/-- No code of R335: an access meets a home die that is down, and waits for it (R364). No record ever carries it. -/
def codeBusy : Nat := 255

/-- A fault of a walk: its stage and level stand in the record (R340). -/
def walkTrap (code stage level va : Nat) : Trap :=
  { code := code, info := va, report := { walk := some (stage, level) } }

/-- A fault found by a check that is no walk. -/
def plainTrap (code va : Nat) : Trap := { code := code, info := va }

/-- R150. -/
def hostBase : Nat := 0x8000000000000
def isHost (pa : Nat) : Bool := decide (hostBase ≤ pa)

/-- R150: whether a physical address lies in a reserved range. -/
def isReserved (pa : Nat) : Bool :=
  if pa < 0x20000000000 then decide (0x2000000000 ≤ pa % 0x8000000000)
  else if pa < 0x28000000000 then false
  else !isHost pa || decide (0x10000000000000 ≤ pa)

/-- R151: the direct address an alias address names. -/
def foldAlias (pa : Nat) : Nat :=
  if 0x20000000000 ≤ pa && decide (pa < 0x28000000000) then
    let x := pa - 0x20000000000
    let g := x / 4096
    g % 4 * 0x8000000000 + g / 4 * 4096 + x % 4096
  else pa

/-- R146: the home die of a direct address. -/
def homeDie (pa : Nat) : Nat := pa / 0x8000000000 % 4

/-- R364: whether the home of a direct address is on a die that has been reset and is not ready again. -/
def isDown (s : State) (pa : Nat) : Bool := !isHost pa && (s.die (homeDie pa)).down

/-- R364: an access to such a home waits. -/
def busyTrap (va : Nat) : Trap := plainTrap codeBusy va

/-- Whether any die is down. -/
def anyDown (s : State) : Bool := s.dies.any fun e => e.2.down

/-- The machine with every die answering: what the firmware sees of a table where it looks a page up for its own ends. -/
def State.awake (s : State) : State := { s with dies := s.dies.map fun e => (e.1, { e.2 with down := false }) }

/-- A page-table entry's fields (R315). -/
structure Pte where
  valid : Bool
  leaf  : Bool
  rd    : Bool
  wr    : Bool
  ex    : Bool
  ho    : Bool
  fmt   : Nat
  addr  : Nat
  key   : Nat
  resv  : Bool
  deriving DecidableEq, Repr

def pteOf (e : Nat) : Pte where
  valid := e % 2 == 1
  leaf := e / 2 % 2 == 1
  rd := e / 4 % 2 == 1
  wr := e / 8 % 2 == 1
  ex := e / 16 % 2 == 1
  ho := e / 32 % 2 == 1
  fmt := field e 11 8
  addr := field e 51 12 * 4096
  key := field e 62 52
  resv := field e 7 6 != 0 || field e 63 63 != 0

/-- R316: the size of a leaf's page at a level. -/
def leafSize (level : Nat) : Nat :=
  match level with
  | 0 => 2 ^ 16
  | 1 => 2 ^ 21
  | _ => 2 ^ 30

/-- R316: the index a level takes from an address. -/
def levelIndex (a level : Nat) : Nat :=
  match level with
  | 0 => field a 20 16
  | 1 => field a 29 21
  | 2 => field a 38 30
  | 3 => field a 47 39
  | _ => field a 56 48

/-- R316: whether an entry of a stage is malformed at a level. -/
def Pte.malformed (e : Pte) (stage2 : Bool) (level : Nat) : Bool :=
  e.resv ||
  (if e.leaf then
    decide (3 ≤ level) ||
    (if stage2 then e.key != 0 || e.fmt != 0 || e.addr % leafSize level != 0
     else e.ho || decide (4 ≤ e.fmt) || (e.fmt == 0 && e.addr % leafSize level != 0))
   else level == 0 || e.key != 0 || e.fmt != 0 || e.rd || e.wr || e.ex || e.ho)

/-- R187, R361: whether any of `n` bytes from a direct or host address is uncorrectable at its home. -/
def State.lost (s : State) (pa n : Nat) : Bool :=
  !s.bad.isEmpty && (List.range n).any fun i => ((look ((pa + i) / 64) s.bad).getD []).contains ((pa + i) % 64)

/-- Eight bytes of a table, read at its home (R318); `none` where they are uncorrectable (R334). -/
def readPte (s : State) (a : Nat) : Option Pte :=
  if s.lost (foldAlias a) 8 then none else some (pteOf (ofBytes (s.mem.bytes (foldAlias a) 8)))

/-- The second stage from a level down: the address, the leaf and its level (R316). -/
def stage2From (s : State) (g va : Nat) : Nat → Nat → Except Trap (Nat × Pte × Nat)
  | level, t =>
    if isDown s (foldAlias (t + 8 * levelIndex g level)) then .error (busyTrap va)
    else match readPte s (t + 8 * levelIndex g level) with
    | none => .error (plainTrap codeDATAERR va)
    | some e =>
      if !e.valid || e.malformed true level then .error (walkTrap codeXLATE 1 level va)
      else if e.leaf then .ok (e.addr + g % leafSize level, e, level)
      else match level with
        | 0 => .error (walkTrap codeXLATE 1 0 va)
        | l + 1 => stage2From s g va l e.addr

/-- R316: the second stage of a guest-physical address; `va` is what a fault reports. -/
def stage2 (s : State) (sroot g va : Nat) : Except Trap (Nat × Pte × Nat) :=
  if 2 ^ 52 ≤ g then .error (walkTrap codeXLATE 1 4 va) else stage2From s g va 4 sroot

def pageFmtOf (f : Nat) : PageFmt :=
  match f with
  | 1 => .g3
  | 2 => .g5
  | 3 => .g8
  | _ => .raw

/-- R156: the packed bytes of a block, and the physical bytes of a grain page. -/
def PageFmt.blockBytes : PageFmt → Nat
  | .raw => 64
  | .g3 => 6
  | .g5 => 10
  | .g8 => 16

def PageFmt.extent (f : PageFmt) (span : Nat) : Nat :=
  match f with
  | .raw => span
  | _ => span / 64 * (f.blockBytes + 2)

/-- A first-stage leaf reached: the page it gives (R316). A grain page's frame is where its extent begins, and the
whole extent must lie in one second-stage leaf (log entry 20). -/
def leafPage (s : State) (part va level : Nat) (e : Pte) : Except Trap Page :=
  let p := s.part part
  let size := leafSize level
  let fmt := pageFmtOf e.fmt
  let g := if fmt = .raw then e.addr + va % size else e.addr
  match stage2 s p.sroot g va with
  | .error t => .error t
  | .ok (pa, z, l2) =>
    if e.key < p.kbase || p.klimit < e.key then .error (walkTrap codePERM 0 level va)
    else if fmt != .raw && decide (leafSize l2 < g % leafSize l2 + fmt.extent size) then
      .error (walkTrap codeXLATE 1 l2 va)
    else if isReserved pa then .error (walkTrap codeXLATE 1 level va)
    else
      let span := if fmt = .raw then min size (leafSize l2) else size
      let off := va % span
      .ok { vbase := va - off, span := span, frame := if fmt = .raw then pa - off else pa, fmt := fmt,
            key := e.key, part := part, rd1 := e.rd, wr1 := e.wr, ex1 := e.ex, rd2 := z.rd, wr2 := z.wr, ex2 := z.ex, ho := z.ho,
            level1 := level, level2 := l2 }

/-- The first stage from a level down (R316). -/
def stage1From (s : State) (part va : Nat) : Nat → Nat → Except Trap Page
  | level, t =>
    match stage2 s (s.part part).sroot (t + 8 * levelIndex va level) va with
    | .error tr => .error tr
    | .ok (pa, z, _) =>
      if !z.rd then .error (walkTrap codePERM 1 level va)
      else if isDown s (foldAlias pa) then .error (busyTrap va)
      else
        match readPte s pa with
        | none => .error (plainTrap codeDATAERR va)
        | some e =>
          if !e.valid || e.malformed false level then .error (walkTrap codeXLATE 0 level va)
          else if e.leaf then leafPage s part va level e
          else match level with
            | 0 => .error (walkTrap codeXLATE 0 0 va)
            | l + 1 => stage1From s part va l e.addr

/-- R316: the walk of a virtual address in a context. -/
def walk (s : State) (asid va : Nat) : Except Trap Page :=
  match s.ctx? asid with
  | none => .error (walkTrap codeXLATE 0 4 va)
  | some c => stage1From s c.part va 4 c.groot

/-- The kinds of access a translation is checked for (R316). -/
inductive Access where
  | read | write | update | fetch | none
  deriving DecidableEq, Repr

def Access.needs (a : Access) (rd wr ex : Bool) : Bool :=
  match a with
  | .read => rd
  | .write => wr
  | .update => rd && wr
  | .fetch => ex
  | .none => true

/-- R306, R316: the rights of a page against an access in a mode: a failure is PERM at the first stage when the
first-stage leaf lacks the right, and otherwise at the second. -/
def Page.check (p : Page) (acc : Access) (mode : Mode) (va : Nat) : Option Trap :=
  if !acc.needs p.rd1 p.wr1 p.ex1 then some (walkTrap codePERM 0 p.level1 va)
  else if !acc.needs p.rd2 p.wr2 p.ex2 then some (walkTrap codePERM 1 p.level2 va)
  else if mode = .user && p.ho || mode = .handler && acc = .fetch && !p.ho then
    some (walkTrap codePERM 1 p.level2 va)
  else if acc = .fetch && isHost p.frame then some (plainTrap codePERM va)
  else none

/-- A cached page of a core's TLB that holds an address (R317). -/
def tlbFind (s : State) (core asid va : Nat) : Option Page :=
  (s.tlb.find? fun e => e.core == core && e.asid == asid && decide (e.page.vbase ≤ va) &&
    decide (va < e.page.vbase + e.page.span)).map (·.page)

/-- The page of an address, through a core's TLB or a walk, whose translation is then cached (R317). -/
def lookupPage (s : State) (core asid va : Nat) : Except Trap (Page × State) :=
  match tlbFind s core asid va with
  | some p => .ok (p, s)
  | none =>
    match walk s asid va with
    | .error t => .error t
    | .ok p =>
      let part := match s.ctx? asid with
        | some c => c.part
        | none => 0
      .ok (p, { s with tlb := { core := core, asid := asid, part := part, page := p } :: s.tlb })

/-- R316: translate for an access in a mode. -/
def translate (s : State) (core asid : Nat) (mode : Mode) (acc : Access) (va : Nat) :
    Except Trap (Page × State) :=
  match lookupPage s core asid va with
  | .error t => .error t
  | .ok (p, s') =>
    match p.check acc mode va with
    | some t => .error t
    | none => .ok (p, s')

/-- R320: the host address a granted translation gives for an untranslated one, or XLATE with the host flag and what the
Page Request asks for. -/
def hostTranslate (s : State) (asid : Nat) (acc : Access) (pa va : Nat) : Except Trap Nat :=
  let pasid := match s.ctx? asid with
    | some c => c.pasid
    | none => 0
  let u := pa - hostBase
  match s.atc.find? fun e => e.pasid == pasid && e.page == u / 4096 && acc.needs e.rd e.wr true with
  | some e => .ok (hostBase + e.target * 4096 + u % 4096)
  | none =>
    .error { code := codeXLATE, info := va,
             report := { host := true, ask := some (u / 4096, acc.needs true false false, acc.needs false true false) } }

/-- The location of a byte of a raw page: its direct address, or its host address once translated. An atomic to host
memory is PERM with no ATS request (R149, R320); a home on a die that is down is waited for (R364). -/
def Page.rawPlace (s : State) (asid : Nat) (p : Page) (acc : Access) (va : Nat) : Except Trap Nat :=
  let pa := p.frame + (va - p.vbase)
  if !isHost pa then if isDown s (foldAlias pa) then .error (busyTrap va) else .ok (foldAlias pa)
  else if acc = .update then .error (plainTrap codePERM va)
  else hostTranslate s asid acc pa va

/-- Whose lines a page's accesses reach (R324, R329). -/
def Page.own (p : Page) : Owner := ⟨p.key, p.part⟩

end Sys2Proof.Machine
end

