-- ==== Sys2Proof/Machine/Levels.lean ====
section
/-!
DEFINITION. The memory levels (R143 to R149): the home slices over DRAM with its encryption (R329) and colours (R324),
each die's RDC, each core's L1, host memory, and what an acquire and a release do to them; a die that is down (R364).
-/

namespace Sys2Proof.Machine

/-! ## Colours, keys and the bounds of R148 -/

/-- The positions of the set bits of a 64-bit number, from bit 0. -/
def setBits (x : Nat) : List Nat := (List.range 64).filter fun i => x.testBit i

/-- R324: the XOR of the 6-bit groups of a line number, which holds bits 51:8 of the line's address. -/
def lineHash (line : Nat) : Nat := (List.range 8).foldl (fun h i => h ^^^ field line (6 * i + 5) (6 * i)) 0

/-- R324: the L2 slice, or the RDC part, of a line under a COLOUR; with no colour set the hash itself is taken (log entry
91). -/
def colourSlot (colour line : Nat) : Nat := (setBits colour).getD (lineHash line % (setBits colour).length) (lineHash line)

/-- The owner of an access that no page makes: host memory has no key and no colour. -/
def hostOwner : Owner := ⟨0, 0⟩

/-- R148: 65,536 fabric cycles at 1.2 GHz are 32,768 lane cycles at 600 MHz (R12). -/
def copyLife : Nat := 32768

def L1Sector.isDirty (x : L1Sector) : Bool := x.dirty.any id

/-- R148: the dirty bytes of an L1 sector must be written back by now. -/
def L1Sector.mustClean (x : L1Sector) (now : Nat) : Bool := x.isDirty && decide (x.wrote + copyLife ≤ now)

/-- R148: an L1 sector must be dropped by now, its dirty bytes written back as it goes: its clean bytes grow no older. -/
def L1Sector.mustDrop (x : L1Sector) (now : Nat) : Bool := decide (x.since + copyLife ≤ now)

namespace State

/-- R329: the value a key slot holds; a slot that nothing has loaded, or that was zeroed, holds 0. -/
def keyValue (s : State) (slot : Nat) : Nat := (look slot s.keys).getD 0

/-- The slice, or RDC part, of a direct address for an owner's partition (R324). -/
def slotOf (s : State) (o : Owner) (pa : Nat) : Nat := colourSlot (s.part o.part).colour (pa / 256)

/-- R324, R325, R329: whether a sector is dirty in another slice than the one an owner's accesses reach: its plaintext stays there, and
the owner's slice has what DRAM has. -/
def elsewhere (s : State) (o : Owner) (sector : Nat) : Bool :=
  match look sector s.l2 with
  | some x => x.slice != s.slotOf o (sector * 64)
  | none => false

/-- R329: whether DRAM holds a sector encrypted under another key than an owner's. -/
def resealed (s : State) (o : Owner) (sector : Nat) : Bool :=
  match look sector s.seals with
  | none => false
  | some v => v != s.keyValue o.key

/-- R324, R329: whether an owner's read of a sector does not find the bytes that `mem` has: they are dirty in another slice, or DRAM
has them under another key. -/
def foreign (s : State) (o : Owner) (sector : Nat) : Bool :=
  s.elsewhere o sector || (s.resealed o sector && (look sector s.l2).isNone)

/-- The byte that DRAM has, decrypted under the key that it was encrypted under. -/
def dramByte (s : State) (pa : Nat) : Byte :=
  match look (pa / 64) s.l2 with
  | some x => x.old.getD (pa % 64) 0#8
  | none => s.mem.get pa

/-- R329: the byte that decryption under one key pair finds where DRAM holds the byte of an address encrypted under another
(log entry 90). -/
def recrypt (s : State) (sealed pair pa : Nat) : Byte :=
  let line := pa / 256 * 256
  let block := pa % 256 / 16
  let plain := (List.range 16).map fun i => (s.dramByte (pa / 16 * 16 + i)).toNat
  BitVec.ofNat 8 ((Cipher.decrypt pair line block (Cipher.encrypt sealed line block plain)).getD (pa % 16) 0)

/-- R146, R324, R329: the byte an owner's read finds at the home slice, or in host memory. -/
def homeByte (s : State) (o : Owner) (pa : Nat) : Byte :=
  if !s.foreign o (pa / 64) then s.mem.get pa
  else if s.resealed o (pa / 64) then s.recrypt ((look (pa / 64) s.seals).getD 0) (s.keyValue o.key) pa
  else s.dramByte pa

/-- Bytes at their home. -/
def homeBytesAt (s : State) (o : Owner) (pa n : Nat) : List Byte := (List.range n).map fun i => s.homeByte o (pa + i)

/-! ## The home slices -/

/-- Whether the partition of a context has pinned the line of an address (R145, R326). -/
def isPinned (s : State) (pa : Nat) : Bool := s.parts.any fun e => e.2.pins.contains (pa / 256)

/-- R326: the pinned lines that a slice of a die keeps room for. -/
def pinsOn (s : State) (die slice : Nat) : Nat :=
  s.parts.foldl (fun n e => n + (e.2.pins.filter fun l => homeDie (l * 256) == die && colourSlot e.2.colour l == slice).length) 0

/-- R159: the replicas that a slice of a die holds. -/
def replicasOn (s : State) (die slice : Nat) : Nat :=
  (s.replicas.filter fun r => r.die == die && r.slice == slice).length

/-- The sectors of a slice's 3 MiB in use: those dirty there, four for every pinned line and for every replica. -/
def sliceUse (s : State) (die slice : Nat) : Nat :=
  (s.l2.filter fun e => homeDie (e.1 * 64) == die && e.2.slice == slice && !s.isPinned (e.1 * 64)).length +
    4 * s.pinsOn die slice + 4 * s.replicasOn die slice

/-- A bound on what any slice holds. -/
def heldTotal (s : State) : Nat :=
  s.l2.length + 4 * s.parts.foldl (fun n e => n + e.2.pins.length) 0 + 4 * s.replicas.length

/-- R17: whether `n` sectors more pass an L2 slice's 3 MiB. -/
def sliceShort (s : State) (die slice n : Nat) : Bool :=
  decide (49152 < s.heldTotal + n) && decide (49152 < s.sliceUse die slice + n)

/-- R146, R329: the sector is written to DRAM under its owner's key and is dirty no longer; one found uncorrectable then is noted,
to stop the contexts that own its page (R363). -/
def l2Clean (s : State) (sector : Nat) : State :=
  match look sector s.l2 with
  | some x =>
    { s with
      l2 := drop sector s.l2
      seals := put sector (s.keyValue x.own.key) s.seals
      dead := if (look sector s.bad).isSome then s.dead ++ [sector] else s.dead }
  | none => s

/-- R199: the sector's L2 copy is discarded; the home serves DRAM's bytes again, the uncorrectable ones among them (R361). -/
def l2Discard (s : State) (sector : Nat) : State :=
  match look sector s.l2 with
  | some x =>
    { s with
      mem := s.mem.write (sector * 64) x.old
      l2 := drop sector s.l2
      bad := if x.hurt.isEmpty then drop sector s.bad else put sector x.hurt s.bad }
  | none => s

/-- R146: a sector is taken from DRAM into its owner's slice to be written: DRAM keeps the bytes it had, and those that the write
leaves are decrypted under the writer's key. -/
def takeSector (s : State) (o : Owner) (sector : Nat) : State :=
  let x : L2Sector :=
    ⟨s.mem.bytes (sector * 64) 64, (look sector s.bad).getD [], s.slotOf o (sector * 64), o⟩
  { s with
    mem := if s.foreign o sector then s.mem.write (sector * 64) (s.homeBytesAt o (sector * 64) 64) else s.mem
    l2 := put sector x s.l2 }

/-- R146: a write makes its sector dirty in the owner's slice; one dirty in another slice is written back there first, as L2 may at
any time. Host memory has no such copy. -/
def touchSector (s : State) (o : Owner) (pa : Nat) : State :=
  let k := pa / 64
  if isHost pa then s
  else if s.elsewhere o k then (s.l2Clean k).takeSector o k
  else if (look k s.l2).isSome then s
  else s.takeSector o k

/-- R361: a byte written anew is sound again (log entry 92). -/
def heal (bad : NMap (List Nat)) (pa : Nat) : NMap (List Nat) :=
  match look (pa / 64) bad with
  | none => bad
  | some os => if (os.erase (pa % 64)).isEmpty then drop (pa / 64) bad else put (pa / 64) (os.erase (pa % 64)) bad

/-- R110: a write that reaches a watched sector is counted. -/
def noteWrite (watch : NMap Nat) (sector : Nat) : NMap Nat :=
  match look sector watch with
  | none => watch
  | some n => put sector (n + 1) watch

/-- One byte written at its home slice, or to host memory. A slice with no room for the sector writes it on to DRAM (log
entry 91), unless its line is pinned. -/
def homeWrite (s : State) (o : Owner) (pa : Nat) (b : Byte) : State :=
  let full := ((look (pa / 64) s.l2).isNone || s.elsewhere o (pa / 64)) && s.sliceShort (homeDie pa) (s.slotOf o pa) 1 && !s.isPinned pa
  let t := s.touchSector o pa
  let t := { t with mem := t.mem.set pa b, bad := heal t.bad pa, watch := noteWrite t.watch (pa / 64) }
  if full then t.l2Clean (pa / 64) else t

/-! ## The RDC -/

/-- The line of a byte in the part of a die's RDC that an owner's accesses reach, if it is there (R147, R324). -/
def rdcLine (s : State) (d : Nat) (o : Owner) (pa : Nat) : Option RdcLine :=
  (look (pa / 256) (s.die d).rdc).filter fun l => l.slot == s.slotOf o pa

/-- The RDC copy of a byte on a die, if its line is there (R147). -/
def rdcByte (s : State) (d : Nat) (o : Owner) (pa : Nat) : Option Byte :=
  (s.rdcLine d o pa).map fun l => l.bytes.getD (pa % 256) 0#8

/-- R147: a store updates a copy in its own die's RDC. -/
def rdcUpdate (s : State) (d : Nat) (o : Owner) (pa : Nat) (b : Byte) : State :=
  match s.rdcLine d o pa with
  | some l => s.modDie d fun e => { e with rdc := put (pa / 256) { l with bytes := l.bytes.set (pa % 256) b } e.rdc }
  | none => s

/-- A store past L1: the issuing die's RDC copy, then the home slice (R147). -/
def pastL1Write (s : State) (core : Nat) (o : Owner) (pa : Nat) (b : Byte) : State :=
  (if isHost pa || homeDie pa == dieOf core then s else s.rdcUpdate (dieOf core) o pa b).homeWrite o pa b

/-- R12, R324: whether the part of an RDC that a line falls in holds as many lines as its 1 MiB takes. -/
def rdcFull (s : State) (d slot : Nat) : Bool :=
  decide (4096 ≤ (s.die d).rdc.length) && decide (4096 ≤ ((s.die d).rdc.filter fun e => e.2.slot == slot).length)

/-- R147: bring a line of another die into the RDC, where its part has room, the line is sound and no other part holds it (log entry
91). -/
def rdcFill (s : State) (d : Nat) (o : Owner) (pa : Nat) : State :=
  match look (pa / 256) (s.die d).rdc with
  | some _ => s
  | none =>
    if s.lost (pa / 256 * 256) 256 || s.rdcFull d (s.slotOf o pa) then s
    else
      let x : RdcLine := ⟨s.homeBytesAt o (pa / 256 * 256) 256, s.now, s.slotOf o pa, o⟩
      s.modDie d fun e => { e with rdc := put (pa / 256) x e.rdc }

/-- The byte a die's cores see past L1 (R146, R147). -/
def pastL1Byte (s : State) (core : Nat) (o : Owner) (pa : Nat) : Byte :=
  if isHost pa || homeDie pa == dieOf core then s.homeByte o pa
  else (s.rdcByte (dieOf core) o pa).getD (s.homeByte o pa)

/-- R187: whether a read past L1 of `n` bytes of one line consumes uncorrectable data: a sound RDC copy serves it. -/
def pastL1Lost (s : State) (core : Nat) (o : Owner) (pa n : Nat) : Bool :=
  s.lost pa n && (isHost pa || homeDie pa == dieOf core || (s.rdcLine (dieOf core) o pa).isNone)

/-! ## L1 -/

/-- The byte a core's loads see (R145). -/
def coreByte (s : State) (core : Nat) (o : Owner) (pa : Nat) : Byte :=
  match look (pa / 64) (s.core core).l1 with
  | some x => x.bytes[pa % 64]?.getD 0#8
  | none => s.pastL1Byte core o pa

/-- R17, R160: the sectors an L1 holds beside the bench. -/
def l1Room (c : Core) : Nat := (8 - c.bench) * 2048

/-- R148: since when the copy that a fill of L1 reads has stood outside its home: that of the RDC line it reads. -/
def fillSince (s : State) (core : Nat) (o : Owner) (pa : Nat) : Nat :=
  if isHost pa || homeDie pa == dieOf core then s.now
  else ((s.rdcLine (dieOf core) o pa).map RdcLine.since).getD s.now

/-- What a core's load of a raw page fetches into the RDC and L1 (R145, R147); host and pinned data stay out of L1, and a
full L1 takes no new sector (log entry 91). -/
def fillFor (s : State) (core : Nat) (o : Owner) (pa : Nat) : State :=
  if isHost pa then s
  else match look (pa / 64) (s.core core).l1 with
    | some _ => s
    | none =>
      let s := if homeDie pa == dieOf core then s else s.rdcFill (dieOf core) o pa
      let base := pa / 64 * 64
      if s.isPinned pa || s.pastL1Lost core o base 64 || decide (l1Room (s.core core) ≤ (s.core core).l1.length) then s
      else
        let bytes := Vector.ofFn fun i : Fin 64 => s.pastL1Byte core o (base + i.val)
        s.modCore core fun c =>
          { c with l1 := put (pa / 64) ⟨bytes, Vector.replicate 64 false, s.fillSince core o pa, s.now, o⟩ c.l1 }

/-- One byte stored by a core to a raw page (R145). -/
def coreWrite (s : State) (core : Nat) (o : Owner) (pa : Nat) (b : Byte) : State :=
  match look (pa / 64) (s.core core).l1 with
  | some x =>
    let y : L1Sector :=
      { x with bytes := x.bytes.setIfInBounds (pa % 64) b, dirty := x.dirty.setIfInBounds (pa % 64) true,
               wrote := if x.isDirty then x.wrote else s.now }
    s.modCore core fun c => { c with l1 := put (pa / 64) y c.l1 }
  | none => s.pastL1Write core o pa b

/-- The dirty bytes of an L1 sector, written past L1. -/
def flushBytes (s : State) (core sector : Nat) (x : L1Sector) : State :=
  (List.range 64).foldl (fun s i =>
    if x.dirty[i]?.getD false then s.pastL1Write core x.own (sector * 64 + i) (x.bytes[i]?.getD 0#8) else s) s

/-- R364: a dirty sector whose home is down stays where it is until the die is ready again. -/
def waitsHome (s : State) (sector : Nat) (x : L1Sector) : Bool := x.isDirty && isDown s (sector * 64)

/-- R145: write back one sector of an L1 and keep it clean. -/
def cleanSector (s : State) (core sector : Nat) : State :=
  match look sector (s.core core).l1 with
  | some x =>
    if s.waitsHome sector x then s
    else (s.flushBytes core sector x).modCore core fun c =>
      { c with l1 := put sector { x with dirty := Vector.replicate 64 false } c.l1 }
  | none => s

/-- R145: write back and drop one sector of an L1, as atomics and `wait` do before they act. -/
def dropSector (s : State) (core sector : Nat) : State :=
  match look sector (s.core core).l1 with
  | some x =>
    if s.waitsHome sector x then s
    else (s.flushBytes core sector x).modCore core fun c => { c with l1 := drop sector c.l1 }
  | none => s

/-- Every sector of a core's L1, written back; dropped too when `inv` holds. -/
def sweepL1 (s : State) (core : Nat) (inv : Bool) : State :=
  ((s.core core).l1.map (·.1)).foldl
    (fun s k => if inv then s.dropSector core k else s.cleanSector core k) s

/-- R143, R147: what an acquire at a scope does to the levels its core reads through. -/
def acquire (s : State) (core scope : Nat) : State :=
  let s := if 1 ≤ scope then s.sweepL1 core true else s
  if 4 ≤ scope then s.modDie (dieOf core) fun d => { d with rdc := [] } else s

/-- R143: what a release at a scope does. -/
def release (s : State) (core scope : Nat) : State := if 2 ≤ scope then s.sweepL1 core false else s

/-- Bytes written at the home from a folded start, byte by byte, `addr` giving each byte's address. -/
def writeAt (s : State) (write : State → Nat → Byte → State) (addr : Nat → Nat) (bs : List Byte) : State :=
  (List.range bs.length).foldl (fun s i => write s (addr i) (bs.getD i 0#8)) s

/-- Bytes read one by one. -/
def readAt (read : Nat → Byte) (addr : Nat → Nat) (n : Nat) : List Byte :=
  (List.range n).map fun i => read (addr i)

/-- R148: every copy whose time is up is written back or dropped. -/
def expire (s : State) : State :=
  let due : List (Nat × Nat × Bool) := s.cores.flatMap fun (e : Nat × Core) =>
    (e.2.l1.filter fun x => x.2.mustClean s.now || x.2.mustDrop s.now).map fun x => (e.1, x.1, x.2.mustDrop s.now)
  let s := due.foldl (fun s k => if k.2.2 then s.dropSector k.1 k.2.1 else s.cleanSector k.1 k.2.1) s
  let old (x : Nat × RdcLine) : Bool := decide (x.2.since + copyLife ≤ s.now)
  if s.dies.any fun e => e.2.rdc.any old then
    { s with dies := s.dies.map fun e => (e.1, { e.2 with rdc := e.2.rdc.filter fun x => !old x }) }
  else s

/-! ## Write-backs by the firmware -/

/-- R325, R326: the lines of a partition in some slices are written back and dropped, its replicas there with them (R159). -/
def cleanSlices (s : State) (part : Nat) (slices : List Nat) : State :=
  let mine := (s.l2.filter fun e => e.2.own.part == part && slices.contains e.2.slice).map (·.1)
  let s := mine.foldl (fun s k => s.l2Clean k) s
  { s with
    dies := s.dies.map fun e =>
      (e.1, { e.2 with rdc := e.2.rdc.filter fun x => !(x.2.own.part == part && slices.contains x.2.slot) })
    replicas := s.replicas.filter fun r => !(r.own.part == part && slices.contains r.slice) }

/-- R329: every cached line of a key slot is written back and dropped. -/
def cleanKey (s : State) (slot : Nat) : State :=
  let held : List (Nat × Nat) := s.cores.flatMap fun (e : Nat × Core) =>
    (e.2.l1.filter fun x => x.2.own.key == slot).map fun x => (e.1, x.1)
  let s := held.foldl (fun s k => s.dropSector k.1 k.2) s
  let s := ((s.l2.filter fun e => e.2.own.key == slot).map (·.1)).foldl (fun s k => s.l2Clean k) s
  { s with
    dies := s.dies.map fun e => (e.1, { e.2 with rdc := e.2.rdc.filter fun x => x.2.own.key != slot })
    replicas := s.replicas.filter fun r => r.own.key != slot }

/-- R364: every core's copies of what a die homes are written back and dropped. -/
def dropHomed (s : State) (die : Nat) : State :=
  let held : List (Nat × Nat) := s.cores.flatMap fun (e : Nat × Core) =>
    (e.2.l1.filter fun x => homeDie (x.1 * 64) == die && !isHost (x.1 * 64)).map fun x => (e.1, x.1)
  held.foldl (fun s k => s.dropSector k.1 k.2) s

end State

/-- R166: an owner's read at the home of a line leaves no older copy of it in the part of the die's RDC that its reads reach. -/
def dropRdcLine (s : State) (d : Nat) (o : Owner) (pa : Nat) : State :=
  match s.rdcLine d o pa with
  | none => s
  | some _ => s.modDie d fun e => { e with rdc := drop (pa / 256) e.rdc }

/-- R173: a group that has acquired at a scope of the package or wider. -/
def Group.acquired (g : Group) (scope : Nat) : Group := if 4 ≤ scope then { g with pkgSeen := true } else g

end Sys2Proof.Machine
end

