-- ==== Sys2Proof/Machine/Grain.lean ====
section
/-!
DEFINITION. The grain formats: decoding and encoding a block (R223, R224), a block in a page (R156) and in a literal
(R45).
-/

namespace Sys2Proof.Machine

/-- R223: bits of M, and the bias. -/
def PageFmt.mbits : PageFmt → Nat
  | .g3 => 2
  | .g5 => 4
  | _ => 7

def PageFmt.bias : PageFmt → Int
  | .g3 => 128
  | .g5 => 130
  | _ => 133

def PageFmt.mmax (f : PageFmt) : Nat := 2 ^ f.mbits - 1

/-- A block: E, μ, and 16 element codes of `mbits + 1` bits, the top bit the sign. -/
structure GBlock where
  e     : Nat
  mu    : Nat
  elems : List Nat
  deriving DecidableEq, Repr

/-- R223: an element's sign, M and scale exponent; `none` in a NaN block. -/
def GBlock.term (f : PageFmt) (b : GBlock) (i : Nat) : Option Term :=
  if b.e = 255 then none
  else
    let code := b.elems.getD i 0
    let m := code % 2 ^ f.mbits
    some ⟨m != 0 && code / 2 ^ f.mbits % 2 == 1, m, (b.e : Int) - f.bias - (b.mu / 2 ^ (i / 2) % 2 : Nat)⟩

/-- The pattern of an exact value in FP32. -/
def exactFp32 (t : Term) : Word :=
  if t.m = 0 then 0#32 else BitVec.ofNat 32 (roundTo fp32 ⟨.rne, 0⟩ t.neg ⟨t.m, t.e, false⟩).bits

/-- R155, R223: an element decoded to FP32. -/
def GBlock.fp32 (f : PageFmt) (b : GBlock) (i : Nat) : Word :=
  match b.term f i with
  | none => 0x7FC00000#32
  | some t => exactFp32 t

/-- Whether `m × 2^e ≤ n × 2^g`. -/
def magLe (m : Nat) (e : Int) (n : Nat) (g : Int) : Bool :=
  if e ≤ g then decide (m ≤ n * 2 ^ (g - e).toNat) else decide (m * 2 ^ (e - g).toNat ≤ n)

/-- The smallest E from a start, within fuel, whose range holds a magnitude; 254 when none does (R224). -/
def findE (f : PageFmt) (m : Nat) (e : Int) : Nat → Nat → Nat
  | 0, _ => 254
  | fuel + 1, x => if magLe m e f.mmax ((x : Int) - f.bias) then x else findE f m e fuel (x + 1)

/-- One encoded element: its code and flags (R224). -/
def encodeElem (f : PageFmt) (r : Rnd) (x : FVal) (scale : Int) : Nat × Flags :=
  match x with
  | .fin neg m e =>
    let (q, inexact) := roundMag r neg ⟨m, e - scale, false⟩ 0
    let clipped := decide (f.mmax < q)
    let q' := if clipped then f.mmax else q
    (q' + (if neg && q' != 0 then 2 ^ f.mbits else 0),
      flagIf clipped flagFMT ||| flagIf (inexact || clipped) flagNX)
  | _ => (0, 0#7)

/-- R224: sixteen FP32 patterns into one block; `r i` is the rounding of element i. -/
def encodeBlock (f : PageFmt) (r : Nat → Rnd) (xs : List Word) : GBlock × Flags :=
  let vs := xs.map fun x => Machine.fp32.decode x.toNat
  let nanBlock : GBlock := ⟨255, 0, List.replicate 16 0⟩
  if vs.any FVal.isNaN then (nanBlock, snans vs)
  else if vs.any (fun v => match v with | .inf _ => true | _ => false) then (nanBlock, flagNV)
  else
    let mags := vs.map fun v => match v with
      | .fin _ m e => (m, e)
      | _ => (0, 0)
    let top := mags.foldl (fun t u => if magLe u.1 u.2 t.1 t.2 then t else u) (0, 0)
    let e := if top.1 = 0 then 0 else findE f top.1 top.2 255 0
    let fine (i : Nat) : Bool :=
      let u := mags.getD i (0, 0)
      u.1 == 0 || magLe u.1 u.2 f.mmax ((e : Int) - f.bias - 1)
    let mu := (List.range 8).foldl (fun m j => m + if fine (2 * j) && fine (2 * j + 1) then 2 ^ j else 0) 0
    let out := (List.range 16).map fun i =>
      encodeElem f (r i) (vs.getD i (.fin false 0 0)) ((e : Int) - f.bias - (mu / 2 ^ (i / 2) % 2 : Nat))
    (⟨e, mu, out.map (·.1)⟩, out.foldl (fun fl o => fl ||| o.2) 0#7)

/-- R156: the packed bytes of a block's elements. -/
def GBlock.packed (f : PageFmt) (b : GBlock) : List Byte :=
  toBytes f.blockBytes ((List.range 16).foldl
    (fun x i => x + b.elems.getD i 0 % 2 ^ (f.mbits + 1) * 2 ^ ((f.mbits + 1) * i)) 0)

/-- The elements that packed bytes hold. -/
def unpackElems (f : PageFmt) (x : Nat) : List Nat :=
  (List.range 16).map fun i => x / 2 ^ ((f.mbits + 1) * i) % 2 ^ (f.mbits + 1)

/-- R156: the direct address of byte `i` of block `j`'s packed elements, and of its side bytes. -/
def Page.blockAddr (p : Page) (j i : Nat) : Nat := foldAlias (p.frame + j * p.fmt.blockBytes + i)
def Page.sideAddr (p : Page) (j i : Nat) : Nat :=
  foldAlias (p.frame + p.span / 64 * p.fmt.blockBytes + 2 * j + i)

/-- The sectors that hold a block's packed elements and its side bytes. -/
def Page.blockSectors (p : Page) (j : Nat) : List Nat :=
  [p.blockAddr j 0 / 64, p.blockAddr j (p.fmt.blockBytes - 1) / 64, p.sideAddr j 0 / 64].eraseDups

/-- R364: whether a byte of a block is homed on a die that is down. -/
def Page.blockDown (p : Page) (s : State) (j : Nat) : Bool :=
  isDown s (p.blockAddr j 0) || isDown s (p.blockAddr j (p.fmt.blockBytes - 1)) || isDown s (p.sideAddr j 0)

/-- R364: the same for the blocks that hold `n` logical bytes from an offset on. -/
def Page.runDown (p : Page) (s : State) (off n : Nat) : Bool :=
  anyDown s && (List.range ((off + n - 1) / 64 + 1 - off / 64)).any fun i => p.blockDown s (off / 64 + i)

/-- R166: the lines of a die's RDC that hold some sectors go. -/
def dropRdcSectors (s : State) (d : Nat) (o : Owner) (ks : List Nat) : State :=
  if (s.die d).rdc.isEmpty then s else ks.foldl (fun s k => dropRdcLine s d o (64 * k)) s

/-- R156, R166: a raw page on the same frame is the same location: the core's own L1 copies of a block's bytes are written back and
dropped before the core reads or writes it as a block, and no older copy of them stays in its die's RDC. -/
def dropBlock (s : State) (core : Nat) (p : Page) (j : Nat) : State :=
  dropRdcSectors (if (s.core core).l1.isEmpty then s else (p.blockSectors j).foldl (fun s k => s.dropSector core k) s)
    (dieOf core) p.own (p.blockSectors j)

/-- Block `j` of a grain page, read at its home (R165). -/
def readBlock (s : State) (p : Page) (j : Nat) : GBlock :=
  let byte (a : Nat) : Byte := s.homeByte p.own a
  let x := ofBytes (State.readAt byte (p.blockAddr j) p.fmt.blockBytes)
  ⟨(byte (p.sideAddr j 0)).toNat, (byte (p.sideAddr j 1)).toNat, unpackElems p.fmt x⟩

/-- R157: block `j` written as one unit, past L1, by a core. -/
def writeBlock (s : State) (core : Nat) (p : Page) (j : Nat) (b : GBlock) : State :=
  let write (s : State) (a : Nat) (x : Byte) := s.pastL1Write core p.own a x
  let s := dropBlock s core p j
  let s := s.writeAt write (p.blockAddr j) (b.packed p.fmt)
  s.writeAt write (p.sideAddr j) [BitVec.ofNat 8 b.e, BitVec.ofNat 8 b.mu]

/-- R155: the FP32 value of the element at a logical offset of a grain page. -/
def grainWord (s : State) (p : Page) (off : Nat) : Word :=
  (readBlock s p (off / 64)).fp32 p.fmt (off % 64 / 4)

/-- R45: the 96 bits of a G5 literal block. -/
def literalG5 (b : GBlock) : Nat :=
  b.e + b.mu * 2 ^ 8 + (List.range 16).foldl (fun x i => x + b.elems.getD i 0 % 32 * 2 ^ (16 + 5 * i)) 0

end Sys2Proof.Machine
end

