-- ==== Sys2Proof/Machine/Windows.lean ====
section
/-!
DEFINITION. Access through a window (R152 to R154), and the values at a place: raw bytes through the levels, FP32
elements of a grain page (R155).
-/

namespace Sys2Proof.Machine

/-- Where an access falls: its page, its offset within the page and, on a raw page, its location. -/
structure Place where
  page : Page
  off  : Nat
  pa   : Nat
  deriving DecidableEq, Repr

def Place.grain (p : Place) : Bool := p.page.fmt != .raw
def Place.host (p : Place) : Bool := isHost (p.page.frame + p.off)

/-- R187, R361: whether any of `n` logical bytes at a place is uncorrectable at its home: the bytes themselves on a raw
page, the whole block on a grain page. -/
def Place.damaged (p : Place) (s : State) (n : Nat) : Bool :=
  if p.page.fmt = .raw then s.lost p.pa n
  else
    let j := p.off / 64
    !s.bad.isEmpty &&
      ((List.range p.page.fmt.blockBytes).any (fun i => s.lost (p.page.blockAddr j i) 1) || s.lost (p.page.sideAddr j 0) 2)

/-- R152: the logical bytes from BASE to the end of its page. -/
def Window.span (w : Window) : Nat := w.page.vbase + w.page.span - w.base.toNat

/-- The virtual address of an offset. -/
def Window.va (w : Window) (o : Int) : Nat := ((w.base.toNat : Int) + o).toNat % 2 ^ 57

/-- The checks of R153 that come before translation. -/
def Window.precheck (w : Window) (o : Int) (n : Nat) (rd wr : Bool) : Option Trap :=
  let va := w.va o
  if o < 0 || (w.limit.toNat : Int) < o + n then some (plainTrap codePERM va)
  else if va % n != 0 then some (plainTrap codeALIGN va)
  else if (rd && !w.rd) || (wr && !w.wr) then some (plainTrap codePERM va)
  else none

/-- R154: a stale window is translated again before it is used. -/
def refreshWindow (s : State) (core asid : Nat) (mode : Mode) (w : Window) : Except Trap (Window × State) :=
  if !w.stale then .ok (w, s)
  else
    match translate s core asid mode .none w.base.toNat with
    | .error t => .error t
    | .ok (p, s') => .ok ({ w with page := p, stale := false }, s')

/-- The kind of access of a pair of needs. -/
def accessOf (rd wr : Bool) : Access :=
  if rd && wr then .update else if wr then .write else if rd then .read else .none

/-- The page an access past the prechecks falls in (R153). -/
def Window.pageOf (w : Window) (s : State) (core asid : Nat) (mode : Mode) (acc : Access) (o : Int) (n : Nat) :
    Except Trap (Page × State) :=
  if o + n ≤ w.span then
    match w.page.check acc mode (w.va o) with
    | some t => .error t
    | none => .ok (w.page, s)
  else translate s core asid mode acc (w.va o)

/-- R153: one access of `n` logical bytes at an offset, giving its place; the checks of LIMIT, alignment and flags come before the
re-translation of a stale window (log entry 131). -/
def windowAccess (s : State) (core asid : Nat) (mode : Mode) (w : Window) (o : Int) (n : Nat) (rd wr : Bool) :
    Except Trap (Place × Window × State) :=
  match w.precheck o n rd wr with
  | some t => .error t
  | none =>
    match refreshWindow s core asid mode w with
    | .error t => .error t
    | .ok (w, s) =>
      let acc := accessOf rd wr
      match w.pageOf s core asid mode acc o n with
      | .error t => .error t
      | .ok (p, s) =>
        let va := w.va o
        if p.fmt != .raw then
          if p.blockDown s ((va - p.vbase) / 64) then .error (busyTrap va) else .ok (⟨p, va - p.vbase, p.frame⟩, w, s)
        else
          match p.rawPlace s asid acc va with
          | .error t => .error t
          | .ok pa => .ok (⟨p, va - p.vbase, pa⟩, w, s)

/-- How an access reaches the levels: like `ld`, like `lda`, past L1 whatever it holds (R194), or at the home slice. -/
inductive Route where
  | near | far | past | home
  deriving DecidableEq, Repr

/-- R187: whether a load of `n` bytes by a route consumes uncorrectable data: a sound copy in L1 or the RDC serves it. -/
def loadLost (s : State) (core : Nat) (route : Route) (p : Place) (n : Nat) : Bool :=
  match route with
  | .home => s.lost p.pa n
  | _ => (look (p.pa / 64) (s.core core).l1).isNone && s.pastL1Lost core p.page.own p.pa n

/-- What a load does to its core's L1 before it reads: past L1 the sector leaves it (R145, R194); a group that has acquired at the
package or wider has the dirty bytes it may read written back first, so that they stand at the home (R173). -/
def settleRead (s : State) (core : Nat) (route : Route) (pa : Nat) : State :=
  match route with
  | .past => s.dropSector core (pa / 64)
  | _ => if (s.grp.map Group.pkgSeen).getD false then s.cleanSector core (pa / 64) else s

/-- R188, R192: the bytes of a raw place as a core's load sees them, and what the load fetches. -/
def loadRaw (s : State) (core : Nat) (route : Route) (p : Place) (n : Nat) : List Byte × State :=
  match route with
  | .near =>
    let s := if p.page.fmt = .raw then s.fillFor core p.page.own p.pa else s
    (State.readAt (s.coreByte core p.page.own) (fun i => p.pa + i) n, s)
  | .home => (State.readAt (s.homeByte p.page.own) (fun i => p.pa + i) n, s)
  | _ =>
    match look (p.pa / 64) (s.core core).l1 with
    | some _ => (State.readAt (s.coreByte core p.page.own) (fun i => p.pa + i) n, s)
    | none =>
      let s := if isHost p.pa || homeDie p.pa == dieOf core then s else s.rdcFill (dieOf core) p.page.own p.pa
      (State.readAt (s.pastL1Byte core p.page.own) (fun i => p.pa + i) n, s)

/-- R188, R192: bytes stored to a raw place. -/
def storeRaw (s : State) (core : Nat) (route : Route) (o : Owner) (pa : Nat) (bs : List Byte) : State :=
  match route with
  | .near => s.writeAt (fun s a b => s.coreWrite core o a b) (fun i => pa + i) bs
  | _ => (s.dropSector core (pa / 64)).writeAt (fun s a b => s.pastL1Write core o a b) (fun i => pa + i) bs

/-- The words of a grain place (R155). -/
def grainWords (s : State) (p : Place) (n : Nat) : List Byte :=
  (List.range (n / 4)).flatMap fun i => toBytes 4 (grainWord s p.page (p.off + 4 * i)).toNat

/-- The bytes at a place, or DATAERR where the load consumes uncorrectable data (R187). -/
def loadPlace (s : State) (core : Nat) (route : Route) (p : Place) (n va : Nat) : Except Trap (List Byte × State) :=
  if p.grain then
    let s := dropBlock s core p.page (p.off / 64)
    if p.damaged s n then .error (plainTrap codeDATAERR va) else .ok (grainWords s p n, s)
  else
    let s := settleRead s core route p.pa
    if loadLost s core route p n then .error (plainTrap codeDATAERR va) else .ok (loadRaw s core route p n)

/-- Bytes at a virtual address, for the machine's own reading of frames: through the walk and the core's levels. `mode` and
`acc` say which rights are checked. -/
def readVirtual (s : State) (core asid : Nat) (mode : Mode) (acc : Access) (va n : Nat) :
    Except Trap (List Byte × Page × State) :=
  match translate s core asid mode acc va with
  | .error t => .error t
  | .ok (p, s) =>
    match p.rawPlace s asid acc va with
    | .error t => .error t
    | .ok pa =>
      if (List.range ((n + 63) / 64)).any fun i =>
          (look ((pa + 64 * i) / 64) (s.core core).l1).isNone && s.pastL1Lost core p.own (pa + 64 * i) (min 64 (n - 64 * i)) then
        .error (plainTrap codeDATAERR va)
      else .ok (State.readAt (s.coreByte core p.own) (fun i => pa + i) n, p, s)

end Sys2Proof.Machine
end

