-- ==== Sys2Proof/Machine/Ops.lean ====
section
/-!
DEFINITION. The shared operations on groups: finishing an instruction, ending a stint, records and the fault buffer
(R338 to R340), taking an event (R335, R345), returning from the handler (R349), answers (R341), context errors (R342).
-/

namespace Sys2Proof.Machine

/-! ## Waking and stints -/

/-- A group whose wait has ended is ready from now on (R85). -/
def Group.wake (g : Group) (now : Nat) : Group :=
  { g with wait := .none, sched := { g.sched with readySince := now } }

/-- Wake every group whose wait meets a condition. -/
def wakeWhere (s : State) (p : Nat → Group → Bool) : State :=
  s.mapGroups fun gid g => if p gid g then g.wake s.now else g

/-- R81: a result is there that a stint break may await: before the next turn its groups are looked at again. -/
def stirBroken (s : State) : State := if s.groups.any fun e => e.2.wait == .stintBreak then { s with stir := true } else s

/-- R78, R86: when a group's last stint ends: now, where one is running; where a wait has ended it, when that wait began. -/
def Group.lastEndAt (g : Group) (now : Nat) : Nat := if g.sched.inStint then now else g.sched.lastEnd

/-- R77, R78, R86: the stint ends now, if it has not ended already. -/
def Group.endStint (g : Group) (now : Nat) : Group :=
  { g with sched := { g.sched with inStint := false, resumeStint := false, stintCount := 0, stintWait := 0,
                                   lastEnd := g.lastEndAt now, idleSince := now, endDue := false } }

/-- R78: a unit that the stint waited for is done: the stint ends where its last instruction has completed. -/
def Group.unitDone (g : Group) (now : Nat) : Group := if g.sched.endDue then g.endStint now else g

/-- R80: the stint is interrupted: its latches and counts are kept and the group resumes it later. -/
def Group.breakStint (g : Group) (now : Nat) : Group :=
  { g with sched := { g.sched with inStint := false, resumeStint := g.sched.inStint || g.sched.resumeStint,
                                   stintWait := 0, lastEnd := g.lastEndAt now, idleSince := now } }

/-- The group waits, not ready, and its stint has ended (R78). -/
def Group.block_ (g : Group) (w : Wait) (now : Nat) : Group := { g.endStint now with wait := w }

/-- R79: at a stint's first instruction every latch is cleared, unless an interrupted stint resumes (R80). -/
def Group.beginStint (g : Group) : Group :=
  if g.sched.inStint then g
  else if g.sched.resumeStint then { g with sched := { g.sched with inStint := true, resumeStint := false } }
  else
    { g with
      threads := g.threads.map fun t =>
        { t with b0 := { t.b0 with valid := false }, b1 := { t.b1 with valid := false } }
      sched := { g.sched with inStint := true, stintCount := 0, stintWait := 0 } }

/-- R29, R30: the address of the start that follows an instruction of `len` bytes at an address in the payload. After the last line
below 2 ^ 57 the spec names none; the model goes on at line 0 (log entry 129). -/
def nextPc (pc : VAddr) (len : Nat) : VAddr :=
  let n := pc.toNat + len
  BitVec.ofNat 57 (if n % 128 = 0 then n + 16 else n)

/-- R71, R77, R186, R219: an instruction has completed: the count rises outside recipe mode, a replay's mask is given
back, the clock takes the issue cycles, and the stint ends on E or at its 24th instruction, once a `seg` or `cdep` that works on is
done (R78). The pc is the meaning's. -/
def Group.finish (g : Group) (e : Bool) (now : Nat) : Group :=
  let g := { g with
    retired := if g.recipe then g.retired else g.retired + 1
    amask := match g.replay with
      | some m => m &&& g.lmask
      | none => g.amask
    replay := none
    det := if g.det.en then { g.det with run := g.det.run + 1 } else g.det
    sched := { g.sched with stintCount := g.sched.stintCount + 1 } }
  if e || decide (24 ≤ g.sched.stintCount) then
    if g.scribe || g.deposit then { g with sched := { g.sched with endDue := true } } else g.endStint now
  else g

/-- The issue cycles of a lane instruction (R71). -/
def issueCycles (g : Group) : Nat := max g.active.length 1

/-- The issuing group has completed its instruction of `len` bytes and goes on at the next start. -/
def State.retire (s : State) (g : Group) (len cycles : Nat) (e : Bool) : State :=
  let now := s.now + cycles
  { s with now := now }.setGrp ({ g with pc := nextPc g.pc len }.finish e now)

/-- The issuing group has completed its instruction and goes on elsewhere. -/
def State.jump (s : State) (g : Group) (pc : VAddr) (e : Bool) : State :=
  let now := s.now + 1
  { s with now := now }.setGrp ({ g with pc := pc }.finish e now)

/-- The issuing group has completed its instruction and goes on elsewhere, with the masks of the meaning's making. -/
def State.retireAt (s : State) (g : Group) (pc : VAddr) (e : Bool) : State :=
  let now := s.now + 1
  { s with now := now }.setGrp ({ g with pc := pc, replay := none }.finish e now)

/-! ## Records -/

/-- Word 0 of a record (R340). -/
def recordWord0 (code cause : Nat) (r : Report) (replay : Word) : DWord :=
  let flag (b : Bool) (i : Nat) : Nat := if b then 2 ^ i else 0
  let w := match r.walk with
    | some (stage, level) => 2 ^ 27 + stage * 2 ^ 18 + level * 2 ^ 19
    | none => 0
  BitVec.ofNat 64 (code + cause * 2 ^ 8 + flag r.host 16 + flag r.refused 17 + w + flag r.expand.isSome 22 +
    flag r.matrix.isSome 23 + flag r.engine.isSome 24 + flag r.inH 25 + flag r.wasPending 26 + replay.toNat * 2 ^ 32)

/-- Where a group stands (R340, 0x20). -/
def Group.placeWord (g : Group) : DWord :=
  BitVec.ofNat 64 (g.bidx % 2 ^ 32 + g.core * 2 ^ 32 + g.sched.lane.getD 0 * 2 ^ 40 + g.asid * 2 ^ 48)

/-- R340: the record of a group's event, its sequence number still zero. -/
def groupRecord (g : Group) (ev : Event) : Vector DWord 8 :=
  #v[recordWord0 ev.code ev.cause ev.report ev.shown, BitVec.ofNat 64 ev.instr.toNat, ev.info, g.grpid, g.placeWord,
     ev.report.expand.getD 0#64, ev.report.matrix.getD 0#64, 0#64]

/-- R341: the record a handler is given: the event's own, or the posted one with its refused bit where the host delivers
it. -/
def eventRecord (g : Group) (ev : Event) : Vector DWord 8 :=
  match ev.report.posted with
  | some ws => ws.setIfInBounds 0 (ws[0] ||| 0x20000#64)
  | none => groupRecord g ev

/-- The bytes of a record. -/
def recordBytes (ws : Vector DWord 8) : List Byte := ws.toList.flatMap fun w => toBytes 8 w.toNat

/-- Bytes the machine writes at a virtual address of a context, at their homes; the page must be writable at both
stages (R338). -/
def writeVirtual (s : State) (asid va : Nat) (bs : List Byte) : Except Trap State :=
  match walk s asid va with
  | .error t => .error t
  | .ok p =>
    if !(p.wr1 && p.wr2) then .error (plainTrap codePERM va)
    else match p.rawPlace s asid .write va with
      | .error t => .error t
      | .ok pa => .ok (s.writeAt (fun s a b => s.homeWrite p.own a b) (fun i => pa + i) bs)

/-- The 16 bytes of a black-box record (R368). -/
def BoxRecord.bytes (r : BoxRecord) : List Byte :=
  toBytes 16 (r.time % 2 ^ 64 + r.cls % 2 ^ 8 * 2 ^ 64 + r.die % 2 ^ 8 * 2 ^ 72 + r.unit % 2 ^ 16 * 2 ^ 80 + r.data % 2 ^ 32 * 2 ^ 96)

/-- R369: a die's ring is copied to the host-memory buffer that BBOX names, if mirroring is on. -/
def mirrorBox (s : State) (d : Nat) : State :=
  let r := s.mgmt d 10
  if DWord.f r 0 0 = 0 then s
  else
    let base := hostBase + DWord.f r 63 12 * 4096
    let e := s.die d
    let first := e.logged - e.ring.length
    (List.zip (List.range e.ring.length) e.ring).foldl (fun s x =>
      s.writeAt (fun s a b => s.homeWrite hostOwner a b) (fun i => base + 16 * ((first + x.1) % 4096) + i) x.2.bytes) s

/-- R368, R369: a record of a die's black box, the ring keeping the last 4,096; the classes that matter are mirrored at
once. -/
def bboxLog (s : State) (d cls unit data : Nat) : State :=
  let s := s.modDie d fun e =>
    let r : BoxRecord := ⟨2 * (s.now - e.bornAt), cls, d, unit, data⟩
    { e with ring := (e.ring ++ [r]).drop (e.ring.length + 1 - 4096), logged := e.logged + 1 }
  if cls = 2 || cls = 3 || cls = 8 || cls = 10 || cls = 12 then mirrorBox s d else s

/-- R371: a new record's signals: vector 8 of the partition's function and vector 1 of PF0. -/
def signalRecord (s : State) (part : Nat) : State := (s.send (.signal (part + 1) 8)).send (.signal 0 1)

/-- R321: at most 512 Page Requests are outstanding. -/
def pageRequestRoom (s : State) : Bool := decide ((s.requests.filter fun e => e.2.sent).length < 512)

/-- R320: the Page Request of a record with a number; it waits where 512 are outstanding (R321). -/
def requestPage (s : State) (asid n : Nat) (ask : Option (Nat × Bool × Bool)) : State :=
  match ask, s.ctx? asid with
  | some (page, rd, wr), some c =>
    let (name, s) := s.takeName
    let now := pageRequestRoom s
    let s := { s with requests := put name ⟨asid, n, page, rd, wr, now⟩ s.requests }
    if now then s.send (.pageRequest c.pasid page rd wr) else s
  | _, _ => s

/-- R338, R339: the record takes the next number and is written, if the buffer has room, with its Page Request; the new state
and the number. A buffer page that fails translation answers none. -/
def placeRecord (s : State) (asid : Nat) (c : Context) (r : Posted) : Option (State × Nat) :=
  let n := c.seq
  let ws := r.words.setIfInBounds 7 (BitVec.ofNat 64 n)
  match writeVirtual s asid (c.fbase + 64 * (n % c.fslots)) (recordBytes ws) with
  | .error _ => none
  | .ok s =>
    some (requestPage (signalRecord (s.setCtx asid { c with seq := n + 1, fbhead := n + 1,
                                                            records := put n { r with words := ws } c.records }) c.part)
      asid n r.ask, n)

/-- Whether the buffer has room for the next number (R338). -/
def Context.hasRoom (c : Context) : Bool := decide (c.seq - c.fbtail < c.fslots)

/-- R364: whether the buffer's next place is homed on a die that is down. -/
def bufferDown (s : State) (asid : Nat) (c : Context) : Bool :=
  match writeVirtual s asid (c.fbase + 64 * (c.seq % c.fslots)) [] with
  | .error t => t.code == codeBusy
  | .ok _ => false

/-- Whether a context's next record can be written now: there is room, and its home answers. -/
def takesRecord (s : State) (asid : Nat) (c : Context) : Bool := c.hasRoom && !bufferDown s asid c

/-! ## Context errors -/

/-- A queue put in error (R374); the first error stays. -/
def Queue.fail (q : Queue) (err : Nat) : Queue :=
  if DWord.f q.ctl 35 32 = 3 then q else { q with ctl := DWord.setF (DWord.setF q.ctl 35 32 3) 47 40 err }

/-- R342: everything the context holds on the module goes: groups, blocks, grids, expansions, queued matrix
instructions, slots, tiles, counters, engine operations, buffered contributions. Whoever waits for the room it held looks
again. -/
def discardContext (s : State) (asid : Nat) : State :=
  let gone := (s.grids.filter fun e => e.2.asid == asid).map (·.1)
  { s with
    groups := s.groups.filter fun e => e.2.asid != asid
    blocks := s.blocks.filter fun e => e.2.asid != asid
    grids := s.grids.filter fun e => e.2.asid != asid
    sets := s.sets.filter fun e => e.1 / 256 != asid
    ops := s.ops.filter fun e => e.2.asid != asid
    pool := s.pool.filter fun k => !gone.contains k.grid
    base := s.base.filter fun e => !gone.contains e.1
    wide := s.wide.filter fun b => !gone.contains b.grid
    feGrids := s.feGrids.map fun e => (e.1, e.2.filter fun n => !gone.contains n)
    replicas := s.replicas.filter fun r => r.asid != asid
    freed := true
    cores := s.cores.map fun e =>
      (e.1, { e.2 with
        accHolder := if e.2.accHolder = some asid then none else e.2.accHolder
        accWant := if e.2.accWant = some asid then none else e.2.accWant
        tileHolder := if e.2.tileHolder = some asid then none else e.2.tileHolder
        tileWant := if e.2.tileWant = some asid then none else e.2.tileWant }) }

/-- R342, R374: the queues of a context that stops are in error with ERR 5. -/
def stopQueues (s : State) (asid : Nat) : State :=
  { s with queues := s.queues.map fun e =>
      (e.1, if DWord.f e.2.ctl 26 16 == asid && decide (e.1 < 512) then e.2.fail 5 else e.2) }

/-- R342, R343, R368: the context stops with a reason; its CTXERR record is posted, unless the buffer itself is what
failed. Records that still wait for room keep their places before it (R338). -/
def contextError (s : State) (asid reason : Nat) : State :=
  match s.ctx? asid with
  | none => s
  | some c =>
    let s := stopQueues (discardContext s asid) asid
    let c := { c with stopped := some reason, frames := [], units := [], preempt := .none,
                      waiting := c.waiting.map fun r => { r with answered := true, ask := none }
                      records := c.records.map fun e => (e.1, { e.2 with answered := true }) }
    let s := bboxLog (s.setCtx asid c) 0 10 0 (asid + reason * 2 ^ 16)
    if reason = 13 then s
    else
      let r : Posted := ⟨#v[recordWord0 codeCTXERR reason {} 0#32, 0#64, 0#64, 0#64, BitVec.ofNat 64 (asid * 2 ^ 48),
                           0#64, 0#64, 0#64], .nobody, none, true, none⟩
      if c.waiting.isEmpty && takesRecord s asid c then
        match placeRecord s asid c r with
        | some (s, _) => s
        | none => s
      else s.setCtx asid { c with waiting := c.waiting ++ [r] }

/-- R338, R339: post a record, or leave it waiting for room with its group. The number taken, if one was. -/
def postRecord (s : State) (asid : Nat) (r : Posted) : State × Option Nat :=
  match s.ctx? asid with
  | none => (s, none)
  | some c =>
    if c.waiting.isEmpty && takesRecord s asid c then
      match placeRecord s asid c r with
      | some (s, n) => (s, some n)
      | none => (contextError s asid 13, none)
    else (s.setCtx asid { c with waiting := c.waiting ++ [r] }, none)

/-! ## Taking an event -/

/-- The address of a group's trap frame (R344, log entry 7). -/
def frameAddr (c : Context) (g : Group) : Nat := c.parkb + 1024 * g.frame

/-- R344: the 16 bytes a window takes in the frame. -/
def windowBytes (w : Window) : List Byte :=
  toBytes 16 (w.base.toNat + w.limit.toNat % 2 ^ 33 * 2 ^ 64 + (if w.rd then 2 ^ 104 else 0) +
    (if w.wr then 2 ^ 105 else 0) + (if w.pin then 2 ^ 106 else 0) + (if w.set then 2 ^ 107 else 0))

/-- R344, R345: the first 256 bytes of the trap frame, as the Speter writes them. -/
def frameBytes (g : Group) (ev : Event) (saved : Word) : List Byte :=
  recordBytes (eventRecord g ev) ++ toBytes 8 ev.epc.toNat ++ toBytes 4 saved.toNat ++ toBytes 4 ev.replay.toNat ++
    ((List.range 8).flatMap fun i => toBytes 8 (g.sreg (24 + i)).toNat) ++
    windowBytes (g.win 6) ++ windowBytes (g.win 7) ++ toBytes 8 g.fpmode.toNat ++ toBytes 8 g.fflags.toNat ++
    List.replicate 64 0#8

/-- R345: the request a thread leaves in the frame at a `tcall`. -/
def requestBytes (g : Group) (t : Nat) : List Byte :=
  (List.range 4).flatMap fun i => toBytes 4 ((g.thread t).reg i).toNat

/-- R345: the trap frame written at its place, byte by byte: its head, and for TCALL the requests of the threads in SAVED and
zero replies. -/
def writeFrame (s : State) (write : State → Nat → Byte → State) (pa : Nat) (g : Group) (ev : Event) (saved : Word) : State :=
  let s := s.writeAt write (fun i => pa + i) (frameBytes g ev saved)
  if ev.code != codeTCALL then s
  else
    let s := (threadsOf saved).foldl (fun s t => s.writeAt write (fun i => pa + 0x100 + 16 * t + i) (requestBytes g t)) s
    s.writeAt write (fun i => pa + 0x300 + i) (List.replicate 128 0#8)

/-- The mask an event's group resumes with: that of the first issue when a replay was running (R186, R335). -/
def Group.savedMask (g : Group) : Word := (g.replay.getD g.amask) &&& g.lmask

/-- R364: an event whose trap frame is homed on a die that is down waits, the group with it. -/
def awaitFrame (s : State) (gid : Nat) (g : Group) (ev : Event) : State :=
  let now := s.now + 1
  { s with now := now }.setGroup gid { g.breakStint now with
    pc := ev.epc
    line := none
    amask := g.savedMask
    replay := none
    wait := .none
    pending := some ev }

/-- R345: the handler is entered: the frame written, the marker pushed, the handler's registers set, mode H, the pc at
slot 0 of the handler's line, which is checked as an entry line (R115). -/
def enterHandler (s : State) (gid : Nat) (g : Group) (c : Context) (ev : Event) : State :=
  let saved := g.savedMask
  let f := frameAddr c g
  if 256 ≤ g.stack.length then contextError s g.asid 1
  else
    match translate s g.core g.asid .handler .update f with
    | .error t => if t.code = codeBusy then awaitFrame s gid g ev else contextError s g.asid 6
    | .ok (page, s) =>
      match page.rawPlace s g.asid .write f with
      | .error t => if t.code = codeBusy then awaitFrame s gid g ev else contextError s g.asid 6
      | .ok pa =>
        let s := writeFrame s (fun s a b => s.coreWrite g.core page.own a b) pa g ev saved
        let win7 : Window := { set := true, base := BitVec.ofNat 57 f, limit := 1024#33, rd := true, wr := true,
                               pin := false, stale := false, page := page }
        let w0 := (eventRecord g ev)[0] &&& 0xFFFFFFFF#64
        let g := (List.range 8).foldl (fun g i =>
          g.setSreg (24 + i) (if i = 0 then BitVec.ofNat 64 f else if i = 1 then w0 else 0#64)) g
        let g := (g.setWin 6 Window.init).setWin 7 win7
        s.setGroup gid { g with
          stack := .marker :: g.stack
          fpmode := 0#3
          fflags := 0#7
          amask := if ev.replay = 0#32 then saved else ev.replay
          replay := none
          mode := .handler
          pc := BitVec.ofNat 57 (c.hline + 16)
          line := none
          fresh := true
          flash := none
          wait := .none
          frameEpc := ev.epc
          frameEvent := some ev
          kept := if g.sched.inStint || g.sched.resumeStint then
              some ⟨g.threads.toList.map (·.b0), g.threads.toList.map (·.b1), g.sched.stintCount⟩ else none
          sched := { g.sched with inStint := false, resumeStint := false, stintCount := 0, stintWait := 0,
                                  lastEnd := g.lastEndAt s.now, readySince := s.now } }

/-- The group waits for the host with its record posted, or for room (R85, R338). -/
def sendToHost (s : State) (gid : Nat) (g : Group) (ev : Event) : State :=
  let saved := g.savedMask
  let g := { g.breakStint s.now with
    wait := .host
    pc := ev.epc
    line := none
    pending := none
    amask := saved
    replay := none }
  let s := s.setGroup gid g
  let (s, n) := postRecord s g.asid ⟨groupRecord g ev, .group gid, some ev, false, ev.report.ask⟩
  if n.isNone then s.modGroup gid fun g => { g with wait := .room } else s

/-- R335, R337: whether an event of a code goes to the host. -/
def goesToHost (c : Context) (code : Nat) : Bool :=
  code == codeXLATE || code == codePERM || code == codeDATAERR || code == codePARKED ||
  (code == codeBRK && c.hostbrk) || (decide (3 ≤ code) && decide (code ≤ 9) && !c.dlg code)

/-- R352: a hard pre-emption of the context is under way. -/
def Context.stopping (c : Context) : Bool :=
  match c.preempt with
  | .hard .. => true
  | _ => false

/-- R351: an event that meets a pre-emption stays pending, to be taken after the resumption. -/
def Group.holdEvent (g : Group) (now : Nat) (ev : Event) : Group :=
  let g' := g.breakStint now
  { g' with
    pc := ev.epc
    line := none
    amask := g.savedMask
    replay := none
    pending := some { ev with report := { ev.report with wasPending := true } } }

/-- R364: the group's instruction has met a home that is down: it keeps its lane and issues again a cycle later, for the threads that
have not completed it. -/
def holdBusy (s : State) (gid : Nat) (g : Group) (ev : Event) : State :=
  let rest := if ev.replay = 0#32 then g.amask else ev.replay &&& g.lmask
  { s with now := s.now + 1 }.setGroup gid { g with
    amask := rest
    replay := if rest = g.amask then g.replay else some (g.replay.getD g.amask)
    sched := { g.sched with stintWait := g.sched.stintWait + 1 } }

/-- R335, R345: the event of a group is taken: to the host, to the handler, or as DOUBLE in H mode. Where a hard pre-emption is under
way it stays pending, but for ARITH, which is left to the next `tfence` (R351). -/
def takeEvent (s : State) (gid : Nat) (g : Group) (ev : Event) : State :=
  match s.ctx? g.asid with
  | none => s
  | some c =>
    if ev.code = codeBusy then holdBusy s gid g ev
    else if g.mode = .handler && !(ev.code == codeXLATE || ev.code == codePERM || ev.code == codeDATAERR ||
        ev.code == codePARKED) then contextError s g.asid 6
    else if c.stopping then s.setGroup gid (if ev.code = codeARITH then g.breakStint s.now else g.holdEvent s.now ev)
    else if goesToHost c ev.code && !ev.report.refused then sendToHost s gid g ev
    else if c.hline = 0 then contextError s g.asid 11
    else enterHandler s gid g c ev

/-- R141: the expansion report of a thread that holds an iteration. -/
def expandReport (s : State) (g : Group) (t : Nat) : Option DWord :=
  match (g.thread t).current, g.expand with
  | some (k, o), some (slot, member) =>
    match look slot (s.set g.asid g.core).expands with
    | some x =>
      let p := (x.lens.take o).foldl (fun n l => n + l.toNat) 0
      some (BitVec.ofNat 64 (slot + member * 2 ^ 4 + t * 2 ^ 6 + o * 2 ^ 11 + (k - p) % 2 ^ 32 * 2 ^ 32))
    | none => none
  | _, _ => none

/-- R335: the event of a fault of a group's instruction with the threads that will run it again. The expansion report is that
of the first of those threads (R141): where the fault has no single thread, so REPLAY is AMASK, the spec names none, and the
model takes the lowest (log entry 93). -/
def faultEvent (s : State) (g : Group) (t : Trap) (replay : Word) : Event :=
  { code := t.code, cause := t.cause, epc := g.pc, replay := replay, info := BitVec.ofNat 64 t.info, instr := g.pc,
    shown := replay,
    report := { t.report with inH := g.mode == .handler, expand := expandReport s g ((threadsOf replay).headD 0) } }

/-- R335: a fault of the issuing group's instruction. -/
def raise (s : State) (t : Trap) (replay : Word) : State :=
  match s.grp with
  | none => s
  | some g => takeEvent s s.cur g (faultEvent s g t replay)

/-- R51: an ILLOP of the issuing group. -/
def illop (s : State) (cause : Nat) : State :=
  match s.grp with
  | none => s
  | some g => raise s { code := codeILLOP, cause := cause } g.amask

/-- A fault of a uniform instruction: the unfinished mask is AMASK. -/
def raiseAll (s : State) (t : Trap) : State :=
  match s.grp with
  | none => s
  | some g => raise s t g.amask

/-- The events that resume at the next instruction with REPLAY = 0: TCALL, BRK, ARITH, PARKED (R335). The instruction
has retired. The record shows its AMASK, but for PARKED, which shows REPLAY (R340). -/
def trapAfter (s : State) (len code : Nat) (info : DWord) (e : Bool) : State :=
  match s.grp with
  | none => s
  | some g =>
    let here := g.pc
    let mask := if code = codePARKED then 0#32 else g.amask
    let s := s.retire g len 1 e
    match s.grp with
    | none => s
    | some g =>
      takeEvent s s.cur g
        { code := code, epc := g.pc, replay := 0#32, info := info, instr := here, shown := mask,
          report := { inH := g.mode == .handler } }

/-! ## Returning from the handler -/

/-- A window as the frame holds it, to be translated again before use (R344, R349). -/
def windowOfBytes (bs : List Byte) : Window :=
  let x := ofBytes bs
  { set := field x 107 107 == 1, base := BitVec.ofNat 57 x, limit := BitVec.ofNat 33 (field x 96 64),
    rd := field x 104 104 == 1, wr := field x 105 105 == 1, pin := field x 106 106 == 1, stale := true,
    page := Page.init }

/-- R340, R344: whether every zero field of a frame is zero, those of its record with them. -/
def frameZeros (fr : List Byte) : Bool :=
  let w (o n : Nat) : Nat := ofBytes ((fr.drop o).take n)
  let winOk (o : Nat) : Bool := field (w o 16) 63 57 == 0 && field (w o 16) 103 97 == 0 && field (w o 16) 127 108 == 0
  field (w 0x00 4) 31 28 == 0 && field (w 0x20 8) 47 47 == 0 && field (w 0x20 8) 63 59 == 0 && field (w 0x28 8) 31 18 == 0 &&
  field (w 0x40 8) 63 57 == 0 && winOk 0x90 && winOk 0xA0 && decide (w 0xB0 8 < 8) && decide (w 0xB8 8 < 128) &&
    ((fr.drop 0xC0).take 64).all (· == 0#8)

/-- R349: the group leaves the handler with what its frame holds. -/
def leaveHandler (g : Group) (fr : List Byte) (now : Nat) : Group :=
  let w (o n : Nat) : Nat := ofBytes ((fr.drop o).take n)
  let saved := BitVec.ofNat 32 (w 0x48 4)
  let replay := BitVec.ofNat 32 (w 0x4C 4)
  let g := (List.range 8).foldl (fun g i => g.setSreg (24 + i) (BitVec.ofNat 64 (w (0x50 + 8 * i) 8))) g
  let g := (g.setWin 6 (windowOfBytes ((fr.drop 0x90).take 16))).setWin 7 (windowOfBytes ((fr.drop 0xA0).take 16))
  let g := if w 0 1 = codeTCALL then
      (threadsOf saved).foldl (fun (g : Group) t => g.modThread t fun x => x.setReg 0 (BitVec.ofNat 32 (w (0x300 + 4 * t) 4))) g
    else g
  let g := match g.kept with
    | some k =>
      (List.range 32).foldl (fun (g : Group) t => g.modThread t fun x =>
        { x with b0 := k.b0.getD t Latch.init, b1 := k.b1.getD t Latch.init }) g
    | none => g
  { g with
    stack := g.stack.drop 1
    fpmode := BitVec.ofNat 3 (w 0xB0 8)
    fflags := BitVec.ofNat 7 (w 0xB8 8)
    mode := .user
    amask := if replay = 0#32 then saved else replay
    replay := if replay = 0#32 then none else some saved
    pc := BitVec.ofNat 57 (w 0x40 8)
    line := none
    fresh := false
    frameEvent := none
    sched := { g.sched with inStint := false, resumeStint := g.kept.isSome,
                            stintCount := (g.kept.map KeptStint.count).getD 0, stintWait := 0, lastEnd := now }
    kept := none }

/-! ## Answers of the host -/

/-- R341: RETRY: the group resumes at EPC for the threads of REPLAY. -/
def resumeGroup (s : State) (gid : Nat) (ev : Event) : State :=
  s.modGroup gid fun g =>
    let saved := g.amask
    { g.wake s.now with
      pc := ev.epc
      line := none
      amask := if ev.replay = 0#32 then saved else ev.replay &&& g.lmask
      replay := if ev.replay = 0#32 then none else some saved }

/-- R341: DELIVER and REFUSE: the record, whose words are given, goes to the handler with its refused bit set; reason 11 with
no handler, and DOUBLE when the group is in the handler already (log entry 21). A saved group, whose core has a name above 255,
meets it when it is resumed. -/
def deliverRefused (s : State) (gid : Nat) (ws : Vector DWord 8) (ev : Event) : State :=
  match s.group? gid with
  | none => s
  | some g =>
    match s.ctx? g.asid with
    | none => s
    | some c =>
      if g.mode = .handler then contextError s g.asid 6
      else if c.hline = 0 then contextError s g.asid 11
      else
        let ev := { ev with report := { ev.report with refused := true, posted := some ws } }
        if 256 ≤ g.core then s.setGroup gid { g.wake s.now with pending := some ev } else enterHandler s gid g c ev

/-- R338: waiting records take their numbers while the buffer has room, in order; their groups then wait for the host. -/
def drainRecords (s : State) (asid : Nat) : Nat → State
  | 0 => s
  | fuel + 1 =>
    match s.ctx? asid with
    | none => s
    | some c =>
      match c.waiting with
      | [] => s
      | r :: rest =>
        if takesRecord s asid c && c.stopped != some 13 then
          match placeRecord s asid { c with waiting := rest } r with
          | none => contextError s asid 13
          | some (s, _) =>
            let s := match r.owner with
              | .group gid => s.modGroup gid fun g => if g.wait = .room then { g with wait := .host } else g
              | _ => s
            drainRecords s asid fuel
        else s

end Sys2Proof.Machine
end

