-- ==== Sys2Proof/Machine/Operands.lean ====
section
/-!
DEFINITION. Operands (R37 to R39): reading a source for a thread, writing a destination and the latches (R79), the
participants of an instruction (R228), and the one check of the ILLOP causes in their order (R51).
-/

namespace Sys2Proof.Machine

/-- R37: the value of a source code for a thread. -/
def Group.src (g : Group) (c : BitVec 6) (t : Nat) : Word :=
  let n := c.toNat
  let x := g.thread t
  if n < 48 then x.reg n
  else if n < 56 then (g.sreg (n - 48)).setWidth 32
  else if n = 56 then x.b0.value
  else if n = 57 then x.b1.value
  else if n = 58 then x.ox
  else if n = 59 then BitVec.ofNat 32 t
  else 0#32

/-- R355: the flashback state is void. -/
def Group.voidFlash (g : Group) : Group := { g with flash := none }

/-- R355: a write to a live thread register voids the flashback state. -/
def Group.touchV (g : Group) (n : Nat) : Group :=
  match g.flash with
  | some f => if f.live.getLsbD n then g.voidFlash else g
  | none => g

/-- R355: a write to a live uniform register voids the flashback state. -/
def Group.touchS (g : Group) (n : Nat) : Group :=
  match g.flash with
  | some f => if f.live.getLsbD (48 + n) then g.voidFlash else g
  | none => g

/-- A thread register written. -/
def Group.writeV (g : Group) (t n : Nat) (x : Word) : Group :=
  ((g.touchV n).modThread t fun th => th.setReg n x)

/-- A uniform register written. -/
def Group.writeS (g : Group) (n : Nat) (x : DWord) : Group := (g.touchS n).setSreg n x

/-- R79: a result enters b0, and the old b0 moves to b1. -/
def Group.enterLatch (g : Group) (t : Nat) (x : Word) : Group :=
  g.modThread t fun th => { th with b1 := th.b0, b0 := ⟨x, true⟩ }

/-- A predicate written. -/
def Group.writeP (g : Group) (t k : Nat) (b : Bool) : Group := g.modThread t fun th => th.setPred k b

/-- R221: flags are ORed into FFLAGS. -/
def Group.orFlags (g : Group) (f : Flags) : Group := { g with fflags := g.fflags ||| f }

/-- R39, R228: the active threads whose guard holds; code 0 holds always. -/
def Group.participants (g : Group) (guard : BitVec 3) : List Nat :=
  g.active.filter fun t => guard == 0#3 || (g.thread t).pred guard.toNat

/-- R215, R218: the rounding of a thread's draw `j` in the group's current instruction. -/
def Group.laneRnd (g : Group) (t j : Nat) : Rnd :=
  let x := g.thread t
  let bits :=
    if g.packed then
      mix (mixA g.fpseed.toNat x.origin.lidx 1 x.origin.count) (mixLane g.retired x.origin.thread j)
    else mix (mixA g.fpseed.toNat g.lidx 0 0) (mixLane g.retired t j)
  ⟨rmodeOf g.fpmode, bits⟩

/-- R218: the rounding of an engine or matrix operation's element, from what the operation captured. -/
def engineRnd (rm : BitVec 3) (seed : DWord) (lidx count n : Nat) : Rnd :=
  ⟨rmodeOf rm, mix (mixA seed.toNat lidx 2 0) (mixEngine count n)⟩

/-! ## The ILLOP causes (R51) -/

/-- Whether a run of thread registers passes v47. -/
def runPasses (r : Nat × Nat × Nat) : Bool := decide (48 < r.1 + r.2.1)

/-- Cause 3: a source code of 61 to 63 or a destination code of 48 or more. -/
def needsBadCode (n : Needs) : Bool :=
  n.srcs.any (fun c => decide (61 ≤ c.toNat)) || n.dsts.any fun c => decide (48 ≤ c.toNat)

/-- The register codes that name no run: a run's base is taken once from the destinations, or else from the sources. -/
def singleRegs (n : Needs) : List (BitVec 6) :=
  let r := n.vruns.foldl (fun (x : List (BitVec 6) × List (BitVec 6)) r =>
    let c := BitVec.ofNat 6 r.1
    if x.2.contains c then (x.1, x.2.erase c) else (x.1.erase c, x.2)) (n.srcs, n.dsts)
  r.1 ++ r.2

/-- Cause 4: a thread register at or above the register count; a run that passes v47 counts under cause 6. -/
def needsBadReg (n : Needs) (nregs : Nat) : Bool :=
  (singleRegs n).any (fun c => decide (c.toNat < 48) && decide (nregs ≤ c.toNat)) ||
    n.vruns.any fun r => !runPasses r && decide (nregs < r.1 + r.2.1)

/-- Cause 6: a run of thread registers, of uniform registers or of tiles out of place. -/
def needsBadRun (n : Needs) : Bool :=
  n.vruns.any (fun r => r.1 % r.2.2 != 0 || runPasses r) || n.sruns.any (fun r => decide (32 < r.1 + r.2)) ||
  match n.tile4 with
  | some t => t.toNat % 4 != 0
  | none => false

/-- Cause 7: a latch entry read that the stint has not written. -/
def needsBadLatch (n : Needs) (g : Group) (readers : List Nat) : Bool :=
  readers.any fun t =>
    (n.srcs.any (· == 56#6) && !(g.thread t).b0.valid) || (n.srcs.any (· == 57#6) && !(g.thread t).b1.valid)

/-- R357: the instructions recipe mode refuses: stores, commit instructions, `mark`, `tcall`, `brk`, `exit`, `cput`
and `carm`. -/
def recipeRefuses : Instr → Bool
  | .st _ | .sti _ | .sta _ | .gst _ | .bst _ | .atom _ | .red _ | .batom _ | .spawn _ | .launch _ | .bar _ | .xpand _
  | .xnext _ | .sred _ | .xend _ | .tcall _ | .copy _ | .gather _ | .scatter _ | .cspan _ | .tblend _ | .mma _ | .mmat _
  | .mlut _ | .msp _ | .path _ | .seg _ | .pend _ | .tbind _ | .tload _ | .cdep _ | .clpush _ | .clpop _ | .tflush _
  | .mark _ | .brk _ | .exit _ | .cput _ | .carm _ | .mdrainMem _ => true
  | _ => false

/-- R51: the first cause that applies, in the order of the causes. `bad2` says whether a condition of cause 2 that
needs machine state fails, `badLatch` whether a latch read beyond the sources fails, and `readers` whose latches the
sources read. -/
def illopCause (i : Instr) (g : Group) (readers : List Nat) (bad2 badLatch : Bool) : Option Nat :=
  let n := i.needs
  if !n.sel || (g.recipe && recipeRefuses i) || bad2 then some 2
  else if needsBadCode n then some 3
  else if needsBadReg n g.nregs then some 4
  else if n.priv && g.mode == Mode.user then some 5
  else if needsBadRun n then some 6
  else if needsBadLatch n g readers || badLatch then some 7
  else if n.samples && (RMode.ofCode g.fpmode).isNone then some 8
  else if n.wins.any (fun w => !(g.win w.toNat).set) then some 9
  else none

/-- The frame of every instruction's meaning: the issuing group, the ILLOP check, then the effect. -/
def issueChecked (i : Instr) (s : State) (readers : Group → List Nat) (bad2 badLatch : Group → Bool)
    (effect : Group → State) : Res :=
  match s.grp with
  | none => .fault .noIssuingGroup
  | some g =>
    match illopCause i g (readers g) (bad2 g) (badLatch g) with
    | some c => .next (illop s c)
    | none => .next (effect g)

/-- The frame of an instruction with no condition on machine state. -/
def issuePlain (i : Instr) (s : State) (effect : Group → State) : Res :=
  issueChecked i s Group.active (fun _ => false) (fun _ => false) effect

/-- R65: matrix instructions raise MASK under a partial active mask. -/
def maskTrap : Trap := { code := codeMASK }

/-- Visit threads in ascending index until one faults (R8, R186): the state after those that completed, and the
thread that faulted with its trap. -/
def visit (f : State → Nat → Except Trap State) : State → List Nat → State × Option (Nat × Trap)
  | s, [] => (s, none)
  | s, t :: ts =>
    match f s t with
    | .ok s' => visit f s' ts
    | .error tr => (s, some (t, tr))

/-- The threads of a list from one on. -/
def fromThread (k : Nat) (ts : List Nat) : Word := maskOf (ts.filter fun t => decide (k ≤ t))

end Sys2Proof.Machine
end

