-- ==== Sys2Proof/Machine/Lane.lean ====
section
/-!
DEFINITION. The shared operations of the lane instructions (R228, R232, R233, R240 to R243): per-thread forms and
exchanges through time. Each gives the group after the instruction; the meanings stand in the family files.
-/

namespace Sys2Proof.Machine

/-- A result of a class 00 or 01 form in a thread: the register unless W is set, the latch, the flags. -/
def Group.laneResult (g : Group) (w : Bool) (d t : Nat) (r : Word × Flags) : Group :=
  ((if w then g else g.writeV t d r.1).enterLatch t r.1).orFlags r.2

/-- A per-thread form over some threads, in ascending index. -/
def Group.eachThread (g : Group) (ts : List Nat) (f : Group → Nat → Group) : Group := ts.foldl f g

/-- A class 00 form with a destination register: the result of each participant. -/
def laneT3 (i : Instr) (f : T3) (op : Group → Nat → Word → Word → Word × Flags) (s : State) : Res :=
  issueChecked i s (fun g => g.participants f.g) (fun _ => false) (fun _ => false) fun g =>
    s.retire ((g.eachThread (g.participants f.g) fun h t =>
      h.laneResult f.w f.d.toNat t (op g t (h.src f.a t) (h.src f.b t)))) 4 (issueCycles g) f.e

/-- A class 00 form of one operand. -/
def laneT2 (i : Instr) (f : T2) (op : Group → Nat → Word → Word × Flags) (s : State) : Res :=
  issueChecked i s (fun g => g.participants f.g) (fun _ => false) (fun _ => false) fun g =>
    s.retire ((g.eachThread (g.participants f.g) fun h t =>
      h.laneResult f.w f.d.toNat t (op g t (h.src f.a t)))) 4 (issueCycles g) f.e

/-- R33: a 16-bit two-address form: d ← d op s, unguarded, always writing. -/
def laneH16 (i : Instr) (f : H16) (op : Group → Nat → Word → Word → Word × Flags) (s : State) : Res :=
  issuePlain i s fun g =>
    s.retire ((g.eachThread g.active fun h t =>
      h.laneResult false f.d.toNat t (op g t ((h.thread t).reg f.d.toNat) (h.src f.s t)))) 2 (issueCycles g) false

/-- A class 01 form (R232). -/
def laneQ4 (i : Instr) (f : Q4) (op : Group → Nat → Word → Word → Word → Word × Flags) (s : State) : Res :=
  issuePlain i s fun g =>
    s.retire ((g.eachThread g.active fun h t =>
      h.laneResult false f.d.toNat t (op g t (h.src f.a t) (h.src f.b t) (h.src f.c t)))) 4 (issueCycles g) f.e

/-- A class 10 lane immediate: the result reaches the register and no latch (R233). -/
def laneImm (i : Instr) (d : BitVec 6) (e : Bool) (op : Group → Nat → Word) (s : State) : Res :=
  issuePlain i s fun g =>
    s.retire (g.eachThread g.active fun h t => h.writeV t d.toNat (op h t)) 4 (issueCycles g) e

/-- A comparison: the predicate of each thread, and the flags; no latch (R231, R237). -/
def lanePred (i : Instr) (guard p : BitVec 3) (e : Bool) (op : Group → Nat → Bool × Flags) (s : State) : Res :=
  issueChecked i s (fun g => g.participants guard) (fun _ => false) (fun _ => false) fun g =>
    s.retire (g.eachThread (g.participants guard) fun h t =>
      (h.writeP t p.toNat (op h t).1).orFlags (op h t).2) 4 (issueCycles g) e

/-- An integer operation sets no flag. -/
def noFlags (x : Word) : Word × Flags := (x, 0#7)

/-- R59: an immediate of ten bits, sign-extended. -/
def imm10 (i : BitVec 10) : Word := i.signExtend 32

/-! ## Exchange through time -/

/-- Results of an exchange, all computed before any is written (R240). -/
def writeExchange (g : Group) (w : Bool) (d : Nat) (rs : List (Nat × Word)) (fl : Flags) : Group :=
  (rs.foldl (fun h r => h.laneResult w d r.1 (r.2, 0#7)) g).orFlags fl

/-- The state of a fold: the accumulator, the results so far, the flags. -/
structure Fold where
  acc : Option Word
  out : List (Nat × Word)
  fl  : Flags
  deriving DecidableEq, Repr

/-- R241: one thread of a scan, a segmented scan or a reduction. -/
def foldThread (op : FoldOp) (excl : Bool) (rnd : Nat → Rnd) (x : Nat → Word) (head : Nat → Bool) (st : Fold) (t : Nat) :
    Fold :=
  let before := st.acc.getD op.identity
  let (acc, fl) := match st.acc with
    | none => op.enter (x t)
    | some a => if head t then op.enter (x t) else op.step (rnd t) a (op.enter (x t)).1
  let fl := fl ||| (op.enter (x t)).2
  ⟨some acc, st.out ++ [(t, if excl then before else acc)], st.fl ||| fl⟩

/-- R241: the fold over the participants. -/
def foldThreads (op : FoldOp) (excl : Bool) (rnd : Nat → Rnd) (x : Nat → Word) (head : Nat → Bool) (ts : List Nat) :
    Fold :=
  ts.foldl (foldThread op excl rnd x head) ⟨none, [], 0#7⟩

/-- The frame of an exchange: participants under a guard, results computed from the group before. -/
def laneExchange (i : Instr) (guard : BitVec 3) (w : Bool) (d : BitVec 6) (e : Bool) (passes : Group → Nat)
    (readers : Group → List Nat) (badLatch : Group → Bool) (op : Group → List Nat → List (Nat × Word) × Flags) (s : State) : Res :=
  issueChecked i s readers (fun _ => false) badLatch fun g =>
    let ts := g.participants guard
    let r := op g ts
    s.retire (writeExchange g w d.toNat r.1 r.2) 4 (issueCycles g * passes g) e

/-- R242: each participant takes the value of the one before it, or its own b. -/
def prevValues (a b : Nat → Word) : Option Nat → List Nat → List (Nat × Word)
  | _, [] => []
  | none, t :: ts => (t, b t) :: prevValues a b (some t) ts
  | some u, t :: ts => (t, a u) :: prevValues a b (some t) ts

/-- R242: each participant takes the value of the one after it, or its own b. -/
def nextValues (a b : Nat → Word) : List Nat → List (Nat × Word)
  | [] => []
  | [t] => [(t, b t)]
  | t :: u :: ts => (t, a u) :: nextValues a b (u :: ts)

/-- R242: a value taken from a thread by index: zero from one that does not exist. -/
def takeFrom (g : Group) (a : BitVec 6) (t : Nat) : Word := if g.lmask.getLsbD t then g.src a t else 0#32

/-- R240: a latch entry that an exchange reads and that is not valid, among the threads it takes values from. -/
def takesBadLatch (g : Group) (a : BitVec 6) (us : List Nat) : Bool :=
  us.any fun t => g.lmask.getLsbD t &&
    ((a == 56#6 && !(g.thread t).b0.valid) || (a == 57#6 && !(g.thread t).b1.valid))

end Sys2Proof.Machine
end

