-- ==== Sys2Proof/Machine/Exchange.lean ====
section
/-!
DEFINITION. The cross-thread instructions (R240 to R243).
-/

namespace Sys2Proof.Machine

/-- The readers and the passes of a one-pass exchange. -/
def onePass (_ : Group) : Nat := 1

/-- R75: two passes. -/
def twoPasses (_ : Group) : Nat := 2

/-- R241: scan. -/
def execScan (f : ScanF) (s : State) : Res :=
  laneExchange (.scan f) f.g f.w f.d f.e onePass (fun g => g.participants f.g) (fun _ => false)
    (fun g ts =>
      let r := foldThreads (.ofCode f.o.toNat) f.x (g.laneRnd · 0) (g.src f.a) (fun _ => false) ts
      (r.out, r.fl)) s

/-- R241: sscan; the head predicate is read of participants alone. -/
def execSscan (f : SscanF) (s : State) : Res :=
  laneExchange (.sscan f) f.g f.w f.d f.e onePass (fun g => g.participants f.g) (fun _ => false)
    (fun g ts =>
      let r := foldThreads (.ofSegCode f.o.toNat) false (g.laneRnd · 0) (g.src f.a)
        (fun t => (g.thread t).pred f.p.toNat) ts
      (r.out, r.fl)) s

/-- R241: rdx: every participant receives the whole fold. -/
def execRdx (f : RdxF) (s : State) : Res :=
  laneExchange (.rdx f) f.g f.w f.d f.e onePass (fun g => g.participants f.g) (fun _ => false)
    (fun g ts =>
      let r := foldThreads (.ofCode f.o.toNat) false (g.laneRnd · 0) (g.src f.a) (fun _ => false) ts
      (ts.map fun t => (t, r.acc.getD 0#32), r.fl)) s

/-- R240: whether prev reads a latch entry that is not valid: a of every participant but the last, b of the first. -/
def prevBadLatch (g : Group) (f : T3) : Bool :=
  let ts := g.participants f.g
  takesBadLatch g f.a ts.dropLast || takesBadLatch g f.b (ts.take 1)

/-- R240: whether next reads a latch entry that is not valid: a of every participant but the first, b of the last. -/
def nextBadLatch (g : Group) (f : T3) : Bool :=
  let ts := g.participants f.g
  takesBadLatch g f.a (ts.drop 1) || takesBadLatch g f.b (ts.drop (ts.length - 1))

/-- R242: prev. -/
def execPrev (f : T3) (s : State) : Res :=
  laneExchange (.prev f) f.g f.w f.d f.e onePass (fun _ => []) (fun g => prevBadLatch g f)
    (fun g ts => (prevValues (g.src f.a) (g.src f.b) none ts, 0#7)) s

/-- R242: next. -/
def execNext (f : T3) (s : State) : Res :=
  laneExchange (.next f) f.g f.w f.d f.e twoPasses (fun _ => []) (fun g => nextBadLatch g f)
    (fun g ts => (nextValues (g.src f.a) (g.src f.b) ts, 0#7)) s

/-- R242: the thread that bcast takes from: bits 4:0 of the first participant's b. -/
def bcastSource (g : Group) (f : T3) : Option Nat :=
  (g.participants f.g).head?.map fun t => (g.src f.b t).toNat % 32

/-- R240: whether bcast reads a latch entry that is not valid: the first participant's b, or a of the thread it names. -/
def bcastBadLatch (g : Group) (f : T3) : Bool :=
  match (g.participants f.g).head? with
  | none => false
  | some t => takesBadLatch g f.b [t] || takesBadLatch g f.a [(g.src f.b t).toNat % 32]

/-- R242, R75: bcast: two passes when its source is later than the lowest active thread; with no participant there is no source, and
one pass (log entry 135). -/
def execBcast (f : T3) (s : State) : Res :=
  laneExchange (.bcast f) f.g f.w f.d f.e
    (fun g => if (bcastSource g f).getD 0 ≤ g.active.headD 0 then 1 else 2) (fun _ => []) (fun g => bcastBadLatch g f)
    (fun g ts => (ts.map fun t => (t, takeFrom g f.a ((bcastSource g f).getD 0)), 0#7)) s

/-- R240: whether perm reads a latch entry that is not valid. -/
def permBadLatch (g : Group) (f : T3) : Bool :=
  let ts := g.participants f.g
  takesBadLatch g f.b ts || takesBadLatch g f.a (ts.map fun t => (g.src f.b t).toNat % 32)

/-- R242: perm. -/
def execPerm (f : T3) (s : State) : Res :=
  laneExchange (.perm f) f.g f.w f.d f.e twoPasses (fun _ => []) (fun g => permBadLatch g f)
    (fun g ts => (ts.map fun t => (t, takeFrom g f.a ((g.src f.b t).toNat % 32)), 0#7)) s

/-- R243: the value of a vote. -/
def voteValue (mode : Nat) (xs : List (Nat × Word)) : Word :=
  match mode with
  | 0 => if xs.any (fun x => x.2 != 0#32) then 1#32 else 0#32
  | 1 => if xs.all (fun x => x.2 != 0#32) then 1#32 else 0#32
  | 2 => maskOf ((xs.filter fun x => x.2 != 0#32).map (·.1))
  | _ => if xs.all (fun x => x.2 == (xs.headD (0, 0#32)).2) then 1#32 else 0#32

/-- R243: vote. -/
def execVote (f : VoteF) (s : State) : Res :=
  laneExchange (.vote f) f.g f.w f.d f.e onePass (fun g => g.participants f.g) (fun _ => false)
    (fun g ts =>
      let v := voteValue f.m.toNat (ts.map fun t => (t, g.src f.a t))
      (ts.map fun t => (t, v), 0#7)) s

/-- R243: rank: the number of earlier participants with the same value. -/
def execRank (f : T2) (s : State) : Res :=
  laneExchange (.rank f) f.g f.w f.d f.e onePass (fun g => g.participants f.g) (fun _ => false)
    (fun g ts => (ts.map fun t =>
      (t, BitVec.ofNat 32 (ts.filter fun u => decide (u < t) && g.src f.a u == g.src f.a t).length), 0#7)) s

end Sys2Proof.Machine
end

