-- ==== Sys2Proof/Machine/FpLane.lean ====
section
/-!
DEFINITION. The floating-point lane instructions (R33, R232, R234 to R239).
-/

namespace Sys2Proof.Machine

/-- R234: fadd. -/
def execFadd (f : T3) (s : State) : Res :=
  laneT3 (.fadd f) f (fun g t a b => (fAdd fp32 (g.laneRnd t 0) a.toNat b.toNat).word) s

/-- R234: fsub. -/
def execFsub (f : T3) (s : State) : Res :=
  laneT3 (.fsub f) f (fun g t a b => (fSub fp32 (g.laneRnd t 0) a.toNat b.toNat).word) s

/-- R234: fmul. -/
def execFmul (f : T3) (s : State) : Res :=
  laneT3 (.fmul f) f (fun g t a b => (fMul fp32 (g.laneRnd t 0) a.toNat b.toNat).word) s

/-- R234: fdiv. -/
def execFdiv (f : T3) (s : State) : Res :=
  laneT3 (.fdiv f) f (fun g t a b => (fDiv (g.laneRnd t 0) a.toNat b.toNat).word) s

/-- R234: fmin. -/
def execFmin (f : T3) (s : State) : Res :=
  laneT3 (.fmin f) f (fun _ _ a b => (fMinMax fp32 false a.toNat b.toNat).word) s

/-- R234: fmax. -/
def execFmax (f : T3) (s : State) : Res :=
  laneT3 (.fmax f) f (fun _ _ a b => (fMinMax fp32 true a.toNat b.toNat).word) s

/-- R234, R235: fsqrt. -/
def execFsqrt (f : T2) (s : State) : Res :=
  laneT2 (.fsqrt f) f (fun g t a => (fSqrt (g.laneRnd t 0) a.toNat).word) s

/-- R234, R235: frcp. -/
def execFrcp (f : T2) (s : State) : Res :=
  laneT2 (.frcp f) f (fun g t a => (fRcp (g.laneRnd t 0) a.toNat).word) s

/-- R234, R235: frsq. -/
def execFrsq (f : T2) (s : State) : Res :=
  laneT2 (.frsq f) f (fun g t a => (fRsq (g.laneRnd t 0) a.toNat).word) s

/-- R234, R235: fexp2. -/
def execFexp2 (f : T2) (s : State) : Res :=
  laneT2 (.fexp2 f) f (fun g t a => (fExp2 (g.laneRnd t 0) a.toNat).word) s

/-- R234, R235: flog2. -/
def execFlog2 (f : T2) (s : State) : Res :=
  laneT2 (.flog2 f) f (fun g t a => (fLog2 (g.laneRnd t 0) a.toNat).word) s

/-- R234, R235: fsin. -/
def execFsin (f : T2) (s : State) : Res :=
  laneT2 (.fsin f) f (fun g t a => (fSin (g.laneRnd t 0) a.toNat).word) s

/-- R234, R235: fcos. -/
def execFcos (f : T2) (s : State) : Res :=
  laneT2 (.fcos f) f (fun g t a => (fCos (g.laneRnd t 0) a.toNat).word) s

/-- R234, R235: frnd. -/
def execFrnd (f : T2) (s : State) : Res :=
  laneT2 (.frnd f) f (fun g t a => (fRnd (g.laneRnd t 0) a.toNat).word) s

/-- R236: fclass. -/
def execFclass (f : T2) (s : State) : Res :=
  laneT2 (.fclass f) f (fun _ _ a => noFlags (BitVec.ofNat 32 (fClass a.toNat))) s

/-- R237: fcmp. -/
def execFcmp (f : CmpF) (s : State) : Res :=
  lanePred (.fcmp f) f.g f.p f.e (fun g t => fCompare f.c.toNat (g.src f.a t).toNat (g.src f.b t).toNat) s

/-- R238: cvt. -/
def execCvt (f : CvtF) (s : State) : Res :=
  issueChecked (.cvt f) s (fun g => g.participants f.g) (fun _ => false) (fun _ => false) fun g =>
    s.retire (g.eachThread (g.participants f.g) fun h t =>
      h.laneResult f.w f.d.toNat t
        (fConvert (g.laneRnd t 0) (cvtType f.s) (cvtType f.t) (h.src f.a t).toNat).word) 4 (issueCycles g) f.e

/-- R239: fadd2F16. -/
def execFadd2F16 (f : T3) (s : State) : Res :=
  laneT3 (.fadd2F16 f) f (fun g t a b => (packed2 (fAdd fp16) (g.laneRnd t) a.toNat b.toNat).word) s

/-- R239: fmul2F16. -/
def execFmul2F16 (f : T3) (s : State) : Res :=
  laneT3 (.fmul2F16 f) f (fun g t a b => (packed2 (fMul fp16) (g.laneRnd t) a.toNat b.toNat).word) s

/-- R239: fadd2Bf16. -/
def execFadd2Bf16 (f : T3) (s : State) : Res :=
  laneT3 (.fadd2Bf16 f) f (fun g t a b => (packed2 (fAdd bf16) (g.laneRnd t) a.toNat b.toNat).word) s

/-- R239: fmul2Bf16. -/
def execFmul2Bf16 (f : T3) (s : State) : Res :=
  laneT3 (.fmul2Bf16 f) f (fun g t a b => (packed2 (fMul bf16) (g.laneRnd t) a.toNat b.toNat).word) s

/-- R232: ffma. -/
def execFfma (f : Q4) (s : State) : Res :=
  laneQ4 (.ffma f) f (fun g t a b c => (fFma fp32 (g.laneRnd t 0) a.toNat b.toNat c.toNat).word) s

/-- R232: ffma2F16. -/
def execFfma2F16 (f : Q4) (s : State) : Res :=
  laneQ4 (.ffma2F16 f) f (fun g t a b c => (packedFma2 fp16 (g.laneRnd t) a.toNat b.toNat c.toNat).word) s

/-- R232: ffma2Bf16. -/
def execFfma2Bf16 (f : Q4) (s : State) : Res :=
  laneQ4 (.ffma2Bf16 f) f (fun g t a b c => (packedFma2 bf16 (g.laneRnd t) a.toNat b.toNat c.toNat).word) s

/-- R232: fdot2.f16. -/
def execFdot2F16 (f : Q4) (s : State) : Res :=
  laneQ4 (.fdot2F16 f) f (fun g t a b c => (fDot2 (g.laneRnd t 0) a.toNat b.toNat c.toNat).word) s

/-- R33: fadd_16, as the 32-bit form. -/
def execFadd_16 (f : H16) (s : State) : Res :=
  laneH16 (.fadd_16 f) f (fun g t a b => (fAdd fp32 (g.laneRnd t 0) a.toNat b.toNat).word) s

/-- R33: fsub_16, as the 32-bit form. -/
def execFsub_16 (f : H16) (s : State) : Res :=
  laneH16 (.fsub_16 f) f (fun g t a b => (fSub fp32 (g.laneRnd t 0) a.toNat b.toNat).word) s

/-- R33: fmul_16, as the 32-bit form. -/
def execFmul_16 (f : H16) (s : State) : Res :=
  laneH16 (.fmul_16 f) f (fun g t a b => (fMul fp32 (g.laneRnd t 0) a.toNat b.toNat).word) s

/-- R33: fmin_16, as the 32-bit form. -/
def execFmin_16 (f : H16) (s : State) : Res :=
  laneH16 (.fmin_16 f) f (fun _ _ a b => (fMinMax fp32 false a.toNat b.toNat).word) s

/-- R33: fmax_16, as the 32-bit form. -/
def execFmax_16 (f : H16) (s : State) : Res :=
  laneH16 (.fmax_16 f) f (fun _ _ a b => (fMinMax fp32 true a.toNat b.toNat).word) s

/-- R33: ffmb: d ← s × b0 + d, with b0 as it stands before. -/
def execFfmb (f : H16) (s : State) : Res :=
  laneH16 (.ffmb f) f (fun g t a b => (fFma fp32 (g.laneRnd t 0) b.toNat (g.src 56#6 t).toNat a.toNat).word) s

/-- R33: fadd2.f16, 16-bit form. -/
def execFadd2F16_16 (f : H16) (s : State) : Res :=
  laneH16 (.fadd2F16_16 f) f (fun g t a b => (packed2 (fAdd fp16) (g.laneRnd t) a.toNat b.toNat).word) s

end Sys2Proof.Machine
end

