-- ==== Sys2Proof/Machine/IntLane.lean ====
section
/-!
DEFINITION. The integer lane instructions: class 00 integer and compare forms, their 16-bit forms, class 01 integer
forms and the lane immediates (R33, R229 to R233).
-/

namespace Sys2Proof.Machine

/-- R229: add. -/
def execAdd (f : T3) (s : State) : Res := laneT3 (.add f) f (fun _ _ a b => noFlags (a + b)) s

/-- R229: sub. -/
def execSub (f : T3) (s : State) : Res := laneT3 (.sub f) f (fun _ _ a b => noFlags (a - b)) s

/-- R229: mul. -/
def execMul (f : T3) (s : State) : Res := laneT3 (.mul f) f (fun _ _ a b => noFlags (a * b)) s

/-- R229: mulh.s. -/
def execMulhS (f : T3) (s : State) : Res := laneT3 (.mulhS f) f (fun _ _ a b => noFlags (mulHi true a b)) s

/-- R229: mulh.n. -/
def execMulhN (f : T3) (s : State) : Res := laneT3 (.mulhN f) f (fun _ _ a b => noFlags (mulHi false a b)) s

/-- R229: min.s. -/
def execMinS (f : T3) (s : State) : Res := laneT3 (.minS f) f (fun _ _ a b => noFlags (minS a b)) s

/-- R229: min.n. -/
def execMinN (f : T3) (s : State) : Res := laneT3 (.minN f) f (fun _ _ a b => noFlags (minN a b)) s

/-- R229: max.s. -/
def execMaxS (f : T3) (s : State) : Res := laneT3 (.maxS f) f (fun _ _ a b => noFlags (maxS a b)) s

/-- R229: max.n. -/
def execMaxN (f : T3) (s : State) : Res := laneT3 (.maxN f) f (fun _ _ a b => noFlags (maxN a b)) s

/-- R229: and. -/
def execAnd (f : T3) (s : State) : Res := laneT3 (.and f) f (fun _ _ a b => noFlags (a &&& b)) s

/-- R229: or. -/
def execOr (f : T3) (s : State) : Res := laneT3 (.or f) f (fun _ _ a b => noFlags (a ||| b)) s

/-- R229: xor. -/
def execXor (f : T3) (s : State) : Res := laneT3 (.xor f) f (fun _ _ a b => noFlags (a ^^^ b)) s

/-- R229: andn. -/
def execAndn (f : T3) (s : State) : Res := laneT3 (.andn f) f (fun _ _ a b => noFlags (a &&& ~~~b)) s

/-- R230: shl. -/
def execShl (f : T3) (s : State) : Res := laneT3 (.shl f) f (fun _ _ a b => noFlags (shl a b)) s

/-- R230: shr. -/
def execShr (f : T3) (s : State) : Res := laneT3 (.shr f) f (fun _ _ a b => noFlags (shr a b)) s

/-- R230: sar. -/
def execSar (f : T3) (s : State) : Res := laneT3 (.sar f) f (fun _ _ a b => noFlags (sar a b)) s

/-- R230: rotl. -/
def execRotl (f : T3) (s : State) : Res := laneT3 (.rotl f) f (fun _ _ a b => noFlags (rotl a b)) s

/-- R230: bfe.s. -/
def execBfeS (f : T3) (s : State) : Res := laneT3 (.bfeS f) f (fun _ _ a b => noFlags (bfe true a b)) s

/-- R230: bfe.n. -/
def execBfeN (f : T3) (s : State) : Res := laneT3 (.bfeN f) f (fun _ _ a b => noFlags (bfe false a b)) s

/-- R229: abs. -/
def execAbs (f : T2) (s : State) : Res := laneT2 (.abs f) f (fun _ _ a => noFlags (absS a)) s

/-- R229: neg. -/
def execNeg (f : T2) (s : State) : Res := laneT2 (.neg f) f (fun _ _ a => noFlags (-a)) s

/-- R229: clz. -/
def execClz (f : T2) (s : State) : Res := laneT2 (.clz f) f (fun _ _ a => noFlags (clz a)) s

/-- R229: popc. -/
def execPopc (f : T2) (s : State) : Res := laneT2 (.popc f) f (fun _ _ a => noFlags (popc a)) s

/-- R229: brev. -/
def execBrev (f : T2) (s : State) : Res := laneT2 (.brev f) f (fun _ _ a => noFlags (brev a)) s

/-- R231: cmp. -/
def execCmp (f : CmpF) (s : State) : Res :=
  lanePred (.cmp f) f.g f.p f.e (fun g t => (condHolds f.c (g.src f.a t) (g.src f.b t), 0#7)) s

/-- R33: mov, 16-bit form. -/
def execMov (f : H16) (s : State) : Res := laneH16 (.mov f) f (fun _ _ _ b => noFlags (b)) s

/-- R33: add, 16-bit form. -/
def execAdd_16 (f : H16) (s : State) : Res := laneH16 (.add_16 f) f (fun _ _ a b => noFlags (a + b)) s

/-- R33: sub, 16-bit form. -/
def execSub_16 (f : H16) (s : State) : Res := laneH16 (.sub_16 f) f (fun _ _ a b => noFlags (a - b)) s

/-- R33: mul, 16-bit form. -/
def execMul_16 (f : H16) (s : State) : Res := laneH16 (.mul_16 f) f (fun _ _ a b => noFlags (a * b)) s

/-- R33: and, 16-bit form. -/
def execAnd_16 (f : H16) (s : State) : Res := laneH16 (.and_16 f) f (fun _ _ a b => noFlags (a &&& b)) s

/-- R33: or, 16-bit form. -/
def execOr_16 (f : H16) (s : State) : Res := laneH16 (.or_16 f) f (fun _ _ a b => noFlags (a ||| b)) s

/-- R33: xor, 16-bit form. -/
def execXor_16 (f : H16) (s : State) : Res := laneH16 (.xor_16 f) f (fun _ _ a b => noFlags (a ^^^ b)) s

/-- R33: shl, 16-bit form. -/
def execShl_16 (f : H16) (s : State) : Res := laneH16 (.shl_16 f) f (fun _ _ a b => noFlags (shl a b)) s

/-- R33: shr, 16-bit form. -/
def execShr_16 (f : H16) (s : State) : Res := laneH16 (.shr_16 f) f (fun _ _ a b => noFlags (shr a b)) s

/-- R32: the 16-bit nop: a uniform instruction of one cycle that changes nothing but the program counter. -/
def execNop_16 (s : State) : Res := issuePlain .nop_16 s fun g => s.retire g 2 1 false

/-- R232: mad. -/
def execMad (f : Q4) (s : State) : Res := laneQ4 (.mad f) f (fun _ _ a b c => noFlags (a * b + c)) s

/-- R232: dp4.s8. -/
def execDp4S8 (f : Q4) (s : State) : Res := laneQ4 (.dp4S8 f) f (fun _ _ a b c => noFlags (dp4 true a b c)) s

/-- R232: dp4.n8. -/
def execDp4N8 (f : Q4) (s : State) : Res := laneQ4 (.dp4N8 f) f (fun _ _ a b c => noFlags (dp4 false a b c)) s

/-- R232: bfi. -/
def execBfi (f : Q4) (s : State) : Res := laneQ4 (.bfi f) f (fun _ _ a b c => noFlags (bfi a b c)) s

/-- R232: shf. -/
def execShf (f : Q4) (s : State) : Res := laneQ4 (.shf f) f (fun _ _ a b c => noFlags (shf a b c)) s

/-- R232: sel reads its predicate of each active thread. -/
def execSel (f : SelF) (s : State) : Res :=
  issuePlain (.sel f) s fun g =>
    s.retire (g.eachThread g.active fun h t =>
      h.laneResult false f.d.toNat t
        (noFlags (if (h.thread t).pred f.p.toNat then h.src f.a t else h.src f.b t))) 4 (issueCycles g) f.e

/-- R79, R232: the low word goes into d and the latch first, then the high word into d + 1. -/
def mulWide (i : Instr) (sgn : Bool) (f : Q4) (s : State) : Res :=
  issuePlain i s fun g =>
    s.retire (g.eachThread g.active fun h t =>
      let a := h.src f.a t
      let b := h.src f.b t
      (h.laneResult false f.d.toNat t (noFlags (mulLo a b))).laneResult false (f.d.toNat + 1) t
        (noFlags (mulHi sgn a b))) 4 (issueCycles g) f.e

/-- R232: mulw.s. -/
def execMulwS (f : Q4) (s : State) : Res := mulWide (.mulwS f) true f s

/-- R232: mulw.n. -/
def execMulwN (f : Q4) (s : State) : Res := mulWide (.mulwN f) false f s

/-- R233: addi. -/
def execAddi (f : LaneImm) (s : State) : Res :=
  laneImm (.addi f) f.d f.e (fun h t => h.src f.a t + imm10 f.i) s

/-- R233: muli. -/
def execMuli (f : LaneImm) (s : State) : Res :=
  laneImm (.muli f) f.d f.e (fun h t => h.src f.a t * imm10 f.i) s

/-- R233: andi. -/
def execAndi (f : LaneImm) (s : State) : Res :=
  laneImm (.andi f) f.d f.e (fun h t => h.src f.a t &&& imm10 f.i) s

/-- R233: ori. -/
def execOri (f : LaneImm) (s : State) : Res :=
  laneImm (.ori f) f.d f.e (fun h t => h.src f.a t ||| imm10 f.i) s

/-- R233: xori. -/
def execXori (f : LaneImm) (s : State) : Res :=
  laneImm (.xori f) f.d f.e (fun h t => h.src f.a t ^^^ imm10 f.i) s

/-- R233: shli. -/
def execShli (f : LaneSh) (s : State) : Res :=
  laneImm (.shli f) f.d f.e (fun h t => shl (h.src f.a t) (f.n.setWidth 32)) s

/-- R233: shri. -/
def execShri (f : LaneSh) (s : State) : Res :=
  laneImm (.shri f) f.d f.e (fun h t => shr (h.src f.a t) (f.n.setWidth 32)) s

/-- R233: sari. -/
def execSari (f : LaneSh) (s : State) : Res :=
  laneImm (.sari f) f.d f.e (fun h t => sar (h.src f.a t) (f.n.setWidth 32)) s

/-- R233: cmpi. -/
def execCmpi (f : CmpImm) (s : State) : Res :=
  lanePred (.cmpi f) 0#3 f.p f.e (fun g t => (condHolds f.c (g.src f.a t) (imm10 f.i), 0#7)) s

/-- R233: movi. -/
def execMovi (f : LaneMov) (s : State) : Res :=
  laneImm (.movi f) f.d f.e (fun _ _ => f.i.signExtend 32) s

/-- R233: movhi keeps bits 15:0. -/
def execMovhi (f : LaneMov) (s : State) : Res :=
  laneImm (.movhi f) f.d f.e
    (fun h t => ((h.thread t).reg f.d.toNat &&& 0xFFFF#32) ||| (f.i.setWidth 32 <<< 16)) s

end Sys2Proof.Machine
end

