-- ==== Sys2Proof/Machine/Det.lean ====
section
/-!
DEFINITION. Atomic updates (R196) and deterministic mode's commit: keys, buffers, the order of application (R208 to
R211, R178).
-/

namespace Sys2Proof.Machine

/-- R61, R196: the new value of a 32-bit word under ops 0 to 8 and 11 to 14. -/
def atomicWord (op : Nat) (r : Rnd) (old x : Word) : Word :=
  match op with
  | 0 => old + x
  | 1 => minS old x
  | 2 => maxS old x
  | 3 => minN old x
  | 4 => maxN old x
  | 5 => old &&& x
  | 6 => old ||| x
  | 7 => old ^^^ x
  | 8 => x
  | 11 => BitVec.ofNat 32 (fAdd fp32 r old.toNat x.toNat).bits
  | 12 => BitVec.ofNat 32 (fMinMax fp32 false old.toNat x.toNat).bits
  | 13 => BitVec.ofNat 32 (fMinMax fp32 true old.toNat x.toNat).bits
  | 14 => BitVec.ofNat 32 (fMinMax fp32 true (fp32.absBits old.toNat) (fp32.absBits x.toNat)).bits
  | _ => old

/-- R196: the access size of an op. -/
def atomicSize (op : Nat) : Nat := if op = 10 || op = 15 then 8 else 4

/-- R210: the ops that deterministic mode holds back. -/
def isFloatOp (op : Nat) : Bool := decide (11 ≤ op) && decide (op ≤ 14)

/-- R196: the new value at a location, from the thread's registers at d. -/
def atomicNew (op : Nat) (r : Rnd) (old : Nat) (reg : Nat → Word) : Nat :=
  let pair (i : Nat) : Nat := (reg i).toNat + (reg (i + 1)).toNat * 2 ^ 32
  match op with
  | 9 => if old = (reg 0).toNat then (reg 1).toNat else old
  | 10 => (old + pair 0) % 2 ^ 64
  | 15 => if old = pair 0 then pair 2 else old
  | _ => (atomicWord op r (BitVec.ofNat 32 old) (reg 0)).toNat

/-! ## Locations -/

/-- The bench bytes of a block on a core. -/
def benchOf (s : State) (block core : Nat) : Memory :=
  match s.block? block with
  | some b => (look core b.bench).getD []
  | none => []

/-- Bytes written to a block's bench on a core. -/
def benchWrite (s : State) (block core off : Nat) (bs : List Byte) : State :=
  s.modBlock block fun b => { b with bench := put core (((look core b.bench).getD []).write off bs) b.bench }

/-- The number at a location, read under an owner's key. -/
def readLoc (s : State) (o : Owner) (loc : Loc) (n : Nat) : Nat :=
  match loc with
  | .home pa => ofBytes (s.homeBytesAt o pa n)
  | .bench b c off => ofBytes ((benchOf s b c).bytes off n)

/-- A number written at a location, as an atomic of a core does: past L1, at the home slice (R145, R147). -/
def writeLoc (s : State) (core : Nat) (o : Owner) (loc : Loc) (n x : Nat) : State :=
  match loc with
  | .home pa => s.writeAt (fun s a b => s.pastL1Write core o a b) (fun i => pa + i) (toBytes n x)
  | .bench b c off => benchWrite s b c off (toBytes n x)

/-- R145: before an atomic acts at its home, the issuing core's L1 writes its sector back and drops it. -/
def clearLoc (s : State) (core : Nat) (loc : Loc) : State :=
  match loc with
  | .home pa => s.dropSector core (pa / 64)
  | .bench .. => s

/-! ## Keys -/

/-- R210: a key as the list of its fields. -/
def DetKey.fields (k : DetKey) : List Nat := [k.wide, k.bidx, k.epoch, k.rank, k.count] ++ k.more

/-- Lists of numbers in lexical order, a prefix before what extends it. -/
def lexLt : List Nat → List Nat → Bool
  | [], [] => false
  | [], _ :: _ => true
  | _ :: _, [] => false
  | a :: as, b :: bs => decide (a < b) || (a == b && lexLt as bs)

/-- R210: the key of a group's contribution from a thread, `i` contributions of the group having come before; a packed
thread extends its item's key by its own count. -/
def keyOf (g : Group) (t i : Nat) : DetKey :=
  if g.packed then
    match (g.thread t).prefixKey with
    | a :: b :: c :: d :: e :: rest => ⟨a, b, c, d, e, rest ++ [(g.thread t).own]⟩
    | _ => ⟨g.det.wide, g.bidx, g.det.epoch, g.rank, i, []⟩
  else ⟨g.det.wide, g.bidx, g.det.epoch, g.rank, i, []⟩

/-- R210: the prefix an item carries: the issuer's key at the `spawn`, the origin thread, the spawn's place. That place counts the
contributions and the spawns that came before, so that no two items have one prefix (log entry 112). -/
def itemPrefix (g : Group) (t : Nat) : List Nat :=
  (keyOf g t g.det.count).fields ++ [t, (if g.packed then (g.thread t).own else g.det.count) + g.det.spawns]

/-! ## Buffer and pool -/

/-- R209: the quantum ends: the buffer goes to the homes in issue order, as a release at each operation's scope
(R178). With `due`, what the group has sent is to be performed before its later accesses. -/
def endQuantum (s : State) (gid : Nat) (due : Bool) : State :=
  match s.group? gid with
  | none => s
  | some g =>
    let s := s.release g.core (g.det.buffer.foldl (fun m c => max m c.scope) 0)
    let pool := (s.pool ++ g.det.buffer).map fun c => if due && c.gid == gid then { c with due := true } else c
    { s with pool := pool }.setGroup gid { g with det := { g.det with buffer := [], run := 0 } }

/-- R178, R209: a contribution enters its group's buffer, and a full buffer ends the quantum; that of a group that has retired, whose
last quantum is over, goes to its home. -/
def buffered (s : State) (c : Contribution) : State :=
  match s.group? c.gid with
  | none =>
    let s := s.release c.core c.scope
    { s with pool := s.pool ++ [c] }
  | some g =>
    let d := { g.det with buffer := g.det.buffer ++ [c] }
    let s := s.setGroup c.gid { g with det := d }
    if 256 ≤ d.buffer.length then endQuantum s c.gid false else s

/-- R178, R210: one contribution of an issuing group's thread, under the next key. -/
def contribute (s : State) (gid t op scope : Nat) (loc : Loc) (va : Nat) (o : Owner) (x : Word) (r : Rnd) : State × DetKey :=
  match s.group? gid with
  | none => (s, ⟨0, 0, 0, 0, 0, []⟩)
  | some g =>
    let k := keyOf g t g.det.count
    let h := ({ g with det := { g.det with count := g.det.count + 1 } } : Group)
    let s := s.setGroup gid (h.modThread t fun x => { x with own := x.own + 1 })
    (buffered s ⟨gid, g.grid, k, loc, o, op, x, r, g.core, scope, false, g.pc, va⟩, k)

/-- R178: whether contributions that a `bar`, `wait` or `cwait` ordered before the group's later accesses have yet to be
performed: its own, and those that a barrier it has passed brought (R210). The spec has no access wait for a contribution with
smaller keys to come; the model reads the order of R178 as such a wait (log entry 95). -/
def commitsDue (s : State) (gid : Nat) (g : Group) : Bool :=
  s.pool.any fun c => c.due && c.grid == g.grid &&
    (c.gid == gid || decide (c.key.wide < g.det.wide) ||
      (c.key.bidx == g.bidx && c.key.wide == g.det.wide && decide (c.key.epoch < g.det.epoch)))

/-- The least key a group may still contribute with (R210), if any of its threads lives: at a barrier, one of the next
epoch. -/
def nextKey (g : Group) : Option (List Nat) :=
  let atBar (b : BarRef) : List Nat :=
    match b with
    | .core .. => [g.det.wide, g.bidx, g.det.epoch + 1]
    | .quad .. => [g.det.wide, g.bidx, g.det.epoch + 1]
    | _ => [g.det.wide + 1]
  match g.wait with
  | .bar b _ => some (atBar b)
  | .barArrive b _ => some (atBar b)
  | _ =>
    if g.packed then
      bestBy lexLt ((threadsOf g.lmask).map fun t => (keyOf g t g.det.count).fields)
    else some (keyOf g 0 g.det.count).fields

/-- R210: whether a contribution with a smaller key than `c` can still reach a location of the grid: from a live group, from a
block not yet placed, from a waiting item or a queued `mdrain`, those of saved units with them; and buffered ones have yet to
arrive. A group that waits for its own `atom` issues nothing before it (log entry 96). -/
def smallerMayCome (s : State) (c : Contribution) : Bool :=
  let f := c.key.fields
  let below (k : List Nat) : Bool := lexLt k f
  let unplaced := match s.grid? c.grid with
    | some x => decide (x.nextBlock < x.blocks) && below [0, x.nextBlock]
    | none => false
  let sets := s.sets.map (·.2) ++ s.contexts.flatMap fun (e : Nat × Context) => e.2.units.map (·.set)
  unplaced ||
    (s.groups.any fun e => e.2.grid == c.grid &&
      ((!(e.1 == c.gid && e.2.wait == .detAtom) && (nextKey e.2).any below) ||
        e.2.det.buffer.any fun b => below b.key.fields)) ||
    (sets.any fun x => (x.items ++ x.formed.flatMap (·.items)).any fun i => i.grid == c.grid && below i.prefixKey) ||
    sets.any fun x => x.mq.any fun m => match m.det with
      | some (n, key) => n == c.grid && below key.fields
      | none => false

/-- R142: the RM code of a mode. -/
def RMode.code : RMode → Nat
  | .rne => 0
  | .rtz => 1
  | .rup => 2
  | .rdn => 3
  | .rsr => 4

/-- R207, R210: contributions in the order of their keys; equal keys by what they do, so that the order of their arrival decides
nothing (log entry 112). -/
def Contribution.before (a b : Contribution) : Bool :=
  lexLt a.key.fields b.key.fields ||
    (a.key == b.key && lexLt [a.op, a.x.toNat, a.rnd.mode.code, a.rnd.bits] [b.op, b.x.toNat, b.rnd.mode.code, b.rnd.bits])

/-- The contribution of a grid with the least key, if the pool holds one. -/
def leastOf (s : State) (grid : Nat) : Option Contribution := bestBy Contribution.before (s.pool.filter (·.grid == grid))

/-- Whether the word of a location is uncorrectable (R361), and whether its home is down (R364). -/
def Loc.lost (l : Loc) (s : State) : Bool :=
  match l with
  | .home pa => s.lost pa 4
  | .bench .. => false
def Loc.down (l : Loc) (s : State) : Bool :=
  match l with
  | .home pa => isDown s pa
  | .bench .. => false

/-- The running fold of a grid's contributions at a location (R211). -/
def foldValue (s : State) (grid : Nat) (o : Owner) (loc : Loc) : Word :=
  match s.base.find? fun e => e.1 == grid && e.2.1 == loc with
  | some e => e.2.2
  | none => BitVec.ofNat 32 (readLoc s o loc 4)

/-- A fault that an `atom` is to take once its folds are found: one that has threads of it issue again. -/
def Group.atomFault (g : Group) : Option Event := g.pending.filter fun ev => ev.replay != 0#32

/-- R211: an `atom` of the group whose folds have all been found writes its old values and completes. -/
def finishDetAtom (s : State) (gid : Nat) : State :=
  match s.group? gid with
  | none => s
  | some g =>
    if g.wait = .detAtom && g.det.atom.isEmpty then
      match g.atomFault with
      | some ev => takeEvent (s.setGroup gid { g.wake s.now with pending := none }) gid { g.wake s.now with pending := none } ev
      | none =>
        let g := { g.wake s.now with pc := nextPc g.pc 4 }
        s.setGroup gid ((g.finish false s.now).endStint s.now)
    else s

/-- Whether an `atom`'s wait is for the fold of a contribution. -/
def awaits (a : Nat × DetKey × Loc) (c : Contribution) : Bool := a.2.1 == c.key && a.2.2 == c.loc

/-- The group that a data error of a contribution reaches: its own, with the threads of an `atom` that wait for it to issue again
(R186); none of them waiting, it meets the error at its next boundary with nothing to run again. A fault that stopped the `atom`
already keeps its place (log entry 111). -/
def Group.meetLost (g : Group) (c : Contribution) : Group :=
  let again := maskOf ((g.det.atom.filter fun a => awaits a c).map (·.1))
  let ev : Event := g.pending.getD
    { code := codeDATAERR, epc := g.pc, replay := 0#32, info := BitVec.ofNat 64 c.va, instr := c.instr, shown := 0#32,
      report := { inH := g.mode == .handler } }
  { g with
    pending := some { ev with replay := ev.replay ||| again, shown := ev.shown ||| again }
    det := { g.det with atom := g.det.atom.filter fun a => !awaits a c } }

/-- R334, R361: a contribution whose location is uncorrectable is not made: its group meets DATAERR, or, where it has retired, the record
is nobody's. -/
def loseContribution (s : State) (c : Contribution) : State :=
  let s := { s with pool := s.pool.erase c }
  match s.group? c.gid with
  | some g => finishDetAtom (s.setGroup c.gid (g.meetLost c)) c.gid
  | none =>
    match s.grid? c.grid with
    | none => s
    | some x =>
      (postRecord s x.asid ⟨#v[recordWord0 codeDATAERR 0 {} 0#32, BitVec.ofNat 64 c.instr.toNat, BitVec.ofNat 64 c.va, 0#64,
        BitVec.ofNat 64 (x.asid * 2 ^ 48), 0#64, 0#64, 0#64], .nobody, none, true, none⟩).1

/-- R210: one contribution of the pool is applied at its location, and an `atom` waiting for its fold receives it; one whose location is
uncorrectable is not. -/
def applyContribution (s : State) (c : Contribution) : State :=
  let s := clearLoc s c.core c.loc
  if c.loc.lost s then loseContribution s c
  else
  let fold := foldValue s c.grid c.own c.loc
  let old := BitVec.ofNat 32 (readLoc s c.own c.loc 4)
  let s := writeLoc s c.core c.own c.loc 4 (atomicWord c.op c.rnd old c.x).toNat
  let s := { s with
    pool := s.pool.erase c
    base := (c.grid, c.loc, atomicWord c.op c.rnd fold c.x) :: s.base.filter fun e => !(e.1 == c.grid && e.2.1 == c.loc) }
  match s.groups.find? fun e => e.2.grid == c.grid && e.2.det.atom.any fun a => awaits a c with
  | none => s
  | some (gid, _) =>
    let s := s.modGroup gid fun g =>
      let mine := g.det.atom.filter fun a => awaits a c
      let g := mine.foldl (fun (g : Group) a => g.writeV a.1 g.det.dest fold) g
      { g with det := { g.det with atom := g.det.atom.filter fun a => !awaits a c } }
    finishDetAtom s gid

/-- R132, R210: when a grid retires, everything it still holds in the pool is applied in key order. -/
def applyAll (s : State) (grid : Nat) : Nat → State
  | 0 => s
  | fuel + 1 =>
    match leastOf s grid with
    | none => s
    | some c => applyAll (applyContribution s c) grid fuel

end Sys2Proof.Machine
end

