-- ==== Sys2Proof/Machine/LaneMem.lean ====
section
/-!
DEFINITION. The lane memory instructions (R186 to R192, R195 to R197): loads, stores with their grain runs (R157), bench
access, atomics and reductions.
-/

namespace Sys2Proof.Machine

/-- R60: the bytes of a size code. -/
def sizeBytes (z : BitVec 3) : Nat :=
  match z.toNat with
  | 0 => 1
  | 1 => 1
  | 2 => 2
  | 3 => 2
  | 4 => 4
  | 5 => 8
  | _ => 16

/-- R189: the words a load writes: extended below 4 bytes, else one word per 4 bytes. -/
def extendLoad (z : BitVec 3) (bs : List Byte) : List Word :=
  let x := ofBytes bs
  match z.toNat with
  | 0 => [(BitVec.ofNat 8 x).signExtend 32]
  | 1 => [BitVec.ofNat 32 x]
  | 2 => [(BitVec.ofNat 16 x).signExtend 32]
  | 3 => [BitVec.ofNat 32 x]
  | z => (List.range (if z = 4 then 1 else if z = 5 then 2 else 4)).map fun i => BitVec.ofNat 32 (x / 2 ^ (32 * i))

/-- R190: the bytes a thread stores from a source code: register i after the first holds bytes 4i on. -/
def storeBytes (g : Group) (z : BitVec 3) (d : BitVec 6) (t : Nat) : List Byte :=
  let n := sizeBytes z
  if n ≤ 4 then toBytes n (g.src d t).toNat
  else (List.range (n / 4)).flatMap fun i => toBytes 4 ((g.thread t).reg (d.toNat + i)).toNat

/-- Words written into consecutive registers of a thread. -/
def Group.writeWords (g : Group) (t d : Nat) (ws : List Word) : Group :=
  (List.range ws.length).foldl (fun (g : Group) i => g.writeV t (d + i) (ws.getD i 0#32)) g

/-- R72: the registers d to d + k − 1 wait for their data. -/
def Group.awaitLoads (g : Group) (d k : Nat) : Group :=
  { g with loads := g.loads ++ ((List.range k).map (d + ·)).filter fun r => !g.loads.contains r }

/-- The access of a group through one of its windows, with the window kept as refreshed (R153). -/
def groupAccess (s : State) (g : Group) (w : Nat) (o : Int) (n : Nat) (rd wr : Bool) : Except Trap (Place × State) :=
  match windowAccess s g.core g.asid g.mode (g.win w) o n rd wr with
  | .error t => .error t
  | .ok (p, win, s) => .ok (p, s.modGrp fun g => g.setWin w win)

/-- R189: one thread's load. -/
def loadThread (w : Nat) (off : Group → Nat → Int) (z : BitVec 3) (d : BitVec 6) (route : Route) (s : State) (t : Nat) :
    Except Trap State :=
  match s.grp with
  | none => .ok s
  | some g =>
    let n := sizeBytes z
    let o := off g t
    match groupAccess s g w o n true false with
    | .error tr => .error tr
    | .ok (p, s) =>
      let va := (g.win w).va o
      if p.grain && p.host then .error (plainTrap codePERM va)
      else if p.grain && decide (n < 4) then .error (plainTrap codeFORMAT va)
      else
        match loadPlace s g.core (if (g.win w).pin then .past else route) p n va with
        | .error tr => .error tr
        | .ok (bs, s) => .ok (s.modGrp fun g => g.writeWords t d.toNat (extendLoad z bs))

/-- The end of a lane memory instruction: the fault of its first failing thread, or its completion. -/
def finishVisit (r : State × Option (Nat × Trap)) (ts : List Nat) (done : State → State) : State :=
  match r.2 with
  | some (k, tr) => raise r.1 tr (fromThread k ts)
  | none => done r.1

/-- R172, R191: an ordered load's acquire. -/
def acquireFor (s : State) (core : Nat) (scope : Option Nat) : State :=
  match scope with
  | some sc => s.acquire core sc
  | none => s

/-- An ordered load's mark on its group: it has acquired (R173); one at `pkg` or wider has left no copy from before the group's release
store, so that none is to be made way for any more (R181 to R183). -/
def Group.acquiredFor (g : Group) (scope : Option Nat) : Group :=
  match scope with
  | some sc => { g.acquired sc with relDue := g.relDue && decide (sc < 4) }
  | none => g

/-- R181 to R183: an acquiring load that follows a release store of its group in program order reads after that store has been
performed: what the core holds is written back and dropped before it reads. -/
def orderRelease (s : State) (g : Group) (scope : Option Nat) : State := if g.relDue then acquireFor s g.core scope else s

/-- A lane load (R186, R188, R189, R191): every thread's load, then the acquire's cache actions once. -/
def laneLoad (i : Instr) (w : BitVec 3) (off : Group → Nat → Int) (z : BitVec 3) (d : BitVec 6) (route : Route)
    (acq : Option Nat) (e : Bool) (s : State) : Res :=
  issuePlain i s fun g =>
    finishVisit (visit (loadThread w.toNat off z d route) (orderRelease s g acq) g.active) g.active fun s =>
      match s.grp with
      | none => s
      | some g =>
        (acquireFor s g.core acq).retire ((g.acquiredFor acq).awaitLoads d.toNat (max (sizeBytes z / 4) 1)) 4 (issueCycles g) e

/-! ## Stores -/

/-- Store state: the units of this instruction already written, for R167. -/
structure StoreRun where
  s    : State
  done : List (Loc × Nat)
  deriving DecidableEq, Repr

/-- R207: the number under which a choice of a deterministic group is made: the same in every run of its program. -/
def Group.choiceNumber (g : Group) (n : Nat) : Nat :=
  [g.bidx, g.rank, g.retired, n].foldl (fun x y => x * 2 ^ 32 + y % 2 ^ 32) g.lidx

/-- R167: one single-copy unit stored by a thread; when an earlier thread of the instruction has stored to it, either
value stands (log entry 13), and under deterministic mode the same one in every run (R207). -/
def storeUnit (a : StoreRun) (loc : Loc) (size : Nat) (store : State → State) : StoreRun :=
  if a.done.contains (loc, size) then
    match a.s.grp.filter fun g => g.det.en with
    | some g => if Config.laterStoreWins (g.choiceNumber a.done.length) then { a with s := store a.s } else a
    | none =>
      let later := Config.laterStoreWins a.s.free
      let s := { a.s with free := a.s.free + 1 }
      { a with s := if later then store s else s }
  else ⟨store a.s, (loc, size) :: a.done⟩

/-- A raw store of a thread, in units of at most 8 bytes (R165). -/
def storeUnits (core : Nat) (route : Route) (own : Owner) (a : StoreRun) (pa : Nat) (bs : List Byte) : StoreRun :=
  (List.range ((bs.length + 7) / 8)).foldl (fun a i =>
    let u := (bs.drop (8 * i)).take 8
    storeUnit a (.home (pa + 8 * i)) u.length fun s => storeRaw s core route own (pa + 8 * i) u) a

/-- The store's parameters: window, offset of each thread, size, data source, route. -/
structure StoreForm where
  w     : Nat
  off   : Group → Nat → Int
  z     : BitVec 3
  d     : BitVec 6
  route : Route

/-- R190: the checks of one thread's store, giving its place. -/
def storePlace (f : StoreForm) (s : State) (t : Nat) : Except Trap (Place × State) :=
  match s.grp with
  | none => .error (plainTrap codePERM 0)
  | some g =>
    let o := f.off g t
    let va := (g.win f.w).va o
    match groupAccess s g f.w o (sizeBytes f.z) false true with
    | .error tr => .error tr
    | .ok (p, s) => if p.grain && p.host then .error (plainTrap codePERM va) else .ok (p, s)

/-- R157, step 1: the places of a run's threads, or the first failure among them. -/
def runPlaces (f : StoreForm) (s : State) : List Nat → Except Trap (List (Nat × Place) × State)
  | [] => .ok ([], s)
  | t :: ts =>
    match storePlace f s t with
    | .error tr => .error tr
    | .ok (p, s) =>
      match runPlaces f s ts with
      | .error tr => .error tr
      | .ok (ps, s) => .ok ((t, p) :: ps, s)

/-- R157, step 2: the run writes every element of one block exactly once. -/
def runCovers (n : Nat) (ps : List (Nat × Place)) : Bool :=
  match ps with
  | [] => false
  | (_, p) :: _ =>
    ps.length * n == 64 &&
    ps.all (fun q => q.2.grain && q.2.page.frame == p.page.frame && q.2.page.vbase == p.page.vbase &&
      q.2.off / 64 == p.off / 64) &&
    (List.range (64 / n)).all fun i => ps.any fun q => q.2.off % 64 == i * n

/-- The word that element `i` of the block takes from a run, and its rounding. -/
def runElement (f : StoreForm) (g : Group) (ps : List (Nat × Place)) (i : Nat) : Word × Rnd :=
  let n := sizeBytes f.z
  match ps.find? fun q => decide (q.2.off % 64 / 4 ≤ i) && decide (i < (q.2.off % 64 + n) / 4) with
  | none => (0#32, ⟨.rne, 0⟩)
  | some (t, p) =>
    let j := i - p.off % 64 / 4
    (BitVec.ofNat 32 (ofBytes (((storeBytes g f.z f.d t).drop (4 * j)).take 4)), g.laneRnd t j)

/-- R157, step 3: the run's block is encoded and written as one unit. -/
def runWrite (f : StoreForm) (a : StoreRun) (g : Group) (ps : List (Nat × Place)) : StoreRun :=
  match ps with
  | [] => a
  | (_, p) :: _ =>
    let (b, fl) := encodeBlock p.page.fmt (fun i => (runElement f g ps i).2)
      ((List.range 16).map fun i => (runElement f g ps i).1)
    let j := p.off / 64
    let a := storeUnit a (.home (p.page.blockAddr j 0)) 64 fun s => writeBlock s g.core p.page j b
    { a with s := a.s.modGrp fun g => g.orFlags fl }

/-- R157, R186, R190: the active threads' stores in ascending index, in runs on grain pages. The fuel is the number of
threads. -/
def storeThreads (f : StoreForm) : Nat → StoreRun → List Nat → StoreRun × Option (Nat × Trap)
  | 0, a, _ => (a, none)
  | _ + 1, a, [] => (a, none)
  | fuel + 1, a, t :: ts =>
    match a.s.grp with
    | none => (a, none)
    | some g =>
      let n := sizeBytes f.z
      let va := (g.win f.w).va (f.off g t)
      match storePlace f a.s t with
      | .error tr => (a, some (t, tr))
      | .ok (p, s) =>
        if !p.grain then
          storeThreads f fuel (storeUnits g.core (if (g.win f.w).pin then .far else f.route) p.page.own { a with s := s } p.pa (storeBytes g f.z f.d t)) ts
        else if n < 4 then ({ a with s := s }, some (t, plainTrap codeFORMAT va))
        else
          let run := (t :: ts).take (64 / n)
          match runPlaces f s run with
          | .error tr => ({ a with s := s }, some (t, tr))
          | .ok (ps, s) =>
            if !runCovers n ps then ({ a with s := s }, some (t, plainTrap codeFORMAT va))
            else storeThreads f fuel (runWrite f { a with s := s } g ps) ((t :: ts).drop (64 / n))

/-- R172, R191: an ordered store's release, before it stores. -/
def releaseFor (s : State) (core : Nat) (scope : Option Nat) : State :=
  match scope with
  | some sc => s.release core sc
  | none => s

/-- A release store's mark on its group: an acquiring load that follows it in program order is to come after it (R181 to R183). -/
def Group.releasedFor (g : Group) (scope : Option Nat) : Group :=
  match scope with
  | some _ => { g.voidFlash with relDue := true }
  | none => g

/-- A lane store (R186, R190, R191): the release's write-back once, before the first thread's store. -/
def laneStore (i : Instr) (f : StoreForm) (rel : Option Nat) (e : Bool) (s : State) : Res :=
  issuePlain i s fun g =>
    let s := (releaseFor s g.core rel).modGrp fun g => g.releasedFor rel
    let r := storeThreads f g.active.length ⟨s, []⟩ g.active
    finishVisit (r.1.s, r.2) g.active fun s =>
      match s.grp with
      | none => s
      | some g => s.retire g 4 (issueCycles g) e

/-! ## The meanings -/

/-- An unsigned offset from a source code (R188). -/
def srcOffset (a : BitVec 6) (g : Group) (t : Nat) : Int := (g.src a t).toNat

/-- R59: an immediate offset, scaled by the access size. -/
def immOffset (i : BitVec 10) (z : BitVec 3) (_ : Group) (_ : Nat) : Int := i.toInt * sizeBytes z

/-- The scope of an ordered access. -/
def orderScope (o : Bool) (s : BitVec 3) : Option Nat := if o then some s.toNat else none

/-- R188, R189: ld. -/
def execLd (f : LaneMem) (s : State) : Res :=
  laneLoad (.ld f) f.w (srcOffset f.a) f.z f.d .near (orderScope f.o f.s) f.e s

/-- R188, R190: st. -/
def execSt (f : LaneMem) (s : State) : Res :=
  laneStore (.st f) ⟨f.w.toNat, srcOffset f.a, f.z, f.d, .near⟩ (orderScope f.o f.s) f.e s

/-- R188: ldi. -/
def execLdi (f : LaneMemImm) (s : State) : Res :=
  laneLoad (.ldi f) f.w (immOffset f.i f.z) f.z f.d .near none f.e s

/-- R188: sti. -/
def execSti (f : LaneMemImm) (s : State) : Res :=
  laneStore (.sti f) ⟨f.w.toNat, immOffset f.i f.z, f.z, f.d, .near⟩ none f.e s

/-- R159: the bytes of a replica a `.rep` load is served from, when there is one and it serves (log entry 15). -/
def replicaBytes (s : State) (g : Group) (p : Place) (n : Nat) : Option (List Byte) :=
  match s.replicas.find? fun r => r.die == dieOf g.core && r.asid == g.asid && r.line == p.pa / 256 with
  | some r => if Config.replicaServes s.free then some ((r.bytes.drop (p.pa % 256)).take n) else none
  | none => none

/-- R159, R324: the slice nearest a core's quad among those of a partition's colours. The spec says which slices a partition has and
not where they lie: the model takes slice 4q to be nearest the q-th quad of a die, and a slice the nearer the closer its number
(log entry 15). -/
def nearSlice (s : State) (core part : Nat) : Nat :=
  let q := 4 * (quadOf core % 16)
  let all := setBits (s.part part).colour
  let far (c : Nat) : Nat := max c q - min c q
  (bestBy (fun a b => decide (far a < far b)) (if all.isEmpty then List.range 64 else all)).getD q

/-- R159: the line is copied into the die's L2 as a replica of the requesting grid, when it is homed elsewhere and its slice has
room (log entry 91). -/
def makeReplica (s : State) (g : Group) (p : Place) : State :=
  if isHost p.pa || homeDie p.pa == dieOf g.core || s.lost (p.pa / 256 * 256) 256 || (s.replicas.any fun r =>
      r.die == dieOf g.core && r.asid == g.asid && r.line == p.pa / 256) ||
      s.sliceShort (dieOf g.core) (nearSlice s g.core p.page.part) 4 then s
  else
    let bs := s.homeBytesAt p.page.own (p.pa / 256 * 256) 256
    { s with replicas := ⟨dieOf g.core, g.asid, g.grid, p.pa / 256, bs, p.page.own, nearSlice s g.core p.page.part⟩ :: s.replicas }

/-- R159, R192: one thread's `lda.rep` load. -/
def repThread (w : Nat) (off : Group → Nat → Int) (z : BitVec 3) (d : BitVec 6) (s : State) (t : Nat) :
    Except Trap State :=
  match s.grp with
  | none => .ok s
  | some g =>
    let n := sizeBytes z
    let o := off g t
    let va := (g.win w).va o
    match groupAccess s g w o n true false with
    | .error tr => .error tr
    | .ok (p, s) =>
      if p.grain && p.host then .error (plainTrap codePERM va)
      else if p.grain && decide (n < 4) then .error (plainTrap codeFORMAT va)
      else
        match if p.grain then none else replicaBytes s g p n with
        | some bs => .ok ({ s with free := s.free + 1 }.modGrp fun g => g.writeWords t d.toNat (extendLoad z bs))
        | none =>
          match loadPlace (if p.grain then s else makeReplica s g p) g.core (if (g.win w).pin then .past else .far) p n va with
          | .error tr => .error tr
          | .ok (bs, s) => .ok (s.modGrp fun g => g.writeWords t d.toNat (extendLoad z bs))

/-- R188, R192, R159: lda. -/
def execLda (f : LdaF) (s : State) : Res :=
  if f.r then
    issuePlain (.lda f) s fun g =>
      finishVisit (visit (repThread f.w.toNat (srcOffset f.a) f.z f.d) s g.active) g.active fun s =>
        match s.grp with
        | none => s
        | some g => s.retire (g.awaitLoads f.d.toNat (max (sizeBytes f.z / 4) 1)) 4 (issueCycles g) f.e
  else laneLoad (.lda f) f.w (srcOffset f.a) f.z f.d .far none f.e s

/-- R188, R192: sta. -/
def execSta (f : StaF) (s : State) : Res :=
  laneStore (.sta f) ⟨f.w.toNat, srcOffset f.a, f.z, f.d, .far⟩ none f.e s

/-! ## Bench -/

/-- R144: the checks of a bench access of `n` bytes at an offset. -/
def benchCheck (s : State) (g : Group) (off n : Nat) : Option Trap :=
  let size := match s.block? g.block with
    | some b => b.benchSize
    | none => 0
  if size < off + n then some (plainTrap codePERM off)
  else if off % n != 0 then some (plainTrap codeALIGN off)
  else none

/-- R195: one thread's bench load. -/
def benchLoadThread (f : BenchF) (s : State) (t : Nat) : Except Trap State :=
  match s.grp with
  | none => .ok s
  | some g =>
    let off := (g.src f.a t).toNat
    let n := sizeBytes f.z
    match benchCheck s g off n with
    | some tr => .error tr
    | none =>
      .ok (s.modGrp fun g => g.writeWords t f.d.toNat (extendLoad f.z ((benchOf s g.block g.core).bytes off n)))

/-- R195: bld. -/
def execBld (f : BenchF) (s : State) : Res :=
  issuePlain (.bld f) s fun g =>
    finishVisit (visit (benchLoadThread f) s g.active) g.active fun s =>
      match s.grp with
      | none => s
      | some g => s.retire (g.awaitLoads f.d.toNat (max (sizeBytes f.z / 4) 1)) 4 (issueCycles g) f.e

/-- R195: the active threads' bench stores, with R167 for a location stored to twice. -/
def benchStoreThreads (f : BenchF) : StoreRun → List Nat → StoreRun × Option (Nat × Trap)
  | a, [] => (a, none)
  | a, t :: ts =>
    match a.s.grp with
    | none => (a, none)
    | some g =>
      let off := (g.src f.a t).toNat
      match benchCheck a.s g off (sizeBytes f.z) with
      | some tr => (a, some (t, tr))
      | none =>
        let bs := storeBytes g f.z f.d t
        benchStoreThreads f ((List.range ((bs.length + 7) / 8)).foldl (fun a i =>
          let u := (bs.drop (8 * i)).take 8
          storeUnit a (.bench g.block g.core (off + 8 * i)) u.length fun s =>
            benchWrite s g.block g.core (off + 8 * i) u) a) ts

/-- R195: bst. -/
def execBst (f : BenchF) (s : State) : Res :=
  issuePlain (.bst f) s fun g =>
    let r := benchStoreThreads f ⟨s, []⟩ g.active
    finishVisit (r.1.s, r.2) g.active fun s =>
      match s.grp with
      | none => s
      | some g => s.retire g 4 (issueCycles g) f.e

/-! ## Atomics -/

/-- An atomic's form: where a thread's location is and its address, its op, its register or source code and whether it returns. -/
structure AtomicForm where
  place : State → Group → Nat → Except Trap (Loc × Owner × State)
  va    : Group → Nat → Nat
  op    : Nat
  scope : Nat
  d     : BitVec 6
  back  : Bool

/-- The data of a thread's atomic: register d + i, or a source code for a 32-bit `red`. -/
def atomicReg (g : Group) (d : BitVec 6) (t i : Nat) : Word :=
  if d.toNat < 48 then (g.thread t).reg (d.toNat + i) else g.src d t

/-- R196, R197: one thread's atomic: held back under deterministic mode for ops 11 to 14, else performed. -/
def atomicThread (f : AtomicForm) (s : State) (t : Nat) : Except Trap State :=
  match s.grp with
  | none => .ok s
  | some g =>
    match f.place s g t with
    | .error tr => .error tr
    | .ok (loc, own, s) =>
      let reg := atomicReg g f.d t
      if g.det.en && isFloatOp f.op then
        let (s, k) := contribute s s.cur t f.op f.scope loc (f.va g t) own (reg 0) (g.laneRnd t 0)
        .ok (if f.back then s.modGrp fun g => { g with det := { g.det with atom := g.det.atom ++ [(t, k, loc)] } } else s)
      else
        let n := atomicSize f.op
        let old := readLoc s own loc n
        let s := writeLoc s g.core own loc n (atomicNew f.op (g.laneRnd t 0) old reg)
        .ok (if f.back then
          s.modGrp fun g => g.writeWords t f.d.toNat ((List.range (n / 4)).map fun i => BitVec.ofNat 32 (old / 2 ^ (32 * i)))
          else s)

/-- R197: under deterministic mode an `atom` waits for its folds with its stint ended; a fault that stopped it is
delivered once they are written. -/
def awaitFold (s : State) (d : Nat) (pending : Option Event) : State :=
  let s := endQuantum s s.cur false
  s.modGrp fun g => { g.block_ .detAtom s.now with det := { g.det with dest := d }, pending := pending }

/-- The end of an atomic: completion, the wait of R197, or the fault at thread k. -/
def finishAtomic (f : AtomicForm) (e : Bool) (r : State × Option (Nat × Trap)) (ts : List Nat) : State :=
  match r.1.grp with
  | none => r.1
  | some g =>
    match r.2 with
    | some (k, tr) =>
      if g.det.atom.isEmpty then raise r.1 tr (fromThread k ts)
      else awaitFold r.1 f.d.toNat (some (faultEvent r.1 g tr (fromThread k ts)))
    | none =>
      if g.det.atom.isEmpty then r.1.retire (if f.back then g.awaitLoads f.d.toNat (atomicSize f.op / 4) else g) 4
        (issueCycles g) e
      else awaitFold r.1 f.d.toNat none

/-- A lane atomic (R186, R196, R355). -/
def laneAtomic (i : Instr) (f : AtomicForm) (e : Bool) (s : State) : Res :=
  issuePlain i s fun g =>
    finishAtomic f e (visit (atomicThread f) (s.modGrp Group.voidFlash) g.active) g.active

/-- R196: the location of a thread's atomic through a window; the sector's dirty bytes leave the issuing core's L1
first (R145). -/
def windowLoc (w a : Nat) (op : Nat) (s : State) (g : Group) (t : Nat) : Except Trap (Loc × Owner × State) :=
  let o := srcOffset (BitVec.ofNat 6 a) g t
  let va := (g.win w).va o
  match groupAccess s g w o (atomicSize op) true true with
  | .error tr => .error tr
  | .ok (p, s) =>
    if p.host then .error (plainTrap codePERM va)
    else if p.grain then .error (plainTrap codeFORMAT va)
    else
      let s := s.dropSector g.core (p.pa / 64)
      if s.lost p.pa (atomicSize op) then .error (plainTrap codeDATAERR va) else .ok (.home p.pa, p.page.own, s)

/-- The virtual address of a thread's atomic through a window. -/
def windowVa (w a : Nat) (g : Group) (t : Nat) : Nat := (g.win w).va (srcOffset (BitVec.ofNat 6 a) g t)

/-- R195: the location of a thread's bench atomic. -/
def benchLoc (a : BitVec 6) (op : Nat) (s : State) (g : Group) (t : Nat) : Except Trap (Loc × Owner × State) :=
  let off := (g.src a t).toNat
  match benchCheck s g off (atomicSize op) with
  | some tr => .error tr
  | none => .ok (.bench g.block g.core off, hostOwner, s)

/-- R196: atom. -/
def execAtom (f : AtomF) (s : State) : Res :=
  laneAtomic (.atom f) ⟨windowLoc f.w.toNat f.a.toNat f.o.toNat, windowVa f.w.toNat f.a.toNat, f.o.toNat, f.s.toNat, f.d, true⟩ f.e s

/-- R196: red. -/
def execRed (f : AtomF) (s : State) : Res :=
  laneAtomic (.red f) ⟨windowLoc f.w.toNat f.a.toNat f.o.toNat, windowVa f.w.toNat f.a.toNat, f.o.toNat, f.s.toNat, f.d, false⟩ f.e s

/-- R195: batom. -/
def execBatom (f : BatomF) (s : State) : Res :=
  laneAtomic (.batom f) ⟨benchLoc f.a f.o.toNat, fun g t => (g.src f.a t).toNat, f.o.toNat, 1, f.d, true⟩ f.e s

end Sys2Proof.Machine
end

