-- ==== Sys2Proof/Machine/Digest.lean ====
section
/-!
DEFINITION. The digest of R330, R331 and R379: SHA-384. The spec names the function and leaves its text to the standard; the model takes
FIPS 180-4 (PRESUMED, log entry 14). Words are numbers below 2 ^ 64, bytes stand most significant first.
-/

namespace Sys2Proof.Machine.Digest

/-! ## Words -/

/-- The sum of words, modulo 2 ^ 64. -/
def sum (ws : List Nat) : Nat := ws.foldl (· + ·) 0 % 2 ^ 64

/-- A word turned right. -/
def turn (x n : Nat) : Nat := x / 2 ^ n + x % 2 ^ n * 2 ^ (64 - n)

/-- The complement of a word. -/
def flip (x : Nat) : Nat := 2 ^ 64 - 1 - x

/-- The two functions of the schedule. -/
def small0 (x : Nat) : Nat := turn x 1 ^^^ turn x 8 ^^^ x / 2 ^ 7
def small1 (x : Nat) : Nat := turn x 19 ^^^ turn x 61 ^^^ x / 2 ^ 6

/-- The two functions of the rounds. -/
def large0 (x : Nat) : Nat := turn x 28 ^^^ turn x 34 ^^^ turn x 39
def large1 (x : Nat) : Nat := turn x 14 ^^^ turn x 18 ^^^ turn x 41

/-- Each bit of `y` or `z`, as the bit of `x` chooses. -/
def choose (x y z : Nat) : Nat := x &&& y ^^^ flip x &&& z

/-- The bit that most of three have. -/
def most (x y z : Nat) : Nat := x &&& y ^^^ x &&& z ^^^ y &&& z

/-! ## The constants -/

/-- The first words of the fractional parts of the cube roots of the first eighty primes, twenty by twenty. -/
def roots0 : List Nat :=
  [0x428A2F98D728AE22, 0x7137449123EF65CD, 0xB5C0FBCFEC4D3B2F, 0xE9B5DBA58189DBBC,
   0x3956C25BF348B538, 0x59F111F1B605D019, 0x923F82A4AF194F9B, 0xAB1C5ED5DA6D8118,
   0xD807AA98A3030242, 0x12835B0145706FBE, 0x243185BE4EE4B28C, 0x550C7DC3D5FFB4E2,
   0x72BE5D74F27B896F, 0x80DEB1FE3B1696B1, 0x9BDC06A725C71235, 0xC19BF174CF692694,
   0xE49B69C19EF14AD2, 0xEFBE4786384F25E3, 0x0FC19DC68B8CD5B5, 0x240CA1CC77AC9C65]

def roots1 : List Nat :=
  [0x2DE92C6F592B0275, 0x4A7484AA6EA6E483, 0x5CB0A9DCBD41FBD4, 0x76F988DA831153B5,
   0x983E5152EE66DFAB, 0xA831C66D2DB43210, 0xB00327C898FB213F, 0xBF597FC7BEEF0EE4,
   0xC6E00BF33DA88FC2, 0xD5A79147930AA725, 0x06CA6351E003826F, 0x142929670A0E6E70,
   0x27B70A8546D22FFC, 0x2E1B21385C26C926, 0x4D2C6DFC5AC42AED, 0x53380D139D95B3DF,
   0x650A73548BAF63DE, 0x766A0ABB3C77B2A8, 0x81C2C92E47EDAEE6, 0x92722C851482353B]

def roots2 : List Nat :=
  [0xA2BFE8A14CF10364, 0xA81A664BBC423001, 0xC24B8B70D0F89791, 0xC76C51A30654BE30,
   0xD192E819D6EF5218, 0xD69906245565A910, 0xF40E35855771202A, 0x106AA07032BBD1B8,
   0x19A4C116B8D2D0C8, 0x1E376C085141AB53, 0x2748774CDF8EEB99, 0x34B0BCB5E19B48A8,
   0x391C0CB3C5C95A63, 0x4ED8AA4AE3418ACB, 0x5B9CCA4F7763E373, 0x682E6FF3D6B2B8A3,
   0x748F82EE5DEFB2FC, 0x78A5636F43172F60, 0x84C87814A1F0AB72, 0x8CC702081A6439EC]

def roots3 : List Nat :=
  [0x90BEFFFA23631E28, 0xA4506CEBDE82BDE9, 0xBEF9A3F7B2C67915, 0xC67178F2E372532B,
   0xCA273ECEEA26619C, 0xD186B8C721C0C207, 0xEADA7DD6CDE0EB1E, 0xF57D4F7FEE6ED178,
   0x06F067AA72176FBA, 0x0A637DC5A2C898A6, 0x113F9804BEF90DAE, 0x1B710B35131C471B,
   0x28DB77F523047D84, 0x32CAAB7B40C72493, 0x3C9EBE0A15C9BEBC, 0x431D67C49C100D4C,
   0x4CC5D4BECB3E42B6, 0x597F299CFC657E2A, 0x5FCB6FAB3AD6FAEC, 0x6C44198C4A475817]

/-- The constants of the eighty rounds. -/
def constants : List Nat := roots0 ++ roots1 ++ roots2 ++ roots3

/-- The digest's initial value: the same of the square roots of the ninth to the sixteenth prime. -/
def initial : List Nat :=
  [0xCBBB9D5DC1059ED8, 0x629A292A367CD507, 0x9159015A3070DD17, 0x152FECD8F70E5939,
   0x67332667FFC00B31, 0x8EB44A8768581511, 0xDB0C2E0D64F98FA7, 0x47B5481DBEFA4FA4]

/-! ## The digest -/

/-- One round on the eight working words, with its constant and its word of the schedule. -/
def round (v : List Nat) (k w : Nat) : List Nat :=
  match v with
  | [a, b, c, d, e, f, g, h] =>
    let t := sum [h, large1 e, choose e f g, k, w]
    [sum [t, large0 a, most a b c], a, b, c, sum [d, t], e, f, g]
  | _ => v

/-- The sixteen words of the schedule that the next round starts with. -/
def nextWords (ws : List Nat) : List Nat :=
  ws.drop 1 ++ [sum [small1 (ws.getD 14 0), ws.getD 9 0, small0 (ws.getD 1 0), ws.getD 0 0]]

/-- The rounds, one for each constant. -/
def rounds (v ws : List Nat) : List Nat → List Nat
  | [] => v
  | k :: ks => rounds (round v k (ws.getD 0 0)) (nextWords ws) ks

/-- A number from its bytes. -/
def number (bs : List Byte) : Nat := bs.foldl (fun n b => 256 * n + b.toNat) 0

/-- The `n` bytes of a number. -/
def bytesOf (x n : Nat) : List Byte := (List.range n).map fun i => BitVec.ofNat 8 (x / 256 ^ (n - 1 - i))

/-- A message filled up to whole blocks of 128 bytes, with its length in bits at the end. -/
def padded (bs : List Byte) : List Byte :=
  bs ++ 0x80#8 :: List.replicate ((239 - bs.length % 128) % 128) 0#8 ++ bytesOf (8 * bs.length) 16

/-- The value that a block of 128 bytes leaves. -/
def block (v : List Nat) (bs : List Byte) : List Nat :=
  let ws := (List.range 16).map fun i => number ((bs.drop (8 * i)).take 8)
  List.zipWith (fun x y => sum [x, y]) v (rounds v ws constants)

/-- The value that the first `n` blocks of a padded message leave. -/
def blocks (v : List Nat) (bs : List Byte) : Nat → List Nat
  | 0 => v
  | n + 1 => blocks (block v (bs.take 128)) (bs.drop 128) n

/-- The 48 bytes of a message's SHA-384 digest. -/
def sha384 (bs : List Byte) : List Byte :=
  let p := padded bs
  ((blocks initial p (p.length / 128)).take 6).flatMap fun w => bytesOf w 8

end Sys2Proof.Machine.Digest
end

