-- ==== Sys2Proof/Machine/UniMem.lean ====
section
/-!
DEFINITION. The uniform memory instructions: gld, gst, wopen, fence and cache (R193, R194, R198, R199).
-/

namespace Sys2Proof.Machine

/-- R193: the checks of a uniform access of `n` bytes at an offset, and its place. -/
def uniAccess (s : State) (g : Group) (w : Nat) (o n : Nat) (rd wr : Bool) : Except Trap (Place × State) :=
  match groupAccess s g w o n rd wr with
  | .error t => .error t
  | .ok (p, s) => if p.grain && p.host then .error (plainTrap codePERM ((g.win w).va o)) else .ok (p, s)

/-- R193: gld. -/
def execGld (f : UniMem) (s : State) : Res :=
  issuePlain (.gld f) s fun g =>
    let n := if f.z = 4#3 then 4 else 8
    match uniAccess s g f.w.toNat (g.sreg f.a.toNat).toNat n true false with
    | .error t => raiseAll s t
    | .ok (p, s) =>
      let acq := orderScope f.o f.s
      match loadPlace (orderRelease s g acq) g.core (if (g.win f.w.toNat).pin then .past else .near) p n
          ((g.win f.w.toNat).va (g.sreg f.a.toNat).toNat) with
      | .error t => raiseAll s t
      | .ok (bs, s) =>
      match s.grp with
      | none => s
      | some g =>
        (acquireFor s g.core acq).retire
          (((g.acquiredFor acq).writeS f.d.toNat (BitVec.ofNat 64 (ofBytes bs))).awaitLoads (64 + f.d.toNat) 1) 4 1 f.e

/-- R193: gst. -/
def execGst (f : UniMem) (s : State) : Res :=
  issuePlain (.gst f) s fun g =>
    let n := if f.z = 4#3 then 4 else 8
    let o := (g.sreg f.a.toNat).toNat
    match uniAccess s g f.w.toNat o n false true with
    | .error t => raiseAll s t
    | .ok (p, s) =>
      if p.grain then raiseAll s (plainTrap codeFORMAT ((g.win f.w.toNat).va o))
      else
        let rel := orderScope f.o f.s
        let s := releaseFor s g.core rel
        let s := storeRaw s g.core (if (g.win f.w.toNat).pin then .far else .near) p.page.own p.pa
          (toBytes n (g.sreg f.d.toNat).toNat)
        match s.grp with
        | none => s
        | some g => s.retire (g.releasedFor rel).voidFlash 4 1 f.e

/-- R194: the checks of wopen, and the page of the base. -/
def wopenPage (s : State) (g : Group) (f : WopenF) : Except Trap (Page × State) :=
  let sa := (g.sreg f.a.toNat).toNat
  let va := sa % 2 ^ 57
  let top := field sa 63 56
  if top != 0 && top != 255 then .error (plainTrap codeXLATE sa)
  else
    match translate s g.core g.asid g.mode (accessOf f.r f.x) va with
    | .error t => .error t
    | .ok (p, s) =>
      if f.n && isHost p.frame then .error (plainTrap codePERM va)
      else if p.fmt != .raw && va % 64 != 0 then .error (plainTrap codeALIGN va)
      else .ok (p, s)

/-- R194: wopen. The flags r, x and n of the word name rd, wr and pin. -/
def execWopen (f : WopenF) (s : State) : Res :=
  issuePlain (.wopen f) s fun g =>
    match wopenPage s g f with
    | .error t => raiseAll s t
    | .ok (p, s) =>
      s.retire (g.setWin f.w.toNat
        { set := true, base := BitVec.ofNat 57 (g.sreg f.a.toNat).toNat,
          limit := BitVec.ofNat 33 (min (g.sreg f.b.toNat).toNat (2 ^ 32)), rd := f.r, wr := f.x, pin := f.n,
          stale := false, page := p }) 4 1 f.e

/-- R172, R198: fence: kind 0 acquires, 1 releases, 2 does both. -/
def execFence (f : FenceF) (s : State) : Res :=
  issuePlain (.fence f) s fun g =>
    let s := if f.k = 0#2 then s else s.release g.core f.s.toNat
    let s := if f.k = 1#2 then s else s.acquire g.core f.s.toNat
    s.retire (if f.k = 1#2 then g else g.acquired f.s.toNat) 4 1 f.e

/-! ## Cache control -/

/-- R151: the alias address of a direct one. -/
def aliasOf (pa : Nat) : Nat := 0x20000000000 + (pa % 0x8000000000 / 4096 * 4 + homeDie pa) * 4096 + pa % 4096

/-- The byte offset of a direct address within a page's frame, if it is at or past its start. -/
def Page.frameOffset (p : Page) (pa : Nat) : Option Nat :=
  let a := if 0x20000000000 ≤ p.frame && decide (p.frame < 0x28000000000) then aliasOf pa else pa
  if p.frame ≤ a then some (a - p.frame) else none

/-- R199: whether a direct address lies in the physical bytes of logical offsets `lo` to `hi − 1` of a page. -/
def Page.covers (p : Page) (lo hi pa : Nat) : Bool :=
  match p.frameOffset pa with
  | none => false
  | some o =>
    match p.fmt with
    | .raw => decide (lo ≤ o) && decide (o < hi)
    | f =>
      let packed := p.span / 64 * f.blockBytes
      let block := if o < packed then o / f.blockBytes else (o - packed) / 2
      decide (o < f.extent p.span) && decide (lo / 64 ≤ block) && decide (block ≤ (hi - 1) / 64)

/-- Whether any byte of a run of `n` bytes is covered. -/
def Page.coversAny (p : Page) (lo hi start n : Nat) : Bool := (List.range n).any fun i => p.covers lo hi (start + i)

/-- R199: wb on a page's part. -/
def cacheWb (s : State) (core : Nat) (p : Page) (lo hi : Nat) : State :=
  let mine := ((s.core core).l1.map (·.1)).filter fun k => p.coversAny lo hi (k * 64) 64
  let s := mine.foldl (fun s k => s.cleanSector core k) s
  let dirty := (s.l2.map (·.1)).filter fun k => p.coversAny lo hi (k * 64) 64 && !s.elsewhere p.own k
  dirty.foldl (fun s k => s.l2Clean k) s

/-- R199: inv on a page's part: every copy of a covered sector that the page's partition has goes, in the L1s, the RDCs and the
replicas, and the home slices serve DRAM's bytes (log entry 22). -/
def cacheInv (s : State) (p : Page) (lo hi : Nat) : State :=
  let s := { s with
    cores := s.cores.map fun (e : Nat × Core) =>
      (e.1, { e.2 with l1 := e.2.l1.filter fun x => !(x.2.own.part == p.part && p.coversAny lo hi (x.1 * 64) 64) })
    dies := s.dies.map fun (e : Nat × Die) =>
      (e.1, { e.2 with rdc := e.2.rdc.filter fun x => !(x.2.slot == s.slotOf p.own (x.1 * 256) && p.coversAny lo hi (x.1 * 256) 256) })
    replicas := s.replicas.filter fun r => !(r.own.part == p.part && p.coversAny lo hi (r.line * 256) 256) }
  let gone := (s.l2.map (·.1)).filter fun k => p.coversAny lo hi (k * 64) 64 && !s.elsewhere p.own k
  gone.foldl (fun s k => s.l2Discard k) s

/-- The lines of 256 bytes that hold a page's part. -/
def pageLines (p : Page) (lo hi : Nat) : List Nat :=
  let span (x y : Nat) : List Nat :=
    (List.range (y / 256 + 1 - x / 256)).map fun i => foldAlias (p.frame + x + 256 * i) / 256
  match p.fmt with
  | .raw => span lo (hi - 1)
  | f =>
    let packed := p.span / 64 * f.blockBytes
    let a := lo / 64 * f.blockBytes
    let b := ((hi - 1) / 64 + 1) * f.blockBytes
    let c := packed + lo / 64 * 2
    let d := packed + ((hi - 1) / 64 + 1) * 2
    (span a (b - 1) ++ span c (d - 1)).eraseDups

/-- R17: a slice of a die that pinned lines have filled past its 3 MiB keeps them: its other dirty sectors are written to DRAM and its
replicas dropped (log entry 91). -/
def relieveSlice (s : State) (die slice : Nat) : State :=
  if s.sliceShort die slice 0 then
    let gone := (s.l2.filter fun e => homeDie (e.1 * 64) == die && e.2.slice == slice && !s.isPinned (e.1 * 64)).map (·.1)
    let s := gone.foldl (fun s k => s.l2Clean k) s
    { s with replicas := s.replicas.filter fun r => !(r.die == die && r.slice == slice) }
  else s

/-- R199: pin on a page's part, whole or not at all, within the quota. -/
def cachePin (s : State) (part : Nat) (p : Page) (lo hi va : Nat) : Except Trap State :=
  let x := s.part part
  let new := (pageLines p lo hi).filter fun l => !x.pins.contains l
  if x.pinq < x.pins.length + new.length then .error (plainTrap codePERM va)
  else
    let held : List (Nat × Nat) := s.cores.flatMap fun (e : Nat × Core) =>
      (e.2.l1.filter fun k => new.contains (k.1 / 4)).map fun k => (e.1, k.1)
    let s := held.foldl (fun s k => s.dropSector k.1 k.2) s
    let s := s.setPart part { x with pins := x.pins ++ new }
    let slices := (new.map fun l => (homeDie (l * 256), colourSlot x.colour l)).eraseDups
    .ok (slices.foldl (fun s k => relieveSlice s k.1 k.2) s)

/-- R199: unpin on a page's part. -/
def cacheUnpin (s : State) (part : Nat) (p : Page) (lo hi : Nat) : State :=
  let gone := pageLines p lo hi
  s.modPart part fun x => { x with pins := x.pins.filter fun l => !gone.contains l }

/-- R364: whether a line of a page's part is homed on a die that is down. -/
def rangeDown (s : State) (p : Page) (lo hi : Nat) : Bool := anyDown s && (pageLines p lo hi).any fun l => isDown s (l * 256)

/-- R199: one page's part of the range. -/
def cachePage (s : State) (g : Group) (part op : Nat) (p : Page) (lo hi va : Nat) : Except Trap State :=
  if op = 2 && p.fmt != .raw then .error (plainTrap codeFORMAT va)
  else if isHost p.frame then
    if op = 3 then .error (plainTrap codePERM va) else .ok s
  else if op != 0 && rangeDown s p lo hi then .error (busyTrap va)
  else
    match op with
    | 0 => .ok s
    | 1 => .ok (cacheWb s g.core p lo hi)
    | 2 => .ok (cacheInv s p lo hi)
    | 3 => cachePin s part p lo hi va
    | _ => .ok (cacheUnpin s part p lo hi)

/-- R199: the pages of the range in ascending address, from `va` to `last`. -/
def cachePages (g : Group) (part op : Nat) (acc : Access) : Nat → State → Nat → Nat → State × Option Trap
  | 0, s, _, _ => (s, none)
  | fuel + 1, s, va, last =>
    if last < va then (s, none)
    else
      match translate s g.core g.asid g.mode acc va with
      | .error t => if op = 0 then cachePages g part op acc fuel s ((va / 65536 + 1) * 65536) last else (s, some t)
      | .ok (p, s) =>
        let hi := min (last + 1) (p.vbase + p.span)
        match cachePage s g part op p (va - p.vbase) (hi - p.vbase) va with
        | .error t => (s, some t)
        | .ok s => cachePages g part op acc fuel s (p.vbase + p.span) last

/-- R199: the checks before any page. -/
def cacheCheck (w : Window) (op a b : Nat) : Option Trap :=
  let va := w.va a
  if w.limit.toNat < a + b then some (plainTrap codePERM va)
  else if (op = 2 && !w.wr) || (op != 2 && !w.rd) then some (plainTrap codePERM va)
  else
    let al := if op = 2 then 64 else if 3 ≤ op then 256 else 1
    if a % al != 0 || b % al != 0 then some (plainTrap codeALIGN va) else none

/-- R199: cache. In U mode `pin` and `unpin` need a window with the pin flag (R64). -/
def execCache (f : CacheF) (s : State) : Res :=
  match s.grp with
  | none => .fault .noIssuingGroup
  | some g =>
    if (f.o = 3#4 || f.o = 4#4) && g.mode = .user && !(g.win f.w.toNat).pin then .next (illop s 5)
    else
      issuePlain (.cache f) s fun g =>
        let w := g.win f.w.toNat
        let a := (g.sreg f.a.toNat).toNat
        let b := (g.sreg f.b.toNat).toNat
        let op := f.o.toNat
        if b = 0 then s.retire g 4 1 f.e
        else
          match cacheCheck w op a b with
          | some t => raiseAll s t
          | none =>
            let part := match s.ctx? g.asid with
              | some c => c.part
              | none => 0
            let r := cachePages g part op (if op = 2 then .write else .read) (b / 65536 + 2) s (w.va a) (w.va a + b - 1)
            match r.2 with
            | some t => raiseAll r.1 t
            | none =>
              match r.1.grp with
              | none => r.1
              | some g => r.1.retire g 4 1 f.e

end Sys2Proof.Machine
end

