-- ==== Sys2Proof/Machine/Work.lean ====
section
/-!
DEFINITION. Work and the places it takes: the entry table (R114), admission (R92, R385), new groups (R68, R115, R116),
barriers (R107 to R109), work queues and the packing unit (R96 to R102), and the retirement of groups, blocks and
grids (R107, R132, R144).
-/

namespace Sys2Proof.Machine

/-! ## Queues' progress -/

/-- R360: progress passes every completed command, in order. -/
def advanceQueue (s : State) (fe q : Nat) : Nat → State
  | 0 => s
  | fuel + 1 =>
    let x := s.queue fe q
    match x.begun with
    | c :: rest =>
      if c.done then advanceQueue (s.setQueue fe q { x with begun := rest, prog := c.number + 1 }) fe q fuel else s
    | [] => s

/-- R371: the function and vector that signal a queue. -/
def queueSignal (fe q : Nat) : Sent := if fe = 64 then .signal 0 0 else .signal (fe + 1) q

/-- R373: a command of a queue has completed; a queue in error completes nothing (R374), and the progress of one that
is switched out stays where it was saved (R359). -/
def commandDone (s : State) (fe q number : Nat) : State :=
  let x := s.queue fe q
  if DWord.f x.ctl 35 32 = 3 then s
  else
    let irq := x.begun.any fun c => c.number == number && c.irq && !c.done
    let s := s.setQueue fe q
      { x with begun := x.begun.map fun c => if c.number = number then { c with done := true } else c }
    let s := if irq then s.send (queueSignal fe q) else s
    if DWord.f x.ctl 35 32 = 2 then s else advanceQueue s fe q (x.begun.length + 1)

/-- R371, R375: a command of the administration queue has completed. -/
def adminDone (s : State) (number : Nat) : State := commandDone s 64 0 number

/-! ## The entry table -/

/-- R114: an entry of a context's table; `bench` in bytes. -/
structure EntryRow where
  nregs : Nat
  bench : Nat
  cbar  : Nat
  qbar  : Nat
  line  : Nat
  deriving DecidableEq, Repr

/-- R114: an entry's 128 bits, or none when a rule is broken. -/
def decodeEntry (x : Nat) : Option EntryRow :=
  let regs := field x 66 64
  let bench := field x 83 72
  let cbar := field x 89 84
  let qbar := field x 94 90
  let line := field x 56 0
  if field x 127 95 != 0 || field x 71 67 != 0 || field x 63 57 != 0 || regs == 0 || regs == 7 ||
      decide (3584 < bench) || decide (32 < cbar) || decide (16 < qbar) || line % 128 != 0 then none
  else some ⟨8 * regs, 256 * bench, cbar, qbar, line⟩

/-- R114: entry `n` of a context, read from memory; an entry that cannot be read counts as a malformed one, uncorrectable
bytes among them (R334, log entry 100). -/
def readEntry (s : State) (asid : Nat) (c : Context) (n : Nat) : Option EntryRow :=
  let va := c.etbase + 16 * n
  match walk s asid va with
  | .error _ => none
  | .ok p =>
    match p.rawPlace s asid .read va with
    | .error _ => none
    | .ok pa => if s.lost pa 16 then none else decodeEntry (ofBytes (s.homeBytesAt p.own pa 16))

/-- R364: whether an entry of a context's table is homed on a die that is down: it is read once the die is ready. -/
def entryDown (s : State) (asid : Nat) (c : Context) (n : Nat) : Bool :=
  let busy (t : Trap) : Bool := t.code == codeBusy
  let va := c.etbase + 16 * n
  match walk s asid va with
  | .error t => busy t
  | .ok p =>
    match p.rawPlace s asid .read va with
    | .error t => busy t
    | .ok _ => false

/-! ## Places (R92, R100, R385) -/

def launchedOn (s : State) (core : Nat) : Nat := (s.groups.filter fun e => e.2.core == core && !e.2.packed).length
def packedOn (s : State) (core : Nat) : Nat := (s.groups.filter fun e => e.2.core == core && e.2.packed).length

/-- R92, R100: the ordinary places free on a core; packed groups beyond 256 hold ordinary ones. -/
def freePlaces (s : State) (core : Nat) : Nat := 3840 - launchedOn s core - (packedOn s core - 256)

/-- R144: bench bytes allocated on a core. -/
def benchUsed (s : State) (core : Nat) : Nat :=
  s.blocks.foldl (fun n e => n + if (look core e.2.bench).isSome then e.2.benchSize else 0) 0

/-- R144, R161: the units of 256 bytes that benches take on a core, as bits. -/
def benchMask (s : State) (core : Nat) : Nat := s.blocks.foldl (fun m e => m ||| (look core e.2.benchAt).getD 0) 0

/-- The lowest `n` units from unit `i` on that a mask leaves free, as bits (log entry 99). -/
def freeUnits (mask : Nat) : Nat → Nat → Nat → Nat
  | 0, _, _ => 0
  | _ + 1, 0, _ => 0
  | fuel + 1, n + 1, i =>
    if mask.testBit i then freeUnits mask fuel (n + 1) (i + 1) else 2 ^ i + freeUnits mask fuel n (i + 1)

/-- R144: the units a new allocation of some bytes takes on a core. -/
def takeUnits (s : State) (core bytes : Nat) : Nat := freeUnits (benchMask s core) 3584 (bytes / 256) 0

/-- R160: the bench bytes of a core. -/
def benchCap (s : State) (core : Nat) : Nat := (s.core core).bench * 131072

/-- R107: core barriers of a core, and quad barriers of a quad, that live blocks hold. -/
def coreBarsHeld (s : State) (core : Nat) : Nat :=
  s.blocks.foldl (fun n e => n + if e.2.cores.contains core && !e.2.packed then e.2.cbar else 0) 0
def quadBarsHeld (s : State) (quad : Nat) : Nat :=
  s.blocks.foldl (fun n e => n + if (e.2.cores.any fun c => quadOf c == quad) && !e.2.packed then e.2.qbar else 0) 0

/-- R385: the park bytes of a group's record. -/
def recordSize (nregs : Nat) : Nat := nregs * 128 + 8192

/-- R385: park bytes a context has taken. -/
def parkUsed (s : State) (asid : Nat) (c : Context) : Nat :=
  c.parkCores.length * 2 ^ 21 +
    s.groups.foldl (fun n e => n + if e.2.asid == asid then recordSize e.2.nregs else 0) 0

/-- R92, R385: the park area has room for so many groups more, on these cores. -/
def parkFits (s : State) (asid : Nat) (c : Context) (groups nregs : Nat) (cores : List Nat) : Bool :=
  let new := cores.filter fun k => !c.parkCores.contains k
  decide (parkUsed s asid c + groups * recordSize nregs + new.length * 2 ^ 21 ≤ c.parkn * 65536)

/-- R161, R365, R378: whether a core takes new groups at all: no bench change in progress, not fenced or absent, its die
up. -/
def coreServes (s : State) (core : Nat) : Bool :=
  (s.core core).pend.isNone && !(s.core core).fenced && !(s.core core).absent && (s.die (dieOf core)).boot == Boot.ready

/-- R322: the cores a partition holds; one that was never configured holds none (log entry 31). -/
def partCores (p : Partition) : List Nat :=
  if !p.made then [] else (List.range (p.climit + 1)).filter fun k => decide (p.cbase ≤ k)

/-- R92, R161, R365: whether a core can admit `n` groups of a block of an entry. -/
def coreAdmits (s : State) (core n : Nat) (row : EntryRow) : Bool :=
  coreServes s core && decide (n ≤ freePlaces s core) &&
  decide (benchUsed s core + row.bench ≤ benchCap s core) &&
  decide (coreBarsHeld s core + row.cbar ≤ 32) && decide (quadBarsHeld s (quadOf core) + row.qbar ≤ 16)

/-! ## New groups -/

/-- The lowest trap-frame number of a context that no group owns (R344). -/
def Context.freeFrame (c : Context) : Nat :=
  ((List.range (c.frames.length + 1)).find? fun n => (look n c.frames).isNone).getD c.frames.length

/-- R68, R115, R116, R208, R220: a new group of an entry, at slot 0 of its line, before what a launch or a packing
gives it. -/
def newGroup (c : Context) (asid core block grid entry : Nat) (row : EntryRow) (threads : Nat) (args : Vector DWord 4)
    (now : Nat) : Group :=
  let mask := maskOf (List.range threads)
  { Group.init with
    asid := asid
    core := core
    block := block
    grid := grid
    entry := entry
    nregs := row.nregs
    pc := BitVec.ofNat 57 (row.line + 16)
    lmask := mask
    amask := mask
    s := Vector.ofFn fun i : Fin 32 => args[i.val]?.getD 0#64
    args := args
    fpseed := c.seed
    det := { en := c.detEn, qlog := c.detQlog }
    sched := { readySince := now, lastEnd := now, idleSince := now } }

/-- R344, R385: a group is admitted: it takes a name, a trap frame and its record's room. -/
def admitGroup (s : State) (g : Group) : State × Nat :=
  let (gid, s) := s.takeName
  match s.ctx? g.asid with
  | none => (s, gid)
  | some c =>
    let n := c.freeFrame
    let s := s.setCtx g.asid { c with
      frames := put n gid c.frames
      parkCores := if c.parkCores.contains g.core then c.parkCores else c.parkCores ++ [g.core] }
    (s.setGroup gid { g with frame := n }, gid)

/-- R93: the core of a rank in a block placed on some cores. -/
def coreOfRank (cores : List Nat) (r : Nat) : Nat :=
  if cores.length = 4 then cores.getD (r / 4 % 4) 0 else cores.headD 0

/-- R92, R93, R107, R144: a block of a grid admitted on cores, whole, with its bench at zero. -/
def admitBlock (s : State) (name : Nat) (x : Grid) (c : Context) (row : EntryRow) (cores : List Nat) : State :=
  let (b, s) := s.takeName
  let opening := match x.source with
    | .queue .. => 6
    | .device .. => 4
  let (s, gids) := (List.range x.gpb).foldl (fun (a : State × List Nat) r =>
    let core := coreOfRank cores r
    let g := newGroup c x.asid core b name x.entry row x.tpg x.args s.now
    let g := { g with
      cls := x.cls
      lidx := (x.nextBlock * x.gpb + r) % 2 ^ 32
      gcnt := x.gpb - 1
      rank := r
      bcnt := x.blocks - 1
      bidx := x.nextBlock
      opening := opening }
    let (s, gid) := admitGroup a.1 g
    (s, a.2 ++ [gid])) (s, [])
  let blk : Block :=
    { asid := x.asid, grid := name, index := x.nextBlock, gpb := x.gpb, cores := cores, live := gids,
      benchSize := row.bench, bench := cores.foldl (fun m k => put k [] m) [],
      benchAt := cores.foldl (fun m k => put k (takeUnits s k row.bench) m) [], cbar := row.cbar, qbar := row.qbar,
      coreBars := [], quadBars := [], packed := false }
  { s with blocks := put b blk s.blocks }.modGrid name fun y =>
    { y with nextBlock := y.nextBlock + 1, live := y.live + x.gpb, core := some (y.core.getD (cores.headD 0)) }

/-! ## Barriers -/

/-- R22: the scope of a barrier. -/
def BarRef.scope : BarRef → Nat
  | .core .. => 1
  | .quad .. => 2
  | .die .. => 3
  | .pkg .. => 4
  | .pod .. => 5

/-- Whether a wide instance is the one a reference names (R108). -/
def WideBarrier.is (w : WideBarrier) (r : BarRef) : Bool :=
  match r with
  | .die d n => w.scope == 3 && w.place == d && w.number == n
  | .pkg n => w.scope == 4 && w.number == n
  | .pod j n => w.scope == 5 && w.place == j && w.number == n
  | _ => false

/-- The key of a core barrier in its block. -/
def coreBarKey (core n : Nat) : Nat := core * 32 + n

/-- The open generation of a barrier. -/
def barOf (s : State) (r : BarRef) : Barrier :=
  match r with
  | .core b c n => ((s.block? b).bind fun x => look (coreBarKey c n) x.coreBars).getD {}
  | .quad b n => ((s.block? b).bind fun x => look n x.quadBars).getD {}
  | _ => ((s.wide.find? fun w => w.is r).map (·.bar)).getD {}

/-- The arrivals of other modules at a barrier's open generation (R108), each with the E of its group (R210). -/
def remoteArrivals (s : State) (r : BarRef) : List Nat := ((s.wide.find? fun w => w.is r).map (·.remote)).getD []

/-- Set a barrier's generation; `remote` is what other modules have added to it. -/
def setBar (s : State) (r : BarRef) (x : Barrier) (remote : List Nat) : State :=
  match r with
  | .core b c n => s.modBlock b fun y => { y with coreBars := put (coreBarKey c n) x y.coreBars }
  | .quad b n => s.modBlock b fun y => { y with quadBars := put n x y.quadBars }
  | _ => { s with wide := s.wide.map fun w => if w.is r then { w with bar := x, remote := remote } else w }

/-- R94, R107, R108: the arrivals that complete a generation. -/
def barCount (s : State) (r : BarRef) : Nat :=
  match r with
  | .core b c _ => ((s.block? b).map fun x =>
      (x.live.filter fun gid => (s.group? gid).any fun g => g.core == c).length).getD 0
  | .quad b _ => ((s.block? b).map fun x => x.live.length).getD 0
  | _ =>
    match s.wide.find? fun w => w.is r with
    | none => 0
    | some w => (((s.grid? w.grid).bind fun x => x.bars.find? fun y => y.scope == w.scope && y.number == w.number).map
        (·.count)).getD 0

/-- R210: the epochs of a completed generation's participants: 1 + the largest among them, those counted that have retired since
they arrived, and those of other modules, whose epochs are given (log entry 124). -/
def raiseEpochs (s : State) (r : BarRef) (x : Barrier) (remote : List Nat) : State :=
  let block := decide (r.scope ≤ 2)
  let top := x.arrived.foldl (fun n gid =>
    match s.group? gid with
    | some g => max n (if block then g.det.epoch else g.det.wide)
    | none => n) (remote.foldl max x.top)
  x.arrived.foldl (fun s gid => s.modGroup gid fun g =>
    { g with det := if block then { g.det with epoch := top + 1 } else { g.det with wide := top + 1 } }) s

/-- R133: one more arrival of a group, a release at the barrier's scope; the other modules of a pod barrier hear of it, and of the
group's E (R108, R210). -/
def arriveAt (s : State) (r : BarRef) (gid core : Nat) : State :=
  let s := s.release core r.scope
  let x := barOf s r
  let s := match r with
    | .pod j n => s.send (.podArrival j n (((s.group? gid).map (·.det.wide)).getD 0))
    | _ => s
  setBar s r { x with arrived := x.arrived ++ [gid] } (remoteArrivals s r)

/-- R133, R169: the acquire of a `bar` that ends; a group that is off its core then makes it as it first issues again. -/
def Group.barAcquired (g : Group) (scope : Nat) : Group :=
  if 256 ≤ g.core then { g with opening := max g.opening scope } else g.acquired scope

/-- A waiting `bar` completes: the wait's end is an acquire (R133), a `bar.arrive` arrives again, the pc goes on. -/
def finishBar (s : State) (r : BarRef) (again : Bool) (gid : Nat) : State :=
  match s.group? gid with
  | none => s
  | some g =>
    let s := if 256 ≤ g.core then s else s.acquire g.core r.scope
    let s := if again then arriveAt s r gid g.core else s
    s.modGroup gid fun g =>
      let g := ({ (g.barAcquired r.scope).wake s.now with pc := nextPc g.pc 4 }).finish false s.now
      { g with sched := { g.sched with stintCount := 0 } }

/-- The groups whose wait meets a condition, by number. -/
def waiting (s : State) (p : Wait → Bool) : List Nat := (s.groups.filter fun e => p e.2.wait).map (·.1)

/-- R109: a generation whose arrivals reach its count completes, every group waiting at it goes on, and the next
generation opens with the arrivals of other modules that came in excess. -/
def settleBar (s : State) (r : BarRef) : Nat → State
  | 0 => s
  | fuel + 1 =>
    let x := barOf s r
    let others := remoteArrivals s r
    let total := x.arrived.length + others.length
    if total = 0 || decide (total < barCount s r) then s
    else
      let used := min others.length (barCount s r - x.arrived.length)
      let s := raiseEpochs s r x (others.take used)
      let s := setBar s r { gen := x.gen + 1, arrived := [] } (others.drop used)
      let s := (waiting s fun w => w == .bar r x.gen).foldl (fun s gid => finishBar s r false gid) s
      let s := (waiting s fun w => w == .barArrive r x.gen).foldl (fun s gid => finishBar s r true gid) s
      settleBar s r fuel

/-- Settle a barrier, each round letting at least one waiting group go or using up an arrival of another module. -/
def settle (s : State) (r : BarRef) : State := settleBar s r (s.groups.length + (remoteArrivals s r).length + 2)

/-! ## Work queues and packing -/

/-- R96: the items on chip of a core, over its contexts, with those a packed group keeps until it is resident. -/
def chipUsed (s : State) (core : Nat) : Nat :=
  let inSet (x : CoreSet) : Nat :=
    ((x.items ++ x.formed.flatMap (·.items)).filter fun i => i.spot == 0).length
  s.sets.foldl (fun n e => n + if e.1 % 256 == core then inSet e.2 else 0) 0 +
    s.groups.foldl (fun n e => n + if e.2.core == core then (e.2.sched.held.filter (· == 0)).length else 0) 0

/-- R96, R99: the items in a spot of a context's overflow area, which all its cores share; those of saved units keep their
places there. -/
def overflowUsed (s : State) (asid spot : Nat) : Nat :=
  let inSet (x : CoreSet) : Nat :=
    ((x.items ++ x.formed.flatMap (·.items)).filter fun i => i.spot == spot).length
  let saved : List CoreSet := match s.ctx? asid with
    | some c => c.units.map fun (u : SavedUnit) => u.set
    | none => []
  s.sets.foldl (fun n e => n + if e.1 / 256 == asid then inSet e.2 else 0) 0 +
    saved.foldl (fun n x => n + inSet x) 0 +
    s.groups.foldl (fun n e => n + if e.2.asid == asid then (e.2.sched.held.filter (· == spot)).length else 0) 0

/-- R96 to R99: whether `n` items fit, and their spots in order: on chip first, then the overflow area, then, for a
packed group, the kept eighth. -/
def itemSpots (s : State) (asid core n : Nat) (packed : Bool) : Option (List Nat) :=
  let ovfn := match s.ctx? asid with
    | some c => c.ovfn
    | none => 0
  let chip := min n (2048 - chipUsed s core)
  let ordinary := min (n - chip) (ovfn * 896 - overflowUsed s asid 1)
  let kept := if packed then min (n - chip - ordinary) (ovfn * 128 - overflowUsed s asid 2) else 0
  if chip + ordinary + kept = n then
    some (List.replicate chip 0 ++ List.replicate ordinary 1 ++ List.replicate kept 2)
  else none

/-- R97: the items of one grid for one entry, in arrival order. -/
def itemsFor (x : CoreSet) (entry grid : Nat) : List Item := x.items.filter fun i => i.entry == entry && i.grid == grid

/-- R97: a packed group forms of at most 32 of the items of a grid for an entry. -/
def formGroup (s : State) (asid core entry grid : Nat) : State :=
  let x := s.set asid core
  let mine := (itemsFor x entry grid).take 32
  if mine.isEmpty then s
  else s.setSet asid core { x with items := mine.foldl (fun l i => l.erase i) x.items, formed := x.formed ++ [⟨mine⟩] }

/-- R97: groups of 32 form while 32 items are there. -/
def formFull (s : State) (asid core entry grid : Nat) : Nat → State
  | 0 => s
  | fuel + 1 =>
    if 32 ≤ (itemsFor (s.set asid core) entry grid).length then
      formFull (formGroup s asid core entry grid) asid core entry grid fuel
    else s

/-- R97, R125: partial groups form of every grid's items for an entry. -/
def formEntry (s : State) (asid core entry : Nat) : State :=
  let grids := (((s.set asid core).items.filter fun i => i.entry == entry).map (·.grid)).eraseDups
  grids.foldl (fun s n => formGroup s asid core entry n) s

/-- R97: whether a group stands at a barrier, in `wait` or in `cwait`. -/
def Group.idle (g : Group) : Bool :=
  match g.wait with
  | .bar .. => true
  | .barArrive .. => true
  | .word .. => true
  | .counter .. => true
  | _ => false

/-- R97: whether every group of a block waits so or has retired. -/
def blockIdle (s : State) (b : Nat) : Bool :=
  match s.block? b with
  | none => true
  | some x => x.live.all fun gid => (s.group? gid).all Group.idle

/-- R97: partial groups form for the items whose oldest was issued by a block that only waits, in one context's set. -/
def packIdle (s : State) (asid core : Nat) : State :=
  let keys := ((s.set asid core).items.map fun i => (i.entry, i.grid)).eraseDups
  keys.foldl (fun (s : State) (k : Nat × Nat) =>
    match itemsFor (s.set asid core) k.1 k.2 with
    | i :: _ => if blockIdle s i.block then formGroup s asid core k.1 k.2 else s
    | [] => s) s

/-- R97, over every core's set of a context: called where a group begins to wait or retires. -/
def packIdleAll (s : State) (asid : Nat) : State :=
  let cores := (s.sets.filter fun e => e.1 / 256 == asid).map fun e => e.1 % 256
  cores.foldl (fun s c => packIdle s asid c) s

/-- R96, R128: items enter the queue in order, a release at core scope; full groups form at once and the packing timer
of each entry starts again, with the PTIMER of that moment (R310). An item beyond the chip takes its 64 bytes of the overflow
area, whose layout is the module's own: the model writes no byte there (log entry 98). -/
def enqueueItems (s : State) (asid core : Nat) (items : List Item) (spots : List Nat) : State :=
  let s := s.release core 1
  let placed := (items.zip spots).map fun e => { e.1 with spot := e.2 }
  let due := s.now + ((s.ctx? asid).map Context.ptimer).getD 0
  let s := s.modSet asid core fun x =>
    { x with items := x.items ++ placed, timers := items.foldl (fun m i => put i.entry due m) x.timers }
  ((items.map fun i => (i.entry, i.grid)).eraseDups).foldl
    (fun s k => formFull s asid core k.1 k.2 (items.length / 32 + 65)) s

/-- R98, R111, R297: room came free: groups that stalled for items test again. -/
def wakeStalled (s : State) (asid core : Nat) : State :=
  wakeWhere s fun _ g => (g.asid == asid || g.core == core) && (g.wait == .spawn || match g.wait with
    | .cspan _ => true
    | _ => false)

/-! ## Tickets -/

/-- R286: the colour of a ticket's blend in its cell's queue; mode 4 stands for the empty blend. -/
def useTicket (s : State) (asid core : Nat) (t : Ticket) (mode : Nat) (colour : Vector (BitVec 16) 4) : State :=
  s.modSet asid core fun x =>
    match look t.slot x.slots with
    | none => x
    | some sl =>
      match look t.cell sl.cells with
      | none => x
      | some k =>
        let k := { k with queue := k.queue.map fun b =>
          if b.stamp = t.stamp && b.colour.isNone then { b with colour := some (mode, colour) } else b }
        { x with slots := put t.slot { sl with cells := put t.cell k sl.cells } x.slots }

/-- R286: threads that leave without having used their tickets leave empty blends. -/
def dropTickets (s : State) (gid : Nat) (g : Group) (ts : List Nat) : State :=
  ts.foldl (fun s t =>
    match (g.thread t).ticket with
    | some k =>
      (useTicket s g.asid g.core k 4 (Vector.replicate 4 0#16)).modGroup gid fun h =>
        h.modThread t fun x => { x with ticket := none }
    | none => s) s

/-! ## Retirement -/

/-- Whether a set holds an item of a grid, or a matrix instruction of its groups. -/
def CoreSet.holds (x : CoreSet) (n : Nat) : Bool :=
  ((x.items ++ x.formed.flatMap (·.items)).any fun i => i.grid == n) || x.mq.any fun m => m.grid == n

/-- R102, R132: whether nothing of a grid is left, in saved units too; a matrix instruction of its groups counts (R176, log
entry 26). -/
def gridOver (s : State) (n : Nat) (x : Grid) : Bool :=
  decide (x.blocks ≤ x.nextBlock) && x.live == 0 && !(s.sets.any fun (e : Nat × CoreSet) => e.2.holds n) &&
  !(s.contexts.any fun (e : Nat × Context) => e.2.units.any fun (u : SavedUnit) => u.set.holds n)

/-- Change the set of a context on a core, or that of a saved unit by the number above 255 that stands for its core. -/
def modSetAt (s : State) (asid core : Nat) (f : CoreSet → CoreSet) : State :=
  if core < 256 then s.modSet asid core f
  else s.modCtx asid fun c =>
    { c with units := c.units.map fun u => if u.away = core then { u with set := f u.set } else u }

/-- The set of a context on a core, or of the saved unit whose core has a name above 255. -/
def setAt (s : State) (asid core : Nat) : CoreSet :=
  if core < 256 then s.set asid core
  else (((s.ctx? asid).bind fun c => c.units.find? fun u => u.away == core).map fun (u : SavedUnit) => u.set).getD {}

/-- R204: whether a counter has reached a value. -/
def reached (counter : DWord) (v : Nat) : Bool := decide ((counter - BitVec.ofNat 64 v).toNat < 2 ^ 63)

/-- R85, R204: the groups of a context on a core that wait for a counter go on once it has reached their value. -/
def wakeCounter (s : State) (asid core k : Nat) (value : DWord) : State :=
  wakeWhere s fun _ g => g.asid == asid && g.core == core && match g.wait with
    | .counter j v => j == k && reached value v
    | _ => false

/-- R162, R204: a counter of a set takes an increment, and the groups whose value it reaches go on. -/
def addToCounter (s : State) (asid core k n : Nat) : State :=
  let s := modSetAt s asid core fun y =>
    let c := (look k y.counters).getD {}
    { y with counters := put k { c with value := c.value + BitVec.ofNat 64 n } y.counters }
  wakeCounter s asid core k ((look k (setAt s asid core).counters).getD {}).value

/-- R364: whether a contribution of a grid still waits for a die that is down; the grid retires after it. -/
def poolDown (s : State) (n : Nat) : Bool := anyDown s && s.pool.any fun c => c.grid == n && c.loc.down s

/-- R132, R159, R162, R177, R210: a grid retires: its contributions are applied, its stores released, its replicas
dropped, its barriers unbound, its counter raised and its command completed. What other modules have added to an open generation of
one of its pod barriers goes with the barrier, of which the spec says nothing; arrivals while no grid is bound are kept for the next
(log entry 114). -/
def retireGrid (s : State) (n : Nat) : State :=
  match s.grid? n with
  | none => s
  | some x =>
    if !gridOver s n x || poolDown s n then s
    else
      let s := applyAll s n (s.pool.length + 1)
      let s := (s.cores.map (·.1)).foldl (fun s c => s.release c 6) s
      let s := match x.core with
        | some c => if x.ken then addToCounter s x.asid c x.k 1 else s
        | none => s
      let s := { s with
        grids := drop n s.grids
        base := s.base.filter fun e => e.1 != n
        replicas := s.replicas.filter fun r => r.grid != n
        wide := s.wide.filter fun w => w.grid != n
        feGrids := s.feGrids.map fun e => (e.1, e.2.erase n) }
      match x.source with
      | .queue fe q number => commandDone s fe q number
      | .device .. => s

/-- R359: the queues of a pre-empted context are switched out. -/
def switchOut (s : State) (asid : Nat) : State :=
  { s with queues := s.queues.map fun (e : Nat × Queue) =>
      (e.1, if decide (e.1 < 512) && DWord.f e.2.ctl 26 16 == asid && DWord.f e.2.ctl 35 32 != 3 then
          { e.2 with ctl := DWord.setF e.2.ctl 35 32 2 } else e.2) }

/-- R352: whether items or packed groups of a context still wait: work already spawned that is to complete. -/
def spawnedWaits (s : State) (asid : Nat) : Bool :=
  s.sets.any fun e => e.1 / 256 == asid && (!e.2.items.isEmpty || !e.2.formed.isEmpty)

/-- R352: a soft pre-emption completes when no group of the context is admitted and no spawned work waits. -/
def softDone (s : State) (asid : Nat) : State :=
  match s.ctx? asid with
  | none => s
  | some c =>
    if c.preempt = .soft && !(s.groups.any fun e => e.2.asid == asid) && !spawnedWaits s asid then
      let s := s.setCtx asid { c with preempt := .saved, preemptCmds := [] }
      c.preemptCmds.foldl adminDone (switchOut s asid)
    else s

/-- R161: a change of the bench takes effect once no allocation reaches past the new size; the whole L1 is written back and
dropped (log entry 99). -/
def resizeBench (s : State) (core : Nat) : State :=
  match (s.core core).pend with
  | none => s
  | some n =>
    if benchMask s core < 2 ^ (512 * n) then
      (s.sweepL1 core true).modCore core fun c => { c with bench := n, pend := none }
    else s

/-- R107, R124, R144: a group leaves its block: its arrivals at generations not complete are withdrawn, the counts
fall, its bench and barriers go back with the last group. -/
def leaveBlock (s : State) (gid : Nat) (g : Group) : State :=
  let without (m : NMap Barrier) : NMap Barrier := m.map fun e => (e.1, { e.2 with arrived := e.2.arrived.filter (· != gid) })
  let s := s.modBlock g.block fun b =>
    let live := b.live.erase gid
    { b with
      live := live
      coreBars := without b.coreBars
      quadBars := without b.quadBars
      bench := if live.any fun k => (s.group? k).any fun h => h.core == g.core then b.bench else drop g.core b.bench
      benchAt := if live.any fun k => (s.group? k).any fun h => h.core == g.core then b.benchAt else drop g.core b.benchAt }
  match s.block? g.block with
  | none => s
  | some b =>
    if b.live.isEmpty then { s with blocks := drop g.block s.blocks }
    else
      let s := (b.coreBars.map (·.1)).foldl (fun s k => settle s (.core g.block (k / 32) (k % 32))) s
      (b.quadBars.map (·.1)).foldl (fun s k => settle s (.quad g.block k)) s

/-- R282: what an open path is charged: its pieces, its tiles, the rows that have held an entry or a carry from the left. -/
def OpenPath.charge (p : OpenPath) : Nat :=
  8 * (p.pieces.foldl (fun n e => n + e.2.length) 0) + 160 * p.pieces.length + 160 * p.rows.length

/-- R210: a participant of a wide generation retires before it completes: its E is kept. -/
def WideBarrier.lose (w : WideBarrier) (gid epoch : Nat) : WideBarrier :=
  if w.bar.arrived.contains gid then { w with bar := { w.bar with top := max w.bar.top epoch } } else w

/-- R124: a group whose LMASK is empty retires; the charge of a path that it leaves open returns (R282, log entry 138). -/
def retireGroup (s : State) (gid : Nat) : State :=
  match s.group? gid with
  | none => s
  | some g =>
    let s := { s with groups := drop gid s.groups, wide := s.wide.map fun w => w.lose gid g.det.wide }
    let s := leaveBlock s gid g
    let s := s.modCtx g.asid fun c =>
      { c with frames := drop g.frame c.frames, binUsed := c.binUsed - (g.bin.open_.map OpenPath.charge).getD 0 }
    let s := s.modGrid g.grid fun x => { x with live := x.live - 1 }
    let s := packIdleAll s g.asid
    let s := wakeStalled s g.asid g.core
    let s := retireGrid s g.grid
    softDone (resizeBench s g.core) g.asid

end Sys2Proof.Machine
end

