-- ==== Sys2Proof/Machine/Fetch.lean ====
section
/-!
DEFINITION. Fetch lines (R29, R49, R115): reading a line, checking its header, the checks of a transfer's target (R50,
R120), and the machine's data reads of tables and descriptors in code (R122, R356).
-/

namespace Sys2Proof.Machine

/-- The fields of a header (R29). -/
def headerStarts (h : Nat) : Nat := field h 55 0
def headerTargets (h : Nat) : Nat := field h 111 56
def headerKind (h : Nat) : Nat := field h 115 112
def headerResv (h : Nat) : Nat := field h 127 116

/-- The line's header. -/
def lineHeader (line : List Byte) : Nat := ofBytes (line.take 16)

/-- Whether the halfword of a slot begins a 32-bit instruction (R29). -/
def slotLong (line : List Byte) (i : Nat) : Bool := (line.getD (16 + 2 * i) 0#8).toNat % 2 == 1

/-- R29: the starts that the length bits derive from a slot on; bit 56 marks an instruction that runs past the line. -/
def derivedStarts (line : List Byte) : Nat → Nat → Nat
  | 0, _ => 0
  | fuel + 1, i =>
    if i < 56 then 2 ^ i + derivedStarts line fuel (if slotLong line i then i + 2 else i + 1)
    else if i = 56 then 0
    else 2 ^ 56

/-- R49: a line sound to run. -/
def lineSound (line : List Byte) : Bool :=
  let h := lineHeader line
  (headerKind h == 0 || headerKind h == 2) && headerResv h == 0 &&
  headerStarts h == derivedStarts line 57 0 && headerTargets h &&& headerStarts h == headerTargets h

/-- Whether the slot of an address in a line is marked in its target map (R50). -/
def slotMarked (line : List Byte) (va : Nat) : Bool := (headerTargets (lineHeader line)).testBit ((va % 128 - 16) / 2)

/-- The address of the line that holds an address. -/
def lineAddr (va : Nat) : Nat := va / 128 * 128

/-- `n` bytes of a page from an address on, as code or a descriptor sees them: decoded on a grain page, at the home
slices on a raw one. A damaged byte raises DATAERR. -/
def homeBytes (s : State) (asid : Nat) (p : Page) (acc : Access) (va n : Nat) : Except Trap (List Byte) :=
  if p.fmt != .raw then
    let q : Place := ⟨p, va - p.vbase, p.frame⟩
    if p.runDown s q.off n then .error (busyTrap va)
    else if q.damaged s n then .error (plainTrap codeDATAERR va) else .ok (grainWords s q n)
  else
    match p.rawPlace s asid acc va with
    | .error t => .error t
    | .ok pa =>
      let q : Place := ⟨p, va - p.vbase, pa⟩
      if q.damaged s n then .error (plainTrap codeDATAERR va) else .ok (s.homeBytesAt p.own pa n)

/-- R49: the 128 bytes of the line that holds an address, fetched in a mode; a failure reports the address. -/
def fetchLine (s : State) (core asid : Nat) (mode : Mode) (va : Nat) : Except Trap (List Byte × State) :=
  match translate s core asid mode .fetch (lineAddr va) with
  | .error t => .error { t with info := va }
  | .ok (p, s) =>
    match homeBytes s asid p .fetch (lineAddr va) 128 with
    | .error t => .error { t with info := va }
    | .ok bs => .ok (bs, s)

/-- R49: control enters a line at a transfer: its fetch, then its header. -/
def enterLine (s : State) (core asid : Nat) (mode : Mode) (va : Nat) : Except Trap (List Byte × State) :=
  if va % 2 = 1 || decide (va % 128 < 16) then .error (plainTrap codeLINE va)
  else
    match fetchLine s core asid mode va with
    | .error t => .error t
    | .ok (line, s) => if lineSound line then .ok (line, s) else .error (plainTrap codeLINE va)

/-- R50, R120: the checks of a transfer's target. -/
def checkTarget (s : State) (g : Group) (va : Nat) : Except Trap State :=
  match enterLine s g.core g.asid g.mode va with
  | .error t => .error t
  | .ok (line, s) => if slotMarked line va then .ok s else .error (plainTrap codeLINE va)

/-- R122, R356: `n` bytes read as a data load of the group. -/
def readData (s : State) (g : Group) (va n : Nat) : Except Trap (List Byte × State) :=
  match translate s g.core g.asid g.mode .read va with
  | .error t => .error t
  | .ok (p, s) =>
    if p.fmt != .raw then
      if p.runDown s (va - p.vbase) n then .error (busyTrap va) else loadPlace s g.core .near ⟨p, va - p.vbase, p.frame⟩ n va
    else
      match p.rawPlace s g.asid .read va with
      | .error t => .error t
      | .ok pa => loadPlace s g.core .near ⟨p, va - p.vbase, pa⟩ n va

/-- Words of four bytes read one after the other. -/
def readWords (s : State) (g : Group) (va : Nat) : Nat → Except Trap (List Nat × State)
  | 0 => .ok ([], s)
  | n + 1 =>
    match readData s g (va % 2 ^ 57) 4 with
    | .error t => .error t
    | .ok (bs, s) =>
      match readWords s g (va + 4) n with
      | .error t => .error t
      | .ok (ws, s) => .ok (ofBytes bs :: ws, s)

/-- The kind of the line that holds an address, read as data. -/
def dataLineKind (s : State) (g : Group) (va : Nat) : Except Trap (Nat × State) :=
  match readWords s g (lineAddr va + 12) 1 with
  | .error t => .error { t with info := va }
  | .ok (ws, s) => .ok (field (ws.headD 0) 19 16, s)

end Sys2Proof.Machine
end

