-- ==== Sys2Proof/Machine/Control.lean ====
section
/-!
DEFINITION. Control flow and the reconvergence stack (R83, R84, R117 to R125), and the instructions that leave the
program's own flow: wait, tcall, brk, tfence, mark (R126, R346 to R348, R356).
-/

namespace Sys2Proof.Machine

/-- R40: the target of an offset in halfwords from the instruction's own address. The spec does not say what becomes of a target
below address 0 or at or above 2^57; the model takes it modulo 2^57 (log entry 97). -/
def relTarget {n : Nat} (g : Group) (off : BitVec n) : Nat := (((g.pc.toNat : Int) + 2 * off.toInt) % 2 ^ 57).toNat

/-- R120: the target a uniform register names, its bits 56:0. -/
def regTarget (x : DWord) : Nat := x.toNat % 2 ^ 57

/-- R83: entries pushed, the last on top; a push beyond 256 entries is none. -/
def pushEntries (g : Group) (es : List StackEntry) : Option Group :=
  let st := es.foldl (fun st e => e :: st) g.stack
  if 256 < st.length then none else some { g with stack := st }

/-- The reconvergence address of the top entry, if there is one that a path may take. -/
def topReconv (g : Group) : Option VAddr :=
  match g.stack with
  | .join _ r :: _ => some r
  | .path _ _ r :: _ => some r
  | _ => none

/-- R84: pops until a mask is left; none where the marker or the stack's end is reached (R345). -/
def popPath (lmask : Word) : List StackEntry → Option (List StackEntry × Word × VAddr)
  | .join m r :: rest => if m &&& lmask = 0#32 then popPath lmask rest else some (rest, m &&& lmask, nextPc r 4)
  | .path p m _ :: rest => if m &&& lmask = 0#32 then popPath lmask rest else some (rest, m &&& lmask, p)
  | _ => none

/-- A transfer to a target for the whole group: the target checked first (R50), then the group's change. -/
def transferTo (s : State) (g : Group) (va : Nat) (e : Bool) (change : Group → Group) : State :=
  match checkTarget s g va with
  | .error t => raiseAll s t
  | .ok s => s.jump { change g with line := some (BitVec.ofNat 57 (lineAddr va)) } (BitVec.ofNat 57 va) e

/-- R117: br. -/
def execBr (f : BrF) (s : State) : Res :=
  issuePlain (.br f) s fun g =>
    let taken := maskOf (g.participants f.g)
    let va := relTarget g f.f
    if taken = g.amask then transferTo s g va f.e id
    else if taken = 0#32 then s.jump g (nextPc g.pc 4) f.e
    else
      match topReconv g with
      | none => illop s 2
      | some r =>
        match checkTarget s g va with
        | .error t => raiseAll s t
        | .ok s =>
          match pushEntries g [.path (nextPc g.pc 4) (g.amask &&& ~~~taken) r] with
          | none => contextError s g.asid 1
          | some g =>
            s.retireAt { g with amask := taken, line := some (BitVec.ofNat 57 (lineAddr va)) } (BitVec.ofNat 57 va) f.e

/-- R117, R357: jmp; the first one of a recipe ends recipe mode and is not counted. -/
def execJmp (f : JmpF) (s : State) : Res :=
  issuePlain (.jmp f) s fun g =>
    let va := relTarget g f.f
    match checkTarget s g va with
    | .error t => raiseAll s t
    | .ok s =>
      (s.jump { g with line := some (BitVec.ofNat 57 (lineAddr va)) } (BitVec.ofNat 57 va) f.e).modGrp fun h =>
        { h with recipe := false }

/-- R117: join. -/
def execJoin (f : JmpF) (s : State) : Res :=
  issuePlain (.join f) s fun g =>
    match pushEntries g [.join g.amask (BitVec.ofNat 57 (relTarget g f.f))] with
    | none => contextError s g.asid 1
    | some h => s.jump h (nextPc g.pc 4) f.e

/-- R117: meet. -/
def execMeet (f : JmpF) (s : State) : Res :=
  issuePlain (.meet f) s fun g =>
    let here := BitVec.ofNat 57 (relTarget g f.f)
    let fit := topReconv g == some here
    let next := match g.stack with
      | .join m r :: rest =>
        if m &&& g.lmask = 0#32 then popPath g.lmask (.join m r :: rest) else some (rest, m &&& g.lmask, nextPc g.pc 4)
      | st => popPath g.lmask st
    match next with
    | some (st, m, pc) => if fit then s.retireAt { g with stack := st, amask := m } pc f.e else illop s 2
    | none => illop s 2

/-- R120: brx. -/
def execBrx (f : RegF) (s : State) : Res :=
  issuePlain (.brx f) s fun g => transferTo s g (regTarget (g.sreg f.a.toNat)) f.e id

/-- R120, R121: s31 takes the return point. -/
def Group.link (g : Group) : Group := g.writeS 31 (BitVec.ofNat 64 (nextPc g.pc 4).toNat)

/-- R120: call. -/
def execCall (f : JmpF) (s : State) : Res :=
  issuePlain (.call f) s fun g => transferTo s g (relTarget g f.f) f.e Group.link

/-- R120: calli reads its target before it writes the link. -/
def execCalli (f : RegF) (s : State) : Res :=
  issuePlain (.calli f) s fun g => transferTo s g (regTarget (g.sreg f.a.toNat)) f.e Group.link

/-- R120: ret. -/
def execRet (f : PlainF) (s : State) : Res :=
  issuePlain (.ret f) s fun g => transferTo s g (regTarget (g.sreg 31)) f.e id

/-! ## switch -/

/-- R122: the entry count a header word gives, if it is one. -/
def tableCount (w : Nat) : Option Nat := if w / 16 = 0 && decide (1 ≤ w) && decide (w ≤ 8) then some w else none

/-- R122: the table at an address: its line's kind, its header and its pairs. A malformed table answers none. The rule asks for the kind
of the table's line; a table that runs on into the next line is read on there, whatever that line's kind (log entry 113). A line of
another kind is LINE, whatever its header holds (log entry 130). -/
def readTable (s : State) (g : Group) (ta : Nat) : Except Trap (Option (List Nat) × State) :=
  match dataLineKind s g ta with
  | .error t => .error t
  | .ok (kind, s) =>
    if kind != 1 then .error (plainTrap codeLINE ta)
    else
      match readWords s g ta 1 with
      | .error t => .error t
      | .ok (h, s) =>
        match tableCount (h.headD 0) with
        | none => .ok (none, s)
        | some n =>
          match readWords s g (ta + 4) (2 * n) with
          | .error t => .error t
          | .ok (ws, s) => .ok (some ws, s)

/-- R123: the mask of the active threads whose first matching value is number `i`. -/
def switchMask (g : Group) (a : BitVec 6) (ws : List Nat) (i : Nat) : Word :=
  maskOf (g.active.filter fun t =>
    ((List.range (ws.length / 2)).find? fun j => ws.getD (2 * j) 0 == (g.src a t).toNat) == some i)

/-- R122: target `i` of a table. -/
def switchTarget (ta : Nat) (ws : List Nat) (i : Nat) : Nat :=
  (((ta : Int) + 2 * signed 32 (ws.getD (2 * i + 1) 0)) % 2 ^ 57).toNat

/-- The target checks of several addresses, in order. -/
def checkTargets (s : State) (g : Group) : List Nat → Except Trap State
  | [] => .ok s
  | va :: rest =>
    match checkTarget s g va with
    | .error t => .error t
    | .ok s => checkTargets s g rest

/-- R123: the split a table's words make. -/
def switchSplit (s : State) (g : Group) (f : SwitchF) (ta : Nat) (ws : List Nat) : State :=
  let mask := switchMask g f.a ws
  let target := switchTarget ta ws
  let full := (List.range (ws.length / 2)).filter fun i => mask i != 0#32
  let rest := g.amask &&& ~~~(full.foldl (fun m i => m ||| mask i) 0#32)
  match full with
  | [] => s.jump g (nextPc g.pc 4) f.e
  | first :: more =>
    if mask first = g.amask then transferTo s g (target first) f.e id
    else
      match topReconv g with
      | none => illop s 2
      | some r =>
        match checkTargets s g (full.map target) with
        | .error t => raiseAll s t
        | .ok s =>
          let unmatched : List StackEntry := if rest = 0#32 then [] else [.path (nextPc g.pc 4) rest r]
          match pushEntries g (unmatched ++ more.reverse.map fun i => .path (BitVec.ofNat 57 (target i)) (mask i) r) with
          | none => contextError s g.asid 1
          | some g => s.retireAt { g with amask := mask first, line := some (BitVec.ofNat 57 (lineAddr (target first))) }
              (BitVec.ofNat 57 (target first)) f.e

/-- R51, R122, R123: the conditions of cause 2: a table out of place or malformed, a split on an empty stack. -/
def switchBad2 (s : State) (g : Group) (f : SwitchF) : Bool :=
  let ta := relTarget g f.f
  ta % 4 != 0 ||
  match readTable s g ta with
  | .error _ => false
  | .ok (none, _) => true
  | .ok (some ws, _) =>
    let mask := switchMask g f.a ws
    match (List.range (ws.length / 2)).find? fun i => mask i != 0#32 with
    | none => false
    | some i => mask i != g.amask && (topReconv g).isNone

/-- R122, R123: switch. -/
def execSwitch (f : SwitchF) (s : State) : Res :=
  issueChecked (.switch f) s Group.active (fun g => switchBad2 s g f) (fun _ => false) fun g =>
    let ta := relTarget g f.f
    match readTable s g ta with
    | .error t => raiseAll s t
    | .ok (none, s) => illop s 2
    | .ok (some ws, s) => switchSplit s g f ta ws

/-! ## exit, nop, yield -/

/-- A stack entry without the threads of a mask (R124). -/
def StackEntry.without (m : Word) : StackEntry → StackEntry
  | .join k r => .join (k &&& ~~~m) r
  | .path p k r => .path p (k &&& ~~~m) r
  | .marker => .marker

/-- R124: whether a mask holds a receiver of the group's open expansion. -/
def removesReceiver (s : State) (g : Group) (m : Word) : Bool :=
  match g.expand with
  | some (slot, member) =>
    match look slot (s.set g.asid g.core).expands with
    | some x => (x.masks.getD member 0#32) &&& m != 0#32
    | none => false
  | none => false

/-- R124, R178, R209: exit ends the quantum, removes its threads and retires a group left without one. -/
def execExit (f : ExitF) (s : State) : Res :=
  issueChecked (.exit f) s Group.active (fun g => removesReceiver s g (maskOf (g.participants f.g))) (fun _ => false)
    fun g =>
      let gone := maskOf (g.participants f.g)
      let left := g.lmask &&& ~~~gone
      let stack := g.stack.map (StackEntry.without gone)
      let s := if g.det.en then endQuantum s s.cur true else s
      let h := { (s.grp.getD g).voidFlash with lmask := left, stack := stack, amask := g.amask &&& ~~~gone }
      if left = 0#32 then retireGroup ({ dropTickets s s.cur g (threadsOf gone) with now := s.now + 1 }) s.cur
      else if h.amask = 0#32 then
        match popPath left stack with
        | none => illop s 2
        | some (st, m, pc) =>
          (dropTickets (s.retireAt { h with stack := st, amask := m } pc f.e) s.cur g (threadsOf gone))
      else
        let h := { h with replay := g.replay.map fun m => m &&& ~~~gone }
        dropTickets (s.jump h (nextPc g.pc 4) f.e) s.cur g (threadsOf gone)

/-- R125: nop. -/
def execNop (f : PlainF) (s : State) : Res := issuePlain (.nop f) s fun g => s.retire g 4 1 f.e

/-- R97, R125: yield flushes the entries the group has spawned to, with the items of every grid that wait for them, and ends
the stint. -/
def execYield (f : PlainF) (s : State) : Res :=
  issuePlain (.yield f) s fun g =>
    (g.spawned.foldl (fun s e => formEntry s g.asid g.core e) s).retire g 4 1 true

/-! ## Traps a program asks for -/

/-- R346: tcall, a commit instruction. -/
def execTcall (f : TcallF) (s : State) : Res :=
  issuePlain (.tcall f) s fun g =>
    trapAfter (s.setGrp g.voidFlash) 4 codeTCALL (BitVec.ofNat 64 f.n.toNat) f.e

/-- R347: brk. -/
def execBrk (f : BrkF) (s : State) : Res :=
  issuePlain (.brk f) s fun _ => trapAfter s 4 codeBRK (BitVec.ofNat 64 f.c.toNat) f.e

/-- R348: tfence; the wait for the group's matrix instructions is an interlock of issue. -/
def execTfence (f : PlainF) (s : State) : Res :=
  issuePlain (.tfence f) s fun g =>
    let on := g.fflags &&& g.ftrapen
    if g.mode = .user && on != 0#7 then trapAfter s 4 codeARITH (on.setWidth 64) f.e else s.retire g 4 1 f.e

/-! ## mark -/

/-- R46: a live descriptor's faults: a nonzero reserved bit or more than eight registers in a mask is cause 2, a
thread register the group lacks cause 4. -/
def liveFault (d nregs : Nat) : Option Nat :=
  if field d 127 80 != 0 || decide (8 < countBits (field d 79 48) 32) || decide (8 < countBits (field d 47 0) 48) then some 2
  else if (List.range 48).any fun i => d.testBit i && decide (nregs ≤ i) then some 4
  else none

/-- R356: the recipe's line must be of kind 0 with slot 0 marked. -/
def checkRecipe (s : State) (g : Group) (line : Nat) : Except Trap State :=
  match enterLine s g.core g.asid g.mode (line + 16) with
  | .error t => .error t
  | .ok (bs, s) =>
    if headerKind (lineHeader bs) == 0 && slotMarked bs (line + 16) then .ok s else .error (plainTrap codeLINE (line + 16))

/-- R356: mark sets the flashback state; inside an open expansion the state is void at once (R355). The kind checked is that of the line
that holds the descriptor's first byte: one that runs on into the next line is read on there (log entry 113). -/
def execMark (f : MarkF) (s : State) : Res :=
  issueChecked (.mark f) s Group.active (fun g => g.mode == Mode.handler || !g.stack.isEmpty) (fun _ => false) fun g =>
    let base : Int := lineAddr g.pc.toNat
    let live := ((base + 4 * f.l.toInt) % 2 ^ 57).toNat
    let recipe := ((base + 128 * f.c.toInt) % 2 ^ 57).toNat
    match dataLineKind s g live with
    | .error t => raiseAll s t
    | .ok (kind, s) =>
      if kind != 1 then raiseAll s (plainTrap codeLINE live)
      else
        match readWords s g live 4 with
        | .error t => raiseAll s t
        | .ok (ws, s) =>
          let d := ws.getD 0 0 + ws.getD 1 0 * 2 ^ 32 + ws.getD 2 0 * 2 ^ 64 + ws.getD 3 0 * 2 ^ 96
          match liveFault d g.nregs with
          | some c => illop s c
          | none =>
            match checkRecipe s g recipe with
            | .error t => raiseAll s t
            | .ok s =>
              let s := s.retire g 4 1 f.e
              let kept (n : Nat) : Flash :=
                { mark := g.pc, live := BitVec.ofNat 128 d, recipe := BitVec.ofNat 57 recipe, count := n,
                  lmask := g.lmask, fpmode := g.fpmode, fpseed := g.fpseed }
              s.modGrp fun h => { h with flash := if h.expand.isSome then none else some (kept h.retired) }

/-! ## wait -/

/-- R110: the group leaves its slot at once and joins the core's wait list. -/
def Group.leaveSlot (g : Group) : Group := { g with sched := { g.sched with lane := none } }

/-- R110: a sector is watched from now on: the writes that have reached it. -/
def watchSector (s : State) (sector : Nat) : Nat × State :=
  match look sector s.watch with
  | some n => (n, s)
  | none => (0, { s with watch := put sector 0 s.watch })

/-- R126: what `wait` does once its commits are performed: it reads the word at its home and goes on, or leaves its slot to
check again when ready (R110); the items of a block that only waits then pack (R97). -/
def waitRead (f : WaitF) (s : State) (g : Group) (p : Place) (n : Nat) : State :=
  let s := s.dropSector g.core (p.pa / 64)
  if s.lost p.pa n then raiseAll s (plainTrap codeDATAERR ((g.win f.w.toNat).va (g.sreg f.a.toNat).toNat))
  else
    let x := ofBytes (s.homeBytesAt p.page.own p.pa n)
    let s := dropRdcLine s (dieOf g.core) p.page.own p.pa
    let y := (g.sreg f.b.toNat).toNat % 2 ^ (8 * n)
    if x != y then
      let s := if f.s = 0#3 then s else s.acquire g.core f.s.toNat
      match s.grp with
      | none => s
      | some g => s.retire (g.acquired f.s.toNat) 4 1 f.e
    else
      let (k, s) := watchSector s (p.pa / 64)
      packIdleAll (s.modGrp fun g => (g.block_ (.word (p.pa / 64) k (s.now + 4096)) s.now).leaveSlot) g.asid

/-- R126: wait. Under deterministic mode it ends the quantum, and reads only once the group's contributions are performed
(R178); until then it stands at the `wait` as at an interlock. A grain page in host memory is PERM, not FORMAT (log entry 132). -/
def execWait (f : WaitF) (s : State) : Res :=
  issuePlain (.wait f) s fun g =>
    let n := if f.z = 4#3 then 4 else 8
    let o := (g.sreg f.a.toNat).toNat
    match uniAccess s g f.w.toNat o n true false with
    | .error t => raiseAll s t
    | .ok (p, s) =>
      if p.grain then raiseAll s (plainTrap codeFORMAT ((g.win f.w.toNat).va o))
      else
        let s := if g.det.en then endQuantum s s.cur true else s
        if g.det.en && commitsDue s s.cur g then { s with now := s.now + 1 }
        else waitRead f s g p n

end Sys2Proof.Machine
end

