-- ==== Sys2Proof/Machine/Spawn.lean ====
section
/-!
DEFINITION. Making work and meeting: spawn, launch and bar (R127 to R134), and the events that turn items and grids into
groups (R92, R93, R97, R100).
-/

namespace Sys2Proof.Machine

/-! ## spawn -/

/-- R127, R129: the item of a thread. -/
def itemOf (g : Group) (entry t : Nat) (payload : Vector Word 4) (ticket : Option Ticket) : Item :=
  { entry := entry, grid := g.grid, payload := payload, origin := ⟨g.lidx, t, g.retired⟩, ticket := ticket, cls := g.cls,
    bcnt := g.bcnt, bidx := g.bidx, args := g.args, prefixKey := itemPrefix g t, block := g.block, spot := 0 }

/-- The four words of a thread's item (R127). -/
def itemWords (g : Group) (a t : Nat) : Vector Word 4 := Vector.ofFn fun i : Fin 4 => (g.thread t).reg (a + i.val)

/-- R97, R210: the group has made items for an entry, once more. -/
def Group.noteSpawn (g : Group) (entry : Nat) : Group :=
  { g with
    spawned := if g.spawned.contains entry then g.spawned else g.spawned ++ [entry]
    det := { g.det with spawns := g.det.spawns + 1 } }

/-- Every active thread's predicate written with one value. -/
def Group.predAll (g : Group) (p : Nat) (b : Bool) : Group :=
  g.active.foldl (fun (g : Group) t => g.writeP t p b) g

/-- R127, R98, R99: spawn. -/
def execSpawn (f : SpawnF) (s : State) : Res :=
  issueChecked (.spawn f) s Group.active
    (fun g => match s.ctx? g.asid with
      | some c => decide (c.ecnt ≤ f.n.toNat)
      | none => true)
    (fun _ => false) fun g =>
      let items := g.active.map fun t => itemOf g f.n.toNat t (itemWords g f.a.toNat t) none
      let g := g.voidFlash
      match itemSpots s g.asid g.core items.length g.packed with
      | some spots =>
        let s := enqueueItems s g.asid g.core items spots
        s.retire (if f.t then (g.noteSpawn f.n.toNat).predAll f.p.toNat true else g.noteSpawn f.n.toNat) 4 1 f.e
      | none =>
        if f.t then s.retire (g.predAll f.p.toNat false) 4 1 f.e
        else if g.packed then contextError s g.asid 2
        else s.setGrp (g.block_ .spawn s.now)

/-! ## Grids -/

/-- R130: a launch descriptor's fields; counts as counts. -/
structure Descriptor where
  entry  : Nat
  tpg    : Nat
  gpb    : Nat
  blocks : Nat
  k      : Nat
  ken    : Bool
  args   : Vector DWord 4
  bars   : List BoundBar
  deriving DecidableEq, Repr

/-- R22, R131, R377: the numbers a scope has for a descriptor's barrier; a job-0 context has no pod barrier. -/
def barLimit (job scope : Nat) : Nat :=
  match scope with
  | 3 => 16
  | 4 => 8
  | 5 => if job = 0 then 0 else 4
  | _ => 0

/-- R130: one BAR field: unused, or its scope, number and count. -/
def readBar (x : Nat) : Option BoundBar := if x % 8 = 0 then none else some ⟨x % 8, field x 7 3, field x 31 8⟩

/-- R131: whether the BAR fields in use are allowed. -/
def barsOk (job : Nat) : List BoundBar → Bool
  | [] => true
  | b :: bs =>
    decide (b.number < barLimit job b.scope) && b.count != 0 &&
    !(bs.any fun c => c.scope == b.scope && c.number == b.number) && barsOk job bs

/-- R130, R131: a descriptor's 64 bytes, or none when a condition of cause 2 is broken. -/
def readDescriptor (c : Context) (bs : List Byte) : Option Descriptor :=
  let at_ (o n : Nat) : Nat := ofBytes ((bs.drop o).take n)
  let w0 := at_ 0 8
  let w1 := at_ 8 8
  let bars := (List.range 4).filterMap fun i => readBar (at_ (0x30 + 4 * i) 4)
  if field w0 15 10 != 0 || field w0 31 21 != 0 || field w0 63 42 != 0 || field w1 63 39 != 0 ||
      decide (c.ecnt ≤ field w0 9 0) || !barsOk c.job bars then none
  else some
    { entry := field w0 9 0, tpg := field w0 20 16 + 1, gpb := field w0 41 32 + 1, blocks := field w1 31 0 + 1,
      k := field w1 37 32, ken := field w1 38 38 == 1,
      args := Vector.ofFn fun i : Fin 4 => BitVec.ofNat 64 (at_ (0x10 + 8 * i.val) 8), bars := bars }

/-- The number of a pod barrier of a job, for arrivals that come before a grid here binds it. -/
def podKey (job number : Nat) : Nat := job * 4 + number

/-- R108: the instances a bound barrier has; a pod barrier starts with the arrivals other modules have made. -/
def wideInstances (s : State) (grid job : Nat) (b : BoundBar) : List WideBarrier :=
  let one (place : Nat) : WideBarrier :=
    ⟨b.scope, place, b.number, grid, {}, if b.scope = 5 then (look (podKey job b.number) s.podEarly).getD [] else []⟩
  match b.scope with
  | 3 => [one 0, one 1, one 2, one 3]
  | 5 => [one job]
  | _ => [one 0]

/-- The reference that names a wide instance. -/
def WideBarrier.ref (w : WideBarrier) : BarRef :=
  match w.scope with
  | 3 => .die w.place w.number
  | 4 => .pkg w.number
  | _ => .pod w.place w.number

/-- R108: a grid's barriers are bound, if no other live launch holds one of them; a generation that earlier arrivals of other modules
fill completes at once (R109). The model tries when a grid is created and when
its next block is placed, so of several launches that wait for one number the first to be tried takes it (log entry 102). -/
def bindBars (s : State) (n : Nat) : State :=
  match s.grid? n with
  | none => s
  | some x =>
    let job := match s.ctx? x.asid with
      | some c => c.job
      | none => 0
    let mine := x.bars.flatMap (wideInstances s n job)
    if x.bound || (mine.any fun w => s.wide.any fun v => v.scope == w.scope && v.place == w.place && v.number == w.number)
    then s
    else
      let s := { s with
        wide := s.wide ++ mine
        podEarly := s.podEarly.filter fun e => !(mine.any fun w => w.scope == 5 && podKey w.place w.number == e.1)
      }.modGrid n fun x => { x with bound := true }
      (mine.filter fun w => !w.remote.isEmpty).foldl (fun s w => settle s w.ref) s

/-- R130: a grid is created in a context, in the list of its partition's front end. -/
def createGrid (s : State) (asid fe : Nat) (source : GridSource) (cls : Nat) (core : Option Nat) (d : Descriptor) :
    State × Nat :=
  let (n, s) := s.takeName
  let x : Grid :=
    { asid := asid, source := source, entry := d.entry, tpg := d.tpg, gpb := d.gpb, blocks := d.blocks, args := d.args,
      cls := cls, k := d.k, ken := d.ken, bars := d.bars, bound := false, nextBlock := 0, live := 0, core := core }
  (bindBars { s with grids := put n x s.grids, feGrids := put fe ((look fe s.feGrids).getD [] ++ [n]) s.feGrids } n, n)

/-- R131: the device-made grids of a front end not yet placed whole. -/
def unplacedDevice (s : State) (fe : Nat) : Nat :=
  (((look fe s.feGrids).getD []).filter fun n =>
    match s.grid? n with
    | some x => decide (x.nextBlock < x.blocks) && match x.source with
      | .device .. => true
      | .queue .. => false
    | none => false).length

/-- R131: the descriptor's access. -/
def launchAccess (s : State) (g : Group) (w o : Nat) : Except Trap (Place × State) :=
  if o + 64 ≤ (g.win w).limit.toNat && o % 64 != 0 then .error (plainTrap codeALIGN ((g.win w).va o))
  else
    match groupAccess s g w o 64 true false with
    | .error t => .error t
    | .ok (p, s) => if p.grain then .error (plainTrap codeFORMAT ((g.win w).va o)) else .ok (p, s)

/-- R130 to R132: launch. The descriptor is read and checked, then the front end must have room for one more grid; a stalled
`launch` reads the descriptor again on retry. -/
def execLaunch (f : LaunchF) (s : State) : Res :=
  issuePlain (.launch f) s fun g =>
    match s.ctx? g.asid with
    | none => s
    | some c =>
      let o := (g.sreg f.a.toNat).toNat
      match launchAccess s g f.w.toNat o with
      | .error t => raiseAll s t
      | .ok (p, s) =>
        match loadPlace s g.core .near p 64 ((g.win f.w.toNat).va o) with
        | .error t => raiseAll s t
        | .ok (bs, s) =>
          match readDescriptor c bs with
          | none => illop s 2
          | some d =>
            if 64 ≤ unplacedDevice s c.part then s.modGrp fun g => g.voidFlash.block_ .launch s.now
            else
              let s := s.release g.core 4
              let (s, _) := createGrid s g.asid c.part (.device c.part g.core) g.cls (some g.core) d
              match s.grp with
              | none => s
              | some g => s.retire g.voidFlash 4 1 f.e

/-! ## bar -/

/-- R133: the barrier an instruction names, if its group may. -/
def barRef (s : State) (g : Group) (f : BarF) : Option BarRef :=
  let n := f.n.toNat
  match f.s.toNat with
  | 1 => (s.block? g.block).bind fun b => if n < b.cbar then some (.core g.block g.core n) else none
  | 2 => (s.block? g.block).bind fun b => if n < b.qbar then some (.quad g.block n) else none
  | sc =>
    if g.packed then none
    else
      (s.grid? g.grid).bind fun x =>
        if x.bars.any fun b => b.scope == sc && b.number == n then
          match sc with
          | 3 => some (.die (dieOf g.core) n)
          | 4 => some (.pkg n)
          | _ => some (.pod ((s.ctx? g.asid).map (·.job) |>.getD 0) n)
        else none

/-- R133: the group arrives at a barrier, and waits there unless the arrival completes it or A is set. -/
def barArriveOrWait (s : State) (r : BarRef) (arrive e : Bool) : State :=
  match s.grp with
  | none => s
  | some g =>
    let gen := (barOf s r).gen
    if (barOf s r).arrived.contains s.cur then
      let w : Wait := if arrive then .barArrive r gen else .bar r gen
      packIdleAll (s.setGrp (g.block_ w s.now)) g.asid
    else
      let s := settle (arriveAt s r s.cur g.core) r
      match s.grp with
      | none => s
      | some h =>
        if arrive then s.retire h 4 1 e
        else if (barOf s r).gen != gen then (s.acquire g.core r.scope).retire (h.acquired r.scope) 4 1 e
        else packIdleAll (s.setGrp (h.block_ (.bar r gen) s.now)) g.asid

/-- R133: bar and bar.arrive; the quantum ends before the arrival (R209). -/
def execBar (f : BarF) (s : State) : Res :=
  issueChecked (.bar f) s Group.active (fun g => (barRef s g f).isNone) (fun _ => false) fun g =>
    match barRef s g f with
    | none => s
    | some r =>
      let s := if g.det.en then endQuantum s s.cur true else s
      barArriveOrWait (s.modGrp Group.voidFlash) r f.x f.e

/-! ## Placing blocks -/

/-- R352, R342: whether a context's blocks are placed: it runs, and no unit of saved state waits. -/
def Context.placing (c : Context) : Bool := c.stopped.isNone && c.preempt == .none && c.units.isEmpty

/-- R93: the core, or the four cores of a quad, that a block goes to. -/
def chooseCores (s : State) (asid : Nat) (c : Context) (x : Grid) (row : EntryRow) : Option (List Nat) :=
  let all := partCores (s.part c.part)
  if x.gpb ≤ 512 then
    let fit := all.filter fun k => coreAdmits s k x.gpb row && parkFits s asid c x.gpb row.nregs [k]
    (bestBy (fun a b => decide (freePlaces s b < freePlaces s a)) fit).map fun k => [k]
  else
    ((all.filter fun k => k % 4 == 0).find? fun k =>
      let four := [k, k + 1, k + 2, k + 3]
      let share (m : Nat) : Nat := ((List.range x.gpb).filter fun r => r / 4 % 4 == m).length
      four.all (fun j => all.contains j && coreAdmits s j (share (j - k)) row) &&
        parkFits s asid c x.gpb row.nregs four).map fun k => [k, k + 1, k + 2, k + 3]

/-- R333: whether a partition's contexts run: its interface is unlocked or in run (log entry 35). -/
def partRuns (s : State) (p : Nat) : Bool := (s.part p).tdis == 0 || (s.part p).tdis == 2

/-- R359: whether the queue that made a grid is switched in. -/
def sourceServed (s : State) (x : Grid) : Bool :=
  match x.source with
  | .queue fe q _ => DWord.f (s.queue fe q).ctl 35 32 != 2
  | .device .. => true

/-- R93: the next block of a grid is placed, if it fits; a malformed entry stops the context (R114). -/
def placeBlock (s : State) (n : Nat) : Option State :=
  match s.grid? n with
  | none => none
  | some x =>
    match s.ctx? x.asid with
    | none => none
    | some c =>
      if !(c.placing && partRuns s c.part && sourceServed s x && decide (x.nextBlock < x.blocks)) then none
      else
        let s := bindBars s n
        if !((s.grid? n).any fun y => y.bound) || entryDown s x.asid c x.entry then none
        else
          match readEntry s x.asid c x.entry with
          | none => some (contextError s x.asid 3)
          | some row =>
            match chooseCores s x.asid c x row with
            | none => none
            | some cores => some (admitBlock s n x c row cores)

/-- R93: a front end's grids, the highest class first, in the order they came. -/
def gridOrder (s : State) (fe : Nat) : List Nat :=
  let all := (look fe s.feGrids).getD []
  (List.range 8).reverse.flatMap fun c => all.filter fun n => (s.grid? n).any fun x => x.cls == c

/-! ## Packed groups -/

/-- R97: PACKING_TIMER_EXPIRY: no item for the entry has come for the packing timer. -/
def execPackingTimerExpiry (asid core entry grid : Nat) (s : State) : Res :=
  match look entry (s.set asid core).timers with
  | some due => .next (if due ≤ s.now then formGroup s asid core entry grid else s)
  | none => .next s

/-- R97, R102, R115, R116: the packed group of some items. -/
def packedGroup (c : Context) (asid core block : Nat) (row : EntryRow) (first : Item) (items : List Item) (now : Nat) : Group :=
  let g := newGroup c asid core block first.grid first.entry row items.length first.args now
  let g := { g with
    packed := true
    cls := first.cls
    lidx := first.origin.lidx
    bcnt := first.bcnt
    bidx := first.bidx
    opening := 1
    sched := { g.sched with held := items.map (·.spot) } }
  (List.range items.length).foldl (fun (g : Group) t =>
    match items[t]? with
    | none => g
    | some i => g.modThread t fun x =>
      { (List.range 4).foldl (fun (x : Thread) k => x.setReg k (i.payload[k]?.getD 0#32)) x with
        ticket := i.ticket, origin := i.origin, payload := i.payload, prefixKey := i.prefixKey }) g

/-- R92, R100, R102: whether a packed group of an entry can be admitted on a core. -/
def packedFits (s : State) (asid core : Nat) (c : Context) (row : EntryRow) : Bool :=
  (decide (packedOn s core < 256) || decide (0 < freePlaces s core)) && coreServes s core &&
  decide (benchUsed s core + row.bench ≤ benchCap s core) && parkFits s asid c 1 row.nregs [core]

/-- R100 to R102: the oldest packed group that waits on a core is admitted as a block of one. The spec gives no order in which
formed groups are tried; the model tries the oldest alone, and one that does not fit holds up those behind it (log entry
101). -/
def admitPacked (s : State) (asid core : Nat) (c : Context) : State :=
  let x := s.set asid core
  match x.formed with
  | [] => s
  | f :: rest =>
    match f.items with
    | [] => s.setSet asid core { x with formed := rest }
    | first :: _ =>
      if entryDown s asid c first.entry then s
      else match readEntry s asid c first.entry with
      | none => contextError s asid 3
      | some row =>
        if !packedFits s asid core c row then s
        else
          let s := s.setSet asid core { x with formed := rest }
          let (b, s) := s.takeName
          let (s, gid) := admitGroup s (packedGroup c asid core b row first f.items s.now)
          let blk : Block :=
            { asid := asid, grid := first.grid, index := first.bidx, gpb := 1, cores := [core], live := [gid],
              benchSize := row.bench, bench := [(core, [])],
              benchAt := [(core, takeUnits s core row.bench)], cbar := row.cbar, qbar := row.qbar, coreBars := [],
              quadBars := [], packed := true }
          { s with blocks := put b blk s.blocks }.modGrid first.grid fun y => { y with live := y.live + 1 }

/-- R100: PACKED_GROUP_ADMIT; a hard pre-emption admits nothing (R352). -/
def execPackedGroupAdmit (asid core : Nat) (s : State) : Res :=
  match s.ctx? asid with
  | none => .next s
  | some c =>
    match c.preempt with
    | .none => .next (admitPacked s asid core c)
    | .soft => .next (admitPacked s asid core c)
    | _ => .next s

end Sys2Proof.Machine
end

