-- ==== Sys2Proof/Machine/Expand.lean ====
section
/-!
DEFINITION. The expand unit (R103 to R106, R135 to R142): the rendezvous of a set, the dealing of iterations, the held
order of contributions and their end.
-/

namespace Sys2Proof.Machine

/-! ## An expansion's numbers (R104) -/

/-- T, the number of receivers and of owners. -/
def Expansion.total (x : Expansion) : Nat := x.starts.length

/-- P_o, the sum of the lengths before an owner. -/
def Expansion.before (x : Expansion) (o : Nat) : Nat := (x.lens.take o).foldl (fun n l => n + l.toNat) 0

/-- N, the sum of all lengths. -/
def Expansion.count (x : Expansion) : Nat := x.before x.lens.length

/-- The owner of an iteration, searched from an owner on whose range begins at `p`. -/
def ownerFrom (k : Nat) : List Word → Nat → Nat → Nat
  | [], o, _ => o
  | l :: ls, o, p => if k < p + l.toNat then o else ownerFrom k ls (o + 1) (p + l.toNat)

def Expansion.owner (x : Expansion) (k : Nat) : Nat := ownerFrom k x.lens 0 0

/-- The rank of a thread of a member: the receivers before it (R104). -/
def Expansion.rank (x : Expansion) (member t : Nat) : Nat :=
  ((x.masks.take member).foldl (fun n m => n + (threadsOf m).length) 0) +
    ((threadsOf (x.masks.getD member 0#32)).filter fun u => decide (u < t)).length

/-- The member and thread of each rank, in order. -/
def Expansion.ranks (x : Expansion) : List (Nat × Nat) :=
  (List.range x.masks.length).flatMap fun m => (threadsOf (x.masks.getD m 0#32)).map fun t => (m, t)

/-- R139: the waves of a member that have closed; all of them once it has issued `xend` (R140). -/
def Expansion.closedWaves (x : Expansion) (m : Nat) : Option Nat :=
  match x.ends.getD m none with
  | some _ => none
  | none => some (x.waves.getD m 0 - 1)

/-- R105, R139: the first iteration, from the first of an owner on, that each rank has still to close. -/
def Expansion.openFrom (x : Expansion) (o : Nat) : List Nat :=
  let n := x.total
  (List.range n).filterMap fun r =>
    (x.closedWaves ((x.ranks.getD r (0, 0)).1)).map fun b => max b ((x.before o + (n - 1 - r)) / n) * n + r

/-- R105, R139: whether every iteration of an owner before `k` is closed. -/
def Expansion.closedBefore (x : Expansion) (o k : Nat) : Bool := (x.openFrom o).all fun j => decide (k ≤ j)

/-- R105, R139: whether a held contribution may be applied: no earlier iteration of its owner is open or holds one. -/
def Expansion.mayApply (x : Expansion) (c : XContribution) : Bool :=
  x.closedBefore c.owner c.k && !(x.held.any fun d => d.owner == c.owner && decide (d.k < c.k))

/-- R142, R370: how many of an owner's iterations, from its first, are applied: those up to the one whose contribution was
applied last, and all before the first that is open or holds a contribution, so that those that `xend` resolved undealt count. -/
def Expansion.appliedCount (x : Expansion) (o : Nat) : Nat :=
  let p := x.before o
  let n := (x.lens.getD o 0#32).toNat
  let stops := x.openFrom o ++ (x.held.filter (·.owner == o)).map (·.k)
  max (x.applied.getD o 0) (stops.foldl (fun m k => min m (k - p)) n)

/-- R139, R370: the empty contributions that a member leaves as its present wave closes: one for each receiver whose iteration
has no contribution, held or applied. -/
def Expansion.empties (x : Expansion) (m gid : Nat) : List XContribution :=
  let w := x.waves.getD m 0
  if w = 0 then []
  else (threadsOf (x.masks.getD m 0#32)).filterMap fun t =>
    let k := (w - 1) * x.total + x.rank m t
    let o := x.owner k
    if decide (x.count ≤ k) || (x.held.any fun d => d.k == k) || decide (k - x.before o < x.applied.getD o 0) then none
    else some { k := k, owner := o, value := 0#32, rnd := ⟨.rne, 0⟩, gid := gid, empty := true }

/-- R139: the present wave of a member closes. -/
def Expansion.closeWave (x : Expansion) (m gid : Nat) : Expansion := { x with held := x.held ++ x.empties m gid }

/-- R139: whether the contributions held pass the 64 on chip and the spill area (log entry 24). -/
def Expansion.spilt (x : Expansion) : Bool := decide (64 + Config.spillRoom < x.held.length)

/-- R105: the first contribution that may be applied. -/
def Expansion.nextApply (x : Expansion) : Option XContribution := x.held.find? x.mayApply

/-- R140: whether every member has issued `xend` and nothing is held. -/
def Expansion.over (x : Expansion) : Bool := x.ends.all Option.isSome && x.held.isEmpty

/-! ## Slots and the rendezvous -/

/-- R103: the expansion slots in use on a core. -/
def slotsUsed (s : State) (core : Nat) : List Nat :=
  (s.sets.filter fun e => e.1 % 256 == core).flatMap fun e => e.2.expands.map (·.1)

/-- R103: a free one of a core's 16 slots. -/
def freeSlot (s : State) (core : Nat) : Option Nat :=
  (List.range 16).find? fun k => !(slotsUsed s core).contains k

/-- R103: the members of an arrival's set, by rank, if all have come. -/
def setOf (l : List XArrival) (a : XArrival) : Option (List XArrival) :=
  let base := a.rank / a.size * a.size
  let mine := (List.range a.size).filterMap fun i =>
    l.find? fun b => b.block == a.block && b.size == a.size && b.rank == base + i
  if mine.length = a.size then some mine else none

/-- R135: an expansion as it opens. -/
def openExpansion (ms : List XArrival) : Expansion :=
  let op := (ms.map (·.op)).headD 0
  let starts := ms.flatMap (·.starts)
  { size := ms.length, op := op, gids := ms.map (·.gid), masks := ms.map (·.mask), waves := ms.map fun _ => 0,
    ends := ms.map fun _ => none, starts := starts, lens := ms.flatMap (·.lens),
    partials := starts.map fun _ => (FoldOp.ofCode op).identity, applied := starts.map fun _ => 0, held := [] }

/-- A group that waited in the expand unit has completed its instruction. -/
def Group.finishWait (g : Group) (now : Nat) : Group :=
  let g := ({ g.wake now with pc := nextPc g.pc 4 }).finish false now
  { g with sched := { g.sched with stintCount := 0 } }

/-- R135: the members join their open expansion; one that waited goes on. -/
def joinExpansion (s : State) (slot : Nat) (ms : List XArrival) : State :=
  (List.range ms.length).foldl (fun (s : State) i =>
    match ms[i]? with
    | none => s
    | some a => s.modGroup a.gid fun g =>
      let g := { g with expand := some (slot, i), threads := g.threads.map fun t => { t with current := none } }
      if g.wait == Wait.xpand then g.finishWait s.now else g) s

/-- R135: the members of a set whose ops disagree raise ILLOP, cause 2, at their `xpand`. -/
def refuseSet (s : State) (ms : List XArrival) : State :=
  ms.foldl (fun s a =>
    match s.group? a.gid with
    | none => s
    | some g =>
      let g := { g with wait := Wait.none }
      takeEvent s a.gid g
        { code := codeILLOP, cause := 2, epc := g.pc, replay := g.amask, info := 0#64, instr := g.pc, shown := g.amask,
          report := { inH := g.mode == Mode.handler } }) s

/-- R135: whether the ops of a complete set disagree. -/
def opsDisagree (ms : List XArrival) : Bool := ms.any fun a => a.op != (ms.map (·.op)).headD 0

/-- R135: the complete sets of a context's set on a core whose ops disagree are refused, whether a slot is free or not. -/
def refuseReady (s : State) (asid core : Nat) : Nat → State
  | 0 => s
  | fuel + 1 =>
    let x := s.set asid core
    match x.xwait.findSome? fun a => (setOf x.xwait a).filter opsDisagree with
    | none => s
    | some ms =>
      refuseReady (refuseSet (s.setSet asid core { x with xwait := x.xwait.filter fun a => !ms.contains a }) ms) asid core
        fuel

/-- R103, R135: complete sets of a context's set on a core open while slots are free. -/
def openReady (s : State) (asid core : Nat) : Nat → State
  | 0 => s
  | fuel + 1 =>
    let x := s.set asid core
    match x.xwait.findSome? fun a => setOf x.xwait a with
    | none => s
    | some ms =>
      let rest := x.xwait.filter fun a => !ms.contains a
      match freeSlot s core with
      | none => s
      | some slot =>
        let s := s.setSet asid core { x with xwait := rest, expands := put slot (openExpansion ms) x.expands }
        openReady (joinExpansion s slot ms) asid core fuel

/-- R103: a slot came free on a core: any context's complete set may open. -/
def openAll (s : State) (core : Nat) : State :=
  ((s.sets.filter fun e => e.1 % 256 == core).map fun e => (e.1 / 256, e.2.xwait.length)).foldl
    (fun s k => openReady s k.1 core k.2) s

/-! ## xpand -/

/-- R103: the size a set code names. -/
def setSize (z : BitVec 2) : Nat := 2 ^ z.toNat

/-- R135: the conditions of cause 2 that need the group's state. -/
def xpandRefused (s : State) (g : Group) (size : Nat) : Bool :=
  g.expand.isSome || (g.packed && decide (1 < size)) ||
  match s.block? g.block with
  | some b => decide (b.gpb < g.rank / size * size + size)
  | none => false

/-- R135: xpand. -/
def execXpand (f : XpandF) (s : State) : Res :=
  issueChecked (.xpand f) s Group.active (fun g => xpandRefused s g (setSize f.z)) (fun _ => false) fun g =>
    let a : XArrival :=
      { gid := s.cur, block := g.block, rank := g.rank, size := setSize f.z, op := f.o.toNat, mask := g.amask,
        starts := g.active.map fun t => g.src f.a t, lens := g.active.map fun t => g.src f.b t }
    let x := s.set g.asid g.core
    let s := (s.modGrp Group.voidFlash).setSet g.asid g.core { x with xwait := x.xwait ++ [a] }
    let n := x.xwait.length + 1
    let s := openReady (refuseReady s g.asid g.core n) g.asid g.core n
    match s.grp with
    | none => s
    | some h =>
      if (s.set g.asid g.core).xwait.any fun b => b.gid == s.cur then s.setGrp (h.block_ .xpand s.now)
      else if h.expand.isSome then s.retire h 4 (issueCycles h) f.e
      else s

/-! ## xnext and sred -/

/-- The open expansion of a group: its slot, the group's member rank and the expansion. -/
def expansionOf (s : State) (g : Group) : Option (Nat × Nat × Expansion) :=
  match g.expand with
  | none => none
  | some (slot, m) => (look slot (s.set g.asid g.core).expands).map fun x => (slot, m, x)

/-- An expansion put back. -/
def State.setExpansion (s : State) (asid core slot : Nat) (x : Expansion) : State :=
  s.modSet asid core fun c => { c with expands := put slot x c.expands }

/-- R137: one receiver's share of a wave. -/
def dealTo (x : Expansion) (m w d p : Nat) (g : Group) (t : Nat) : Group :=
  let k := w * x.total + x.rank m t
  if k < x.count then
    let o := x.owner k
    let g := g.writeV t d (x.starts.getD o 0#32 + BitVec.ofNat 32 (k - x.before o))
    (g.writeP t p true).modThread t fun y => { y with ox := BitVec.ofNat 32 o, current := some (k, o) }
  else (g.writeP t p false).modThread t fun y => { y with current := none }

/-- R137, R139: xnext closes the group's wave and deals the next. -/
def execXnext (f : XnextF) (s : State) : Res :=
  issueChecked (.xnext f) s Group.active (fun g => (expansionOf s g).isNone) (fun _ => false) fun g =>
    match expansionOf s g with
    | none => s
    | some (slot, m, x) =>
      let w := x.waves.getD m 0
      let receivers := threadsOf (x.masks.getD m 0#32)
      let others := g.active.filter fun t => !receivers.contains t
      let h := receivers.foldl (dealTo x m w f.d.toNat f.p.toNat) g.voidFlash
      let h := others.foldl (fun (h : Group) t => h.writeP t f.p.toNat false) h
      let x := x.closeWave m s.cur
      if x.spilt then contextError s g.asid 4
      else
        let s := s.setExpansion g.asid g.core slot { x with waves := x.waves.set m (w + 1) }
        s.retire h 4 (max (receivers.length + others.length) 1) f.e

/-- R138, R139: sred. -/
def execSred (f : SredF) (s : State) : Res :=
  issueChecked (.sred f) s Group.active (fun g => (expansionOf s g).isNone) (fun _ => false) fun g =>
    match expansionOf s g with
    | none => s
    | some (slot, _, x) =>
      let new := g.active.filterMap fun t =>
        (g.thread t).current.map fun (c : Nat × Nat) =>
          ({ k := c.1, owner := c.2, value := g.src f.a t, rnd := g.laneRnd t 0, gid := s.cur, empty := false } :
            XContribution)
      let x := { x with held := x.held ++ new }
      if x.spilt then contextError s g.asid 4
      else (s.setExpansion g.asid g.core slot x).retire g.voidFlash 4 (issueCycles g) f.e

/-! ## The end -/

/-- R140: a member's group when its expansion ends: its owner threads take their partials. -/
def endMember (x : Expansion) (m : Nat) (g : Group) : Group :=
  let d := (x.ends.getD m none).getD 0
  let g := (List.range x.total).foldl (fun (g : Group) o =>
    let r := x.ranks.getD o (0, 0)
    if r.1 = m then g.writeV r.2 d (x.partials.getD o 0#32) else g) g
  { g.voidFlash with expand := none, threads := g.threads.map fun t => { t with current := none } }

/-- R140: an expansion that is over writes its partials, frees its slot and lets its members go; the issuing member
completes by its own meaning. -/
def finishExpansion (s : State) (asid core slot : Nat) : State :=
  match look slot (s.set asid core).expands with
  | none => s
  | some x =>
    if !x.over then s
    else
      let s := s.modSet asid core fun c => { c with expands := drop slot c.expands }
      let s := (List.range x.gids.length).foldl (fun (s : State) m =>
        s.modGroup (x.gids.getD m 0) fun g =>
          let h := endMember x m g
          if h.wait == Wait.xend then h.finishWait s.now else h) s
      openAll s core

/-- R139, R140: xend closes the group's wave, then waits for the others and for what is held. -/
def execXend (f : XendF) (s : State) : Res :=
  issueChecked (.xend f) s Group.active (fun g => (expansionOf s g).isNone) (fun _ => false) fun g =>
    match expansionOf s g with
    | none => s
    | some (slot, m, x) =>
      let x := x.closeWave m s.cur
      if x.spilt then contextError s g.asid 4
      else
        let s := s.setExpansion g.asid g.core slot { x with ends := x.ends.set m (some f.d.toNat) }
        let s := finishExpansion s g.asid g.core slot
        match s.grp with
        | none => s
        | some h =>
          if h.expand.isSome then s.setGrp (h.block_ .xend s.now) else s.retire h.voidFlash 4 (issueCycles h) f.e

/-- R105, R139: CONTRIBUTION_APPLY: the expand unit applies the next contribution of a slot, with its own rounding and
its flags to the group that made it; an empty one leaves the partial as it is. -/
def execContributionApply (asid core slot : Nat) (s : State) : Res :=
  match look slot (s.set asid core).expands with
  | none => .next s
  | some x =>
    match x.nextApply with
    | none => .next s
    | some c =>
      let old := x.partials.getD c.owner 0#32
      let r := if c.empty then (old, 0#7) else (FoldOp.ofCode x.op).step c.rnd old c.value
      let x := { x with
        held := x.held.erase c
        partials := x.partials.set c.owner r.1
        applied := x.applied.set c.owner (max (x.applied.getD c.owner 0) (c.k + 1 - x.before c.owner)) }
      let s := (s.setExpansion asid core slot x).modGroup c.gid fun g => g.orFlags r.2
      .next (finishExpansion s asid core slot)

end Sys2Proof.Machine
end

