-- ==== Sys2Proof/Machine/Engines.lean ====
section
/-!
DEFINITION. The copy engines (R158, R174, R175, R200 to R205): issue, the parts of an operation in list order, its
events, the completion counters, and parts served for another module (R376, R377).
-/

namespace Sys2Proof.Machine

/-! ## Reading and writing as an engine -/

/-- A core of a die, standing for the die's fabric interface. -/
def dieCore (d : Nat) : Nat := d * 64

/-- R201: one page's translation for an engine's access. -/
def engineTranslate (s : State) (asid : Nat) (mode : Mode) (acc : Access) (va : Nat) : Except Trap Page :=
  if 2 ^ 57 ≤ va then .error (walkTrap codeXLATE 0 4 va)
  else
    match walk s asid va with
    | .error t => .error t
    | .ok p =>
      match p.check acc mode va with
      | some t => .error t
      | none => .ok p

/-- R201: whether a failure holds an operation (a translation or permission failure of a page) or fails it. -/
def holds (t : Trap) : Bool := t.code == codeXLATE || t.code == codePERM

/-- R158, R201: a rule of the page formats broken: the record names the first byte of the block, or of the element. -/
def formatTrap (unit va : Nat) : Trap := plainTrap codeFORMAT (va - va % unit)

/-- The bytes left in a page from an address on. -/
def Page.left (p : Page) (va : Nat) : Nat := p.vbase + p.span - va

/-- The bytes from an address on that lie together in the module or the host: to the end of the page, and of its 4 KiB, which an
alias page deals over the dies (R151) and the host translates one by one (R320). -/
def Page.reach (p : Page) (va : Nat) : Nat := min (p.left va) (4096 - va % 4096)

/-- R149: a grain format on host memory. -/
def Page.hostGrain (p : Page) : Bool := p.fmt != .raw && isHost p.frame

/-- The sectors of the blocks that hold `n` logical bytes from an offset on. -/
def Page.runSectors (p : Page) (off n : Nat) : List Nat :=
  ((List.range ((off + n - 1) / 64 + 1 - off / 64)).flatMap fun i => p.blockSectors (off / 64 + i)).eraseDups

/-- R158: `n` bytes read at an address: raw bytes, or decoded elements of a grain page, no older copy of which stays in the die's RDC
(R166). -/
def engineRead (s : State) (asid die : Nat) (mode : Mode) : Nat → Nat → Nat → Except Trap (List Byte × State)
  | 0, _, _ => .ok ([], s)
  | fuel + 1, va, n =>
    if n = 0 then .ok ([], s)
    else
      match engineTranslate s asid mode .read va with
      | .error t => .error t
      | .ok p =>
        let m := min n (p.reach va)
        let part : Except Trap (List Byte × State) :=
          if p.hostGrain then .error (plainTrap codePERM va)
          else if p.fmt != .raw then
            if va % 4 != 0 || m % 4 != 0 then .error (formatTrap 4 va)
            else
              let q : Place := ⟨p, va - p.vbase, p.frame⟩
              if p.runDown s q.off m then .error (busyTrap va)
              else if (List.range ((m + 63) / 64 + 1)).any fun i => (Place.mk p (min (q.off + 64 * i) (q.off + m - 1)) p.frame).damaged s 4 then
                .error (plainTrap codeDATAERR va)
              else .ok (grainWords s q m, dropRdcSectors s die p.own (p.runSectors q.off m))
          else
            match p.rawPlace s asid .read va with
            | .error t => .error t
            | .ok pa =>
              if (List.range m).any fun i => s.pastL1Lost (dieCore die) p.own (pa + i) 1 then .error (plainTrap codeDATAERR va)
              else
                let s := if isHost pa || homeDie pa == die then s else s.rdcFill die p.own pa
                .ok (State.readAt (s.pastL1Byte (dieCore die) p.own) (fun i => pa + i) m, s)
        match part with
        | .error t => .error t
        | .ok (bs, s) =>
          match engineRead s asid die mode fuel (va + m) (n - m) with
          | .error t => .error t
          | .ok (more, s) => .ok (bs ++ more, s)

/-- Bytes written to raw pages at an address; a grain page is no raw destination. -/
def engineWrite (s : State) (asid die : Nat) (mode : Mode) : Nat → Nat → List Byte → Except Trap State
  | 0, _, _ => .ok s
  | fuel + 1, va, bs =>
    if bs.isEmpty then .ok s
    else
      match engineTranslate s asid mode .write va with
      | .error t => .error t
      | .ok p =>
        if p.hostGrain then .error (plainTrap codePERM va)
        else if p.fmt != .raw then .error (plainTrap codeFORMAT va)
        else
          match p.rawPlace s asid .write va with
          | .error t => .error t
          | .ok pa =>
            let m := min bs.length (p.reach va)
            let s := s.writeAt (fun s a b => s.pastL1Write (dieCore die) p.own a b) (fun i => pa + i) (bs.take m)
            engineWrite s asid die mode fuel (va + m) (bs.drop m)

/-- R158: the grain formats of the pages in which the first and the last of `n` bytes from an address lie; a page without a translation
has none. -/
def grainsAt (s : State) (asid : Nat) (mode : Mode) (va n : Nat) : List PageFmt :=
  ([va, va + n - 1].filterMap fun a => match engineTranslate s asid mode .read a with
    | .ok p => if p.fmt = .raw then none else some p.fmt
    | .error _ => none).eraseDups

/-- Words of four bytes. -/
def wordsOf (bs : List Byte) : List Word :=
  (List.range (bs.length / 4)).map fun i => BitVec.ofNat 32 (ofBytes ((bs.drop (4 * i)).take 4))

/-- R158: one block of a grain page written from a source of 64 logical bytes: a raw block where the source page has
the same format, else encoded from FP32. `n` is the block's first element in the operation's output (R218). -/
def engineBlock (s : State) (o : EngineOp) (p : Page) (va src n : Nat) : Except Trap (State × Flags) :=
  match engineTranslate s o.asid o.mode .read src with
  | .error t => .error t
  | .ok q =>
    let j := (va - p.vbase) / 64
    if q.hostGrain then .error (plainTrap codePERM src)
    else if p.blockDown s j then .error (busyTrap va)
    else if q.fmt = p.fmt then
      if src % 64 != 0 then .error (formatTrap 64 src)
      else if q.blockDown s ((src - q.vbase) / 64) then .error (busyTrap src)
      else
        let s := dropRdcSectors s o.die q.own (q.blockSectors ((src - q.vbase) / 64))
        let b := readBlock s q ((src - q.vbase) / 64)
        if (Place.mk q (src - q.vbase) q.frame).damaged s 64 then .error (plainTrap codeDATAERR src)
        else .ok (writeBlock s (dieCore o.die) p j b, 0#7)
    else if (grainsAt s o.asid o.mode src 64).contains p.fmt then .error (formatTrap 64 (src + 63))
    else
      match engineRead s o.asid o.die o.mode 17 src 64 with
      | .error t => .error t
      | .ok (bs, s) =>
        let (b, fl) := encodeBlock p.fmt (fun i => engineRnd o.rm o.seed o.lidx o.count (n + i)) (wordsOf bs)
        .ok (writeBlock s (dieCore o.die) p j b, fl)

/-! ## The parts of an operation -/

/-- What one part came to: the bytes or elements it covered, or why the operation stops there. -/
inductive Part where
  | done (s : State) (n : Nat) (fl : Flags)
  | stop (t : Trap) (held : Bool)
  | await
  deriving Repr

/-- A part from a checked access. -/
def Part.of (n : Nat) (r : Except Trap (State × Flags)) : Part :=
  match r with
  | .ok (s, fl) => .done s n fl
  | .error t => .stop t (holds t)

/-- R158: how many bytes of a raw destination one part may take, the source being of a format: from a raw page, to the end of the
page; decoded elements go on into the next page, which starts within one where they are not aligned to the destination. -/
def copyRoom (s : State) (o : EngineOp) (p : Page) (src : PageFmt) (dva : Nat) : Nat :=
  if src = .raw then p.left dva
  else match engineTranslate s o.asid o.mode .write (dva + p.left dva) with
    | .ok next => if next.fmt = .raw then 64 else p.left dva
    | .error _ => 64

/-- R202: the next part of a copy: at most 64 bytes, within one page of the source, or one block of a grain page. The spec gives a
part no size: up to 63 sound bytes before damaged ones stay unwritten where a copy fails (log entry 115). -/
def copyPart (s : State) (o : EngineOp) : Part :=
  let dva := o.dst.base.toNat + o.dstOff + o.done
  let sva := o.src.base.toNat + o.srcOff + o.done
  let left := o.len - o.done
  match engineTranslate s o.asid o.mode .write dva with
  | .error t => .stop t (holds t)
  | .ok p =>
    if p.fmt != .raw then
      if dva % 64 != 0 || decide (left < 64) then .stop (formatTrap 64 dva) false
      else if isHost p.frame then .stop (plainTrap codePERM dva) true
      else Part.of 64 (engineBlock s o p dva sva (o.done / 4))
    else
      match engineTranslate s o.asid o.mode .read sva with
      | .error t => .stop t (holds t)
      | .ok q =>
        let n := min (min left 64) (min (copyRoom s o p q.fmt dva) (q.left sva))
        Part.of n <|
          match engineRead s o.asid o.die o.mode 2 sva n with
          | .error t => .error t
          | .ok (bs, s) =>
            match engineWrite s o.asid o.die o.mode 2 dva bs with
            | .error t => .error t
            | .ok s => .ok (s, 0#7)

/-- R203: the module and element fields of a list entry; none where bits 63:57 are not zero. -/
def listEntry (x : Nat) : Option (Nat × Nat) := if field x 63 57 != 0 then none else some (field x 56 48, field x 47 0)

/-- R376, R382: the pod position of the module, and the pod's size. -/
def podPos (s : State) : Nat := DWord.f (s.mgmt 0 11) 8 0
def podSize (s : State) : Nat := DWord.f (s.mgmt 0 11) 24 16 + 1

/-- The key of a remote element's answer. -/
def replyKey (op element : Nat) : Nat := op * 2 ^ 64 + element

/-- R203: entry `i` of an operation's list: its module, element number and the element's address in a window. -/
def entryOf (s : State) (o : EngineOp) (idx indexed : Window) (i : Nat) : Except Trap (Nat × Nat × Nat × State) :=
  let iva := idx.base.toNat + o.idxOff + 8 * i
  match engineRead s o.asid o.die o.mode 3 iva 8 with
  | .error t => .error t
  | .ok (bs, s) =>
    match listEntry (ofBytes bs) with
    | none => .error { code := codeILLOP, cause := 2, info := iva }
    | some (m, j) => .ok (m, j, indexed.base.toNat + j * o.esize, s)

/-- R376, R377: a remote element that no module serves. -/
def remoteDead (s : State) (o : EngineOp) (m : Nat) : Bool :=
  decide (podSize s ≤ m) || match s.ctx? o.asid with
    | some c => c.job == 0
    | none => true

/-- R201, R203: the answer for a remote element, or why the operation stops at it or waits. -/
def remoteAnswer (s : State) (name : Nat) (o : EngineOp) (m i va : Nat) : Except Part (List Byte) :=
  if remoteDead s o m then .error (.stop (plainTrap codeXLATE va) false)
  else
    match look (replyKey name i) s.replies with
    | none => .error .await
    | some (0, bs) => .ok bs
    | some (code, _) => .error (.stop (plainTrap code va) false)

/-- R158: what a link carries of a block of a grain page: its packed bytes and its side bytes. -/
def GBlock.wire (f : PageFmt) (b : GBlock) : List Byte := b.packed f ++ [BitVec.ofNat 8 b.e, BitVec.ofNat 8 b.mu]

/-- A block from what a link carries, where the bytes are one of the format (8, 12 or 18 of them; 64 are FP32 values). -/
def blockOfWire (f : PageFmt) (bs : List Byte) : Option GBlock :=
  if f != .raw && bs.length == f.blockBytes + 2 then
    some ⟨(bs.getD f.blockBytes 0#8).toNat, (bs.getD (f.blockBytes + 1) 0#8).toNat, unpackElems f (ofBytes (bs.take f.blockBytes))⟩
  else none

/-- The number of a format, and the byte of those of the pages that an element was read from: two bits each. -/
def PageFmt.code : PageFmt → Nat
  | .raw => 0
  | .g3 => 1
  | .g5 => 2
  | .g8 => 3
def codeOfFormats (fs : List PageFmt) : Byte := BitVec.ofNat 8 (fs.foldr (fun f n => f.code + 4 * n) 0)

/-- R158: the grain formats of the pages that an element of `n` bytes was read from, as a link tells them: by a whole block, or by the
byte behind the element's (log entry 110). -/
def wireFormats (n : Nat) (bs : List Byte) : List PageFmt :=
  if bs.length = n + 1 then
    let b := (bs.getD n 0#8).toNat
    [PageFmt.g3, .g5, .g8].filter fun f => b % 4 == f.code || b / 4 % 4 == f.code
  else if n = 64 then [PageFmt.g3, .g5, .g8].filter fun f => (blockOfWire f bs).isSome
  else []

/-- The element's bytes from what a link carries: raw bytes, or a block decoded. -/
def wireBytes (n : Nat) (bs : List Byte) : List Byte :=
  match [PageFmt.g3, .g5, .g8].findSome? fun f => if n = 64 then (blockOfWire f bs).map fun b => (f, b) else none with
  | some (f, b) => (List.range 16).flatMap fun i => toBytes 4 (b.fp32 f i).toNat
  | none => (bs ++ List.replicate n 0#8).take n

/-- R158: what is sent of an element: of 64 bytes that are a block of a grain page the block, of others that lie in a grain page, in
part or whole, their bytes and the formats; else its bytes. -/
def elementWire (s : State) (asid die : Nat) (mode : Mode) (va n : Nat) : Except Trap (List Byte × State) :=
  match engineTranslate s asid mode .read va with
  | .error t => .error t
  | .ok p =>
    match engineRead s asid die mode 17 va n with
    | .error t => .error t
    | .ok (bs, s) =>
      let fs := grainsAt s asid mode va n
      if fs.isEmpty then .ok (bs, s)
      else if n = 64 && va % 64 == 0 then .ok ((readBlock s p ((va - p.vbase) / 64)).wire p.fmt, s)
      else .ok (bs ++ [codeOfFormats fs], s)

/-- R158, R203: the rule of a grain page that a gather's element breaks: it reads whole elements, and with 64 bytes a whole block. -/
def gatherFormat (s : State) (asid : Nat) (mode : Mode) (p : Page) (va n : Nat) : Option Trap :=
  let unit := if n = 64 then 64 else 4
  if p.fmt != .raw && va % unit != 0 then some (formatTrap unit va)
  else if n = 64 && va % 64 != 0 && !(grainsAt s asid mode va 64).isEmpty then some (formatTrap 64 (va + 63))
  else none

/-- R203, R158: the bytes of element `i` of a gather: local, or as its module answered. -/
def gatherValue (s : State) (name : Nat) (o : EngineOp) (idx : Window) (i : Nat) :
    Except Part (List Byte × State) :=
  match entryOf s o idx o.src i with
  | .error t => .error (.stop t (holds t))
  | .ok (m, j, va, s) =>
    if o.src.limit.toNat < j * o.esize + o.esize then .error (.stop (plainTrap codePERM va) false)
    else if m != podPos s then (remoteAnswer s name o m i va).map fun bs => (wireBytes o.esize bs, s)
    else
      match engineTranslate s o.asid o.mode .read va with
      | .error t => .error (.stop t (holds t))
      | .ok p =>
        match gatherFormat s o.asid o.mode p va o.esize with
        | some t => .error (.stop t false)
        | none =>
          match engineRead s o.asid o.die o.mode 17 va o.esize with
          | .error t => .error (.stop t (holds t))
          | .ok r => .ok r

/-- The values of consecutive elements of a gather. -/
def gatherValues (s : State) (name : Nat) (o : EngineOp) (idx : Window) : Nat → Nat → Except Part (List Byte × State)
  | 0, _ => .ok ([], s)
  | n + 1, i =>
    match gatherValue s name o idx i with
    | .error p => .error p
    | .ok (bs, s) =>
      match gatherValues s name o idx n (i + 1) with
      | .error p => .error p
      | .ok (more, s) => .ok (bs ++ more, s)

/-- R158: whether a gather's element comes, in part or whole, from a page of the destination's format. -/
def sameFormat (s : State) (name : Nat) (o : EngineOp) (idx : Window) (fmt : PageFmt) (i : Nat) : Bool :=
  match entryOf s o idx o.src i with
  | .error _ => false
  | .ok (m, _, va, s) =>
    if m != podPos s then
      match remoteAnswer s name o m i va with
      | .ok bs => (wireFormats o.esize bs).contains fmt
      | .error _ => false
    else (grainsAt s o.asid o.mode va o.esize).contains fmt

/-- R158: a gather's block moved raw, from this module or another. -/
def gatherBlock (s : State) (name : Nat) (o : EngineOp) (idx : Window) (p : Page) (i dva : Nat) : Part :=
  match entryOf s o idx o.src i with
  | .error t => .stop t (holds t)
  | .ok (m, j, va, s) =>
    if o.src.limit.toNat < j * 64 + 64 then .stop (plainTrap codePERM va) false
    else if m != podPos s then
      match remoteAnswer s name o m i va with
      | .error x => x
      | .ok bs =>
        match blockOfWire p.fmt bs with
        | some b => .done (writeBlock s (dieCore o.die) p ((dva - p.vbase) / 64) b) 1 0#7
        | none => .stop (formatTrap 64 va) false
    else Part.of 1 (engineBlock s o p dva va (i * 16))

/-- R203: the next part of a gather: one element, or the elements of one block of a grain destination. -/
def gatherPart (s : State) (name : Nat) (o : EngineOp) (idx : Window) : Part :=
  let i := o.done
  let dva := o.dst.base.toNat + o.dstOff + i * o.esize
  match engineTranslate s o.asid o.mode .write dva with
  | .error t => .stop t (holds t)
  | .ok p =>
    if p.fmt = .raw then
      match gatherValue s name o idx i with
      | .error x => x
      | .ok (bs, s) => Part.of 1 ((engineWrite s o.asid o.die o.mode 17 dva bs).map fun s => (s, 0#7))
    else
      let k := 64 / o.esize
      if dva % 64 != 0 || decide (o.len - i < k) then .stop (formatTrap 64 dva) false
      else if isHost p.frame then .stop (plainTrap codePERM dva) true
      else if p.blockDown s ((dva - p.vbase) / 64) then .stop (busyTrap dva) false
      else if (List.range k).any fun q => sameFormat s name o idx p.fmt (i + q) then
        if o.esize != 64 then .stop (formatTrap 64 dva) false else gatherBlock s name o idx p i dva
      else
        match gatherValues s name o idx k i with
        | .error x => x
        | .ok (bs, s) =>
          let (b, fl) := encodeBlock p.fmt (fun q => engineRnd o.rm o.seed o.lidx o.count (i * o.esize / 4 + q)) (wordsOf bs)
          .done (writeBlock s (dieCore o.die) p ((dva - p.vbase) / 64) b) k fl

/-- R203: the next part of a scatter: one element; the answer for one of another module is the flags of its encoding (R221). -/
def scatterPart (s : State) (name : Nat) (o : EngineOp) (idx : Window) : Part :=
  let i := o.done
  let sva := o.src.base.toNat + o.srcOff + i * o.esize
  match entryOf s o idx o.dst i with
  | .error t => .stop t (holds t)
  | .ok (m, j, va, s) =>
    if o.dst.limit.toNat < j * o.esize + o.esize then .stop (plainTrap codePERM va) false
    else if m != podPos s then
      match remoteAnswer s name o m i va with
      | .error x => x
      | .ok bs =>
        Part.of 1 ((elementWire s o.asid o.die o.mode sva o.esize).map fun r =>
          (r.2.send (.remoteScatter m j r.1), BitVec.ofNat 7 (bs.headD 0#8).toNat))
    else
      match engineTranslate s o.asid o.mode .write va with
      | .error t => .stop t (holds t)
      | .ok p =>
        if p.fmt != .raw then
          if o.esize != 64 || va % 64 != 0 then .stop (formatTrap 64 va) false
          else if isHost p.frame then .stop (plainTrap codePERM va) true
          else Part.of 1 (engineBlock s o p va sva (i * 16))
        else
          Part.of 1 <|
            match engineRead s o.asid o.die o.mode 17 sva o.esize with
            | .error t => .error t
            | .ok (bs, s) => (engineWrite s o.asid o.die o.mode 17 va bs).map fun s => (s, 0#7)

/-- The next part of an operation. -/
def nextPart (s : State) (name : Nat) (o : EngineOp) : Part :=
  match o.kind, o.idx with
  | .copy, _ => copyPart s o
  | .gather, some idx => gatherPart s name o idx
  | .scatter, some idx => scatterPart s name o idx
  | _, none => copyPart s o

/-- Where a run of an operation ended. -/
inductive RunEnd where
  | complete
  | stop (t : Trap) (held : Bool)
  | await
  deriving DecidableEq, Repr

/-- R174, R175: the parts of an operation in order, until it is complete, stops or waits, for another module or for a die that is
down (R364); the fuel is what is left of it. -/
def runParts (name : Nat) : Nat → State → EngineOp → State × EngineOp × RunEnd
  | 0, s, o => (s, o, .complete)
  | fuel + 1, s, o =>
    if o.len ≤ o.done then (s, o, .complete)
    else
      match nextPart s name o with
      | .done s n fl => runParts name fuel s { o with done := o.done + max n 1, flags := o.flags ||| fl }
      | .stop t h => (s, o, if t.code = codeBusy then .await else .stop t h)
      | .await => (s, o, .await)

/-- The run of an operation from where it stands. -/
def runOp (s : State) (name : Nat) (o : EngineOp) : State × EngineOp × RunEnd := runParts name (o.len - o.done) s o

/-! ## Completion -/

/-- R204, R205: one more on a counter, with the operation's flags, and its mark set if it is clear. -/
def addCounter (s : State) (asid core k : Nat) (fl : Flags) (mark : Option Nat) : State :=
  let s := modSetAt s asid core fun x =>
    let c := (look k x.counters).getD {}
    { x with counters := put k { c with err := if c.err.isSome then c.err else mark, flags := c.flags ||| fl } x.counters }
  addToCounter s asid core k 1

/-- A queue that has failed (R374). -/
def failQueue (s : State) (fe q err : Nat) : State := s.modQueue fe q fun x => x.fail err

/-- R200, R201, R373: an operation is over, complete or failed with a record's number; room frees for others. -/
def endOp (s : State) (name : Nat) (o : EngineOp) (mark : Option Nat) : State :=
  let s := { s with ops := drop name s.ops, replies := s.replies.filter fun e => e.1 / 2 ^ 64 != name }
  let s := wakeWhere s fun _ g => g.wait == .engine
  match o.source with
  | .group _ core k => addCounter s o.asid core k o.flags mark
  | .queue fe q number => if mark.isSome then failQueue s fe q 4 else commandDone s fe q number

/-- R174: ENGINE_OP_COMPLETE: the operation does what is left of it and adds its increment. -/
def execEngineOpComplete (name : Nat) (s : State) : Res :=
  match look name s.ops with
  | none => .next s
  | some o =>
    if o.held.isSome then .next s
    else
      match runOp s name o with
      | (t, p, .complete) => .next (endOp t name p none)
      | _ => .next s

/-- R340: the record of an engine operation. -/
def engineRecord (o : EngineOp) (t : Trap) : Vector DWord 8 :=
  let k := match o.source with
    | .group _ _ k => k
    | .queue .. => 0
  let report : Report := { t.report with engine := some (BitVec.ofNat 64 (k + o.done * (if o.kind = .copy then 1 else o.esize) * 2 ^ 8)) }
  #v[recordWord0 t.code t.cause report 0#32, BitVec.ofNat 64 o.instr.toNat, BitVec.ofNat 64 t.info, o.grpid, o.place, 0#64,
     report.engine.getD 0#64, 0#64]

/-- Whether a context's fault buffer takes a record at once (R338). -/
def recordRoom (s : State) (asid : Nat) : Bool :=
  match s.ctx? asid with
  | some c => c.waiting.isEmpty && takesRecord s asid c
  | none => false

/-- R201: ENGINE_PAGE_FAULT: the operation runs up to a page that fails translation or permission, posts a record and is
held there until the host answers. -/
def execEnginePageFault (name : Nat) (s : State) : Res :=
  match look name s.ops with
  | none => .next s
  | some o =>
    if o.held.isSome || !recordRoom s o.asid then .next s
    else
      match runOp s name o with
      | (s', p, .stop t true) =>
        match postRecord s' p.asid ⟨engineRecord p t, .engine name, none, false, t.report.ask⟩ with
        | (s', some n) => .next { s' with ops := put name { p with held := some n } s'.ops }
        | (s', none) => .next s'
      | _ => .next s

/-- R201, R205: ENGINE_FAILURE: the operation runs up to a part that fails it, posts a record and sets its counter's
mark. -/
def execEngineFailure (name : Nat) (s : State) : Res :=
  match look name s.ops with
  | none => .next s
  | some o =>
    if o.held.isSome || !recordRoom s o.asid then .next s
    else
      match runOp s name o with
      | (s', p, .stop t false) =>
        match postRecord s' p.asid ⟨engineRecord p t, .nobody, none, true, none⟩ with
        | (s', some n) => .next (endOp s' name p (some (n % 65536)))
        | (s', none) => .next s'
      | _ => .next s

/-! ## Issue -/

/-- R200, R328: whether a die and a partition have room for another operation. -/
def engineRoom (s : State) (die part : Nat) : Bool :=
  let here := s.ops.filter fun e => e.2.die == die
  let mine := here.filter fun e => match s.ctx? e.2.asid with
    | some c => c.part == part
    | none => false
  decide (here.length < 1024) && decide (mine.length < max 16 (1024 * (s.part part).bww / 256))

/-- R200: the checks of an issue, in their order: windows' rights, then their limits, then alignment. -/
def engineCheck (d : Window × Nat) (c : Window × Nat) (list : Option (Window × Nat)) (dLen cLen n e : Nat) (dGather cScatter : Bool) :
    Option Trap :=
  let perm (w : Window) (o : Nat) : Option Trap := some (plainTrap codePERM (w.va o))
  if !d.1.wr then perm d.1 d.2
  else if !c.1.rd then perm c.1 c.2
  else
    match list with
    | some (w, o) =>
      if !w.rd then perm w o
      else if dGather && decide (d.1.limit.toNat < d.2 + dLen) then perm d.1 d.2
      else if cScatter && decide (c.1.limit.toNat < c.2 + cLen) then perm c.1 c.2
      else if w.limit.toNat < o + 8 * n then perm w o
      else if o % 8 != 0 then some (plainTrap codeALIGN (w.va o))
      else if dGather && d.2 % e != 0 then some (plainTrap codeALIGN (d.1.va d.2))
      else if cScatter && c.2 % e != 0 then some (plainTrap codeALIGN (c.1.va c.2))
      else none
    | none =>
      if d.1.limit.toNat < d.2 + dLen then perm d.1 d.2
      else if c.1.limit.toNat < c.2 + cLen then perm c.1 c.2
      else none

/-- R174, R200: an operation that passed its checks: it waits for room, or forks; an empty one completes at once. -/
def issueEngine (s : State) (g : Group) (o : EngineOp) (core k : Nat) (e : Bool) : State :=
  let part := match s.ctx? g.asid with
    | some c => c.part
    | none => 0
  if o.len = 0 then (addCounter (s.release core 3) g.asid core k 0#7 none).retire g.voidFlash 4 1 e
  else if !engineRoom s (dieOf core) part then s.setGrp (g.voidFlash.block_ .engine s.now)
  else
    let s := s.release core 3
    let (name, s) := s.takeName
    { s with ops := put name o s.ops }.retire g.voidFlash 4 1 e

/-- What every operation captures at issue. -/
def captureOp (s : State) (g : Group) (kind : OpKind) (k : Nat) (dst src : Window) : EngineOp :=
  { kind := kind, asid := g.asid, mode := g.mode, die := dieOf g.core, source := .group s.cur g.core k, dst := dst, src := src,
    idx := none, dstOff := 0, srcOff := 0, len := 0, idxOff := 0, esize := 1, rm := g.fpmode, seed := g.fpseed,
    lidx := g.lidx, count := g.retired, instr := g.pc, grpid := g.grpid, place := g.placeWord, done := 0, held := none,
    flags := 0#7 }

/-- R202: copy. -/
def execCopy (f : CopyF) (s : State) : Res :=
  issuePlain (.copy f) s fun g =>
    let r (i : Nat) : Nat := (g.sreg (f.a.toNat + i)).toNat
    let d := g.win f.d.toNat
    let c := g.win f.s.toNat
    match engineCheck (d, r 0) (c, r 1) none (r 2) (r 2) 0 1 false false with
    | some t => raiseAll s t
    | none =>
      issueEngine s g { captureOp s g .copy f.k.toNat d c with dstOff := r 0, srcOff := r 1, len := r 2 } g.core f.k.toNat f.e

/-- R203: the element size of a code. -/
def elementSize (z : BitVec 2) : Nat :=
  match z.toNat with
  | 0 => 4
  | 1 => 8
  | 2 => 16
  | _ => 64

/-- R203: gather. -/
def execGather (f : GatherF) (s : State) : Res :=
  issuePlain (.gather f) s fun g =>
    let r (i : Nat) : Nat := (g.sreg (f.a.toNat + i)).toNat
    let e := elementSize f.z
    let d := g.win f.d.toNat
    let c := g.win f.s.toNat
    let w := g.win f.i.toNat
    match engineCheck (d, r 0) (c, 0) (some (w, r 1)) (r 2 * e) 0 (r 2) e true false with
    | some t => raiseAll s t
    | none =>
      issueEngine s g { captureOp s g .gather f.k.toNat d c with
        idx := some w, dstOff := r 0, idxOff := r 1, len := r 2, esize := e } g.core f.k.toNat f.e

/-- R203: scatter. -/
def execScatter (f : GatherF) (s : State) : Res :=
  issuePlain (.scatter f) s fun g =>
    let r (i : Nat) : Nat := (g.sreg (f.a.toNat + i)).toNat
    let e := elementSize f.z
    let d := g.win f.d.toNat
    let c := g.win f.s.toNat
    let w := g.win f.i.toNat
    match engineCheck (d, 0) (c, r 0) (some (w, r 1)) 0 (r 2 * e) (r 2) e false true with
    | some t => raiseAll s t
    | none =>
      issueEngine s g { captureOp s g .scatter f.k.toNat d c with
        idx := some w, srcOff := r 0, idxOff := r 1, len := r 2, esize := e } g.core f.k.toNat f.e

/-! ## Counters -/

/-- The counter of a group's core. -/
def counterOf (s : State) (g : Group) (k : Nat) : Counter := (look k (s.set g.asid g.core).counters).getD {}

/-- R204, R205, R221: cwait: not reached, it waits; reached with the mark set, ENGINE, which clears the mark; else an
acquire at die scope that takes the counter's flags. The mark is cleared as the event is raised, though its record may wait for room or
the event for a resumption: until then another group's `cwait` finds no mark (log entry 116). -/
def execCwait (f : CwaitF) (s : State) : Res :=
  issuePlain (.cwait f) s fun g =>
    let k := f.k.toNat
    let c := counterOf s g k
    let v := (g.sreg f.a.toNat).toNat
    let s := if g.det.en then endQuantum s s.cur true else s
    if !reached c.value v then
      packIdleAll (s.modGrp fun h => h.block_ (.counter k v) s.now) g.asid
    else
      match c.err with
      | some n =>
        let s := s.modSet g.asid g.core fun x => { x with counters := put k { c with err := none } x.counters }
        raiseAll s { code := codeENGINE, info := n }
      | none =>
        let s := s.acquire g.core 3
        match s.grp with
        | none => s
        | some h => s.retire (h.orFlags c.flags) 4 1 f.e

/-- R204: cpoll. -/
def execCpoll (f : CpollF) (s : State) : Res :=
  issuePlain (.cpoll f) s fun g => s.retire (g.writeS f.d.toNat (counterOf s g f.k.toNat).value) 4 1 f.e

/-- R204, R221: carm sets the counter and clears its mark and flags. -/
def execCarm (f : CwaitF) (s : State) : Res :=
  issuePlain (.carm f) s fun g =>
    let s := s.modSet g.asid g.core fun x =>
      { x with counters := put f.k.toNat { value := g.sreg f.a.toNat } x.counters }
    let s := wakeCounter s g.asid g.core f.k.toNat (g.sreg f.a.toNat)
    s.retire g.voidFlash 4 1 f.e

/-! ## Parts of other modules -/

/-- R158, R203: the value of element `i` of a remote scatter written to its page: a whole block of a grain page, moved raw where the
source had its format, FORMAT where such a source was no whole block, and else encoded with the rounding of its issue, giving its
flags (R221); else bytes. -/
def serveWrite (s : State) (asid : Nat) (r : RemotePart) (i va : Nat) (v : List Byte) : Except Trap (State × Flags) :=
  match engineTranslate s asid .user .write va with
  | .error t => .error t
  | .ok p =>
    let j := (va - p.vbase) / 64
    if p.hostGrain then .error (plainTrap codePERM va)
    else if p.fmt = .raw then (engineWrite s asid r.die .user 17 va (wireBytes r.esize v)).map fun s => (s, 0#7)
    else if r.esize != 64 || va % 64 != 0 then .error (formatTrap 64 va)
    else if p.blockDown s j then .error (busyTrap va)
    else
      match blockOfWire p.fmt v with
      | some b => .ok (writeBlock s (dieCore r.die) p j b, 0#7)
      | none =>
        if (wireFormats 64 v).contains p.fmt then .error (formatTrap 64 va)
        else
          let b := encodeBlock p.fmt (fun q => engineRnd r.rm r.seed r.lidx r.count (r.firsts.getD i 0 + q)) (wordsOf (wireBytes 64 v))
          .ok (writeBlock s (dieCore r.die) p j b.1, b.2)

/-- R377: one element of a remote part, read or written in the serving context. -/
def servePart (s : State) (asid : Nat) (r : RemotePart) (i : Nat) : Except Trap (List Byte × State) :=
  let j := r.elems.getD i 0
  let va := r.base + j * r.esize
  if r.limit < j * r.esize + r.esize then .error (plainTrap codePERM va)
  else
    match r.values with
    | none =>
      match engineTranslate s asid .user .read va with
      | .error t => .error t
      | .ok p =>
        match gatherFormat s asid .user p va r.esize with
        | some t => .error t
        | none => elementWire s asid r.die .user va r.esize
    | some vs => (serveWrite s asid r i va (vs.getD i [])).map fun e => ([e.2.setWidth 8], e.1)

/-- R201: the elements of a remote part in list order, up to one that fails, whose code is the answer's; what came before it
stands. -/
def serveParts (s : State) (asid : Nat) (r : RemotePart) : Nat → Nat → Nat × List (List Byte) × State
  | 0, _ => (0, [], s)
  | n + 1, i =>
    match servePart s asid r i with
    | .error t => (t.code, [], s)
    | .ok (bs, s) =>
      let (code, more, s) := serveParts s asid r n (i + 1)
      (code, bs :: more, s)

/-- R203, R377: a part that another module asks for runs in the context bound to its job, and the answer goes back; a part that
no context serves fails as XLATE (R201, log entry 25), and one that meets a die that is down waits for it (R364). -/
def serveRemote (r : RemotePart) (s : State) : State :=
  match s.contexts.find? fun e => e.2.job == r.job && r.job != 0 && e.2.stopped.isNone with
  | none => s.send (.partAnswer r.tag codeXLATE [])
  | some (asid, _) =>
    let (code, vs, t) := serveParts s asid r r.elems.length 0
    if code = codeBusy then { s with parked := s.parked ++ [r] } else t.send (.partAnswer r.tag code vs)

/-- REMOTE_GATHER_PART (R203, R377). -/
def execRemoteGatherPart (r : RemotePart) (s : State) : Res := .next (serveRemote r s)

end Sys2Proof.Machine
end

