-- ==== Sys2Proof/Machine/Matrix.lean ====
section
/-!
DEFINITION. The matrix engine (R246 to R266): issue with its checks and captures, the steps, the end of an instruction,
and the swap of the accumulator store.
-/

namespace Sys2Proof.Machine

/-! ## Operands in memory -/

/-- The page of an operand's address, among those its issue captured. -/
def MemRef.page (r : MemRef) (va : Nat) : Option Page :=
  r.pages.find? fun p => decide (p.vbase ≤ va) && decide (va < p.vbase + p.span)

/-- A byte of a block's bench on a core; the bench of a block that has retired holds free values (log entry 27). -/
def benchByte (s : State) (block core off : Nat) : Byte :=
  match s.block? block with
  | some _ => (benchOf s block core).get off
  | none => Config.freeByte s.free off

/-- What a step reads through: the machine, the context and core, and the sectors its instruction has read already (R176). -/
structure Fetch where
  s    : State
  asid : Nat
  core : Nat
  seen : NMap (List Byte)

/-- The number under which a read sector is kept. -/
def seenKey (near : Bool) (pa : Nat) : Nat := 2 * (pa / 64) + if near then 1 else 0

/-- A byte of module or host memory: of a sector read before, through the core's levels, or at its home (R165). -/
def Fetch.byte (v : Fetch) (near : Bool) (o : Owner) (pa : Nat) : Byte :=
  match look (seenKey near pa) v.seen with
  | some bs => bs.getD (pa % 64) 0#8
  | none => if near then v.s.coreByte v.core o pa else v.s.homeByte o pa

/-- R187: whether reading a byte consumes uncorrectable data. -/
def Fetch.lost (v : Fetch) (near : Bool) (o : Owner) (pa : Nat) : Bool :=
  !v.s.bad.isEmpty && (look (seenKey near pa) v.seen).isNone &&
    if near then (look (pa / 64) (v.s.core v.core).l1).isNone && v.s.pastL1Lost v.core o pa 1 else v.s.lost pa 1

/-- The page of an operand's address and its location on a raw page, by the captured translations. -/
def MemRef.place (r : MemRef) (s : State) (asid va : Nat) : Except Trap (Page × Nat) :=
  match r.page va with
  | none => .error (plainTrap codeXLATE va)
  | some p =>
    match look (va / 4096) r.host with
    | some t => .ok (p, t + va % 4096)
    | none => (p.rawPlace s asid .read va).map fun pa => (p, pa)

/-- One byte of a raw operand, as a load of the core sees it. -/
def refByte (v : Fetch) (r : MemRef) (off : Nat) : Except Trap Byte :=
  match r.bench with
  | some (b, c) => .ok (benchByte v.s b c (r.va + off))
  | none =>
    match r.place v.s v.asid (r.va + off) with
    | .error t => .error t
    | .ok (p, pa) => if v.lost true p.own pa then .error (plainTrap codeDATAERR (r.va + off)) else .ok (v.byte true p.own pa)

/-- Bytes of a raw operand. -/
def refBytes (v : Fetch) (r : MemRef) : Nat → Nat → Except Trap (List Byte)
  | _, 0 => .ok []
  | off, n + 1 =>
    match refByte v r off with
    | .error t => .error t
    | .ok b =>
      match refBytes v r (off + 1) n with
      | .error t => .error t
      | .ok bs => .ok (b :: bs)

/-- Block `j` of a grain page, of sectors read before or at its home. -/
def Fetch.block (v : Fetch) (p : Page) (j : Nat) : GBlock :=
  let side (i : Nat) : Nat := (v.byte false p.own (p.sideAddr j i)).toNat
  ⟨side 0, side 1, unpackElems p.fmt (ofBytes (State.readAt (v.byte false p.own) (p.blockAddr j) p.fmt.blockBytes))⟩

/-- The block of a grain operand at a logical offset, read at its home. -/
def refBlock (v : Fetch) (r : MemRef) (off : Nat) : Except Trap (PageFmt × GBlock) :=
  let va := r.va + off
  match r.page va with
  | none => .error (plainTrap codeXLATE va)
  | some p =>
    let j := (va - p.vbase) / 64
    if p.blockDown v.s j then .error (busyTrap va)
    else if (List.range p.fmt.blockBytes).any (fun i => v.lost false p.own (p.blockAddr j i)) || v.lost false p.own (p.sideAddr j 0) ||
        v.lost false p.own (p.sideAddr j 1) then .error (plainTrap codeDATAERR va)
    else .ok (p.fmt, v.block p j)

/-- The sectors that a run of an operand's logical bytes lies in, each with whether it is read through L1 and its page's owner. -/
def MemRef.sectors (r : MemRef) (s : State) (asid off n : Nat) : List (Nat × Bool × Owner) :=
  if r.bench.isSome then []
  else
    let at_ := (List.range ((n + 63) / 64)).map (off + 64 * ·) ++ [off + n - 1]
    at_.flatMap fun o =>
      match r.place s asid (r.va + o) with
      | .error _ => []
      | .ok (p, pa) =>
        if p.fmt = .raw then [(pa / 64, true, p.own)]
        else (p.blockSectors ((r.va + o - p.vbase) / 64)).map fun k => (k, false, p.own)

/-- What the core's copies come to before a step, or an issue, reads: those of grain blocks go, in L1 and the RDC (R156, R166); where its
group has acquired at the package or wider, dirty bytes read through L1 are written back first (R173). -/
def settleSectors (s : State) (core : Nat) (seen : Bool) (ks : List (Nat × Bool × Owner)) : State :=
  ks.foldl (fun s k =>
    if k.2.1 then if seen then s.cleanSector core k.1 else s
    else dropRdcLine (s.dropSector core k.1) (dieOf core) k.2.2 (64 * k.1)) s

/-- R176: the sectors that a step has read join those its instruction has read before. -/
def Fetch.keep (v : Fetch) (ks : List (Nat × Bool × Owner)) : NMap (List Byte) :=
  ks.foldl (fun seen k =>
    let n := seenKey k.2.1 (64 * k.1)
    match look n seen with
    | some _ => seen
    | none => put n (State.readAt (v.byte k.2.1 k.2.2) (fun i => 64 * k.1 + i) 64) seen) v.seen

/-- R176: bytes written through an operand's pages, performed at their homes. -/
def refWrite (s : State) (asid core : Nat) (r : MemRef) (off : Nat) (bs : List Byte) : Except Trap State :=
  (List.range bs.length).foldl (fun (st : Except Trap State) i =>
    match st with
    | .error t => .error t
    | .ok s =>
      let va := r.va + off + i
      match r.page va with
      | none => .error (plainTrap codeXLATE va)
      | some p =>
        match p.rawPlace s asid .write va with
        | .error t => .error t
        | .ok pa => .ok (storeRaw s core .far p.own pa [bs.getD i 0#8])) (.ok s)

/-! ## Blocks of sixteen elements -/

/-- An element of a grain block as a value. -/
def GBlock.value (f : PageFmt) (b : GBlock) (i : Nat) : FVal :=
  match b.term f i with
  | none => .nan false
  | some t => .fin t.neg t.m t.e

def GBlock.values (f : PageFmt) (b : GBlock) : List FVal := (List.range 16).map (b.value f)

/-- Little-endian elements of `n` bytes. -/
def splitElems (n : Nat) (bs : List Byte) : List Nat :=
  (List.range (bs.length / n)).map fun i => ofBytes ((bs.drop (n * i)).take n)

/-- How sixteen consecutive elements stand in memory: floats of 2 or 4 bytes, blocks of a grain page, 18-byte records
in a bench (R255), or packed weights (R260). -/
inductive BlockKind where
  | half (f : FFmt)
  | full
  | grain
  | record
  | weights (two : Bool)
  deriving DecidableEq, Repr

/-- R260: a weight's value; code 0b10 is invalid and stands here as a signalling NaN, whose products set NV. -/
def weightValue (two : Bool) (c : Nat) : FVal :=
  if two then
    match c with
    | 0 => .fin false 0 0
    | 1 => .fin false 1 0
    | 3 => .fin true 1 0
    | _ => .nan true
  else .fin (c == 0) 1 0

/-- The logical bytes of block `j` of an operand: its offset and length. -/
def BlockKind.run (k : BlockKind) (j : Nat) : Nat × Nat :=
  match k with
  | .grain => (64 * j, 64)
  | .half _ => (32 * j, 32)
  | .full => (64 * j, 64)
  | .record => (18 * j, 18)
  | .weights two => if two then (4 * j, 4) else (2 * j, 2)

/-- Block `j` of an operand, decoded. -/
def fetchBlock (v : Fetch) (k : BlockKind) (r : MemRef) (j : Nat) : Except Trap (List FVal) :=
  match k with
  | .grain =>
    match refBlock v r (64 * j) with
    | .error t => .error t
    | .ok (f, b) => .ok (b.values f)
  | .half f =>
    match refBytes v r (32 * j) 32 with
    | .error t => .error t
    | .ok bs => .ok ((splitElems 2 bs).map f.decode)
  | .full =>
    match refBytes v r (64 * j) 64 with
    | .error t => .error t
    | .ok bs => .ok ((splitElems 4 bs).map fp32.decode)
  | .record =>
    match refBytes v r (18 * j) 18 with
    | .error t => .error t
    | .ok bs =>
      let b : GBlock := ⟨ofBytes (bs.take 1), ofBytes ((bs.drop 1).take 1), (bs.drop 2).map (·.toNat)⟩
      .ok (b.values .g8)
  | .weights two =>
    let n := if two then 4 else 2
    match refBytes v r (n * j) n with
    | .error t => .error t
    | .ok bs =>
      let x := ofBytes bs
      .ok ((List.range 16).map fun i => weightValue two (if two then x / 4 ^ i % 4 else x / 2 ^ i % 2))

/-- Blocks at a list of places. -/
def fetchBlocks (v : Fetch) (k : BlockKind) (r : MemRef) : List Nat → Except Trap (List (List FVal))
  | [] => .ok []
  | j :: js =>
    match fetchBlock v k r j with
    | .error t => .error t
    | .ok b =>
      match fetchBlocks v k r js with
      | .error t => .error t
      | .ok bs => .ok (b :: bs)

/-- R256: block `j` of a row of `mma`'s A, from the thread's staged registers; type 2 is G8, whose side registers follow
the K / 4 element registers. -/
def stagedBlock (ty k : Nat) (regs : List Word) (j : Nat) : List FVal :=
  let reg (i : Nat) : Nat := (regs.getD i 0#32).toNat
  if ty = 2 then
    let side := reg (k / 4 + j / 2) / 2 ^ (16 * (j % 2))
    let b : GBlock := ⟨side % 256, side / 256 % 256, (List.range 16).map fun i => reg (4 * j + i / 4) / 256 ^ (i % 4) % 256⟩
    b.values .g8
  else
    (List.range 16).map fun i =>
      (if ty = 0 then fp16 else bf16).decode (reg (8 * j + i / 2) / 2 ^ (16 * (i % 2)) % 2 ^ 16)

/-- R259: the bits of an element of a compressed operand. -/
def sparseWidth (ty : Nat) : Nat :=
  match ty with
  | 0 => 3
  | 1 => 5
  | 2 => 8
  | _ => 16

/-- R259: the size of a record with a bitmap. -/
def sparseSize (ty bitmap : Nat) : Nat := 4 + (countBits bitmap 16 * sparseWidth ty + 31) / 32 * 4

/-- R259: a compressed block at a byte offset, with its bitmap as issue read it. -/
def sparseBlock (v : Fetch) (ty : Nat) (r : MemRef) (off bitmap : Nat) : Except Trap (List FVal) :=
  let w := sparseWidth ty
  match refBytes v r off (sparseSize ty bitmap) with
  | .error t => .error t
  | .ok bs =>
    let x := ofBytes (bs.drop 4)
    let elem (i : Nat) : Nat := if bitmap.testBit i then x / 2 ^ (w * countBits bitmap i) % 2 ^ w else 0
    if ty ≤ 2 then
      let f : PageFmt := if ty = 0 then .g3 else if ty = 1 then .g5 else .g8
      let b : GBlock := ⟨ofBytes ((bs.drop 2).take 1), ofBytes ((bs.drop 3).take 1), (List.range 16).map elem⟩
      .ok (b.values f)
    else .ok ((List.range 16).map fun i => (if ty = 3 then fp16 else bf16).decode (elem i))

/-- The compressed blocks of every row at a K-step. -/
def sparseBlocks (v : Fetch) (ty step : Nat) (r : MemRef) : List (List Word) → Except Trap (List (List FVal))
  | [] => .ok []
  | row :: rows =>
    match sparseBlock v ty r (row.getD (2 * step) 0#32).toNat (row.getD (2 * step + 1) 0#32).toNat with
    | .error t => .error t
    | .ok b =>
      match sparseBlocks v ty step r rows with
      | .error t => .error t
      | .ok bs => .ok (b :: bs)

/-! ## Accumulation (R226, R254) -/

/-- The exact sum S of products: a value, with NV for an invalid product or opposite infinities. -/
def sumProds (sn : Flags) (ps : List Prod) : Prod × Flags :=
  let pinf := ps.any (· == .inf false)
  let ninf := ps.any (· == .inf true)
  if ps.any (· == .invalid) then (.nan, sn ||| flagNV)
  else if ps.any (· == .nan) then (.nan, sn)
  else if pinf && ninf then (.nan, sn ||| flagNV)
  else if pinf then (.inf false, sn)
  else if ninf then (.inf true, sn)
  else
    let r := sumTerms (finiteTerms ps)
    (.term ⟨decide (r.1 < 0), r.1.natAbs, r.2⟩, sn)

/-- R254: acc ← round(acc + S, FP32) under `rne`; only NV and OF are kept. -/
def accumulate (acc : Word × Flags) (xs ys : List FVal) : Word × Flags :=
  let r := sumProds (snans (xs ++ ys)) (List.zipWith mulExact xs ys)
  let q := roundProds fp32 ⟨.rne, 0⟩ r.2 [r.1, (fp32.decode acc.1.toNat).addend]
  (BitVec.ofNat 32 q.bits, acc.2 ||| (q.flags &&& (flagNV ||| flagOF)))

/-- R226: one K-step on an element, in one sum or in groups of four. -/
def kStep (fours : Bool) (acc : Word) (xs ys : List FVal) : Word × Flags :=
  if fours then
    (List.range 4).foldl (fun a i => accumulate a ((xs.drop (4 * i)).take 4) ((ys.drop (4 * i)).take 4)) (acc, 0#7)
  else accumulate (acc, 0#7) xs ys

/-! ## Tiles (R247) -/

/-- The elements of a sparse table from a number on, `n` of them; the table starts no lower. -/
def dense : Nat → Nat → NMap Word → List Word
  | _, 0, _ => []
  | lo, n + 1, [] => 0#32 :: dense (lo + 1) n []
  | lo, n + 1, (k, x) :: m => if k = lo then x :: dense (lo + 1) n m else 0#32 :: dense (lo + 1) n ((k, x) :: m)

/-- The entries of a run of elements, +0 left out. -/
def sparse (lo : Nat) (xs : List Word) : NMap Word :=
  (List.zip (List.range xs.length) xs).filterMap fun e => if e.2 = 0#32 then none else some (lo + e.1, e.2)

/-- The elements of `n` tiles from a tile on. -/
def readTiles (m : NMap Word) (t n : Nat) : List Word :=
  dense (t * 16384) (n * 16384) (m.dropWhile fun e => decide (e.1 < t * 16384))

/-- The tiles with a run of tiles replaced. -/
def writeTiles (m : NMap Word) (t n : Nat) (xs : List Word) : NMap Word :=
  (m.takeWhile fun e => decide (e.1 < t * 16384)) ++ sparse (t * 16384) xs ++
    m.dropWhile fun e => decide (e.1 < (t + n) * 16384)

/-- The row and column of the `i`-th element of one tile, or of four as 256 × 256. -/
def rowCol (i : Nat) : Nat × Nat :=
  let t := i / 16384
  (i % 16384 / 128 + 128 * (t / 2), i % 128 + 128 * (t % 2))

/-- The place of an element among those of its tiles. -/
def elemAt (r c : Nat) : Nat := (2 * (r / 128) + c / 128) * 16384 + r % 128 * 128 + c % 128

/-- A step on the tiles: each element's new value and flags, from its row, its column and its old value. -/
def mapTiles (m : NMap Word) (t n : Nat) (f : Nat → Nat → Word → Word × Flags) : NMap Word × Flags :=
  let xs := (List.zip (List.range (n * 16384)) (readTiles m t n)).map fun e => f (rowCol e.1).1 (rowCol e.1).2 e.2
  (writeTiles m t n (xs.map (·.1)), xs.foldl (fun fl x => fl ||| x.2) 0#7)

/-! ## Shapes -/

/-- R251: the number of steps. -/
def matSteps (i : Instr) : Nat :=
  match i with
  | .mma f => if f.h = 3#2 then 4 else 2
  | .mmat f => if f.h = 3#2 then 8 else 4
  | .msp f => if f.h = 3#2 then 8 else 4
  | .mlut f => if f.h = 3#2 then 8 else 4
  | .mload f => if f.q then 16 else 8
  | .mdrainMem f => if f.q then 16 else 8
  | .mdrainReg _ => 8
  | _ => 1

/-- R255: N and K of a shape of `mma`. -/
def mmaN (h : BitVec 2) : Nat := if h = 0#2 then 8 else if h = 1#2 then 16 else 32
def mmaK (h : BitVec 2) : Nat := if h = 3#2 then 64 else 32

/-- R257: M = N and K of a shape. -/
def shapeM (h : BitVec 2) : Nat := if h = 0#2 then 64 else if h = 1#2 then 128 else 256
def shapeK (h : BitVec 2) : Nat := if h = 3#2 then 128 else 64

/-- How many tiles a shape fills. -/
def shapeTiles (h : BitVec 2) : Nat := if 2 ≤ h.toNat then 4 else 1
def quadTiles (q : Bool) : Nat := if q then 4 else 1
def quadSide (q : Bool) : Nat := if q then 256 else 128

/-- R257: how an operand of a type stands in memory, and its page's format. -/
def typeKind (ty : Nat) : BlockKind :=
  match ty with
  | 3 => .half fp16
  | 4 => .half bf16
  | _ => .grain
def typePage (ty : Nat) : PageFmt :=
  match ty with
  | 0 => .g3
  | 1 => .g5
  | 2 => .g8
  | _ => .raw

/-- R262: the same for the types of `mload` and `mdrain`, and the bytes of an element. -/
def loadKind (ty : Nat) : BlockKind :=
  match ty with
  | 0 => .full
  | 1 => .half fp16
  | 2 => .half bf16
  | _ => .grain
def loadPage (ty : Nat) : PageFmt :=
  match ty with
  | 3 => .g8
  | 4 => .g5
  | 5 => .g3
  | _ => .raw
def loadBytes (ty : Nat) : Nat := if ty = 1 || ty = 2 then 2 else 4

/-! ## Issue (R249) -/

/-- A memory operand's demands: its window's flags, its alignment, the access its pages must grant, whether host memory
is refused, and its pages' format where one is demanded. -/
structure OperandCheck where
  align : Nat
  rd    : Bool
  wr    : Bool
  acc   : Access
  noHost : Bool
  fmt   : Option PageFmt

/-- R249, R320: the host translations of the 4 KiB pages of a host page that an operand reaches, from one on. -/
def hostPages (s : State) (asid : Nat) (acc : Access) (p : Page) : Nat → Nat → Nat → Except Trap (NMap Nat)
  | 0, _, _ => .ok []
  | fuel + 1, va, last =>
    if last < va || decide (p.vbase + p.span ≤ va) then .ok []
    else
      match hostTranslate s asid acc (p.frame + (va - p.vbase)) va with
      | .error t => .error t
      | .ok pa =>
        match hostPages s asid acc p fuel (va / 4096 * 4096 + 4096) last with
        | .error t => .error t
        | .ok m => .ok ((va / 4096, pa / 4096 * 4096) :: m)

/-- The pages of an operand in ascending address, each checked as it is translated, with the host translations of a host page. -/
def operandPages (k : OperandCheck) (g : Group) (w : Window) : Nat → State → Nat → Nat → Except Trap (List Page × NMap Nat × State)
  | 0, s, _, _ => .ok ([], [], s)
  | fuel + 1, s, o, last =>
    if last < o then .ok ([], [], s)
    else
      match w.pageOf s g.core g.asid g.mode k.acc o 1 with
      | .error t => .error t
      | .ok (p, s) =>
        let va := w.va o
        let host := isHost p.frame
        if host && (k.noHost || p.fmt != .raw) then .error (plainTrap codePERM va)
        else if (match k.fmt with
            | some f => p.fmt != f
            | none => false) then .error (plainTrap codeFORMAT va)
        else
          match if host then hostPages s g.asid k.acc p ((last - o) / 4096 + 2) va (w.va last) else .ok [] with
          | .error t => .error t
          | .ok hs =>
            match operandPages k g w fuel s (o + p.left va) last with
            | .error t => .error t
            | .ok (ps, more, s) => .ok (p :: ps, hs ++ more, s)

/-- R249: the checks of one operand of `n` bytes at an offset of a window, in order. -/
def checkOperand (k : OperandCheck) (s : State) (wi o n : Nat) : Except Trap (MemRef × State) :=
  match s.grp with
  | none => .error (plainTrap codePERM 0)
  | some g =>
    let w := g.win wi
    let va := w.va o
    let grain := match k.fmt with
      | some f => f != .raw
      | none => false
    if w.limit.toNat < o + n || (k.rd && !w.rd) || (k.wr && !w.wr) then .error (plainTrap codePERM va)
    else if o % k.align != 0 || (grain && va % 64 != 0) then .error (plainTrap codeALIGN va)
    else
      match refreshWindow s g.core g.asid g.mode w with
      | .error t => .error t
      | .ok (w, s) =>
        match operandPages k g w (n / 65536 + 2) (s.modGrp fun g => g.setWin wi w) o (o + n - 1) with
        | .error t => .error t
        | .ok (ps, hs, s) => .ok ({ va := va, pages := ps, host := hs }, s)

/-- What an instruction's issue gives: the operands and the staged values. -/
abbrev Captured := Except Trap (List MemRef × List (List Word) × State)

/-- The operands checked one after another. -/
def checkOperands (s : State) : List (OperandCheck × Nat × Nat × Nat) → Except Trap (List MemRef × State)
  | [] => .ok ([], s)
  | (k, w, o, n) :: rest =>
    match checkOperand k s w o n with
    | .error t => .error t
    | .ok (r, s) =>
      match checkOperands s rest with
      | .error t => .error t
      | .ok (rs, s) => .ok (r :: rs, s)

/-- The demands of a source operand in module memory. -/
def sourceCheck (align : Nat) (f : PageFmt) : OperandCheck := ⟨align, true, false, .read, true, some f⟩

/-- R210: the key of a contribution that a matrix instruction will make, reserved at issue. -/
def reserveKey (g : Group) : Group × DetKey :=
  let t := g.active.headD 0
  let k := keyOf g t g.det.count
  let g := { g with det := { g.det with count := g.det.count + 1 } }
  (g.modThread t fun x => { x with own := x.own + 1 }, k)

/-- R249, R253: a matrix instruction enters the queue with what it captured, and the group goes on. -/
def enterQueue (s : State) (i : Instr) (refs : List MemRef) (staged : List (List Word)) (cycles : Nat) (commit keyed : Bool)
    (e : Bool) : State :=
  match s.grp with
  | none => s
  | some g =>
    let key := keyed && g.det.en
    let gk := reserveKey g
    let m : MatInstr :=
      { instr := i, gid := s.cur, grid := g.grid, va := g.pc, rm := g.fpmode, seed := g.fpseed, lidx := g.lidx,
        count := g.retired, grpid := g.grpid, staged := staged, ops := refs,
        det := if key then some (g.grid, gk.2) else none, lmask := g.lmask, step := 0, flags := 0#7, peak := none,
        stopped := false, seen := [] }
    let s := s.modSet g.asid g.core fun x => { x with mq := x.mq ++ [m] }
    let s := s.modCore g.core fun c => if c.accHolder.isNone then { c with accHolder := some g.asid } else c
    let g := if key then gk.1 else g
    let g := { (if commit then g.voidFlash else g) with matrix := g.matrix + 1 }
    s.retire g 4 cycles e

/-- The frame of a matrix instruction: ILLOP, MASK, its operands in order, the queue (R65, R249). -/
def issueMatrix (i : Instr) (e commit keyed : Bool) (cycles : Group → Nat) (capture : State → Group → Captured) (s : State) : Res :=
  issuePlain i s fun g =>
    if g.amask != g.lmask then raiseAll s maskTrap
    else
      match capture s g with
      | .error t => raiseAll s t
      | .ok (refs, staged, s) => enterQueue s i refs staged (cycles g) commit keyed e

/-- The frame of one that captures memory operands only. -/
def issueOperands (i : Instr) (e commit keyed : Bool) (ops : Group → List (OperandCheck × Nat × Nat × Nat)) (s : State) : Res :=
  issueMatrix i e commit keyed (fun _ => 1) (fun s g =>
    match checkOperands s (ops g) with
    | .error t => .error t
    | .ok (refs, s) => .ok (refs, [], s)) s

/-! ## The meanings -/

/-- R255, R256: mma. -/
def execMma (f : MmaF) (s : State) : Res :=
  issueMatrix (.mma f) f.e true false (fun g => max (threadsOf g.lmask).length 1) (fun s g =>
    let o := (g.sreg f.a.toNat).toNat
    let elems := mmaN f.h * mmaK f.h
    let staged := (List.range 32).map fun t => (List.range (mmaRegs f.h f.y)).map fun m =>
      if g.lmask.getLsbD t then (g.thread t).reg (8 * f.v.toNat + m) else 0#32
    if f.n then
      let size := match s.block? g.block with
        | some b => b.benchSize
        | none => 0
      if size < o + (if f.y = 2#2 then elems / 16 * 18 else 2 * elems) then .error (plainTrap codePERM o)
      else if o % 4 != 0 then .error (plainTrap codeALIGN o)
      else .ok ([{ va := o, pages := [], bench := some (g.block, g.core) }], staged, s)
    else
      let g8 := f.y == 2#2
      match checkOperand (sourceCheck 64 (if g8 then .g8 else .raw)) s f.w.toNat o (if g8 then 4 * elems else 2 * elems) with
      | .error t => .error t
      | .ok (r, s) => .ok ([r], staged, s)) s

/-- The bytes of a dense operand of R257. -/
def denseBytes (ty m k : Nat) : Nat := m * k * (if 3 ≤ ty then 2 else 4)

/-- R257, R258: mmat. Field c of the word names the A window and field b the B window. -/
def execMmat (f : MmatF) (s : State) : Res :=
  issueOperands (.mmat f) f.e true false (fun g =>
    let n := denseBytes f.y.toNat (shapeM f.h) (shapeK f.h)
    [(sourceCheck 64 (typePage f.y.toNat), f.c.toNat, (g.sreg f.a.toNat).toNat, n),
     (sourceCheck 64 (typePage f.y.toNat), f.b.toNat, (g.sreg (f.a.toNat + 1)).toNat, n)]) s

/-- R260: mlut. -/
def execMlut (f : MlutF) (s : State) : Res :=
  issueOperands (.mlut f) f.e true false (fun g =>
    let elems := shapeM f.h * shapeK f.h
    [(sourceCheck 64 .raw, f.c.toNat, (g.sreg f.a.toNat).toNat, elems / (if f.x then 4 else 8)),
     (sourceCheck 64 (if f.y then .g5 else .g8), f.b.toNat, (g.sreg (f.a.toNat + 1)).toNat, 4 * elems)]) s

/-- R259: the reading of a compressed operand: its window and offset, and its pages so far up to a byte. -/
structure SparseScan where
  s    : State
  ref  : MemRef
  upto : Nat

/-- The pages of a compressed operand taken on to a further byte. -/
def SparseScan.extend (a : SparseScan) (wi base upto : Nat) : Except Trap SparseScan :=
  if upto ≤ a.upto then .ok a
  else
    match a.s.grp with
    | none => .ok a
    | some g =>
      let w := g.win wi
      let from_ := match a.ref.page (a.ref.va + a.upto - 1) with
        | some p => a.upto - 1 + p.left (a.ref.va + a.upto - 1)
        | none => a.upto
      match operandPages (sourceCheck 64 .raw) g w ((upto - a.upto) / 65536 + 2) a.s (base + from_) (base + upto - 1) with
      | .error t => .error t
      | .ok (ps, _, s) => .ok ⟨s, { a.ref with pages := a.ref.pages ++ ps }, max upto from_⟩

/-- R259: `n` bytes of a compressed operand as the issue reads them, its core's copies settled first (R173). -/
def SparseScan.read (a : SparseScan) (off n : Nat) : Except Trap (List Byte × SparseScan) :=
  match a.s.grp with
  | none => .ok ([], a)
  | some g =>
    let s := settleSectors a.s g.core g.pkgSeen (a.ref.sectors a.s g.asid off n)
    (refBytes ⟨s, g.asid, g.core, []⟩ a.ref off n).map fun bs => (bs, { a with s := s })

/-- R259: the records of a row from an offset, `n` of them: each one's offset and bitmap. -/
def sparseRow (ty wi base : Nat) : Nat → SparseScan → Nat → Except Trap (List Word × SparseScan)
  | 0, a, _ => .ok ([], a)
  | n + 1, a, off =>
    match a.s.grp with
    | none => .ok ([], a)
    | some g =>
      let limit := (g.win wi).limit.toNat
      if limit < base + off + 4 then .error (plainTrap codePERM (a.ref.va + off))
      else
        match a.extend wi base (off + 4) with
        | .error t => .error t
        | .ok a =>
          match a.read off 2 with
          | .error t => .error t
          | .ok (bs, a) =>
            let bm := ofBytes bs
            let next := off + sparseSize ty bm
            if limit < base + next then .error (plainTrap codePERM (a.ref.va + off))
            else
              match a.extend wi base next with
              | .error t => .error t
              | .ok a =>
                match sparseRow ty wi base n a next with
                | .error t => .error t
                | .ok (ws, a) => .ok (BitVec.ofNat 32 off :: BitVec.ofNat 32 bm :: ws, a)

/-- R259: the rows of a compressed operand, through the directory. -/
def sparseRows (ty m wi base recs : Nat) : Nat → SparseScan → Except Trap (List (List Word) × SparseScan)
  | 0, a => .ok ([], a)
  | n + 1, a =>
    let row := m - (n + 1)
    match a.read (4 * row) 4 with
    | .error t => .error t
    | .ok (bs, a) =>
      let off := ofBytes bs
      if off % 4 != 0 || decide (off < 4 * m) then .error (plainTrap codePERM (a.ref.va + 4 * row))
      else
        match sparseRow ty wi base recs a off with
        | .error t => .error t
        | .ok (ws, a) =>
          match sparseRows ty m wi base recs n a with
          | .error t => .error t
          | .ok (rows, a) => .ok (ws :: rows, a)

/-- R257, R259: msp. -/
def execMsp (f : MmatF) (s : State) : Res :=
  issueMatrix (.msp f) f.e true false (fun _ => 1) (fun s g =>
    let m := shapeM f.h
    let k := shapeK f.h
    let base := (g.sreg f.a.toNat).toNat
    match checkOperand (sourceCheck 64 .raw) s f.c.toNat base (4 * m) with
    | .error t => .error t
    | .ok (r, s) =>
      match sparseRows f.y.toNat m f.c.toNat base (k / 16) m ⟨s, r, 4 * m⟩ with
      | .error t => .error t
      | .ok (rows, a) =>
        match checkOperand (sourceCheck 64 (typePage f.y.toNat)) a.s f.b.toNat (g.sreg (f.a.toNat + 1)).toNat
            (denseBytes f.y.toNat m k) with
        | .error t => .error t
        | .ok (rb, s) => .ok ([a.ref, rb], rows, s)) s

/-- R261: mzero. -/
def execMzero (f : MzeroF) (s : State) : Res :=
  issueOperands (.mzero f) f.e false false (fun _ => []) s

/-- R262: mload. -/
def execMload (f : MloadF) (s : State) : Res :=
  issueOperands (.mload f) f.e false false (fun g =>
    [(sourceCheck 64 (loadPage f.y.toNat), f.w.toNat, (g.sreg f.a.toNat).toNat,
      quadSide f.q * quadSide f.q * loadBytes f.y.toNat)]) s

/-- R263: mdrain to memory: the destination, the bias row, the absolute-maximum word, in that order. -/
def execMdrainMem (f : MdrainMemF) (s : State) : Res :=
  issueOperands (.mdrainMem f) f.e false (f.s != 0#3) (fun g =>
    let c := quadSide f.q
    [((⟨64, false, true, .write, true, some (loadPage f.y.toNat)⟩ : OperandCheck), f.w.toNat, (g.sreg f.a.toNat).toNat,
      c * c * loadBytes f.y.toNat)] ++
    (if f.b then [((⟨4, true, false, .read, false, none⟩ : OperandCheck), f.w.toNat, (g.sreg (f.a.toNat + 1)).toNat, 4 * c)]
     else []) ++
    if f.s != 0#3 then
      [((⟨4, true, false, .update, true, some .raw⟩ : OperandCheck), f.w.toNat, (g.sreg (f.a.toNat + 2)).toNat, 4)]
    else []) s

/-- The registers a register drain writes in each thread (R263). -/
def drainRegs (y : BitVec 3) : Nat := if y = 0#3 then 32 else 16

/-- R263: mdrain to thread registers; each register is ready when its data arrives (R250). -/
def execMdrainReg (f : MdrainRegF) (s : State) : Res :=
  issueMatrix (.mdrainReg f) f.e false false (fun _ => 1) (fun s _ =>
    .ok ([], [], s.modGrp fun g => g.awaitLoads f.v.toNat (drainRegs f.y))) s

/-! ## Draining (R264) -/

/-- R264: the exact value to be rounded: accumulator and bias, then the relu; NaNs and infinities stand as they are. A signalling
NaN of the bias row sets NV, as an operand of any arithmetic does (R214; log entry 40). -/
def drainValue (acc : Word) (bias : Option Word) (relu : Bool) : List Prod × Flags :=
  let vs := fp32.decode acc.toNat :: (match bias with
    | some b => [fp32.decode b.toNat]
    | none => [])
  let ps := vs.map FVal.addend
  if relu then
    let r := sumProds (snans vs) ps
    match r.1 with
    | .inf true => ([.term ⟨false, 0, 0⟩], r.2)
    | .term t => ([.term ⟨false, if t.neg then 0 else t.m, t.e⟩], r.2)
    | _ => (ps, r.2)
  else (ps, snans vs)

/-- R264: the rounding to FP32 before a grain block: `rne` in place of `rsr`. -/
def grainRnd (r : Rnd) : Rnd := if r.mode = .rsr then ⟨.rne, 0⟩ else r

/-- The magnitudes compared for the absolute maximum: none yet, or the maximumNumber so far (R264). -/
def peakOf (p : Option Word) (y : Word) : Option Word :=
  let x := BitVec.ofNat 32 (fp32.absBits y.toNat)
  if (fp32.decode x.toNat).isNaN then p
  else match p with
    | none => some x
    | some q => some (BitVec.ofNat 32 (fMinMax fp32 true q.toNat x.toNat).bits)

/-- A value as an exact FP32 pattern; a NaN is the canonical one (R262). -/
def exactWord (v : FVal) : Word :=
  match v with
  | .nan _ => BitVec.ofNat 32 fp32.nanBits
  | .inf n => BitVec.ofNat 32 (fp32.signed n fp32.infBits)
  | .fin n m e => if m = 0 then BitVec.ofNat 32 (fp32.signed n 0) else BitVec.ofNat 32 (roundTo fp32 ⟨.rne, 0⟩ n ⟨m, e, false⟩).bits

/-- The float format of a drain's type. -/
def drainFmt (ty : Nat) : FFmt := if ty = 1 then fp16 else if ty = 2 then bf16 else fp32

/-- One drained element of a float type. -/
def drainFloat (ty : Nat) (r : Rnd) (acc : Word) (bias : Option Word) (relu : Bool) : FRes :=
  let v := drainValue acc bias relu
  roundProds (drainFmt ty) r v.2 v.1

/-- The word of a bias row at a column (R263): read as a load. -/
def biasWord (v : Fetch) (r : MemRef) (c : Nat) : Except Trap Word :=
  let va := r.va + 4 * c
  match r.page va with
  | none => .error (plainTrap codeXLATE va)
  | some p =>
    if p.fmt != .raw then
      (refBlock v r (4 * c)).map fun e => e.2.fp32 e.1 (va % 64 / 4)
    else (refBytes v r (4 * c) 4).map fun bs => BitVec.ofNat 32 (ofBytes bs)

/-- A bias row. -/
def biasRow (v : Fetch) (r : MemRef) : List Nat → Except Trap (List Word)
  | [] => .ok []
  | c :: cs =>
    match biasWord v r c with
    | .error t => .error t
    | .ok w =>
      match biasRow v r cs with
      | .error t => .error t
      | .ok ws => .ok (w :: ws)

/-- R264: sixteen values of a row, from column `c` on, written at the destination. -/
def drainRun (s : State) (asid core : Nat) (m : MatInstr) (f : MdrainMemF) (dst : MemRef) (accs bias : List Word)
    (n : Nat) : Except Trap (State × Flags × List Word) :=
  let ty := f.y.toNat
  let rnd (i : Nat) : Rnd := engineRnd m.rm m.seed m.lidx m.count (n + i)
  let b (i : Nat) : Option Word := if f.b then some (bias.getD i 0#32) else none
  if ty ≤ 2 then
    let ys := (List.range 16).map fun i => drainFloat ty (rnd i) (accs.getD i 0#32) (b i) f.r
    match refWrite s asid core dst (n * loadBytes ty) (ys.flatMap fun y => toBytes (loadBytes ty) y.bits) with
    | .error t => .error t
    | .ok s => .ok (s, ys.foldl (fun fl y => fl ||| y.flags) 0#7, ys.map fun y => exactWord ((drainFmt ty).decode y.bits))
  else
    let ys := (List.range 16).map fun i => drainFloat 0 (grainRnd (rnd i)) (accs.getD i 0#32) (b i) f.r
    let va := dst.va + 4 * n
    match dst.page va with
    | none => .error (plainTrap codeXLATE va)
    | some p =>
      let e := encodeBlock p.fmt rnd (ys.map fun y => BitVec.ofNat 32 y.bits)
      if p.blockDown s ((va - p.vbase) / 64) then .error (busyTrap va)
      else .ok (writeBlock s core p ((va - p.vbase) / 64) e.1, ys.foldl (fun fl y => fl ||| y.flags) e.2,
        (List.range 16).map (e.1.fp32 p.fmt))

/-- The runs of a step's rows, in element order. -/
def drainRuns (asid core : Nat) (m : MatInstr) (f : MdrainMemF) (dst : MemRef) (tiles : List Word) (bias : List Word) :
    List Nat → State → Flags → Option Word → Except Trap (State × Flags × Option Word)
  | [], s, fl, pk => .ok (s, fl, pk)
  | n :: ns, s, fl, pk =>
    let c := quadSide f.q
    let row := n / c
    let col := n % c
    let accs := (tiles.drop (elemAt row col)).take 16
    match drainRun s asid core m f dst accs ((bias.drop col).take 16) n with
    | .error t => .error t
    | .ok (s, fl', ys) => drainRuns asid core m f dst tiles bias ns s (fl ||| fl') (ys.foldl peakOf pk)

/-- R263, R264: the registers of one thread. -/
def drainThread (g : Group) (m : MatInstr) (f : MdrainRegF) (row : List Word) (t : Nat) : Group × Flags :=
  let y (c : Nat) : FRes := drainFloat f.y.toNat (engineRnd m.rm m.seed m.lidx m.count (t * 32 + c)) (row.getD c 0#32) none f.r
  let fl := (List.range 32).foldl (fun fl c => fl ||| (y c).flags) 0#7
  if f.y = 0#3 then
    ((List.range 32).foldl (fun (g : Group) c => g.writeV t (f.v.toNat + c) (BitVec.ofNat 32 (y c).bits)) g, fl)
  else
    ((List.range 16).foldl (fun (g : Group) i =>
      g.writeV t (f.v.toNat + i) (BitVec.ofNat 32 ((y (2 * i)).bits + (y (2 * i + 1)).bits * 2 ^ 16))) g, fl)

/-! ## Steps -/

/-- An accumulating step: the rows' and the columns' blocks, into M × N elements. -/
def accStep (s : State) (asid core : Nat) (t tiles m n : Nat) (fours : Bool) (rows cols : List (List FVal)) :
    State × Flags :=
  let ra := rows.toArray
  let ca := cols.toArray
  let x := s.set asid core
  let r := mapTiles x.tiles t tiles fun i j acc =>
    if i < m && decide (j < n) then kStep fours acc (ra.getD i []) (ca.getD j []) else (acc, 0#7)
  (s.setSet asid core { x with tiles := r.1 }, r.2)

/-- The blocks of a dense operand at a K-step: one per row or column. -/
def denseAt (m k step : Nat) : List Nat := (List.range m).map fun i => i * (k / 16) + step

/-- What a step changes: the state, flags and the running maximum, or the error that stops it. -/
abbrev StepRes := Except Trap (State × Flags × Option Word)

/-- A step of two fetched operands. -/
def fetchStep (s : State) (asid core t tiles m n : Nat) (fours : Bool) (rows cols : Except Trap (List (List FVal))) : StepRes :=
  match rows with
  | .error tr => .error tr
  | .ok rs =>
    match cols with
    | .error tr => .error tr
    | .ok cs =>
      let r := accStep s asid core t tiles m n fours rs cs
      .ok (r.1, r.2, none)

/-- How the B operand of `mma` stands in memory. -/
def mmaKind (f : MmaF) : BlockKind :=
  if f.y = 2#2 then (if f.n then .record else .grain) else .half (if f.y = 0#2 then fp16 else bf16)

/-- An operand of a queued instruction. -/
def MatInstr.op (m : MatInstr) (i : Nat) : MemRef := m.ops.getD i { va := 0, pages := [] }

/-- R176: the logical bytes of its operands that step `m.step` reads. -/
def stepRuns (m : MatInstr) : List (MemRef × Nat × Nat) :=
  let runs (k : BlockKind) (i : Nat) (js : List Nat) := js.map fun j => (m.op i, k.run j)
  match m.instr with
  | .mma f => runs (mmaKind f) 0 (denseAt (mmaN f.h) (mmaK f.h) m.step)
  | .mmat f =>
    let js := denseAt (shapeM f.h) (shapeK f.h) m.step
    runs (typeKind f.y.toNat) 0 js ++ runs (typeKind f.y.toNat) 1 js
  | .mlut f =>
    let js := denseAt (shapeM f.h) (shapeK f.h) m.step
    runs (.weights f.x) 0 js ++ runs .grain 1 js
  | .msp f =>
    (m.staged.map fun row =>
      (m.op 0, (row.getD (2 * m.step) 0#32).toNat, sparseSize f.y.toNat (row.getD (2 * m.step + 1) 0#32).toNat)) ++
    runs (typeKind f.y.toNat) 1 (denseAt (shapeM f.h) (shapeK f.h) m.step)
  | .mload f => runs (loadKind f.y.toNat) 0 ((List.range (quadSide f.q)).map fun i => m.step * quadSide f.q + i)
  | .mdrainMem f => if f.b then [(m.op 1, 0, 4 * quadSide f.q)] else []
  | _ => []

/-- R249 to R264: step `m.step` of a queued instruction. -/
def matStep (v : Fetch) (m : MatInstr) : StepRes :=
  let s := v.s
  let asid := v.asid
  let core := v.core
  let op := m.op
  match m.instr with
  | .mma f =>
    let k := mmaK f.h
    fetchStep s asid core f.t.toNat 1 32 (mmaN f.h) (f.y != 2#2)
      (.ok (m.staged.map fun regs => stagedBlock f.y.toNat k regs m.step))
      (fetchBlocks v (mmaKind f) (op 0) (denseAt (mmaN f.h) k m.step))
  | .mmat f =>
    let k := shapeK f.h
    let n := shapeM f.h
    let fetch (r : MemRef) := fetchBlocks v (typeKind f.y.toNat) r (denseAt n k m.step)
    fetchStep s asid core f.t.toNat (shapeTiles f.h) n n (decide (3 ≤ f.y.toNat)) (fetch (op 0)) (fetch (op 1))
  | .mlut f =>
    let k := shapeK f.h
    let n := shapeM f.h
    fetchStep s asid core f.t.toNat (shapeTiles f.h) n n false
      (fetchBlocks v (.weights f.x) (op 0) (denseAt n k m.step))
      (fetchBlocks v .grain (op 1) (denseAt n k m.step))
  | .msp f =>
    let k := shapeK f.h
    let n := shapeM f.h
    fetchStep s asid core f.t.toNat (shapeTiles f.h) n n (decide (3 ≤ f.y.toNat))
      (sparseBlocks v f.y.toNat m.step (op 0) m.staged)
      (fetchBlocks v (typeKind f.y.toNat) (op 1) (denseAt n k m.step))
  | .mzero f =>
    let x := s.set asid core
    .ok (s.setSet asid core { x with tiles := writeTiles x.tiles f.t.toNat (quadTiles f.q) [] }, 0#7, none)
  | .mload f =>
    let c := quadSide f.q
    match fetchBlocks v (loadKind f.y.toNat) (op 0) ((List.range c).map fun i => m.step * c + i) with
    | .error t => .error t
    | .ok bs =>
      let vs := (bs.flatten.map exactWord).toArray
      let x := s.set asid core
      let r := mapTiles x.tiles f.t.toNat (quadTiles f.q) fun i j acc =>
        (if i / 16 = m.step then vs.getD (i % 16 * c + j) 0#32 else acc, 0#7)
      .ok (s.setSet asid core { x with tiles := r.1 }, 0#7, none)
  | .mdrainMem f =>
    let c := quadSide f.q
    match (if f.b then biasRow v (op 1) (List.range c) else .ok []) with
    | .error t => .error t
    | .ok bias =>
      drainRuns asid core m f (op 0) (readTiles (s.set asid core).tiles f.t.toNat (quadTiles f.q)) bias
        ((List.range c).map fun i => m.step * 16 * c + 16 * i) s 0#7 m.peak
  | .mdrainReg f =>
    match s.group? m.gid with
    | none => .ok (s, 0#7, none)
    | some g =>
      let tiles := readTiles (s.set asid core).tiles f.t.toNat 1
      let ts := (threadsOf m.lmask).filter fun t => t / 16 == m.step
      let r := ts.foldl (fun (a : Group × Flags) t =>
        let d := drainThread a.1 m f ((tiles.drop (128 * t)).take 32) t
        (d.1, a.2 ||| d.2)) (g, 0#7)
      .ok (s.setGroup m.gid r.1, r.2, none)
  | _ => .ok (s, 0#7, none)

/-- The tile and Q of an instruction (R340, 0x30). -/
def matTile (i : Instr) : Nat × Bool :=
  match i with
  | .mma f => (f.t.toNat, false)
  | .mmat f => (f.t.toNat, decide (2 ≤ f.h.toNat))
  | .mlut f => (f.t.toNat, decide (2 ≤ f.h.toNat))
  | .msp f => (f.t.toNat, decide (2 ≤ f.h.toNat))
  | .mzero f => (f.t.toNat, f.q)
  | .mload f => (f.t.toNat, f.q)
  | .mdrainMem f => (f.t.toNat, f.q)
  | .mdrainReg f => (f.t.toNat, false)
  | _ => (0, false)

/-- R252, R340: the event of a step that met damaged data; its EPC is set when the group reaches its boundary. -/
def matEvent (m : MatInstr) (t : Trap) : Event :=
  let tq := matTile m.instr
  { code := t.code, epc := 0#57, replay := 0#32, info := BitVec.ofNat 64 t.info, instr := m.va, shown := 0#32,
    report := { t.report with
      matrix := some (BitVec.ofNat 64 (tq.1 + min m.step 15 * 16 + (if tq.2 then 256 else 0))) } }

/-- R252: a `mzero`, or an `mdrain` to registers, finishes before its group is saved, and so does an instruction whose steps are
done. -/
def MatInstr.unsplit (m : MatInstr) : Bool :=
  match m.instr with
  | .mzero _ => true
  | .mdrainReg _ => true
  | _ => matSteps m.instr == m.step

/-- The head of a core's matrix queue that can run: the holder's, neither stopped nor saved; under a hard pre-emption it runs on
while an instruction of the queue must finish first (R252). -/
def matHead (s : State) (core : Nat) : Option (Nat × MatInstr) :=
  match (s.core core).accHolder with
  | none => none
  | some asid =>
    match s.ctx? asid, (s.set asid core).mq with
    | some c, m :: rest =>
      if m.stopped || (c.stopping && !(m :: rest).any MatInstr.unsplit) then none else some (asid, m)
    | _, _ => none

/-- The head of a context's queue on a core, changed. -/
def setHead (s : State) (asid core : Nat) (m : MatInstr) : State :=
  s.modSet asid core fun x => { x with mq := m :: x.mq.drop 1 }

/-- R252: why an instruction cannot run on: the first of its operands whose translation failed at a resumption. -/
def MatInstr.fault (m : MatInstr) : Option Trap :=
  (m.ops.findSome? MemRef.fault).map fun e => { code := e.1, info := e.2.1, report := e.2.2 }

/-- R252: a step stopped by damaged data or a failed translation: the queue stops and the group meets the record at its next boundary. With
its group retired the record is nobody's and the instruction ends (log entry 28), which may be the last of its grid (R132). -/
def stopStep (s : State) (asid core : Nat) (m : MatInstr) (t : Trap) : State :=
  let ev := matEvent m t
  match s.group? m.gid with
  | some g =>
    if g.pending.isSome then s
    else stirBroken ((setHead s asid core { m with stopped := true }).setGroup m.gid { g with pending := some ev })
  | none =>
    let s := s.modSet asid core fun x => { x with mq := x.mq.drop 1 }
    let s := (postRecord s asid ⟨#v[recordWord0 ev.code ev.cause ev.report 0#32, BitVec.ofNat 64 m.va.toNat, ev.info, m.grpid,
      BitVec.ofNat 64 (core * 2 ^ 32 + asid * 2 ^ 48), 0#64, ev.report.matrix.getD 0#64, 0#64], .nobody, none, true, none⟩).1
    retireGrid s m.grid

/-- MATRIX_STEP_DONE (R249 to R252): the queue's head runs its next step, unless it waits for a die that is down (R364). -/
def execMatrixStepDone (core : Nat) (s : State) : Res :=
  match matHead s core with
  | none => .next s
  | some (asid, m) =>
    if matSteps m.instr ≤ m.step then .next s
    else
      match m.fault with
      | some t => .next (if t.code = codeBusy then s else stopStep s asid core m t)
      | none =>
        let ks := (stepRuns m).flatMap fun r => r.1.sectors s asid r.2.1 r.2.2
        let s := settleSectors s core (((s.group? m.gid).map Group.pkgSeen).getD false) ks
        let v : Fetch := ⟨s, asid, core, m.seen⟩
        match matStep v m with
        | .error t => .next (if t.code = codeBusy then s else stopStep s asid core m t)
        | .ok (s, fl, pk) =>
          .next (setHead s asid core { m with step := m.step + 1, flags := m.flags ||| fl, peak := pk, seen := v.keep ks })

/-- R264: the absolute maximum enters the word, as one `atom.famax`, or as a buffered contribution under deterministic mode (R178); a
word that cannot be reached, or whose data is uncorrectable, stops the instruction. -/
def drainPeak (s : State) (asid core : Nat) (m : MatInstr) : Except Trap State :=
  match m.instr with
  | .mdrainMem f =>
    if f.s = 0#3 then .ok s
    else
      let r := m.op (if f.b then 2 else 1)
      match r.place s asid r.va with
      | .error t => .error t
      | .ok (p, pa) =>
        let x := m.peak.getD (BitVec.ofNat 32 fp32.nanBits)
        match m.det with
        | some (grid, key) =>
          let c : Contribution := ⟨m.gid, grid, key, .home pa, p.own, 14, x, ⟨.rne, 0⟩, core, f.s.toNat, false, m.va, r.va⟩
          .ok (buffered s c)
        | none =>
          let s := clearLoc s core (.home pa)
          if s.lost pa 4 then .error (plainTrap codeDATAERR r.va)
          else
            let old := BitVec.ofNat 32 (readLoc s p.own (.home pa) 4)
            .ok (writeLoc s core p.own (.home pa) 4 (atomicWord 14 ⟨.rne, 0⟩ old x).toNat)
  | _ => .ok s

/-- The registers a group waits for are there. -/
def Group.arrived (g : Group) (d k : Nat) : Group :=
  { g with loads := g.loads.filter fun r => !(decide (d ≤ r) && decide (r < d + k)) }

/-- MATRIX_INSTR_DONE (R250, R264): the queue's head has finished its steps: its flags join its group's, its registers
are ready, its maximum is written. -/
def execMatrixInstrDone (core : Nat) (s : State) : Res :=
  match matHead s core with
  | none => .next s
  | some (asid, m) =>
    if m.step < matSteps m.instr then .next s
    else
      match drainPeak s asid core m with
      | .error t => .next (if t.code = codeBusy then s else stopStep s asid core m t)
      | .ok s =>
        let s := s.modSet asid core fun x => { x with mq := x.mq.drop 1 }
        let s := s.modGroup m.gid fun g =>
          let g := { g with fflags := g.fflags ||| m.flags, matrix := g.matrix - 1 }
          match m.instr with
          | .mdrainReg f => g.arrived f.v.toNat (drainRegs f.y)
          | _ => g
        .next (retireGrid (stirBroken s) m.grid)

/-- ACCUMULATOR_SWAP (R248): the context that waits for the accumulator store takes it once the holder has nothing in
flight. -/
def execAccumulatorSwap (core : Nat) (s : State) : Res :=
  let c := s.core core
  match c.accWant with
  | none => .next s
  | some asid =>
    let free := match c.accHolder with
      | some h => (s.set h core).mq.isEmpty
      | none => true
    if free then .next (stirBroken (s.setCore core { c with accHolder := some asid, accWant := none })) else .next s

end Sys2Proof.Machine
end

