-- ==== Sys2Proof/Machine/Coverage.lean ====
section
/-!
DEFINITION. Exact coverage of paths (R267 to R300): the reference geometry, binning, the tile slots, blends and the
transfer of a tile to and from its target.
-/

namespace Sys2Proof.Machine

/-! ## The reference geometry (R269 to R272) -/

/-- R269: the integer nearest `a / d`, a tie to the even one. -/
def rneInt (a d : Int) : Int :=
  let n := if d < 0 then -a else a
  let d := if d < 0 then -d else d
  let q := n / d
  let r := n % d
  if d < 2 * r || (2 * r == d && q % 2 == 1) then q + 1 else q

/-- A point in lattice units. -/
structure Pt where
  x : Int
  y : Int
  deriving DecidableEq, Repr

def maxnorm (x y : Int) : Nat := max x.natAbs y.natAbs

/-- The second difference of three points. -/
def secondDiff (a b c : Pt) : Nat := maxnorm (a.x - 2 * b.x + c.x) (a.y - 2 * b.y + c.y)

/-- The smallest n from a start, at most 10, with q ≤ tol × 4^(n+1). -/
def flatLevels (q tol : Nat) : Nat → Nat → Nat
  | 0, n => n
  | fuel + 1, n => if q ≤ tol * 4 ^ (n + 1) then n else flatLevels q tol fuel (n + 1)

/-- R269: the number of halvings of a segment. -/
def levelsOf (tol : Nat) : List Pt → Nat
  | [a, b, c] => flatLevels (secondDiff a b c) tol 10 0
  | [a, b, c, d] => flatLevels (3 * max (secondDiff a b c) (secondDiff b c d)) tol 10 0
  | _ => 0

/-- The Bernstein form's numerator over N^m, one coordinate, at k of N. -/
def bernstein (ps : List Int) (k n : Int) : Int :=
  let u := n - k
  match ps with
  | [a, b] => u * a + k * b
  | [a, b, c] => u * u * a + 2 * k * u * b + k * k * c
  | [a, b, c, d] => u * u * u * a + 3 * k * u * u * b + 3 * k * k * u * c + k * k * k * d
  | _ => 0

/-- R269: the points of a segment's polyline. -/
def flatten (tol : Nat) (ps : List Pt) : List Pt :=
  let n := 2 ^ levelsOf tol ps
  let den : Int := ((n ^ (ps.length - 1) : Nat) : Int)
  (List.range (n + 1)).map fun (k : Nat) =>
    (⟨rneInt (bernstein (ps.map Pt.x) k n) den, rneInt (bernstein (ps.map Pt.y) k n) den⟩ : Pt)

/-- The multiples of 256 strictly between two values, from the first towards the second. -/
def crossings (a b : Int) : List Int :=
  let lo := min a b
  let hi := max a b
  let first := lo / 256 + 1
  let up := (List.range ((hi + 255) / 256 - first).toNat).map fun i => (first + (i : Nat)) * 256
  if a ≤ b then up else up.reverse

/-- Consecutive pairs. -/
def pairs {α : Type} : List α → List (α × α)
  | a :: b :: l => (a, b) :: pairs (b :: l)
  | _ => []

/-- R270: the points where an edge crosses row boundaries. -/
def rowSplit (a b : Pt) : List Pt :=
  a :: (crossings a.y b.y).map (fun y => ⟨rneInt (a.x * (b.y - a.y) + (y - a.y) * (b.x - a.x)) (b.y - a.y), y⟩) ++ [b]

/-- R270: the points where a row's part crosses column boundaries. -/
def columnSplit (c e : Pt) : List Pt :=
  c :: (crossings c.x e.x).map (fun x => ⟨x, rneInt (c.y * (e.x - c.x) + (x - c.x) * (e.y - c.y)) (e.x - c.x)⟩) ++ [e]

/-- R270: the pieces of an edge. -/
def edgePieces (a b : Pt) : List (Pt × Pt) :=
  if a.y = b.y then []
  else (pairs (rowSplit a b)).flatMap fun p => (pairs (columnSplit p.1 p.2)).filter fun q => q.1.y != q.2.y

/-- R271, R272: a piece's cell and its increments. -/
structure CellPiece where
  cx : Int
  cy : Int
  c  : Int
  a  : Int
  deriving DecidableEq, Repr

def cellPiece (p : Pt × Pt) : CellPiece :=
  let cx := min p.1.x p.2.x / 256
  let cy := min p.1.y p.2.y / 256
  let dy := p.2.y - p.1.y
  ⟨cx, cy, dy, dy * (512 - (p.1.x - 256 * cx) - (p.2.x - 256 * cx))⟩

/-- The pieces of a segment. -/
def segmentPieces (tol : Nat) (ps : List Pt) : List CellPiece :=
  (pairs (flatten tol ps)).flatMap fun e => (edgePieces e.1 e.2).map cellPiece

/-! ## Binning (R274, R278 to R283) -/

/-- The signed 32-bit wrap of a value, and whether it changed. -/
def wrap32 (x : Int) : Int × Bool :=
  let y := (BitVec.ofInt 32 x).toInt
  (y, y != x)

def zeroRow : List Int := List.replicate 16 0

/-- A vector with one place's value added to. -/
def addRow (v : List Int) (r : Nat) (c : Int) : List Int × Bool :=
  let w := wrap32 (v.getD r 0 + c)
  (v.set r w.1, w.2)

/-- R280: the binning window: the grid within every open box; none when it is empty. -/
def binWindow (gw gh : Nat) : List (Option Box) → Option Box
  | [] => some ⟨0, 0, gw - 1, gh - 1⟩
  | none :: _ => none
  | some b :: bs =>
    match binWindow gw gh bs with
    | none => none
    | some w =>
      let x := Box.mk (max w.x0 b.x0) (max w.y0 b.y0) (min w.x1 b.x1) (min w.y1 b.y1)
      if x.x1 < x.x0 || x.y1 < x.y0 then none else some x

/-- R274: one piece binned against the window; whether a carry wrapped. -/
def binPiece (w : Box) (p : OpenPath) (q : CellPiece) : OpenPath × Bool :=
  let tx := q.cx / 16
  let ty := q.cy / 16
  let r := (q.cy % 16).toNat
  if ty < w.y0 || (w.y1 : Int) < ty || (w.x1 : Int) < tx then (p, false)
  else if tx < w.x0 then
    let v := addRow ((look ty.toNat p.carryL).getD zeroRow) r q.c
    ({ p with carryL := put ty.toNat v.1 p.carryL }, v.2)
  else
    let k := ty.toNat * 4096 + tx.toNat
    let v := addRow ((look k p.carry).getD zeroRow) r q.c
    let piece : Piece := ⟨16 * r + (q.cx % 16).toNat, q.c, q.a⟩
    ({ p with pieces := put k (((look k p.pieces).getD []) ++ [piece]) p.pieces, carry := put k v.1 p.carry }, v.2)

/-- Pieces binned one after another. -/
def binPieces (w : Option Box) (p : OpenPath) (qs : List CellPiece) : OpenPath × Bool :=
  match w with
  | none => (p, false)
  | some b => qs.foldl (fun (a : OpenPath × Bool) q => let x := binPiece b a.1 q; (x.1, a.2 || x.2)) (p, false)

/-- The columns of a row scanned at `pend`: each tile's backdrop, when it has an entry or the backdrop is not zero; the
flag tells of a wrap. -/
def scanRow (p : OpenPath) (ty : Nat) : List Nat → List Int → List (Nat × List Int) × Bool
  | [], _ => ([], false)
  | tx :: txs, acc =>
    let k := ty * 4096 + tx
    match look k p.pieces with
    | some _ =>
      let sums := (List.range 16).map fun r => wrap32 (acc.getD r 0 + ((look k p.carry).getD zeroRow).getD r 0)
      let rest := scanRow p ty txs (sums.map (·.1))
      ((k, acc) :: rest.1, sums.any (·.2) || rest.2)
    | none =>
      let rest := scanRow p ty txs acc
      (if acc.any (· != 0) then (k, acc) :: rest.1 else rest.1, rest.2)

/-- R274: the rows a path's scan visits: those with an entry or a nonzero carryL. -/
def scanRows (p : OpenPath) : List Nat :=
  ((p.pieces.map fun (e : Nat × List Piece) => e.1 / 4096) ++
    (p.carryL.filter fun (e : Nat × List Int) => e.2.any (· != 0)).map (·.1)).eraseDups

/-- The smallest box of tiles that holds some. -/
def boxOf : List Nat → Option Box
  | [] => none
  | k :: ks => some (ks.foldl (fun (b : Box) k =>
      ⟨min b.x0 (k % 4096), min b.y0 (k / 4096), max b.x1 (k % 4096), max b.y1 (k / 4096)⟩)
      ⟨k % 4096, k / 4096, k % 4096, k / 4096⟩)

/-- The tiles of a box. -/
def boxTiles (b : Box) : List Nat :=
  (List.range (b.y1 + 1 - b.y0)).flatMap fun j => (List.range (b.x1 + 1 - b.x0)).map fun i => (b.y0 + j) * 4096 + b.x0 + i

/-- R281: the keys that order a tile's entries. -/
def BinEntry.order (e : BinEntry) : List Nat :=
  [e.index, e.lidx] ++ if e.packed then [1, e.origin.thread, e.origin.count] else [0, 0, 0]

/-- R281: an entry in its place, after those it equals. -/
def insertEntry (e : BinEntry) : List BinEntry → List BinEntry
  | [] => [e]
  | x :: xs => if lexLt e.order x.order then e :: x :: xs else x :: insertEntry e xs

/-- R282: whether the bin area answers at a byte; the page that holds it must be writable (log entry 30). -/
def binAnswers (s : State) (asid used : Nat) : Bool :=
  match s.ctx? asid with
  | none => false
  | some c =>
    used == 0 ||
    match walk s asid (c.binb + (used - 1)) with
    | .error _ => false
    | .ok p => p.rd1 && p.rd2 && p.wr1 && p.wr2

/-- R364: whether the bin area's byte is homed on a die that is down. -/
def binDown (s : State) (asid used : Nat) : Bool :=
  let busy (t : Trap) : Bool := t.code == codeBusy
  match s.ctx? asid with
  | none => false
  | some c =>
    used != 0 &&
    match walk s asid (c.binb + (used - 1)) with
    | .error t => busy t
    | .ok p => match p.rawPlace s asid .write (c.binb + (used - 1)) with
      | .error t => busy t
      | .ok _ => false

/-- The entry-making group's part of an entry. -/
def binEntryOf (g : Group) (p : OpenPath) (pieces : List Piece) (back : List Int) (row : Nat) : BinEntry :=
  { index := p.index, role := p.role, evenOdd := p.evenOdd, entry := p.entry, paint := p.paint, pieces := pieces,
    back := back, lidx := g.lidx, packed := g.packed, origin := (g.thread 0).origin, row := row }

/-- R281: entries put into the tiles' bins, where every later `cdep` finds them (log entry 137). -/
def addEntries (c : Context) (es : List (Nat × BinEntry)) : Context :=
  { c with bins := es.foldl (fun (m : NMap (List BinEntry)) (e : Nat × BinEntry) => put e.1 (insertEntry e.2 ((look e.1 m).getD [])) m) c.bins }

/-- R282: the rows' charges of a closed path: shared by the entries of each row, or returned where there are none. -/
def chargeRows (c : Context) (rows : List Nat) (tiles : List Nat) (first : Nat) : Context :=
  rows.foldl (fun (c : Context) ty =>
    let n := (tiles.filter fun k => k / 4096 == ty).length
    if n = 0 then { c with binUsed := c.binUsed - 160 } else { c with rows := c.rows ++ [⟨first + ty, n⟩] }) c

/-- R279, R280: whether the group may open a path of a role; a flatness register past s31 is left to cause 6. -/
def pathAllowed (g : Group) (ecnt : Nat) (f : PathF) : Bool :=
  let tol := (g.sreg (f.a.toNat + 2)).toNat % 512
  let index := (g.sreg f.a.toNat).toNat
  decide (index < 2 ^ 32) && (f.o == 2#2 || decide (29 < f.a.toNat) || (decide (1 ≤ tol) && decide (tol ≤ 256))) &&
    (f.o != 0#2 || decide (f.n.toNat < ecnt)) && g.bin.open_.isNone && (f.o != 2#2 || !g.bin.boxes.isEmpty) &&
    (f.o != 1#2 || decide (g.bin.boxes.length < 8)) &&
    match g.bin.closed with
    | some k => decide (k < index)
    | none => true

/-- The entry count of a group's context. -/
def entryCount (s : State) (g : Group) : Nat :=
  match s.ctx? g.asid with
  | some c => c.ecnt
  | none => 0

/-- R289: path. -/
def execPath (f : PathF) (s : State) : Res :=
  issueChecked (.path f) s Group.active (fun g => !pathAllowed g (entryCount s g) f) (fun _ => false) fun g =>
    let p : OpenPath :=
      { index := (g.sreg f.a.toNat).toNat, role := f.o.toNat, evenOdd := f.u, entry := f.n.toNat,
        paint := (g.sreg (f.a.toNat + 1)).setWidth 32,
        tol := if f.o = 2#2 then 1 else (g.sreg (f.a.toNat + 2)).toNat % 512, pieces := [], carry := [], carryL := [] }
    s.retire { g.voidFlash with bin := { g.bin with open_ := some p } } 4 1 f.e

/-- R290: a thread's control points. -/
def segPoints (g : Group) (f : SegF) (t : Nat) : List Pt :=
  (List.range (f.k.toNat + 2)).map fun i =>
    ⟨((g.thread t).reg (f.a.toNat + 2 * i)).toInt, ((g.thread t).reg (f.a.toNat + 2 * i + 1)).toInt⟩

/-- R283: a path closed unfinished: its pieces go and their charges return. -/
def overflowPath (s : State) (g : Group) (p : OpenPath) : State × Group :=
  (s.modCtx g.asid fun c => { c with binUsed := c.binUsed - p.charge }, { g with bin := { g.bin with open_ := none } })

/-- R290, R283: seg. The scribe bins at once; the group waits for SCRIBE_DONE. -/
def execSeg (f : SegF) (s : State) : Res :=
  issueChecked (.seg f) s Group.active
    (fun g => match g.bin.open_ with
      | some p => p.role == 2
      | none => true)
    (fun _ => false) fun g =>
      match g.bin.open_, s.ctx? g.asid with
      | some p, some c =>
        let g := g.voidFlash
        let r := binPieces (binWindow c.gw c.gh g.bin.boxes) p (g.active.flatMap fun t => segmentPieces p.tol (segPoints g f t))
        let q := { r.1 with rows := (p.rows ++ scanRows r.1).eraseDups }
        let used := c.binUsed - p.charge + q.charge
        if c.binn * 65536 < used then
          let o := overflowPath s g p
          o.1.retire { o.2.predAll f.p.toNat false with scribe := true } 4 (issueCycles g) f.e
        else if binDown s g.asid used then raiseAll s (busyTrap 0)
        else if !binAnswers s g.asid used then contextError s g.asid 5
        else
          let s := s.setCtx g.asid { c with binUsed := used }
          let g := { g with bin := { g.bin with open_ := some q }, scribe := true }
          s.retire ((g.predAll f.p.toNat true).orFlags (flagIf r.2 flagCOV)) 4 (issueCycles g) f.e
      | _, _ => s

/-- R274, R279, R281, R282: what `pend` does for a paint or a push. The bins are the context's `bins`; no byte of the bin area is
written (log entry 138). -/
def closePath (s : State) (g : Group) (c : Context) (p : OpenPath) : State × Group :=
  let win := binWindow c.gw c.gh g.bin.boxes
  let rows := scanRows p
  let scans : List (List (Nat × List Int) × Bool) := match win with
    | none => []
    | some b => rows.map fun ty =>
        scanRow p ty ((List.range (b.x1 + 1 - b.x0)).map (b.x0 + ·)) ((look ty p.carryL).getD zeroRow)
  let found := scans.flatMap (·.1)
  let box := boxOf (found.map (·.1))
  let blank := if p.role = 1 then
      (match box with
        | some b => (boxTiles b).filter fun k => !(found.any fun e => e.1 == k)
        | none => [])
    else []
  let tiles := found.map (·.1) ++ blank
  let first := s.fresh
  let rowId (k : Nat) : Nat := if p.rows.contains (k / 4096) then first + k / 4096 else 0
  let es := (found.map fun e => (e.1, binEntryOf g p ((look e.1 p.pieces).getD []) e.2 (rowId e.1))) ++
    blank.map fun k => (k, binEntryOf g p [] zeroRow (rowId k))
  let c := chargeRows (addEntries c es) p.rows tiles first
  let boxes := if p.role = 1 then box :: g.bin.boxes else g.bin.boxes
  ({ s with fresh := first + 4096 }.setCtx g.asid c,
    ({ g with bin := { open_ := none, boxes := boxes, closed := some p.index } }).orFlags
      (flagIf (scans.any (·.2)) flagCOV))

/-- R279: what `pend` does for a pop. -/
def closePop (s : State) (g : Group) (c : Context) (p : OpenPath) : State × Group :=
  let tiles := match g.bin.boxes with
    | some b :: _ => boxTiles b
    | _ => []
  (s.setCtx g.asid (addEntries c (tiles.map fun k => (k, binEntryOf g p [] zeroRow 0))),
    { g with bin := { open_ := none, boxes := g.bin.boxes.drop 1, closed := some p.index } })

/-- R291: pend. -/
def execPend (f : PlainF) (s : State) : Res :=
  issueChecked (.pend f) s Group.active (fun g => g.bin.open_.isNone) (fun _ => false) fun g =>
    match g.bin.open_, s.ctx? g.asid with
    | some p, some c =>
      if binDown s g.asid c.binUsed then raiseAll s (busyTrap 0)
      else if !binAnswers s g.asid c.binUsed then contextError s g.asid 5
      else
        let r := if p.role = 2 then closePop s g.voidFlash c p else closePath s g.voidFlash c p
        r.1.retire r.2 4 1 f.e
    | _, _ => s

/-- SCRIBE_DONE (R290): the scribe has binned the group's pieces. -/
def execScribeDone (gid : Nat) (s : State) : Res :=
  .next (stirBroken (s.modGroup gid fun g => { g with scribe := false }.unitDone s.now))

/-! ## Slots (R284 to R287) -/

def slotOf (s : State) (asid core n : Nat) : Slot := (look n (s.set asid core).slots).getD {}
def setSlot (s : State) (asid core n : Nat) (x : Slot) : State :=
  s.modSet asid core fun y => { y with slots := put n x y.slots }
def Slot.cell (x : Slot) (i : Nat) : SlotCell := (look i x.cells).getD {}

/-- Every cell of a slot changed; a cell in its initial state is not listed. -/
def Slot.mapCells (x : Slot) (f : Nat → SlotCell → SlotCell) : Slot :=
  { x with cells := (List.range 256).filterMap fun i =>
      let k := f i (x.cell i)
      if k = {} then none else some (i, k) }

/-- R286: whether a ticket of the slot is outstanding. -/
def Slot.busy (x : Slot) : Bool := x.cells.any fun e => !e.2.queue.isEmpty

/-- R277: a cell's value at the current depth. -/
def Slot.top (x : Slot) (k : SlotCell) : Nat := if x.depth = 0 then 131072 else k.clip[x.depth - 1]?.getD 0

/-- R277: effective coverage. -/
def Slot.eff (x : Slot) (k : SlotCell) : Nat := (rneInt ((k.cov * x.top k : Nat) : Int) 131072).toNat

/-- R284: the tile store serves the context. -/
def takeTiles (s : State) (g : Group) : State :=
  s.modCore g.core fun c => if c.tileHolder.isNone then { c with tileHolder := some g.asid } else c

/-- The frame of a slot instruction: the state rule of R285, then the effect. -/
def slotOp (i : Instr) (s : State) (n : BitVec 4) (ok : Slot → Bool) (effect : Group → Slot → State) : Res :=
  issueChecked i s Group.active (fun g => !ok (slotOf s g.asid g.core n.toNat)) (fun _ => false) fun g =>
    effect g (slotOf s g.asid g.core n.toNat)

/-- An instruction that changes its slot alone. -/
def slotPlain (i : Instr) (s : State) (n : BitVec 4) (e : Bool) (ok : Slot → Bool) (f : Slot → Slot × Flags) (commit : Bool) :
    Res :=
  slotOp i s n ok fun g x =>
    let r := f x
    (setSlot (takeTiles s g) g.asid g.core n.toNat r.1).retire ((if commit then g.voidFlash else g).orFlags r.2) 4 1 e

/-- R276: the fill function. -/
def fillOf (evenOdd : Bool) (x : Int) : Nat :=
  if evenOdd then
    let m := x.natAbs % 262144
    if m ≤ 131072 then m else 262144 - m
  else min x.natAbs 131072

/-- R275: the planer over the cells of a row from one on: their coverages, and whether w wrapped. -/
def planeRow (x : Slot) (evenOdd : Bool) (r : Nat) : List Nat → Int → List Nat × Bool
  | [], _ => ([], false)
  | j :: js, w =>
    let k := x.cell (16 * r + j)
    let w' := wrap32 (w + k.c.toInt)
    let rest := planeRow x evenOdd r js w'.1
    (fillOf evenOdd (512 * w + k.a.toInt) :: rest.1, w'.2 || rest.2)

/-- R275: the planer over the slot. -/
def planeSlot (x : Slot) (evenOdd : Bool) : Slot × Flags :=
  let rows := (List.range 16).map fun r => planeRow x evenOdd r (List.range 16) (x.back.getD r 0)
  let covs := (rows.flatMap (·.1)).toArray
  (x.mapCells fun i k => { k with cov := covs.getD i 0 }, flagIf (rows.any (·.2)) flagCOV)

/-- R285: the role of a state after `cdep`, and after `cscan`. -/
def SlotState.depositedRole : SlotState → Option Nat
  | .deposited r => some r
  | _ => none
def SlotState.scannedRole : SlotState → Option Nat
  | .scanned r => some r
  | _ => none

/-- R296: cscan. -/
def execCscan (f : SlotF) (s : State) : Res :=
  slotPlain (.cscan f) s f.s f.e (fun x => x.state.depositedRole == some 0 || x.state.depositedRole == some 1)
    (fun x =>
      let r := planeSlot x ((x.entry.map BinEntry.evenOdd).getD false)
      ({ r.1 with state := .scanned (x.state.depositedRole.getD 0) }, r.2)) false

/-- R277, R296: clpush. -/
def execClpush (f : SlotF) (s : State) : Res :=
  slotPlain (.clpush f) s f.s f.e (fun x => x.state.scannedRole == some 1)
    (fun x =>
      let y := x.mapCells fun _ k => { k with clip := k.clip.setIfInBounds x.depth (x.eff k) }
      ({ y with depth := x.depth + 1, state := .idle }, 0#7)) true

/-- R277, R296: clpop. -/
def execClpop (f : SlotF) (s : State) : Res :=
  slotPlain (.clpop f) s f.s f.e (fun x => x.state.depositedRole == some 2)
    (fun x => ({ x with depth := x.depth - 1, state := .idle }, 0#7)) true

/-! ## cdep (R295) -/

/-- R282: what an entry's passing returns. -/
def passEntry (c : Context) (e : BinEntry) : Context :=
  let own := 8 * e.pieces.length + if e.pieces.isEmpty then 0 else 160
  let last := c.rows.any fun r => r.id == e.row && r.left == 1
  { c with
    binUsed := c.binUsed - own - (if last then 160 else 0)
    rows := (c.rows.map fun (r : RowCharge) => if r.id = e.row then { r with left := r.left - 1 } else r).filter fun r => r.left != 0 }

/-- R273: one piece deposited in its cell; whether an accumulator wrapped. -/
def depositPiece (k : SlotCell) (p : Piece) : SlotCell × Bool :=
  let c := k.c.toInt + p.c
  let a := k.a.toInt + p.a
  let k := { k with c := BitVec.ofInt 32 c, a := BitVec.ofInt 48 a }
  (k, k.c.toInt != c || k.a.toInt != a)

/-- The accumulators of a slot cleared. -/
def Slot.clearAcc (x : Slot) : Slot := x.mapCells fun _ k => { k with c := 0#32, a := 0#48 }

/-- R273, R295: an entry deposited: accumulators cleared, pieces added, the backdrop loaded. -/
def depositEntry (x : Slot) (e : BinEntry) : Slot × Flags :=
  if e.role = 2 then ({ x with entry := some e, state := .deposited 2 }, 0#7)
  else
    let r := e.pieces.foldl (fun (a : Slot × Bool) p =>
      let d := depositPiece (a.1.cell p.cell) p
      ({ a.1 with cells := put p.cell d.1 a.1.cells }, a.2 || d.2)) (x.clearAcc, false)
    ({ r.1 with back := e.back, entry := some e, state := .deposited e.role }, flagIf r.2 flagCOV)

/-- R295: the three results of `cdep`. -/
def Group.cdepResults (g : Group) (d : Nat) (e : Option BinEntry) : Group :=
  let r : Nat × Nat × Nat := match e with
    | none => (0, 0, 0)
    | some e => (e.index % 2 ^ 32, e.paint.toNat,
        e.entry % 1024 + (if e.evenOdd then 2 ^ 16 else 0) + e.role * 2 ^ 24 + 2 ^ 32)
  ((g.writeS d (BitVec.ofNat 64 r.1)).writeS (d + 1) (BitVec.ofNat 64 r.2.1)).writeS (d + 2) (BitVec.ofNat 64 r.2.2)

/-- R285, R295: cdep. The deposit is made at once; the group waits for DEPOSIT_DONE. -/
def execCdep (f : CdepF) (s : State) : Res :=
  slotOp (.cdep f) s f.s
    (fun x => x.state == .idle || x.state.depositedRole == some 0 || x.state.scannedRole == some 0) fun g x =>
      match s.ctx? g.asid with
      | none => s
      | some c =>
        let k := x.ty * 4096 + x.tx
        let g := { g.voidFlash with deposit := true }
        match (look k c.bins).getD [] with
        | [] =>
          let s := setSlot (takeTiles s g) g.asid g.core f.s.toNat { x with state := .idle, entry := none }
          s.retire (g.cdepResults f.d.toNat none) 4 1 f.e
        | e :: rest =>
          if binDown s g.asid 1 then raiseAll s (busyTrap 0)
          else if !binAnswers s g.asid 1 then contextError s g.asid 5
          else
            let r := depositEntry x e
            let bins := if rest.isEmpty then drop k c.bins else put k rest c.bins
            let s := s.setCtx g.asid (passEntry { c with bins := bins } e)
            let s := setSlot (takeTiles s g) g.asid g.core f.s.toNat r.1
            s.retire ((g.cdepResults f.d.toNat (some e)).orFlags r.2) 4 1 f.e

/-- DEPOSIT_DONE (R295): the deposit has ended. -/
def execDepositDone (gid : Nat) (s : State) : Res :=
  .next (stirBroken (s.modGroup gid fun g => { g with deposit := false }.unitDone s.now))

/-! ## cspan and blends (R286 to R288, R297, R298) -/

/-- R297: the item of a cell; its prefix key carries the cell as well (log entry 29). -/
def spanItem (g : Group) (slot : Nat) (x : Slot) (e : BinEntry) (i : Nat) : Item :=
  let eff := x.eff (x.cell i)
  let cx := 16 * x.tx + i % 16
  let cy := 16 * x.ty + i / 16
  let item := itemOf g e.entry 0 #v[BitVec.ofNat 32 (cx + cy * 2 ^ 16), BitVec.ofNat 32 eff, BitVec.ofNat 32 e.index, e.paint]
    (some ⟨slot, i, x.stamp, eff⟩)
  { item with origin := ⟨g.lidx, 0, g.retired * 256 + i⟩, prefixKey := item.prefixKey ++ [i] }

/-- The cells that `cspan` emits for. -/
def Slot.spanCells (x : Slot) : List Nat := (List.range 256).filter fun i => x.eff (x.cell i) != 0

/-- R286, R297: cspan. A stall has emitted nothing. -/
def execCspan (f : SlotF) (s : State) : Res :=
  slotOp (.cspan f) s f.s (fun x => x.state.scannedRole == some 0) fun g x =>
    match x.entry with
    | none => s
    | some e =>
      let cells := x.spanCells
      let items := cells.map fun i => spanItem g f.s.toNat x e i
      let stall := (takeTiles s g).setGrp (g.voidFlash.block_ (.cspan f.s.toNat) s.now)
      if cells.any fun i => decide (4 ≤ (x.cell i).queue.length) then stall
      else
        match itemSpots s g.asid g.core items.length g.packed with
        | none => stall
        | some spots =>
          let y := x.mapCells fun i k =>
            if x.eff k = 0 then k else { k with queue := k.queue ++ [⟨x.stamp, x.eff (x.cell i), none⟩] }
          let s := setSlot (takeTiles s g) g.asid g.core f.s.toNat { y with stamp := x.stamp + 1, state := .idle }
          let s := enqueueItems s g.asid g.core items spots
          s.retire (g.voidFlash.noteSpawn e.entry) 4 1 f.e

/-- R298: tblend. -/
def execTblend (f : TblendF) (s : State) : Res :=
  issueChecked (.tblend f) s Group.active (fun g => g.active.any fun t => (g.thread t).ticket.isNone) (fun _ => false) fun g =>
    let s := takeTiles s g
    let s := g.active.foldl (fun s t =>
      match (g.thread t).ticket with
      | some k =>
        let lo := ((g.thread t).reg f.a.toNat).toNat
        let hi := ((g.thread t).reg (f.a.toNat + 1)).toNat
        useTicket s g.asid g.core k f.m.toNat
          #v[BitVec.ofNat 16 lo, BitVec.ofNat 16 (lo / 2 ^ 16), BitVec.ofNat 16 hi, BitVec.ofNat 16 (hi / 2 ^ 16)]
      | none => s) s
    let g := g.active.foldl (fun (g : Group) t => g.modThread t fun x => { x with ticket := none }) g
    s.retire g.voidFlash 4 (issueCycles g) f.e

/-- R288: the blend of a colour with a coverage into a cell's colour. -/
def blendColour (mode cov : Nat) (paint d : Vector (BitVec 16) 4) : Vector (BitVec 16) 4 :=
  let r : Rnd := ⟨.rne, 0⟩
  let src (i : Nat) : Nat :=
    match fp16.decode (paint[i]?.getD 0#16).toNat with
    | .fin n m e => (roundProds fp16 r 0#7 [.term ⟨n, m * cov, e - 17⟩]).bits
    | .inf n => if cov = 0 then fp16.nanBits else fp16.signed n fp16.infBits
    | .nan _ => fp16.nanBits
  let t := (fSub fp16 r 0x3C00 (src 3)).bits
  Vector.ofFn fun i : Fin 4 =>
    let x := (d[i.val]?.getD 0#16).toNat
    BitVec.ofNat 16 (match mode with
      | 0 => (fAdd fp16 r (src i.val) (fMul fp16 r x t).bits).bits
      | 1 => (fAdd fp16 r x (src i.val)).bits
      | 2 => src i.val
      | _ => (fMinMax fp16 true x (src i.val)).bits)

/-- BLEND_APPLY (R286, R287): the oldest outstanding ticket of a cell, once used, is applied; a stalled `cspan` and a
waiting `tflush` of the slot test again (R112, R294). -/
def execBlendApply (asid core slot cell : Nat) (s : State) : Res :=
  let x := slotOf s asid core slot
  let k := x.cell cell
  match k.queue with
  | [] => .next s
  | b :: rest =>
    match b.colour with
    | none => .next s
    | some (mode, c) =>
      if (s.core core).tileHolder != some asid then .next s
      else
        let k := { k with queue := rest, colour := if mode = 4 then k.colour else blendColour mode b.cov c k.colour }
        let s := setSlot s asid core slot { x with cells := put cell k x.cells }
        .next (wakeWhere s fun _ g => g.asid == asid && g.core == core && (g.wait == .cspan slot || g.wait == .tflush slot))

/-- R286: whether a cell's oldest outstanding ticket has been used, so that its blend is being applied. -/
def SlotCell.blending (k : SlotCell) : Bool :=
  match k.queue with
  | b :: _ => b.colour.isSome
  | [] => false

/-- R284, R287: whether a context has a blend to be applied on a core. -/
def blendDue (s : State) (asid core : Nat) : Bool :=
  (s.set asid core).slots.any fun x => x.2.cells.any fun k => k.2.blending

/-- R284: whether the tile store may leave its holder: no slot instruction in progress, no blend being applied. -/
def tileFree (s : State) (core : Nat) : Bool :=
  match (s.core core).tileHolder with
  | some h => !(s.groups.any fun e => e.2.asid == h && e.2.core == core && e.2.deposit) && !blendDue s h core
  | none => true

/-- TILE_STORE_SWAP (R284): a context takes the tile store once the holder leaves it. -/
def execTileStoreSwap (core asid : Nat) (s : State) : Res :=
  if tileFree s core then
    .next (stirBroken (s.modCore core fun c => { c with tileHolder := some asid, tileWant := none }))
  else .next s

/-! ## Targets (R292 to R294) -/

/-- A target's layout: the bytes of a cell, of a row, of the image, and of image and clip save area together. -/
structure Target where
  cell  : Nat
  row   : Nat
  image : Nat
  whole : Nat

def targetOf (fmt : PageFmt) (gw gh : Nat) : Target :=
  let cell := if fmt = .raw then 8 else 16
  let image := 16 * gw * 16 * gh * cell
  ⟨cell, 16 * gw * cell, image, image + 9216 * gw * gh⟩

/-- What the checks of a target give: the window, the pages of the tile and of its clip save record, the record's
offset when the window covers the clip save area. -/
structure TileRefs where
  win   : Window
  image : MemRef
  clip  : Option Nat

/-- The pages of the tile's rows. -/
def tilePages (k : OperandCheck) (g : Group) (w : Window) (t : Target) (tx ty : Nat) :
    List Nat → State → Except Trap (List Page × State)
  | [], s => .ok ([], s)
  | r :: rs, s =>
    let o := (16 * ty + r) * t.row + 16 * tx * t.cell
    match operandPages k g w 3 s o (o + 16 * t.cell - 1) with
    | .error tr => .error tr
    | .ok (ps, _, s) =>
      match tilePages k g w t tx ty rs s with
      | .error tr => .error tr
      | .ok (qs, s) => .ok (ps ++ qs, s)

/-- R292, R293: the checks of a target for a tile, in the order of R249: LIMIT, the window's flags, alignment, then the pages. `clip`
demands a raw target and the clip save record. A stale window has no format until it is translated again (R154): before that its
LIMIT is held to the image of a raw target, the smaller one (log entry 125). -/
def checkTile (s : State) (g : Group) (w : Window) (gw gh tx ty : Nat) (rd clip : Bool) : Except Trap (TileRefs × State) :=
  let va := w.va 0
  let first := targetOf (if clip || w.stale then .raw else w.page.fmt) gw gh
  if w.limit.toNat < (if clip then first.whole else first.image) || !w.wr || (rd && !w.rd) then .error (plainTrap codePERM va)
  else if va % 64 != 0 then .error (plainTrap codeALIGN va)
  else
    match refreshWindow s g.core g.asid g.mode w with
    | .error tr => .error tr
    | .ok (w, s) =>
    let fmt := if clip then .raw else w.page.fmt
    let t := targetOf fmt gw gh
    let k : OperandCheck := ⟨64, rd, true, if rd then .update else .write, true, some fmt⟩
    if w.limit.toNat < t.image then .error (plainTrap codePERM va)
    else if clip && w.page.fmt != .raw then
      let o := 16 * ty * t.row + 16 * tx * t.cell
      match operandPages { k with fmt := none } g w 1 s o o with
      | .error tr => .error tr
      | .ok _ => .error (plainTrap codeFORMAT (w.va o))
    else
      match tilePages k g w t tx ty (List.range 16) s with
      | .error tr => .error tr
      | .ok (ps, s) =>
        let record := t.image + 9216 * (ty * gw + tx)
        if fmt == .raw && decide (t.whole ≤ w.limit.toNat) then
          match operandPages k g w 3 s record (record + 9215) with
          | .error tr => .error tr
          | .ok (qs, _, s) => .ok (⟨w, { va := va, pages := ps ++ qs }, some record⟩, s)
        else .ok (⟨w, { va := va, pages := ps }, none⟩, s)

/-- Four cells of a row read from a grain block: rounded to FP16 (R292); `n` is the first channel's place. -/
def grainColours (rnd : Nat → Rnd) (n : Nat) (f : PageFmt) (b : GBlock) : List (BitVec 16) × Flags :=
  let ys := (List.range 16).map fun i => roundProds fp16 (rnd (n + i)) 0#7 [(b.value f i).addend]
  (ys.map fun y => BitVec.ofNat 16 y.bits, ys.foldl (fun fl y => fl ||| y.flags) 0#7)

/-- The channels of one row of a tile, and the flags of their rounding. -/
def readTileRow (v : Fetch) (rnd : Nat → Rnd) (m : MemRef) (fmt : PageFmt) (t : Target) (tx ty r : Nat) :
    Except Trap (List (BitVec 16) × Flags) :=
  let o := (16 * ty + r) * t.row + 16 * tx * t.cell
  if fmt = .raw then
    match refBytes v m o 128 with
    | .error tr => .error tr
    | .ok bs => .ok ((splitElems 2 bs).map (BitVec.ofNat 16 ·), 0#7)
  else
    (List.range 4).foldl (fun (acc : Except Trap (List (BitVec 16) × Flags)) i =>
      match acc with
      | .error tr => .error tr
      | .ok (cs, fl) =>
        match refBlock v m (o + 64 * i) with
        | .error tr => .error tr
        | .ok (f, b) =>
          let y := grainColours rnd (64 * r + 16 * i) f b
          .ok (cs ++ y.1, fl ||| y.2)) (.ok ([], 0#7))

/-- The channels of a tile's rows. -/
def readTile (v : Fetch) (rnd : Nat → Rnd) (m : MemRef) (fmt : PageFmt) (t : Target) (tx ty : Nat) :
    List Nat → Except Trap (List (BitVec 16) × Flags)
  | [] => .ok ([], 0#7)
  | r :: rs =>
    match readTileRow v rnd m fmt t tx ty r with
    | .error tr => .error tr
    | .ok (cs, fl) =>
      match readTile v rnd m fmt t tx ty rs with
      | .error tr => .error tr
      | .ok (ds, fl') => .ok (cs ++ ds, fl ||| fl')

/-- R156, R166, R173: before a tile is read, what becomes of the core's own copies of its bytes, as for a matrix step. -/
def settleTile (s : State) (g : Group) (m : MemRef) (t : Target) (tx ty : Nat) : State :=
  settleSectors s g.core g.pkgSeen
    ((List.range 16).flatMap fun r => m.sectors s g.asid ((16 * ty + r) * t.row + 16 * tx * t.cell) (16 * t.cell))

/-- The colour of cell `i` among a tile's channels. -/
def colourAt (cs : Array (BitVec 16)) (i : Nat) : Vector (BitVec 16) 4 :=
  Vector.ofFn fun j : Fin 4 => cs.getD (4 * i + j.val) 0#16

/-- R292: whether a clip save record is sound, and its depth. -/
def clipRecord (bs : List Byte) : Option Nat :=
  let depth := ofBytes (bs.take 1)
  let level (l i : Nat) : Nat := ofBytes ((bs.drop (1024 * l + 4 * i)).take 4)
  let ok := decide (depth ≤ 8) && ((bs.drop 1).take 1023).all (· == 0#8) &&
    (List.range 8).all fun l => (List.range 256).all fun i =>
      if l + 1 ≤ depth then decide (level (l + 1) i ≤ 131072) else level (l + 1) i == 0
  if ok then some depth else none

/-- How a binding sets a cell: its colour, its clip levels. -/
structure Binding where
  colour : Nat → SlotCell → Vector (BitVec 16) 4
  clip   : Nat → SlotCell → Vector Nat 8
  depth  : Nat

/-- R292: the slot bound. -/
def bindSlot (x : Slot) (w : Window) (tx ty : Nat) (b : Binding) : Slot :=
  let y := x.mapCells fun i k => { c := 0#32, a := 0#48, cov := 0, clip := b.clip i k, colour := b.colour i k, queue := [] }
  { y with state := .idle, tx := tx, ty := ty, win := some w, back := zeroRow, depth := b.depth, stamp := 0, entry := none }

/-- The tile an `s_a` names. -/
def tileOf (g : Group) (a : BitVec 5) : Nat × Nat := ((g.sreg a.toNat).toNat % 65536, (g.sreg a.toNat).toNat / 65536 % 65536)

/-- R285, R292: whether a slot may be bound to a tile. -/
def bindAllowed (s : State) (g : Group) (a : BitVec 5) (n : BitVec 4) : Bool :=
  let x := slotOf s g.asid g.core n.toNat
  let t := tileOf g a
  match s.ctx? g.asid with
  | some c => decide (t.1 < c.gw) && decide (t.2 < c.gh) && (x.state == .unbound || x.state == .idle) && !x.busy
  | none => false

/-- The rounding of a tile's channels by the issuing group (R218). -/
def tileRnd (g : Group) (n : Nat) : Rnd := engineRnd g.fpmode g.fpseed g.lidx g.retired n

/-- R292: tbind. -/
def execTbind (f : TbindF) (s : State) : Res :=
  issueChecked (.tbind f) s Group.active (fun g => !bindAllowed s g f.a f.s) (fun _ => false) fun g =>
    match s.ctx? g.asid with
    | none => s
    | some c =>
      let x := slotOf s g.asid g.core f.s.toNat
      let tile := tileOf g f.a
      match checkTile s g (g.win f.w.toNat) c.gw c.gh tile.1 tile.2 (f.i == 1#2) false with
      | .error t => raiseAll s t
      | .ok (r, s) =>
        let g := (g.setWin f.w.toNat r.win).voidFlash
        let clear := (g.sreg (f.a.toNat + 1)).toNat
        let colour : Vector (BitVec 16) 4 := Vector.ofFn fun j : Fin 4 => BitVec.ofNat 16 (clear / 2 ^ (16 * j.val))
        let t := targetOf r.win.page.fmt c.gw c.gh
        let s := if f.i = 1#2 then settleTile s g r.image t tile.1 tile.2 else s
        let got : Except Trap (List (BitVec 16) × Flags) :=
          if f.i = 1#2 then readTile ⟨s, g.asid, g.core, []⟩ (tileRnd g) r.image r.win.page.fmt t
            tile.1 tile.2 (List.range 16) else .ok ([], 0#7)
        match got with
        | .error t => raiseAll s t
        | .ok (cs, fl) =>
          let arr := cs.toArray
          let b : Binding :=
            if f.i = 0#2 then ⟨fun _ _ => colour, fun _ _ => Vector.replicate 8 0, 0⟩
            else if f.i = 1#2 then ⟨fun i _ => colourAt arr i, fun _ _ => Vector.replicate 8 0, 0⟩
            else ⟨fun _ k => k.colour, fun _ k => k.clip, x.depth⟩
          (setSlot (takeTiles s g) g.asid g.core f.s.toNat (bindSlot x r.win tile.1 tile.2 b)).retire (g.orFlags fl) 4 1 f.e

/-- R292: tload. -/
def execTload (f : TloadF) (s : State) : Res :=
  issueChecked (.tload f) s Group.active (fun g => !bindAllowed s g f.a f.s) (fun _ => false) fun g =>
    match s.ctx? g.asid with
    | none => s
    | some c =>
      let x := slotOf s g.asid g.core f.s.toNat
      let tile := tileOf g f.a
      match checkTile s g (g.win f.w.toNat) c.gw c.gh tile.1 tile.2 true true with
      | .error t => raiseAll s t
      | .ok (r, s) =>
        let g := (g.setWin f.w.toNat r.win).voidFlash
        let record := r.clip.getD 0
        let s := settleTile s g r.image (targetOf .raw c.gw c.gh) tile.1 tile.2
        let s := settleSectors s g.core g.pkgSeen (r.image.sectors s g.asid record 9216)
        match readTile ⟨s, g.asid, g.core, []⟩ (tileRnd g) r.image .raw (targetOf .raw c.gw c.gh) tile.1 tile.2 (List.range 16),
            refBytes ⟨s, g.asid, g.core, []⟩ r.image record 9216 with
        | .error t, _ => raiseAll s t
        | _, .error t => raiseAll s t
        | .ok (cs, _), .ok bs =>
          match clipRecord bs with
          | none => raiseAll s (plainTrap codeFORMAT (r.image.va + record))
          | some depth =>
            let arr := cs.toArray
            let raw := bs.toArray
            let level (l i : Nat) : Nat := ofBytes ((List.range 4).map fun j => raw.getD (1024 * (l + 1) + 4 * i + j) 0#8)
            let b : Binding := ⟨fun i _ => colourAt arr i, fun i _ => Vector.ofFn fun l : Fin 8 => level l.val i, depth⟩
            (setSlot (takeTiles s g) g.asid g.core f.s.toNat (bindSlot x r.win tile.1 tile.2 b)).retire g 4 1 f.e

/-- The bytes of a clip save record (R293). -/
def clipBytes (x : Slot) : List Byte :=
  toBytes 1 x.depth ++ List.replicate 1023 0#8 ++
    (List.range 8).flatMap fun l => (List.range 256).flatMap fun i =>
      toBytes 4 (if l < x.depth then (x.cell i).clip[l]?.getD 0 else 0)

/-- R294: an FP16 channel as the exact FP32 pattern the encoder takes; a NaN stays signalling if it was. -/
def channelWord (y : BitVec 16) : Word :=
  match fp16.decode y.toNat with
  | .nan true => 0x7FA00000#32
  | v => exactWord v

/-- R294: one row of a tile written to a grain target, four cells a block. -/
def flushGrainRow (s : State) (core : Nat) (rnd : Nat → Rnd) (m : MemRef) (x : Slot) (o r : Nat) : State × Flags :=
  (List.range 4).foldl (fun (a : State × Flags) i =>
    let va := m.va + o + 64 * i
    match m.page va with
    | none => a
    | some p =>
      let xs := (List.range 16).map fun j => channelWord ((x.cell (16 * r + 4 * i + j / 4)).colour[j % 4]?.getD 0#16)
      let b := encodeBlock p.fmt (fun j => rnd (64 * r + 16 * i + j)) xs
      (writeBlock a.1 core p ((va - p.vbase) / 64) b.1, a.2 ||| b.2)) (s, 0#7)

/-- R364: whether a block of a row of a grain target is homed on a die that is down. -/
def rowDown (s : State) (m : MemRef) (o : Nat) : Bool :=
  (List.range 4).any fun i =>
    let va := m.va + o + 64 * i
    (m.page va).any fun p => p.blockDown s ((va - p.vbase) / 64)

/-- R294: the slot's colour written to its tile; the clip save record too where the window covers the area. -/
def flushTile (s : State) (g : Group) (x : Slot) (r : TileRefs) (t : Target) : Except Trap (State × Flags) :=
  let rows := (List.range 16).foldl (fun (acc : Except Trap (State × Flags)) i =>
    match acc with
    | .error tr => .error tr
    | .ok (s, fl) =>
      let o := (16 * x.ty + i) * t.row + 16 * x.tx * t.cell
      if r.win.page.fmt = .raw then
        let bs := (List.range 64).flatMap fun j => toBytes 2 (((x.cell (16 * i + j / 4)).colour[j % 4]?.getD 0#16).toNat)
        match refWrite s g.asid g.core r.image o bs with
        | .error tr => .error tr
        | .ok s => .ok (s, fl)
      else if rowDown s r.image o then .error (busyTrap (r.image.va + o))
      else
        let y := flushGrainRow s g.core (tileRnd g) r.image x o i
        .ok (y.1, fl ||| y.2)) (.ok (s, 0#7))
  match rows, r.clip with
  | .ok (s, fl), some record =>
    match refWrite s g.asid g.core r.image record (clipBytes x) with
    | .error tr => .error tr
    | .ok s => .ok (s, fl)
  | res, _ => res

/-- R285, R294: tflush. With a ticket outstanding the group waits and runs it again. -/
def execTflush (f : SlotF) (s : State) : Res :=
  slotOp (.tflush f) s f.s
    (fun x => x.state == .idle || x.state.depositedRole == some 0 || x.state.scannedRole == some 0) fun g x =>
      match s.ctx? g.asid with
      | none => s
      | some c =>
        match checkTile s g (x.win.getD Window.init) c.gw c.gh x.tx x.ty false false with
        | .error t => raiseAll s t
        | .ok (r, s) =>
          let s := takeTiles s g
          if x.busy then s.setGrp (g.voidFlash.block_ (.tflush f.s.toNat) s.now)
          else
            match flushTile s g x r (targetOf r.win.page.fmt c.gw c.gh) with
            | .error t => raiseAll s t
            | .ok (s, fl) =>
              let s := setSlot s g.asid g.core f.s.toNat { x with state := .unbound, win := some r.win }
              s.retire (g.voidFlash.orFlags fl) 4 1 f.e

/-- R285, R299: whether a slot answers `covget`. -/
def covAllowed (x : Slot) : Bool := x.state != .unbound && x.state.depositedRole != some 2

/-- R299: what `covget` reads of a cell. -/
def covWord (what : BitVec 2) (k : SlotCell) : Word :=
  match what.toNat with
  | 0 => k.c
  | 1 => k.a.setWidth 32
  | 2 => (k.a.extractLsb' 32 16).signExtend 32
  | _ => BitVec.ofNat 32 k.cov

/-- R299: covget. -/
def execCovget (f : CovgetF) (s : State) : Res :=
  issueChecked (.covget f) s Group.active
    (fun g => !covAllowed (slotOf s g.asid g.core f.s.toNat) || g.active.any fun t => decide (256 ≤ (g.src f.a t).toNat))
    (fun _ => false) fun g =>
      let x := slotOf s g.asid g.core f.s.toNat
      (takeTiles s g).retire (g.eachThread g.active fun h t =>
        h.writeV t f.d.toNat (covWord f.w (x.cell (g.src f.a t).toNat))) 4 (issueCycles g) f.e

end Sys2Proof.Machine
end

