-- ==== Sys2Proof/Machine/Units.lean ====
section
/-!
DEFINITION. Moving the state of a core (R95, R383): what a context holds on a core leaves it as one unit, by a full park or by a
change of its partition.

State that has left its core carries a number above 255 in place of its core's, so that no core of the module has it.
-/

namespace Sys2Proof.Machine

/-! ## Moving the state of a core (R95, R383) -/

/-- A bench place of a block that moves with its core. -/
def Loc.move (own : Nat → Bool) (a b : Nat) (l : Loc) : Loc :=
  match l with
  | .bench k c o => if c = a && own k then .bench k b o else l
  | .home _ => l

/-- The core barrier of a block that moves. A die barrier keeps its instance: a group that waits at one and is placed on another die
stays counted where it arrived; the spec does not say which instance it then waits at, and the model leaves it there (log entry
105). -/
def BarRef.move (own : Nat → Bool) (a b : Nat) (r : BarRef) : BarRef :=
  match r with
  | .core k c n => if c = a && own k then .core k b n else r
  | _ => r

/-- A wait at such a barrier. -/
def Wait.move (own : Nat → Bool) (a b : Nat) (w : Wait) : Wait :=
  match w with
  | .bar r g => .bar (r.move own a b) g
  | .barArrive r g => .barArrive (r.move own a b) g
  | _ => w

/-- A contribution of a group that moves. -/
def Contribution.move (own : Nat → Bool) (a b : Nat) (c : Contribution) : Contribution :=
  { c with loc := c.loc.move own a b, core := if c.core = a then b else c.core }

/-- A group that moves. -/
def Group.move (own : Nat → Bool) (a b : Nat) (g : Group) : Group :=
  { g with
    core := b
    wait := g.wait.move own a b
    det := { g.det with
      buffer := g.det.buffer.map (Contribution.move own a b)
      atom := g.det.atom.map fun (e : Nat × DetKey × Loc) => (e.1, e.2.1, e.2.2.move own a b) } }

/-- A block's bench and core barriers that move; its units of the bench are taken anew where it is placed. -/
def Block.move (a b : Nat) (x : Block) : Block :=
  { x with
    cores := x.cores.map fun c => if c = a then b else c
    bench := match look a x.bench with
      | some m => put b m (drop a x.bench)
      | none => x.bench
    benchAt := drop a x.benchAt
    coreBars := x.coreBars.foldl (fun (m : NMap Barrier) (e : Nat × Barrier) =>
      put (if e.1 / 32 = a then coreBarKey b (e.1 % 32) else e.1) e.2 m) [] }

/-- A matrix instruction whose bench operands move; what its steps have read is read again (R252). -/
def MatInstr.move (own : Nat → Bool) (a b : Nat) (m : MatInstr) : MatInstr :=
  { m with
    seen := []
    ops := m.ops.map fun (r : MemRef) => { r with bench := r.bench.map fun (k : Nat × Nat) => if k.2 = a && own k.1 then (k.1, b) else k } }

/-- A set whose queue moves. -/
def CoreSet.move (own : Nat → Bool) (a b : Nat) (x : CoreSet) : CoreSet :=
  { x with mq := x.mq.map (MatInstr.move own a b) }

/-- Whether a block belongs to a context. -/
def ownBlock (s : State) (asid k : Nat) : Bool := (s.block? k).any fun x => x.asid == asid

/-- Everything of a context on core `a`, but for its set, is on core `b` now. -/
def moveCore (s : State) (asid a b : Nat) : State :=
  let own := ownBlock s asid
  let mine (n : Nat) : Bool := (s.grid? n).any fun x => x.asid == asid
  { s with
    groups := s.groups.map fun (e : Nat × Group) =>
      if e.2.asid = asid && e.2.core = a then (e.1, e.2.move own a b) else e
    blocks := s.blocks.map fun (e : Nat × Block) => if e.2.asid = asid then (e.1, e.2.move a b) else e
    grids := s.grids.map fun (e : Nat × Grid) =>
      if e.2.asid = asid then
        (e.1, { e.2 with
          core := if e.2.core = some a then some b else e.2.core
          source := match e.2.source with
            | .device fe c => .device fe (if c = a then b else c)
            | q => q })
      else e
    pool := s.pool.map fun c => if mine c.grid then c.move own a b else c
    base := s.base.map fun (e : Nat × Loc × Word) => (e.1, e.2.1.move own a b, e.2.2) }

/-! ## Leaving a core -/

/-- The cores of the module on which a context holds something: a set, a block, or room in its park area for the core's state
(R385). -/
def ctxCores (s : State) (asid : Nat) : List Nat :=
  (((((s.ctx? asid).map Context.parkCores).getD []).filter fun k => decide (k < 256)) ++
    ((s.sets.filter fun (e : Nat × CoreSet) => e.1 / 256 == asid).map fun (e : Nat × CoreSet) => e.1 % 256) ++
    ((s.blocks.filter fun (e : Nat × Block) => e.2.asid == asid).flatMap fun (e : Nat × Block) => e.2.cores.filter fun k => decide (k < 256))).eraseDups

/-- A core's part of a context becomes a unit that waits to be placed (R383); what it held on the core comes free, and its 2 MiB of
the park area go with it (R385). -/
def saveUnit (s : State) (asid core : Nat) : State :=
  let (name, s) := s.takeName
  let away := 256 + name
  let own := ownBlock s asid
  let u : SavedUnit :=
    { core := core
      blocks := (s.blocks.filter fun e => e.2.asid == asid && e.2.cores.contains core).map (·.1)
      set := (s.set asid core).move own core away
      away := away }
  let s := s.release core 6
  let s := moveCore { s with sets := drop (State.setKey asid core) s.sets } asid core away
  let s := s.modCore core fun c =>
    { c with
      accHolder := if c.accHolder = some asid then none else c.accHolder
      accWant := if c.accWant = some asid then none else c.accWant
      tileHolder := if c.tileHolder = some asid then none else c.tileHolder
      tileWant := if c.tileWant = some asid then none else c.tileWant }
  { s with freed := true }.modCtx asid fun c =>
    { c with units := c.units ++ [u], parkCores := c.parkCores.map fun k => if k = core then away else k }

end Sys2Proof.Machine
end

