-- ==== Sys2Proof/Machine/Registers.lean ====
section
/-!
DEFINITION. The control registers and the management registers: what each view reads, what a write does to each field
(R5 to R7, R64, R307 to R314, R337, R382), the partitions' interfaces (R333) and key slots (R329), a die's warm reset (R378).
-/

namespace Sys2Proof.Machine

/-! ## What must be quiet -/

/-- R311: a context with no admitted group, engine operation, queued matrix instruction or bound tile slot; what a
pre-emption has saved is no longer on the module (log entry 36). -/
def ctxIdle (s : State) (asid : Nat) : Bool :=
  !(s.groups.any fun e => e.2.asid == asid && decide (e.2.core < 256)) && !(s.ops.any fun e => e.2.asid == asid) &&
  !(s.sets.any fun e => e.1 / 256 == asid && (!e.2.mq.isEmpty || e.2.slots.any fun x => x.2.state != .unbound))

/-- R313: no context of the partition holds any of these. -/
def partIdle (s : State) (p : Nat) : Bool := s.contexts.all fun e => e.2.part != p || ctxIdle s e.1

/-! ## A partition's state -/

/-- R323: a core's L1 is written back and dropped, its bench zeroed, its sets cleared; the groups' own registers go with the
groups. -/
def scrubCore (s : State) (core : Nat) : State :=
  let s := s.sweepL1 core true
  { s with
    sets := s.sets.filter fun e => e.1 % 256 != core
    blocks := s.blocks.map fun (e : Nat × Block) => (e.1, { e.2 with bench := drop core e.2.bench }) }.modCore core fun c =>
      { c with accHolder := none, accWant := none, tileHolder := none, tileWant := none, move := none }

/-- R342, R333: a context stops for its partition's sake; the reason is outside R343's list (log entry 32). -/
def stopForPartition (s : State) (p : Nat) : State :=
  (s.contexts.map (·.1)).foldl (fun s a =>
    match s.ctx? a with
    | some c => if c.part = p && c.stopped.isNone then contextError s a 0 else s
    | none => s) s

/-- R326: the partition's pinned lines are written back and unpinned. -/
def dropPins (s : State) (p : Nat) : State :=
  let sectors := (s.part p).pins.flatMap fun l => (List.range 4).map (4 * l + ·)
  (sectors.foldl (fun s k => s.l2Clean k) s).modPart p fun x => { x with pins := [] }

/-- Set TDIS of a partition. -/
def setTdis (s : State) (p v : Nat) : State :=
  s.modPart p fun x => { x with cfg := x.cfg.set 1 (DWord.setF x.cfg[1] 63 60 v) }

/-- R333: entry to the error state: contexts stopped, cores scrubbed, the lines of its colours written back and dropped, its key
slots zeroed. -/
def interfaceError (s : State) (p : Nat) : State :=
  let s := stopForPartition s p
  let x := s.part p
  let s := (partCores x).foldl scrubCore s
  let s := (dropPins s p).cleanSlices p (List.range 64)
  setTdis { s with keys := s.keys.filter fun k => decide (k.1 < x.kbase) || decide (x.klimit < k.1) } p 3

/-- R333: whether a context's partition has its interface in error: the host may do nothing for it until it stops the interface. -/
def partInError (s : State) (asid : Nat) : Bool := (s.ctx? asid).any fun c => (s.part c.part).tdis == 3

/-- R333: whether a partition's trusted interface is locked or runs. -/
def Partition.trusted (p : Partition) : Bool := p.tdis == 1 || p.tdis == 2

/-- R333: whether the interface that a front end stands for is in error; that of the administration queue is none. -/
def frontInError (s : State) (fe : Nat) : Bool := decide (fe < 64) && (s.part fe).tdis == 3

/-- R333: an uncontained error of a partition puts its interface in error, from every other state; which errors are uncontained
is the model's reading (log entry 106). -/
def uncontained (s : State) (p : Nat) : State := if (s.part p).tdis = 3 then s else interfaceError s p

/-- The partitions whose key range holds a slot, whether or not PARTCFG0 has been written. -/
def keyHolders (s : State) (slot : Nat) : List (Nat × Partition) :=
  s.parts.filter fun e => decide (e.2.kbase ≤ slot) && decide (slot ≤ e.2.klimit)

/-- R329: the firmware loads a key slot: every cached line of the slot is written back under the old key and dropped first. A
request for a slot of a locked or running interface puts it in error, and one in error refuses it (R333). -/
def loadKey (s : State) (slot value : Nat) : State :=
  let held := keyHolders s slot
  if 2048 ≤ slot then s
  else if held.any fun e => e.2.trusted then (held.filter fun e => e.2.trusted).foldl (fun s e => interfaceError s e.1) s
  else if held.any fun e => e.2.tdis == 3 then s.send (.refusal 329)
  else { s.cleanKey slot with keys := put slot value s.keys }

/-! ## Dropping translations (R319) -/

/-- R319: whether a cached entry is dropped; kind 0 looks at the page of the first-stage leaf, of which the entry may be a part. -/
def invCovers (kind asid part va : Nat) (e : TlbEntry) : Bool :=
  match kind with
  | 0 => e.asid == asid && va / leafSize e.page.level1 == e.page.vbase / leafSize e.page.level1
  | 1 => e.asid == asid
  | 2 => e.asid == va
  | _ => e.part == part

/-- R319: whether an ASID is covered. -/
def invAsid (s : State) (kind asid part va : Nat) (a : Nat) : Bool :=
  match kind with
  | 2 => a == va
  | 3 => (s.ctx? a).any fun c => c.part == part
  | _ => a == asid

/-- A window that a `tlbinv` covers is translated again before its next use (R154). -/
def Window.markStale (w : Window) : Window := { w with stale := w.stale || w.set }

/-- R319: the target windows of a set's slots must be translated again. -/
def CoreSet.markStale (x : CoreSet) : CoreSet :=
  { x with slots := x.slots.map fun (e : Nat × Slot) => (e.1, { e.2 with win := e.2.win.map Window.markStale }) }

/-- R319: the drop: cached translations, and the stale bit of every window of a covered ASID. -/
def invalidate (s : State) (kind asid part va : Nat) : State :=
  let s := { s with tlb := s.tlb.filter fun e => !invCovers kind asid part va e }
  let covered := invAsid s kind asid part va
  let s := s.mapGroups fun _ g => if covered g.asid then { g with w := g.w.map Window.markStale } else g
  { s with
    sets := s.sets.map fun (e : Nat × CoreSet) => if covered (e.1 / 256) then (e.1, e.2.markStale) else e
    contexts := s.contexts.map fun (e : Nat × Context) =>
      if covered e.1 then
        (e.1, { e.2 with units := e.2.units.map fun (u : SavedUnit) => { u with set := u.set.markStale } })
      else e }

/-! ## Partition registers (R312, R313) -/

/-- Whether two ranges share a number. -/
def rangesMeet (a b c d : Nat) : Bool := decide (a ≤ d) && decide (c ≤ b)

/-- The other partitions whose PARTCFG0 gives them cores and ASIDs (log entry 31). -/
def otherParts (s : State) (p : Nat) : List Partition := (s.parts.filter fun e => e.1 != p && e.2.made).map (·.2)

/-- R313: whether a key range meets that of another partition that holds keys: one whose range has been written, or that PARTCFG0 has
given its cores (log entry 31). -/
def keysMeet (s : State) (p lo hi : Nat) : Bool :=
  s.parts.any fun e => e.1 != p && (e.2.made || e.2.kbase != 0 || e.2.klimit != 0) && rangesMeet lo hi e.2.kbase e.2.klimit

/-- Each class limit of a value from 10 to 20; another leaves the old one (R312). -/
def newLclog (old x : DWord) : DWord :=
  (List.range 8).foldl (fun (r : DWord) c =>
    let v := DWord.f x (5 * c + 4) (5 * c)
    if 10 ≤ v && decide (v ≤ 20) then DWord.setF r (5 * c + 4) (5 * c) v else r) old

/-- R312, R313: the value PARTCFG register `i` takes from a firmware write, or none when the write is refused. -/
def partValue (s : State) (p i : Nat) (x : DWord) : Option DWord :=
  let q := s.part p
  let idle := q.tdis == 0 && partIdle s p
  match i with
  | 0 =>
    let v := BitVec.ofNat 64 (DWord.f x 7 0 + DWord.f x 15 8 * 2 ^ 8 + DWord.f x 26 16 * 2 ^ 16 + DWord.f x 42 32 * 2 ^ 32)
    if v = q.cfg[0] && q.made then some v
    else if !idle || q.colour == 0 || DWord.f v 15 8 < DWord.f v 7 0 || (otherParts s p).any (fun o =>
        rangesMeet (DWord.f v 7 0) (DWord.f v 15 8) o.cbase o.climit ||
        rangesMeet (DWord.f v 26 16) (DWord.f v 42 32) o.abase o.alimit) || (!q.made && keysMeet s p q.kbase q.klimit) then none
    else some v
  | 1 =>
    let old := q.cfg[1]
    let keys := DWord.f x 10 0 != q.kbase || DWord.f x 26 16 != q.klimit
    let total := s.parts.foldl (fun n e => if e.1 = p then n else n + e.2.bww) (DWord.f x 47 40)
    if (keys && (!idle || keysMeet s p (DWord.f x 10 0) (DWord.f x 26 16))) ||
        decide (256 < total) then none
    else
      let ql := DWord.f x 36 32
      let v := DWord.setF (DWord.setF (DWord.setF old 10 0 (DWord.f x 10 0)) 26 16 (DWord.f x 26 16)) 47 40 (DWord.f x 47 40)
      some (if 12 ≤ ql && decide (ql ≤ 20) then DWord.setF v 36 32 ql else v)
  | 2 =>
    if x = q.cfg[2] then some x
    else if !idle || (x == 0#64 && q.made) || s.parts.any (fun e => e.1 != p && e.2.cfg[2] &&& x != 0#64 &&
        (e.2.trusted || q.trusted)) then none
    else some x
  | 3 =>
    let v := BitVec.ofNat 64 (DWord.f x 51 12 * 4096)
    if v = q.cfg[3] || idle then some v else none
  | 4 => some (BitVec.ofNat 64 (DWord.f x 31 0))
  | _ => some (newLclog q.cfg[5] (BitVec.ofNat 64 (DWord.f x 39 0)))

/-- R95, R383, R323: the cores of a partition change: what its contexts hold on cores leaves them, to be placed again as their units
by the front end, and the cores it loses are scrubbed. -/
def changeCores (s : State) (p : Nat) (x : Partition) : State :=
  let mine := (s.contexts.filter fun e => e.2.part == p && e.2.stopped.isNone).map (·.1)
  let old := partCores (s.part p)
  let s := mine.foldl (fun s a => (ctxCores s a).foldl (fun s k => saveUnit s a k) s) s
  let s := (old.filter fun k => !(partCores x).contains k).foldl scrubCore s
  s.setPart p x

/-- R325, R326: COLOUR changes: the lines in the colours the partition loses are written back and dropped, and then every pinned
line. -/
def changeColour (s : State) (p : Nat) (x : Partition) : State :=
  let some_ := ((s.part p).colour &&& ((2 ^ 64 - 1) ^^^ x.colour)) != 0
  let s := s.cleanSlices p (List.range 64)
  ((if some_ then dropPins s p else s).modPart p fun y => { x with pins := y.pins })

/-- R312, R313, R325, R333: a firmware write of PARTCFG register `i`. A change asked of a locked or running interface
puts it in error, and one in error takes none; the answer says whether the write was taken. -/
def partWrite (s : State) (p i : Nat) (x : DWord) : State × Bool :=
  let q := s.part p
  let v := partValue s p i x
  if q.trusted && v != q.cfg[i]? then (interfaceError s p, false)
  else if q.tdis = 3 then (s, false)
  else
    match v with
    | none => (s, false)
    | some v =>
      let y := { q with cfg := q.cfg.setIfInBounds i v, made := q.made || i == 0 }
      (if i = 0 && partCores y != partCores q then changeCores s p y
       else if i = 2 && v != q.cfg[2] then changeColour s p y
       else if y.kbase != q.kbase || y.klimit != q.klimit || y.sroot != q.sroot then invalidate (s.setPart p y) 3 0 p 0
       else s.setPart p y, true)

/-- What a partition register reads: PINU counts the pinned lines. -/
def partRead (s : State) (p i : Nat) : DWord :=
  let q := s.part p
  if i = 4 then BitVec.ofNat 64 (q.pinq + q.pins.length % 2 ^ 32 * 2 ^ 32) else q.cfg[i]?.getD 0#64

/-! ## Context registers (R208, R310, R337) -/

/-- The bits of CTXCFG register `i` that only M mode writes (R310). -/
def ctxMOnly (i : Nat) : Nat :=
  match i with
  | 0 => 0xFFFFF * 2 ^ 16 + 0x7FF
  | 1 => (2 ^ 40 - 1) * 2 ^ 12
  | 2 => (2 ^ 45 - 1) * 2 ^ 12 + 0x7FF
  | 3 => (2 ^ 41 - 1) * 2 ^ 16 + 0xFFFF
  | 4 => (2 ^ 41 - 1) * 2 ^ 16 + 0xFFFF
  | 5 => (2 ^ 41 - 1) * 2 ^ 16 + 0xFFFF
  | 6 => 0xFFF * 2 ^ 16 + 0xFFF
  | _ => 0

/-- R310: CTXCFG register `i` after a write, `m` saying whether M mode writes. -/
def ctxValue (i : Nat) (m : Bool) (old x : DWord) : DWord :=
  let mask : DWord := if m then BitVec.ofNat 64 (ctxMOnly i) else 0#64
  let v := (old &&& ~~~mask) ||| (x &&& mask)
  let v := if i = 2 && decide (1024 < DWord.f v 10 0) then DWord.setF v 10 0 (DWord.f old 10 0) else v
  match i with
  | 6 => if 15 ≤ DWord.f x 47 32 then DWord.setF v 47 32 (DWord.f x 47 32) else v
  | 7 => x
  | _ => v

/-- R308, R319: every cached entry of an ASID goes. -/
def dropAsid (s : State) (asid : Nat) : State := { s with tlb := s.tlb.filter fun e => e.asid != asid }

/-- R311: a context takes another ASID: what carries its number moves with it, saved state too. -/
def renameContext (s : State) (a b : Nat) (c : Context) : State :=
  let moved := s.sets.filter fun (e : Nat × CoreSet) => e.1 / 256 == a
  let name (n : Nat) : Nat := if n = a then b else n
  let s := dropAsid (dropAsid s a) b
  { s with
    contexts := put b c (drop a s.contexts)
    sets := moved.foldl (fun (m : NMap CoreSet) (e : Nat × CoreSet) => put (State.setKey b (e.1 % 256)) e.2 m) (s.sets.filter fun (e : Nat × CoreSet) => e.1 / 256 != a)
    groups := s.groups.map fun (e : Nat × Group) => (e.1, { e.2 with asid := name e.2.asid })
    blocks := s.blocks.map fun (e : Nat × Block) => (e.1, { e.2 with asid := name e.2.asid })
    grids := s.grids.map fun (e : Nat × Grid) => (e.1, { e.2 with asid := name e.2.asid })
    requests := s.requests.map fun (e : Nat × PageRequest) => (e.1, { e.2 with asid := name e.2.asid })
    replicas := s.replicas.filter fun r => r.asid != a
    cores := s.cores.map fun (e : Nat × Core) =>
      (e.1, { e.2 with
        accHolder := e.2.accHolder.map name
        accWant := e.2.accWant.map name
        tileHolder := e.2.tileHolder.map name
        tileWant := e.2.tileWant.map name }) }

/-- R310, R311: a write of CTXCFG register `i`; whether it was taken. -/
def cfgWrite (s : State) (asid i : Nat) (m : Bool) (x : DWord) : State × Bool :=
  match s.ctx? asid with
  | none => (s, false)
  | some c =>
    let old := c.cfg[i]?.getD 0#64
    let v := ctxValue i m old x
    let mask := BitVec.ofNat 64 (ctxMOnly i)
    if (v &&& mask) != (old &&& mask) && !ctxIdle s asid then (s, false)
    else
      let c' := { c with cfg := c.cfg.setIfInBounds i v }
      if i = 0 && c'.asid != c.asid then
        let p := s.part c.part
        if c'.asid < p.abase || p.alimit < c'.asid || (s.ctx? c'.asid).isSome then (s, false)
        else (renameContext s asid c'.asid c', true)
      else (s.setCtx asid c', true)

/-- R337, R338: FBTAIL: a value above HEAD is ignored; waiting records take the room. -/
def tailWrite (s : State) (asid x : Nat) : State :=
  match s.ctx? asid with
  | none => s
  | some c =>
    if c.fbhead < x then s else drainRecords (s.setCtx asid { c with fbtail := x }) asid (c.waiting.length + 1)

/-- R208: DETCTL after a write. -/
def detValue (old x : DWord) : DWord :=
  let v := DWord.setF old 0 0 (DWord.f x 0 0)
  let q := DWord.f x 12 8
  if 10 ≤ q && decide (q ≤ 20) then DWord.setF v 12 8 q else v

/-- R337: a write of one of the trap and fault registers. -/
def trapRegWrite (s : State) (asid n : Nat) (m : Bool) (x : DWord) : State :=
  match n with
  | 0x880 => if m then s.modCtx asid fun c => { c with hvec := BitVec.ofNat 64 (DWord.f x 56 7 * 128) } else s
  | 0x881 =>
    if m then s.modCtx asid fun c => { c with hctl := BitVec.ofNat 64 (DWord.f x 16 16 * 2 ^ 16 + DWord.f x 9 3 * 8) } else s
  | 0x882 =>
    if m then s.modCtx asid fun c => { c with fbuf := BitVec.ofNat 64 (DWord.f x 56 12 * 4096 + DWord.f x 11 0) } else s
  | 0x884 => tailWrite s asid x.toNat
  | _ => s

/-- A write of a context's register by number; whether it was taken. -/
def ctxRegWrite (s : State) (asid n : Nat) (m : Bool) (x : DWord) : State × Bool :=
  if n = 0x800 then (s.modCtx asid fun c => { c with detctl := detValue c.detctl x }, true)
  else if 0x810 ≤ n && decide (n ≤ 0x817) then cfgWrite s asid (n - 0x810) m x
  else (trapRegWrite s asid n m x, true)

/-- A context's register by number. -/
def ctxRegRead (c : Context) (n : Nat) : DWord :=
  match n with
  | 0x800 => c.detctl
  | 0x880 => c.hvec
  | 0x881 => c.hctl
  | 0x882 => c.fbuf
  | 0x883 => BitVec.ofNat 64 c.fbhead
  | 0x884 => BitVec.ofNat 64 c.fbtail
  | _ => c.cfg[n - 0x810]?.getD 0#64

/-! ## Bench size (R160, R161) -/

/-- R160: what BENCHSZ of a core reads. -/
def benchszRead (s : State) (core : Nat) : DWord :=
  BitVec.ofNat 64 ((s.core core).bench + if (s.core core).pend.isSome then 256 else 0)

/-- R161: a firmware write of SIZE starts the change, which ends at once where no block stands in its way. -/
def benchszSet (s : State) (core x : Nat) : State :=
  let c := s.core core
  if c.pend.isSome || x % 8 = c.bench then s
  else resizeBench (s.setCore core { c with pend := some (x % 8) }) core

/-! ## Dies (R378, R382) -/

/-- The front end that places a grid. -/
def GridSource.frontEnd : GridSource → Nat
  | .queue fe _ _ => fe
  | .device fe _ => fe

/-- R98, R250, R284: whether a set of a core holds work that no group need be there for: items, packed groups to come, queued matrix
instructions, tile slots that are bound. -/
def CoreSet.works (x : CoreSet) : Bool :=
  !x.items.isEmpty || !x.formed.isEmpty || !x.mq.isEmpty || x.slots.any fun e => e.2.state != .unbound

/-- Whether a context has work on a die: a group, a block, an engine operation, work of a set there, or a grid of one of its front
ends (R364, R378); one that a hard pre-emption has saved has none, and survives (R378). -/
def hasWork (s : State) (asid d : Nat) : Bool :=
  ((s.grids.any fun e => e.2.asid == asid && e.2.source.frontEnd / 16 == d) &&
    !((s.ctx? asid).any fun c => c.preempt == Preempt.saved)) ||
  (s.groups.any fun e => e.2.asid == asid && dieOf e.2.core == d) ||
  (s.blocks.any fun e => e.2.asid == asid && e.2.cores.any fun c => dieOf c == d) ||
  (s.sets.any fun (e : Nat × CoreSet) => e.1 / 256 == asid && dieOf (e.1 % 256) == d && e.2.works) ||
  s.ops.any fun e => e.2.asid == asid && e.2.die == d

/-- Contexts that meet a condition stop with a reason. -/
def stopContexts (s : State) (p : Nat → Context → Bool) (reason : Nat) : State :=
  (s.contexts.map (·.1)).foldl (fun s a =>
    match s.ctx? a with
    | some c => if c.stopped.isNone && p a c then contextError s a reason else s
    | none => s) s

/-- The sectors that are dirty in the L2 of a die. -/
def dirtyOf (s : State) (d : Nat) : List Nat := (s.l2.map (·.1)).filter fun k => homeDie (k * 64) == d

/-- R382: LIMIT is one value for all dies. -/
def setLimit (s : State) (w : Nat) : State :=
  [0, 1, 2, 3].foldl (fun s e => s.setMgmt e 2 (DWord.setF (s.mgmt e 2) 11 0 w)) s

/-- R374: what a queue's commands made is no longer the queue's: their completion completes nothing; nor does a pre-emption or
resumption complete a command of the administration queue that is no longer begun. -/
def detachQueue (s : State) (fe q : Nat) : State :=
  { s with
    contexts := if fe = 64 then s.contexts.map fun (e : Nat × Context) => (e.1, { e.2 with preemptCmds := [] }) else s.contexts
    grids := s.grids.map fun (e : Nat × Grid) =>
      (e.1, { e.2 with source := match e.2.source with
        | .queue f p n => if f = fe && p = q then .queue f p (n + 2 ^ 64) else .queue f p n
        | d => d })
    ops := s.ops.map fun (e : Nat × EngineOp) =>
      (e.1, { e.2 with source := match e.2.source with
        | .queue f p n => if f = fe && p = q then .queue f p (n + 2 ^ 64) else .queue f p n
        | d => d }) }

/-- The queues of a die's front ends; die 0 carries the administration queue. -/
def queueOfDie (d k : Nat) : Bool := k / 128 == d || (d == 0 && decide (512 ≤ k))

/-- R7, R378: a die goes back to its boot ROM, or is held: its SRAM holds zero, its registers and the queues of its front ends
their reset values, its DRAM and its black box what they held; die 0 carries the administration queue. What its L2 held dirty is
lost after a machine check (R364) and otherwise written to DRAM first, so that pre-empted data survive (log entry 33). The registers of
contexts and partitions (CTXCFG, DETCTL, those of R337, PARTCFG) belong to no one die: the model keeps them all, where the spec says
nothing of them (log entry 33). Until the die is ready again accesses homed there wait (R364). -/
def resetDie (s : State) (d : Nat) (boot : Boot) (lost : Bool) : State :=
  let s := (dirtyOf s d).foldl (fun s k => if lost then s.l2Discard k else s.l2Clean k) s
  let s := ((s.queues.map (·.1)).filter (queueOfDie d)).foldl (fun s k => detachQueue s (k / 8) (k % 8)) s
  let s := { s with
    sets := s.sets.filter fun e => dieOf (e.1 % 256) != d
    tlb := s.tlb.filter fun e => dieOf e.core != d
    replicas := s.replicas.filter fun r => r.die != d
    queues := s.queues.filter fun e => !queueOfDie d e.1
    cores := s.cores.filter fun e => dieOf e.1 != d }
  let s := s.modDie d fun e => { e with rdc := [], mgmt := [], boot := boot, samples := [], gate := 0, image := none, staged := none, down := true }
  setLimit s 2400

/-! ## Firmware images (R330, R378, R379) -/

/-- R379: the fields of an image. -/
def imageWord (bs : List Byte) (off : Nat) : Nat := ofBytes ((bs.drop off).take 4)

/-- R379: the form of an image. -/
def imageFormed (bs : List Byte) (length : Nat) : Bool :=
  let l := imageWord bs 8
  imageWord bs 0 == 1 && l % 4096 == 0 && decide (4096 ≤ l) && decide (l ≤ 16760832) && length == 16384 + l &&
  imageWord bs 12 == 0 && ((bs.drop 0x14FD).take 11011).all (· == 0#8)

/-- R330: whether a die trusts an image: the digests of its public keys are those fused there, and both signatures verify. -/
def imageTrusted (d : Nat) (bs : List Byte) : Bool :=
  Digest.sha384 ((bs.drop 0x10).take 32) == (Config.fusedDigests d).1 &&
  Digest.sha384 ((bs.drop 0x30).take 1952) == (Config.fusedDigests d).2 && Config.signaturesVerify bs

/-- R330: whether a die accepts an image. -/
def imageAccepted (d : Nat) (x : Image) : Bool :=
  imageFormed x.bytes x.bytes.length && imageTrusted d x.bytes && decide (Config.fusedMinimum d ≤ x.svn)

/-- R382: MSTAT of a die whose image was accepted. -/
def acceptedStat (d : Nat) (x : Image) (ready : Bool) : DWord :=
  BitVec.ofNat 64 (x.svn % 2 ^ 32 * 2 ^ 32 + d % 4 * 16 + 2 + if ready then 1 else 0)

/-- R378, step 3: a die takes an image and verifies it on its own; a rejected one leaves it where it is, FWOK = 0. -/
def takeImage (s : State) (d : Nat) (x : Image) : State :=
  if (s.die d).boot == Boot.rom && imageAccepted d x then
    (s.modDie d fun e => { e with boot := .loaded, image := some x }).setMgmt d 0 (acceptedStat d x false)
  else s

/-- R378: a die back in its boot ROM takes the image from die 0, which waits for an FWLOAD itself. -/
def rebootDie (s : State) (d : Nat) : State :=
  if d = 0 then s else match (s.die 0).image with
    | some x => takeImage s d x
    | none => s

/-- Where a die's reset leaves it: in its boot ROM, but held where a thermal trip holds it until it has cooled (R381, log entry
128). -/
def bootAfter (s : State) (d : Nat) : Boot := if (s.die d).boot == Boot.held then .held else .rom

/-- R378: the host's warm reset of a die: contexts with work on it stop with reason 14. -/
def warmReset (s : State) (d : Nat) : State :=
  let s := stopContexts s (fun a _ => hasWork s a d) 14
  let s := bboxLog s d 12 0 0
  rebootDie (resetDie s d (bootAfter s d) false) d

/-- What a management register reads (R382): WARM reads zero, GATE is the present gate. -/
def mgmtRead (s : State) (d n : Nat) : DWord :=
  match n with
  | 1 => 0#64
  | 3 => DWord.setF (s.mgmt d 3) 47 32 (s.die d).gate
  | _ => s.mgmt d n

/-- R382: one die's PLIM after a write. -/
def plimValue (old x : DWord) : DWord :=
  let v := if 1 ≤ DWord.f x 27 16 && decide (DWord.f x 27 16 ≤ 1000) then DWord.setF old 27 16 (DWord.f x 27 16) else old
  if 600 ≤ DWord.f x 11 0 && decide (DWord.f x 11 0 ≤ 2400) then DWord.setF v 11 0 (DWord.f x 11 0) else v

/-- R382: a privileged write of management register `n` (less 0x900) of a die. SIZE and POS of POD lock with the die's
bring-up and stay locked until its boot ROM next runs (R5, R378). A held die ignores the write also where its firmware had not locked
them yet, a thermal trip having come before bring-up ended; the spec does not say (log entry 117). -/
def mgmtWrite (s : State) (d n : Nat) (x : DWord) : State :=
  match n with
  | 1 => if DWord.f x 0 0 = 1 then warmReset s d else s
  | 2 =>
    let v := plimValue (s.mgmt d 2) x
    setLimit (s.setMgmt d 2 v) (DWord.f v 11 0)
  | 10 => s.setMgmt d 10 (BitVec.ofNat 64 (DWord.f x 63 12 * 4096 + DWord.f x 0 0))
  | 11 =>
    if (s.die d).boot == Boot.ready || (s.die d).boot == Boot.held then s
    else s.setMgmt d 11 (DWord.setF (DWord.setF (s.mgmt d 11) 24 16 (DWord.f x 24 16)) 8 0 (DWord.f x 8 0))
  | _ => s

/-! ## The views of a group (R307, R314) -/

/-- R314: what `cget` reads. -/
def cregRead (s : State) (g : Group) (n : Nat) : DWord :=
  match n with
  | 0 => g.fpmode.setWidth 64
  | 1 => g.fpseed
  | 2 => g.fflags.setWidth 64
  | 3 => g.ftrapen.setWidth 64
  | 4 => g.lmask.setWidth 64
  | 5 => g.amask.setWidth 64
  | 6 => g.grpid
  | 7 => g.blkid
  | 0x801 => benchszRead s g.core
  | _ =>
    if 0x900 ≤ n then mgmtRead s (dieOf g.core) (n - 0x900)
    else
      match s.ctx? g.asid with
      | none => 0#64
      | some c => if 0x820 ≤ n && decide (n ≤ 0x825) then partRead s c.part (n - 0x820) else ctxRegRead c n

/-- R314: what `cput` does to a register of the group. A write of AMASK that is run again after an event keeps its mask: no
replay is left to end (log entry 126). -/
def groupRegWrite (g : Group) (n : Nat) (x : DWord) : Group :=
  match n with
  | 0 => { g with fpmode := x.setWidth 3 }
  | 1 => { g with fpseed := x }
  | 2 => { g with fflags := x.setWidth 7 }
  | 3 => { g with ftrapen := x.setWidth 7 }
  | 5 => { g with amask := x.setWidth 32, replay := none }
  | _ => g

/-- R314: what `cput` in H mode does to a register of the privileged set; BENCHSZ and PARTCFG ignore it. -/
def privRegWrite (s : State) (g : Group) (n : Nat) (x : DWord) : State :=
  if 0x900 ≤ n then mgmtWrite s (dieOf g.core) (n - 0x900) x
  else if n = 0x801 || (0x820 ≤ n && decide (n ≤ 0x825)) then s
  else (ctxRegWrite s g.asid n false x).1

end Sys2Proof.Machine
end

