-- ==== Sys2Proof/Machine/System.lean ====
section
/-!
DEFINITION. The system instructions: cget, cput, rte, tlbinv and park (R69, R314, R319, R349, R350), and the events that
name them.
-/

namespace Sys2Proof.Machine

/-- Cause 5 of `cget` and `cput`: a privileged number in U mode (R51 checks it after causes 2 to 4; none of these apply
to a `cget` or `cput` whose number is assigned). -/
def privNumber (g : Group) (n : BitVec 12) : Bool := g.mode == Mode.user && decide (0x800 ≤ n.toNat)

/-- R314: cget. -/
def execCget (f : CgetF) (s : State) : Res :=
  issuePlain (.cget f) s fun g =>
    if privNumber g f.n then illop s 5
    else s.retire (g.writeS f.d.toNat (cregRead s g f.n.toNat)) 4 1 f.e

/-- R69: whether the stack holds a join entry above the handler marker. -/
def joinAbove : List StackEntry → Bool
  | .join .. :: _ => true
  | .marker :: _ => false
  | _ :: l => joinAbove l
  | [] => false

/-- R69: whether a value may be written to AMASK. -/
def amaskOk (g : Group) (x : DWord) : Bool :=
  let m : Word := x.setWidth 32
  m != 0#32 && (m &&& ~~~g.amask) == 0#32 && (m == g.amask || joinAbove g.stack)

/-- R69, R314: cput. -/
def execCput (f : CputF) (s : State) : Res :=
  issueChecked (.cput f) s Group.active (fun g => f.n == 5#12 && !amaskOk g (g.sreg f.a.toNat)) (fun _ => false) fun g =>
    if privNumber g f.n then illop s 5
    else
      let x := g.sreg f.a.toNat
      let n := f.n.toNat
      let s := s.retire ((if n < 0x800 then groupRegWrite g n x else g).voidFlash) 4 1 f.e
      if n < 0x800 then s else privRegWrite s g n x

/-- AMASK_WRITE (R69): the issuing group's active mask narrows; a value the rule refuses raises ILLOP, cause 2. -/
def execAmaskWrite (value : Nat) (s : State) : Res :=
  match s.grp with
  | none => .next s
  | some g =>
    let x := BitVec.ofNat 64 value
    if amaskOk g x then .next (s.setGrp ((groupRegWrite g 5 x).voidFlash)) else .next (illop s 2)

/-! ## rte -/

/-- R349: the checks of a frame against the group. -/
def frameOk (g : Group) (fr : List Byte) : Bool :=
  let saved := BitVec.ofNat 32 (ofBytes ((fr.drop 0x48).take 4))
  let replay := BitVec.ofNat 32 (ofBytes ((fr.drop 0x4C).take 4))
  g.stack.head? == some .marker && saved != 0#32 && (saved &&& ~~~g.lmask) == 0#32 &&
    (replay &&& ~~~saved) == 0#32 && frameZeros fr

/-- R335, R349: a fault at an `rte` that goes to the host: the group stays at it. -/
def rteFetch (s : State) (g : Group) (epc : Nat) : Except Trap State :=
  match enterLine s g.core g.asid .user epc with
  | .error t => .error t
  | .ok (line, s) =>
    if BitVec.ofNat 57 epc = g.frameEpc || slotMarked line epc then .ok s else .error (plainTrap codeLINE epc)

/-- R345, R349: rte. A frame that breaks a rule, or whose EPC's line is no legal target, is DOUBLE; a translation failure or a
data error of that line, or of the frame, parks the group at the `rte` (log entry 34). -/
def execRte (f : PlainF) (s : State) : Res :=
  issuePlain (.rte f) s fun g =>
    match s.ctx? g.asid with
    | none => s
    | some c =>
      match readVirtual s g.core g.asid .handler .read (frameAddr c g) 1024 with
      | .error t => raiseAll s t
      | .ok (fr, _, s) =>
        if !frameOk g fr then contextError s g.asid 6
        else
          match rteFetch s g (ofBytes ((fr.drop 0x40).take 8)) with
          | .error t => if t.code = codeLINE then contextError s g.asid 6 else raiseAll s t
          | .ok s =>
            let now := s.now + 1
            let g := { g with retired := if g.recipe then g.retired else g.retired + 1
                              det := if g.det.en then { g.det with run := g.det.run + 1 } else g.det }
            { s with now := now }.setGrp (leaveHandler g fr now)

/-! ## tlbinv -/

/-- The partition of a group's context. -/
def groupPart (s : State) (g : Group) : Nat :=
  match s.ctx? g.asid with
  | some c => c.part
  | none => 0

/-- R319: kind 2 names an ASID of the partition. -/
def invAllowed (s : State) (g : Group) (f : TlbinvF) : Bool :=
  let x := (g.sreg f.a.toNat).toNat
  let p := s.part (groupPart s g)
  f.k != 2#3 || (decide (x < 2048) && decide (p.abase ≤ x) && decide (x ≤ p.alimit))

/-- R319: tlbinv drops at once and waits, not ready, for TLBINV_DONE. -/
def execTlbinv (f : TlbinvF) (s : State) : Res :=
  issueChecked (.tlbinv f) s Group.active (fun g => !invAllowed s g f) (fun _ => false) fun g =>
    let x := (g.sreg f.a.toNat).toNat
    let s := s.release g.core 4
    let s := invalidate s f.k.toNat g.asid (groupPart s g) (if f.k = 2#3 then x else x % 2 ^ 57)
    s.modGrp fun g => g.voidFlash.block_ .tlbinv s.now

/-- TLBINV_DONE (R319): every access of a dropped entry has been performed, and the `tlbinv` completes. -/
def execTlbinvDone (gid : Nat) (s : State) : Res :=
  match s.group? gid with
  | none => .next s
  | some g =>
    if g.wait = .tlbinv then
      let g := g.wake s.now
      .next (s.setGroup gid ((({ g with pc := nextPc g.pc 4 } : Group).finish false s.now).endStint s.now))
    else .next s

/-! ## park -/

/-- R340, R350: park: PARKED is posted with the address of the trap frame, and the group waits for the host with its next
instruction to come. -/
def execPark (f : PlainF) (s : State) : Res :=
  issuePlain (.park f) s fun g =>
    trapAfter s 4 codePARKED (BitVec.ofNat 64 (((s.ctx? g.asid).map fun c => frameAddr c g).getD 0)) f.e

end Sys2Proof.Machine
end

