-- ==== Sys2Proof/Machine/Sched.lean ====
section
/-!
DEFINITION. The lane arbiter and the park engine (R81, R85 to R90), the events that end waits (R72, R110), deterministic
mode's quanta and commits (R209, R210), and the time limits of the caches (R148).
-/

namespace Sys2Proof.Machine

/-- R352, R333: whether a context's groups begin stints: no hard pre-emption, and its partition runs. -/
def ctxRuns (s : State) (asid : Nat) : Bool :=
  match s.ctx? asid with
  | some c => !c.stopping && partRuns s c.part
  | none => false

/-- R85: a group is ready. -/
def Group.ready (g : Group) : Bool := g.wait == Wait.none

/-- Groups on a lane's resident slots. -/
def onLane (s : State) (core lane : Nat) : NMap Group :=
  s.groups.filter fun e => e.2.core == core && e.2.sched.lane == some lane

/-- R86: whether a group comes before another on a lane. Of two groups of one class whose last stints ended in one cycle neither does, and
the choice falls on the lower-numbered; the spec breaks no such tie (log entry 118). -/
def laneBefore (a b : Nat × Group) : Bool :=
  decide (b.2.cls < a.2.cls) || (a.2.cls == b.2.cls && decide (a.2.sched.lastEnd < b.2.sched.lastEnd))

/-- R86: the ready resident group a free lane chooses. -/
def laneChoice (s : State) (core lane : Nat) : Option (Nat × Group) :=
  let here := onLane s core lane
  if here.any fun e => e.2.sched.inStint then none
  else bestBy laneBefore (here.filter fun e => e.2.ready && !e.2.sched.moving && ctxRuns s e.2.asid)

/-- LANE_SELECT (R77, R79, R80, R86): a free lane chooses a group, whose stint begins or resumes; another group than the
lane's last costs 2 lane cycles. -/
def execLaneSelect (core lane : Nat) (s : State) : Res :=
  match laneChoice s core lane with
  | none => .next s
  | some (gid, g) =>
    let cost := if look lane (s.core core).last = some gid then 0 else 2
    .next (({ s with now := s.now + cost }.setGroup gid g.beginStint).modCore core fun c =>
      { c with last := put lane gid c.last })

/-- STINT_BREAK (R81): the lane's stint has waited for 960 lane cycles; its group is ready again once the result it awaits is
there. -/
def execStintBreak (core lane : Nat) (s : State) : Res :=
  match (onLane s core lane).find? fun e => e.2.sched.inStint && decide (960 ≤ e.2.sched.stintWait) with
  | none => .next s
  | some (gid, g) => .next ({ s with stir := true }.setGroup gid { g.breakStint s.now with wait := .stintBreak })

/-! ## The park engine -/

/-- R89: whether a parked ready group comes before another. Of two of one class that have been ready equally long, as of two residents
equally long resident, the lower-numbered is taken; the spec breaks no such tie (log entry 118). -/
def parkBefore (a b : Nat × Group) : Bool :=
  decide (b.2.cls < a.2.cls) || (a.2.cls == b.2.cls && decide (a.2.sched.readySince < b.2.sched.readySince))

/-- The parked ready groups of a core. -/
def parkedReady (s : State) (core : Nat) : NMap Group :=
  s.groups.filter fun e => e.2.core == core && e.2.sched.lane.isNone && !e.2.sched.moving && e.2.ready && ctxRuns s e.2.asid

/-- R300: whether a unit still works on what the group issued: it is not parked before that is done. -/
def Group.unsplit (g : Group) : Bool := g.scribe || g.deposit

/-- A lane with an empty resident slot. R90 lets a parked group go to any lane of its core; the model takes the lowest-numbered
one that has a slot free (log entry 103). -/
def emptyLane (s : State) (core : Nat) : Option Nat :=
  (List.range 128).find? fun l => decide ((onLane s core l).length < 4)

/-- A move begins: its groups are marked until it ends. -/
def startMove (s : State) (core : Nat) (m : ParkMove) : State :=
  let mark (s : State) (o : Option Nat) : State :=
    match o with
    | some gid => s.modGroup gid fun g => { g with sched := { g.sched with moving := true } }
    | none => s
  (mark (mark s m.out) m.into).modCore core fun c => { c with move := some m }

/-- PARK_FILL (R89, rule 1): an empty slot takes the parked ready group of highest class, the longest ready first. -/
def execParkFill (core : Nat) (s : State) : Res :=
  if (s.core core).move.isSome then .next s
  else
    match bestBy parkBefore (parkedReady s core), emptyLane s core with
    | some (gid, _), some l => .next (startMove s core ⟨l, none, some gid⟩)
    | _, _ => .next s

/-- IDLE_PARK (R89, rule 2): a resident group not ready for 4,096 lane cycles is parked. -/
def execIdlePark (core gid : Nat) (s : State) : Res :=
  if (s.core core).move.isSome then .next s
  else
    match s.group? gid with
    | none => .next s
    | some g =>
      match g.sched.lane with
      | none => .next s
      | some l =>
        if g.core = core && !g.ready && !g.sched.inStint && !g.unsplit && decide (g.sched.idleSince + 4096 ≤ s.now) then
          .next (startMove s core ⟨l, some gid, none⟩)
        else .next s

/-- R89, rule 3: the resident a group of a class may displace. -/
def displaceable (s : State) (core cls q : Nat) : Option (Nat × Group) :=
  bestBy (fun (a b : Nat × Group) => decide (a.2.cls < b.2.cls) ||
      (a.2.cls == b.2.cls && decide (a.2.sched.residentSince < b.2.sched.residentSince)))
    (s.groups.filter fun e => e.2.core == core && e.2.sched.lane.isSome && !e.2.sched.moving && !e.2.sched.inStint && !e.2.unsplit &&
      decide (e.2.cls ≤ cls) && decide (e.2.sched.residentSince + q ≤ s.now))

/-- ROTATION (R88, R89, rule 3): a parked group ready for longer than its class limit displaces a resident of age Q. -/
def execRotation (core : Nat) (s : State) : Res :=
  if (s.core core).move.isSome then .next s
  else
    let limit (g : Group) : Nat := 2 ^ (s.part (groupPart s g)).lclog g.cls
    match bestBy parkBefore ((parkedReady s core).filter fun e => decide (e.2.sched.readySince + limit e.2 < s.now)) with
    | none => .next s
    | some (gid, g) =>
      match displaceable s core g.cls (2 ^ (s.part (groupPart s g)).qlog) with
      | none => .next s
      | some (out, h) => .next (startMove s core ⟨h.sched.lane.getD 0, some out, some gid⟩)

/-- R364: whether a context's park area lies on a die that is down, in part; 4 KiB by 4 KiB, as an alias page lies over the dies. -/
def parkDown (s : State) (asid : Nat) : Bool :=
  anyDown s && match s.ctx? asid with
    | none => false
    | some c => (List.range (16 * c.parkn)).any fun i =>
      let va := c.parkb + 4096 * i
      match walk s asid va with
      | .ok p => isDown s (foldAlias (p.frame + (va - p.vbase)))
      | .error t => t.code == codeBusy

/-- R364: whether a move of the park engine waits for a die that is down. -/
def moveDown (s : State) (m : ParkMove) : Bool :=
  (m.out.toList ++ m.into.toList).any fun gid => (s.group? gid).any fun g => parkDown s g.asid

/-- PARK_MOVE_COMPLETE (R90, R111): the move ends: one group is parked, the other resident; a packed group's items leave
the queue. -/
def execParkMoveComplete (core : Nat) (s : State) : Res :=
  match (s.core core).move with
  | none => .next s
  | some m =>
    if moveDown s m then .next s
    else
    let s := s.modCore core fun c => { c with move := none }
    let s := match m.out with
      | some gid => s.modGroup gid fun g =>
          { g with sched := { g.sched with lane := none, moving := false, readySince := s.now } }
      | none => s
    match m.into with
    | none => .next s
    | some gid =>
      match s.group? gid with
      | none => .next s
      | some g =>
        let s := s.setGroup gid { g with sched := { g.sched with
          lane := some m.lane, moving := false, residentSince := s.now, lastEnd := s.now, idleSince := s.now, held := [] } }
        .next (if g.sched.held.isEmpty then s else wakeStalled s g.asid core)

/-! ## Ends of waits -/

/-- R110: a group leaves the wait list; a sector that no other watches is watched no longer. -/
def endWatch (s : State) (gid : Nat) (g : Group) (sector : Nat) : State :=
  let s := s.setGroup gid (g.wake s.now)
  let still := s.groups.any fun e => match e.2.wait with
    | .word k _ _ => k == sector
    | _ => false
  if still then s else { s with watch := drop sector s.watch }

/-- WAIT_WAKE (R110): a write has reached the watched sector since the group began to wait. -/
def execWaitWake (gid : Nat) (s : State) : Res :=
  match s.group? gid with
  | none => .next s
  | some g =>
    match g.wait with
    | .word sector writes _ => if look sector s.watch = some writes then .next s else .next (endWatch s gid g sector)
    | _ => .next s

/-- WAIT_TIMEOUT (R110): 4,096 lane cycles have passed on the wait list. -/
def execWaitTimeout (gid : Nat) (s : State) : Res :=
  match s.group? gid with
  | none => .next s
  | some g =>
    match g.wait with
    | .word sector _ t => if t ≤ s.now then .next (endWatch s gid g sector) else .next s
    | _ => .next s

/-- The registers a group's queued register drains will write (R250). -/
def drainedRegs (s : State) (gid : Nat) (g : Group) : List Nat :=
  ((setAt s g.asid g.core).mq.filter fun m => m.gid == gid).flatMap fun m => match m.instr with
    | .mdrainReg f => (List.range (drainRegs f.y)).map (f.v.toNat + ·)
    | _ => []

/-- LOAD_DATA_ARRIVAL (R72): the data of a group's loads is there; what the matrix engine still owes is not. -/
def execLoadDataArrival (gid : Nat) (s : State) : Res :=
  match s.group? gid with
  | none => .next s
  | some g =>
    let due := drainedRegs s gid g
    .next (stirBroken (s.setGroup gid { g with loads := g.loads.filter due.contains }))

/-! ## Deterministic mode -/

/-- QUANTUM_END (R209): 2^QLOG instructions have retired since the last quantum ended. -/
def execQuantumEnd (gid : Nat) (s : State) : Res :=
  match s.group? gid with
  | none => .next s
  | some g => if g.det.en && decide (2 ^ g.det.qlog ≤ g.det.run) then .next (endQuantum s gid false) else .next s

/-- Whether a contribution can be performed now: its home is not down (R364), and where its word is uncorrectable its group has no other
event to meet first (log entry 111). -/
def mayCommit (s : State) (c : Contribution) : Bool :=
  !c.loc.down s && !(c.loc.lost s && (s.group? c.gid).any fun g => g.pending.isSome && g.wait != Wait.detAtom)

/-- The contribution of a context's grids that may be applied next (R210). -/
def commitChoice (s : State) (asid : Nat) : Option Contribution :=
  (s.grids.filter fun e => e.2.asid == asid).findSome? fun e =>
    match leastOf s e.1 with
    | some c => if smallerMayCome s c || !mayCommit s c then none else some c
    | none => none

/-- COMMIT_APPLY (R210): the least contribution that no smaller one can precede is applied. -/
def execCommitApply (asid : Nat) (s : State) : Res :=
  match commitChoice s asid with
  | none => .next s
  | some c => .next (stirBroken (applyContribution s c))

/-! ## Time limits of the caches (R148, R384) -/

/-- L1_WRITEBACK_TIMEOUT: an L1 writes a sector's dirty bytes past itself; the limit is an upper bound (log entry 16). -/
def execL1WritebackTimeout (core sector : Nat) (s : State) : Res := .next (s.cleanSector core sector)

/-- L1_CLEAN_DROP_TIMEOUT: an L1 drops a clean sector. -/
def execL1CleanDropTimeout (core sector : Nat) (s : State) : Res :=
  match look sector (s.core core).l1 with
  | none => .next s
  | some x =>
    if x.isDirty then .next s
    else .next (s.modCore core fun c => { c with l1 := drop sector c.l1 })

/-- RDC_DROP_TIMEOUT: an RDC drops a line. -/
def execRdcDropTimeout (die line : Nat) (s : State) : Res :=
  .next (s.modDie die fun d => { d with rdc := drop line d.rdc })

end Sys2Proof.Machine
end

