-- ==== Sys2Proof/Machine/Preempt.lean ====
section
/-!
DEFINITION. Pre-emption (R351 to R354): what a context's state becomes when it leaves the module and when it is placed
again (R95, R134, R142, R252, R300, R383), the records it leaves in the park area (R142, R252), flashback (R355, R357),
and the fencing of cores that waits for it (R365).
-/

namespace Sys2Proof.Machine

/-! ## Saving a context -/

/-- R357: a thread as a group resumed by flashback finds it. -/
def Thread.reborn (x : Thread) (packed keep : Bool) (live : BitVec 128) : Thread :=
  { x with
    v := Vector.ofFn fun i : Fin 48 =>
      if keep && live.getLsbD i.val then x.reg i.val
      else if packed then x.payload[i.val]?.getD 0#32 else 0#32
    p := 0#8
    ox := 0#32
    b0 := Latch.init
    b1 := Latch.init }

/-- R357: a group resumed by flashback: in its recipe, with what `mark` kept. -/
def Group.flashback (g : Group) (f : Flash) : Group :=
  { g with
    threads := Vector.ofFn fun i : Fin 32 => (g.thread i.val).reborn g.packed (f.lmask.getLsbD i.val) f.live
    s := Vector.ofFn fun i : Fin 32 =>
      if f.live.getLsbD (48 + i.val) then g.sreg i.val else g.args[i.val]?.getD 0#64
    w := Vector.replicate 8 Window.init
    stack := []
    lmask := f.lmask
    amask := f.lmask
    fpmode := f.fpmode
    fpseed := f.fpseed
    retired := f.count
    recipe := true
    replay := none
    kept := none
    wait := .none
    pc := f.recipe + 16#57
    line := none
    fresh := false
    sched := { g.sched with resumeStint := false, stintCount := 0 } }

/-- R352, R355, R142: whether a group is saved by flashback; in an open expansion it never is. -/
def Group.savedFlash (g : Group) : Option Flash :=
  if g.mode = .user && g.pending.isNone && g.expand.isNone && g.wait != Wait.host && g.wait != Wait.room then g.flash else none

/-- R340, R351: an event that a group had yet to meet as it was saved is delivered as one that was pending at a pre-emption. -/
def Event.kept (ev : Event) : Event := { ev with report := { ev.report with wasPending := true } }

/-- A group as it leaves its core. -/
def Group.saved (g : Group) : Group :=
  let g := match g.savedFlash with
    | some f => g.flashback f
    | none => g
  { g with line := none, pending := g.pending.map Event.kept, sched := { g.sched with lane := none, inStint := false, stintWait := 0 } }

/-- R352, R300, R252: whether everything that finishes before a save has finished, and the park area answers (R364). What is never
split does not hold the save up behind a step that a DATAERR has stopped (log entry 136). -/
def saveReady (s : State) (asid : Nat) : Bool :=
  !parkDown s asid &&
  (s.groups.all fun (e : Nat × Group) => e.2.asid != asid ||
    (!e.2.sched.inStint && !e.2.sched.moving && !e.2.scribe && !e.2.deposit)) &&
  !(s.ops.any fun (e : Nat × EngineOp) => e.2.asid == asid) &&
  (s.cores.all fun (e : Nat × Core) => e.2.accHolder != some asid || (s.set asid e.1).mq.head?.any MatInstr.stopped || !(s.set asid e.1).mq.any MatInstr.unsplit)

/-! ## The records of a save (R142, R252, R385) -/

/-- Bytes cut or filled with zeros to a length. -/
def padTo (n : Nat) (bs : List Byte) : List Byte := bs.take n ++ List.replicate (n - bs.length) 0#8

/-- R142: a held contribution, bit 47 telling of an empty one. -/
def XContribution.record (c : XContribution) : List Byte :=
  toBytes 8 (c.k % 2 ^ 40 + c.owner % 2 ^ 7 * 2 ^ 40 + (if c.empty then 2 ^ 47 else 0) + c.rnd.mode.code * 2 ^ 48) ++ toBytes 4 c.value.toNat ++
    toBytes 4 (c.rnd.bits % 2 ^ 32)

/-- R142: an owner's part of the record. -/
def Expansion.ownerRecord (x : Expansion) (o : Nat) : List Byte :=
  toBytes 4 (x.starts.getD o 0#32).toNat ++ toBytes 4 (x.lens.getD o 0#32).toNat ++ toBytes 8 (x.before o) ++
    toBytes 4 (x.partials.getD o 0#32).toNat ++ toBytes 4 (x.appliedCount o)

/-- R142: the 4,160 bytes of an open expansion. -/
def Expansion.record (x : Expansion) : List Byte :=
  let chip := min x.held.length 64
  let sizeCode := if x.size = 4 then 2 else x.size - 1
  let left := (x.ends.filter Option.isSome).length
  padTo 4160 (
    toBytes 8 (sizeCode + x.op * 2 ^ 2 + x.total * 2 ^ 8 + x.gids.length * 2 ^ 16 + left * 2 ^ 20 + chip * 2 ^ 32) ++
    toBytes 8 (x.count % 2 ^ 40) ++
    padTo 16 (x.waves.flatMap fun w => toBytes 4 w) ++
    padTo 16 (x.masks.flatMap fun (m : Word) => toBytes 4 m.toNat) ++
    toBytes 8 (x.held.length - chip) ++ toBytes 8 0 ++
    padTo 3072 ((List.range x.total).flatMap x.ownerRecord) ++
    padTo 1024 ((x.held.take 64).flatMap XContribution.record))

/-- R252: the memory operands of a queued instruction as its record has them: the first, the second, the third. That of `mma` stands in
the second place, as B (log entry 136). -/
def MatInstr.places (m : MatInstr) : List Nat :=
  let va (k : Nat) := (m.op k).va
  match m.instr with
  | .mma _ => [0, va 0, 0]
  | .mdrainMem f => [va 0, if f.b then va 1 else 0, if f.s = 0#3 then 0 else va (if f.b then 2 else 1)]
  | _ => (List.range 3).map va

/-- R252: the record of a queued matrix instruction, the staged rows of `mma` behind it. -/
def MatInstr.record (m : MatInstr) : List Byte :=
  let staged := match m.instr with
    | .mma _ => true
    | _ => false
  toBytes 4 ((encodeWord m.instr).getD 0) ++
  toBytes 4 (m.step % 32 + m.rm.toNat * 2 ^ 8 + if staged then 2 ^ 11 else 0) ++
  toBytes 8 m.va.toNat ++ toBytes 8 m.seed.toNat ++ toBytes 8 (m.count % 2 ^ 32 + m.lidx * 2 ^ 32) ++
  (m.places.flatMap fun p => toBytes 8 p) ++ toBytes 8 (m.grpid.toNat % 2 ^ 32) ++
  if staged then (List.range 32).flatMap fun t => padTo 128 ((m.staged.getD t []).flatMap fun (w : Word) => toBytes 4 w.toNat)
  else []

/-- R385: where the park area keeps the state of a core; the place is the model's (log entry 89). -/
def setPlace (c : Context) (core : Nat) : Option Nat :=
  (c.parkCores.findIdx? (· == core)).map fun i => c.parkb + c.parkn * 65536 - 2097152 * (i + 1)

/-- A record written to the park area, 64 bytes at a time; a page that cannot be written keeps what it holds. -/
def writePark (s : State) (asid : Nat) : Nat → Nat → List Byte → State
  | 0, _, _ => s
  | fuel + 1, va, bs =>
    let s := match writeVirtual s asid va (bs.take 64) with
      | .ok t => t
      | .error _ => s
    writePark s asid fuel (va + 64) (bs.drop 64)

/-- R142, R252: the records of a core's open expansions, slot by slot, and of its matrix queue, in queue order. -/
def writeRecords (s : State) (asid core : Nat) : State :=
  match s.ctx? asid with
  | none => s
  | some c =>
    match setPlace c core with
    | none => s
    | some base =>
      let x := s.set asid core
      let s := x.expands.foldl (fun s (e : Nat × Expansion) => writePark s asid 65 (base + 4160 * e.1) e.2.record) s
      let queue := x.mq.flatMap MatInstr.record
      writePark s asid (queue.length / 64) (base + 131072) queue

/-- R352: the context leaves the module, and the commands that asked for it complete. -/
def saveContext (s : State) (asid : Nat) : State :=
  let s := (ctxCores s asid).foldl (fun s k => writeRecords s asid k) s
  let s := s.mapGroups fun _ g => if g.asid = asid then g.saved else g
  let s := (ctxCores s asid).foldl (fun s k => saveUnit s asid k) s
  match s.ctx? asid with
  | none => s
  | some c => c.preemptCmds.foldl adminDone (s.setCtx asid { c with preempt := .saved, preemptCmds := [] })

/-- R352: the context is saved as soon as nothing stands in the way. -/
def trySave (s : State) (asid : Nat) : State :=
  match s.ctx? asid with
  | some c => if c.stopping && saveReady s asid then saveContext s asid else s
  | none => s

/-- R352, R368: a hard pre-emption begins. -/
def beginHard (s : State) (asid d : Nat) : State :=
  match s.ctx? asid with
  | none => s
  | some c =>
    if c.stopped.isSome then s
    else bboxLog (switchOut (s.setCtx asid { c with preempt := .hard s.now d }) asid) 0 11 0 0

/-! ## Placing it again (R354, R383) -/

/-- The groups of a context on a core, launched or packed. -/
def groupsOn (s : State) (asid core : Nat) (packed : Bool) : Nat :=
  (s.groups.filter fun e => e.2.asid == asid && e.2.core == core && e.2.packed == packed).length

/-- The blocks of a unit. -/
def unitBlocks (s : State) (u : SavedUnit) : List Block := u.blocks.filterMap s.block?

/-- The sum of a measure over a list. -/
def total {α : Type} (f : α → Nat) (l : List α) : Nat := l.foldl (fun n x => n + f x) 0

/-- Whether a context has put something on a core since its resumption. -/
def received (s : State) (asid core : Nat) : Bool := (ctxCores s asid).contains core

/-- R383, R92: whether a core can admit all the blocks of a unit. The unit's items on chip set no condition: they may take the queue
past its 2,048 places, and nothing enters it then (R96; log entry 104). -/
def unitFits (s : State) (asid : Nat) (u : SavedUnit) (core : Nat) : Bool :=
  let bs := unitBlocks s u
  let old := u.away
  coreServes s core && !received s asid core &&
  decide (launchedOn s core + groupsOn s asid old false + (packedOn s core + groupsOn s asid old true - 256) ≤ 3840) &&
  decide (benchUsed s core + total (·.benchSize) bs ≤ benchCap s core) &&
  decide (coreBarsHeld s core + total (fun b => if b.packed then 0 else b.cbar) bs ≤ 32) &&
  decide (quadBarsHeld s (quadOf core) + total (fun b => if b.packed then 0 else b.qbar) bs ≤ 16)

/-- R252: what a step needs of a page: `mdrain` writes its destination and updates its absolute-maximum word. -/
def refAccess (i : Instr) (k : Nat) : Access :=
  match i with
  | .mdrainMem f => if k = 0 then .write else if k = (if f.b then 2 else 1) then .update else .read
  | _ => .read

/-- R252: a captured page translated again, as one page or, where the new leaves are smaller, several. -/
def retranslatePage (s : State) (asid : Nat) (acc : Access) (old : Page) : Nat → Nat → Except Trap (List Page)
  | 0, _ => .ok []
  | fuel + 1, va =>
    if old.vbase + old.span ≤ va then .ok []
    else
      match walk s asid va with
      | .error t => .error t
      | .ok p =>
        match p.check acc (if old.ho then .handler else .user) va with
        | some t => .error t
        | none =>
          if p.fmt != old.fmt then .error (plainTrap codeFORMAT va)
          else
            match retranslatePage s asid acc old fuel (p.vbase + p.span) with
            | .error t => .error t
            | .ok ps => .ok (p :: ps)

/-- R252: the pages of an operand translated again, in their order. -/
def retranslatePages (s : State) (asid : Nat) (acc : Access) : List Page → Except Trap (List Page)
  | [] => .ok []
  | p :: ps =>
    match retranslatePage s asid acc p (p.span / 65536 + 1) p.vbase with
    | .error t => .error t
    | .ok qs =>
      match retranslatePages s asid acc ps with
      | .error t => .error t
      | .ok rs => .ok (qs ++ rs)

/-- R252, R320: the host translations of an operand made again. -/
def retranslateHost (s : State) (asid : Nat) (r : MemRef) : NMap Nat → Except Trap (NMap Nat)
  | [] => .ok []
  | (k, _) :: hs =>
    match r.page (4096 * k) with
    | none => .error (plainTrap codeXLATE (4096 * k))
    | some p =>
      match hostTranslate s asid .read (p.frame + (4096 * k - p.vbase)) (4096 * k) with
      | .error t => .error t
      | .ok pa =>
        match retranslateHost s asid r hs with
        | .error t => .error t
        | .ok m => .ok ((k, pa) :: m)

/-- R252: an operand translated again; one that fails keeps why, and its instruction stops. -/
def retranslateRef (s : State) (asid : Nat) (acc : Access) (r : MemRef) : MemRef :=
  let lost (t : Trap) : MemRef := { r with fault := some (t.code, t.info, t.report) }
  match retranslatePages s asid acc r.pages with
  | .error t => lost t
  | .ok ps =>
    match retranslateHost s asid { r with pages := ps } r.host with
    | .error t => lost t
    | .ok hs => { r with pages := ps, host := hs, fault := none }

/-- R252: the operands of a queued instruction translated again. -/
def retranslate (s : State) (asid : Nat) (m : MatInstr) : MatInstr :=
  { m with ops := (List.range m.ops.length).map fun k => retranslateRef s asid (refAccess m.instr k) (m.op k) }

/-- Waits that test again after a resumption (R98, R127, R131, R200, R319). -/
def Wait.again (w : Wait) : Bool :=
  match w with
  | .spawn => true
  | .cspan _ => true
  | .tflush _ => true
  | .launch => true
  | .engine => true
  | .tlbinv => true
  | .stintBreak => true
  | _ => false

/-- R248: a core's accumulator store serves a context, or the context asks for it. -/
def claimTiles (asid : Nat) (c : Core) : Core :=
  if c.accHolder.isNone then { c with accHolder := some asid }
  else if c.accHolder != some asid && c.accWant.isNone then { c with accWant := some asid }
  else c

/-- R161, R383: the blocks of a unit take their units of a core's bench anew. -/
def placeBenches (s : State) (core : Nat) (bs : List Nat) : State :=
  bs.foldl (fun s b =>
    match s.block? b with
    | some x =>
      let m := takeUnits s core x.benchSize
      s.modBlock b fun y => { y with benchAt := put core m y.benchAt }
    | none => s) s

/-- R383: a unit is restored on a core, and its 2 MiB of the park area go with it (R385); complete sets that wait for a slot open there
(R135). An expansion keeps its slot number, even
where another context's expansion has that number on the core: the spec does not say what becomes of it (R106, log entry 107). -/
def installUnit (s : State) (asid : Nat) (u : SavedUnit) (core : Nat) : State :=
  let own := ownBlock s asid
  let scope := if core = u.core then 0 else if quadOf core = quadOf u.core then 2 else if dieOf core = dieOf u.core then 3 else 4
  let x := u.set.move own (u.away) core
  let x := { x with mq := x.mq.map (retranslate s asid) }
  let s := placeBenches ((moveCore s asid (u.away) core).setSet asid core x) core u.blocks
  let s := if x.mq.isEmpty then s else s.modCore core (claimTiles asid)
  let s := s.mapGroups fun _ g =>
    if g.asid = asid && g.core = core then
      let g := { (g.acquired scope) with sched := { g.sched with readySince := s.now, lastEnd := s.now, idleSince := s.now } }
      if g.wait.again then g.wake s.now else g
    else g
  let s := s.modCtx asid fun c =>
    let cores := c.parkCores.map fun k => if k = u.away then core else k
    { c with
      units := c.units.filter fun v => v.away != u.away
      parkCores := (cores ++ [core]).eraseDups }
  openAll (s.acquire core scope) core

/-- R383: the core a unit of its own goes to. A unit with no block whose old core is being fenced waits for the spare that takes its
number (R365), and goes to none that serves no work (log entry 127). -/
def unitCore (s : State) (asid : Nat) (c : Context) (u : SavedUnit) : Option Nat :=
  let all := partCores (s.part c.part)
  if u.blocks.isEmpty then
    let free := all.filter fun k => !received s asid k
    let home := free.contains u.core && !(s.core u.core).absent
    if home && coreServes s u.core then some u.core
    else if home then none
    else free.find? (coreServes s)
  else bestBy (fun a b => decide (freePlaces s b < freePlaces s a)) (all.filter fun k => unitFits s asid u k)

/-- The quad block that ties a unit to the three others of its quad. -/
def quadUnit (s : State) (u : SavedUnit) : Bool := (unitBlocks s u).any fun b => b.cores.length == 4

/-- R383: the four units of a quad go together to one quad of the partition that can take them. The spec does not say which; the model
takes the lowest-numbered (log entry 118). -/
def quadTarget (s : State) (asid : Nat) (c : Context) (us : List SavedUnit) : Option Nat :=
  let all := partCores (s.part c.part)
  let ids := (us.flatMap (·.blocks)).eraseDups
  let qbars := total (fun (b : Block) => if b.packed then 0 else b.qbar) (ids.filterMap s.block?)
  (all.filter fun k => k % 4 == 0).find? fun k =>
    us.all (fun u => all.contains (k + u.core % 4) && unitFits s asid u (k + u.core % 4)) &&
    decide (quadBarsHeld s (quadOf k) + qbars ≤ 16)

/-- One more unit of a context is placed, with its quad's others where a quad block ties them. -/
def placeUnit (s : State) (asid : Nat) (c : Context) (u : SavedUnit) : Option State :=
  let us := c.units.filter fun v => quadOf v.core == quadOf u.core
  if us.any (quadUnit s) then
    (quadTarget s asid c us).map fun k => us.foldl (fun s v => installUnit s asid v (k + v.core % 4)) s
  else (unitCore s asid c u).map fun k => installUnit s asid u k

/-- R359: the queues of a resumed context are switched in, with the progress of what completed meanwhile. -/
def switchIn (s : State) (fe q : Nat) : State :=
  let x := s.queue fe q
  if DWord.f x.ctl 35 32 = 2 then
    advanceQueue (s.setQueue fe q { x with ctl := DWord.setF x.ctl 35 32 0 }) fe q (x.begun.length + 1)
  else s

/-- R359, for every queue of a context. -/
def switchInAll (s : State) (asid : Nat) : State :=
  (s.queues.map (·.1)).foldl (fun s k =>
    if decide (k < 512) && DWord.f (s.queue (k / 8) (k % 8)).ctl 26 16 == asid then switchIn s (k / 8) (k % 8) else s) s

/-- R354: with no unit left to place, the commands that wait for the resumption complete. -/
def finishResume (s : State) (asid : Nat) : State :=
  match s.ctx? asid with
  | some c =>
    if c.units.isEmpty && c.preempt == Preempt.none then
      c.preemptCmds.foldl adminDone (s.setCtx asid { c with preemptCmds := [] })
    else s
  | none => s

/-- R383: units are placed while one fits; the answer says whether any was. The spec gives no order among them, though it decides who
gets a core that several could take; the model tries the unit of the lowest core first (log entry 118). -/
def placeUnits (s : State) (asid : Nat) : Nat → State × Bool
  | 0 => (s, false)
  | fuel + 1 =>
    match s.ctx? asid with
    | none => (s, false)
    | some c =>
      if c.preempt != Preempt.none || c.stopped.isSome then (s, false)
      else
        match c.units.findSome? fun u => placeUnit s asid c u with
        | none => (finishResume s asid, false)
        | some s => ((placeUnits s asid fuel).1, true)

/-- R343: whether a sector of a context's park area is uncorrectable, 4 KiB by 4 KiB as an alias page lies over the dies (R151). -/
def parkDamaged (s : State) (asid : Nat) (c : Context) : Bool :=
  !s.bad.isEmpty && (List.range (16 * c.parkn)).any fun i =>
    let va := c.parkb + 4096 * i
    match walk s asid va with
    | .ok p =>
      let k := foldAlias (p.frame + (va - p.vbase)) / 64
      s.bad.any fun e => decide (k ≤ e.1) && decide (e.1 < k + 64)
    | .error _ => false

/-- R354: a saved context is resumed. -/
def resumeContext (s : State) (asid : Nat) : State :=
  match s.ctx? asid with
  | none => s
  | some c =>
    if c.preempt != Preempt.saved then finishResume s asid
    else if !c.units.isEmpty && parkDamaged s asid c then
      c.preemptCmds.foldl adminDone (contextError (s.setCtx asid { c with preemptCmds := [] }) asid 10)
    else
      let s := switchInAll (s.setCtx asid { c with preempt := .none, autoResume := false }) asid
      (placeUnits s asid (c.units.length + 1)).1

/-- R93, R383: BLOCK_PLACE: a front end places the units that wait before any block, and then the first grid of the
order whose next block fits. -/
def execBlockPlace (fe : Nat) (s : State) : Res :=
  let late := (s.contexts.filter fun (e : Nat × Context) => e.2.part == fe && !e.2.units.isEmpty).map (·.1)
  match late.findSome? fun a =>
      let r := placeUnits s a 1
      if r.2 then some r.1 else none with
  | some s => .next (late.foldl (fun s a => finishResume s a) s)
  | none =>
    match (gridOrder s fe).findSome? fun n => placeBlock s n with
    | none => .next s
    | some s =>
      .next (wakeWhere s fun _ g => g.wait == .launch && (s.ctx? g.asid).any fun c => c.part == fe)

/-! ## Fencing (R16, R365) -/

/-- R365: a spare takes the fenced core's number; without a spare the core is absent (R382: CABS, CSPARE). -/
def takeSpare (s : State) (core : Nat) : State :=
  let d := dieOf core
  let left := DWord.f (s.mgmt d 9) 2 0
  let clear (c : Core) : Core :=
    { c with fenced := false, accHolder := none, accWant := none, tileHolder := none, tileWant := none, move := none }
  let s := s.sweepL1 core true
  if 0 < left then bboxLog ((s.modCore core clear).setMgmt d 9 (BitVec.ofNat 64 (left - 1))) d 5 core 0
  else
    (s.modCore core fun c => { clear c with absent := true }).setMgmt d 8 (s.mgmt d 8 ||| (1#64 <<< (core % 64)))

/-- R364: whether a context has a group, a block or an engine operation on a core. -/
def onCore (s : State) (asid core : Nat) : Bool :=
  (s.groups.any fun e => e.2.asid == asid && e.2.core == core) ||
  (s.blocks.any fun e => e.2.asid == asid && e.2.cores.contains core) ||
  s.ops.any fun e => e.2.asid == asid && match e.2.source with
    | .group _ c _ => c == core
    | .queue .. => false

/-- R365: whether a context has anything on a core: those, or a set with items, tiles, counters, slots or expansions. -/
def holdsCore (s : State) (asid core : Nat) : Bool := onCore s asid core || (s.set asid core) != {}

/-- Whether any context has something on a core. -/
def coreBusy (s : State) (core : Nat) : Bool := s.contexts.any fun e => holdsCore s e.1 core

/-- R381: whether a thermal trip waits for the contexts to be saved, or holds a die. -/
def tripped (s : State) : Bool := s.dies.any fun e => e.2.trip || e.2.boot == Boot.held

/-- R365: fenced cores whose contexts are off them take a spare; the contexts that the firmware took off for it resume, unless a thermal
trip keeps them off (R381) or their park area is on a die that is down (R364). -/
def finishFences (s : State) : State :=
  let due := (s.cores.filter fun e => e.2.fenced && !coreBusy s e.1).map (·.1)
  let s := due.foldl takeSpare s
  if (s.cores.any fun e => e.2.fenced) || tripped s then s
  else
    let back := (s.contexts.filter fun (e : Nat × Context) =>
      e.2.autoResume && e.2.preempt == Preempt.saved && !parkDown s e.1).map (·.1)
    back.foldl (fun s a => resumeContext s a) s

/-- R365: the contexts that hold something on a core are pre-empted hard, to resume elsewhere; one that the host has asked to take off
the module stays off it until its RESUME (R352, log entry 127). -/
def takeOff (s : State) (core : Nat) : State :=
  ((s.contexts.filter fun (e : Nat × Context) => holdsCore s e.1 core && e.2.stopped.isNone).map (·.1)).foldl (fun s a =>
    match s.ctx? a with
    | some c =>
      if c.stopping then s
      else
        let back := c.autoResume || (c.preempt == Preempt.none && !tripped s)
        trySave (beginHard (s.setCtx a { c with autoResume := back }) a 65536) a
    | none => s) s

/-- R381: a thermal trip holds every die in warm reset once every context is off the module. -/
def holdIfTripped (s : State) : State :=
  if (s.dies.any fun e => e.2.trip) && (s.contexts.all fun e => e.2.stopped.isSome || e.2.preempt == Preempt.saved) then
    [0, 1, 2, 3].foldl (fun s d =>
      resetDie ((bboxLog s d 12 0 0).modDie d fun e => { e with trip := false }) d .held false) s
  else s

/-- R353: commands that wait for a context that has stopped complete. -/
def finishStopped (s : State) (asid : Nat) : State :=
  match s.ctx? asid with
  | some c =>
    if c.stopped.isSome then c.preemptCmds.foldl adminDone (s.setCtx asid { c with preemptCmds := [] }) else s
  | none => s

/-- R352, R353: at t0 + D an operation that is not complete forces a context reset; groups still in a stint stop at this
instruction boundary, but for those in H mode (R345). -/
def deadlinePassed (s : State) (asid : Nat) : State :=
  if s.ops.any fun e => e.2.asid == asid then contextError s asid 7
  else
    s.mapGroups fun _ g =>
      if g.asid = asid && g.sched.inStint && g.mode = .user then g.breakStint s.now else g

/-- PREEMPT_DEADLINE (R352, R353): the context is saved if it can be; past the deadline, groups are stopped first. -/
def execPreemptDeadline (asid : Nat) (s : State) : Res :=
  match s.ctx? asid with
  | none => .next s
  | some c =>
    let s := match c.preempt with
      | .hard t0 d => if saveReady s asid || decide (s.now < t0 + d) then s else deadlinePassed s asid
      | _ => s
    .next (finishFences (holdIfTripped (finishStopped (trySave s asid) asid)))

end Sys2Proof.Machine
end

