-- ==== Sys2Proof/Machine/Queues.lean ====
section
/-!
DEFINITION. The command queues of the front ends (R359, R360, R371 to R374) and the commands a tenant's queue takes
(R177, R373). Front end 64 stands for the administration queue of PF0 (R375).
-/

namespace Sys2Proof.Machine

/-! ## The registers of a queue (R372) -/

def Queue.ring (x : Queue) : Nat := DWord.f x.base 56 12 * 4096
def Queue.stat (x : Queue) : Nat := DWord.f x.ctl 35 32
def Queue.en (x : Queue) : Bool := DWord.f x.ctl 31 31 == 1
def Queue.asid (x : Queue) : Nat := DWord.f x.ctl 26 16
def Queue.cls (x : Queue) : Nat := DWord.f x.ctl 10 8
def Queue.slots (x : Queue) : Nat := 2 ^ DWord.f x.ctl 4 0

/-- R372: QCTL as it reads; STAT is 1 while commands are there or begun. -/
def Queue.ctlRead (x : Queue) : DWord :=
  if x.stat = 0 && x.en && (decide (x.head < x.tail) || !x.begun.isEmpty) then DWord.setF x.ctl 35 32 1 else x.ctl

/-- R5, R372: what the host reads of a queue's register; in the unprivileged view BASE, EN, ASID, CLASS and SIZE read zero. -/
def queueRegRead (x : Queue) (privileged : Bool) (off : Nat) : DWord :=
  match off with
  | 0 => if privileged then x.base else 0#64
  | 8 => if privileged then x.ctlRead else x.ctlRead &&& 0xFF0F00000000#64
  | 16 => BitVec.ofNat 64 x.tail
  | 24 => BitVec.ofNat 64 x.prog
  | _ => 0#64

/-- R372, R359: a write of TAIL publishes commands, or puts the queue in error. -/
def tailPublish (s : State) (fe q v : Nat) : State :=
  s.modQueue fe q fun x =>
    if v < x.tail || decide (x.prog + x.slots < v) then x.fail 3 else { x with tail := v }

/-- R374: EN = 0 clears an error: nothing is begun and the next command is number PROG. -/
def clearError (s : State) (fe q : Nat) : State :=
  if (s.queue fe q).stat = 3 then
    (detachQueue s fe q).modQueue fe q fun x =>
      { x with ctl := DWord.setF (DWord.setF x.ctl 35 32 0) 47 40 0, head := x.prog, begun := [] }
  else s

/-- Whether a context is off the module, or on its way, so that its queues are switched out (R359). -/
def ctxAway (s : State) (asid : Nat) : Bool :=
  match s.ctx? asid with
  | some c => c.stopping || c.preempt == Preempt.saved
  | none => false

/-- R372: the writable fields of QCTL after a privileged write; ASID only while EN = 0, SIZE only from 4 to 16. -/
def qctlValue (old x : DWord) : DWord :=
  let v := DWord.setF (DWord.setF old 31 31 (DWord.f x 31 31)) 10 8 (DWord.f x 10 8)
  let v := if DWord.f old 31 31 = 0 then DWord.setF v 26 16 (DWord.f x 26 16) else v
  if 4 ≤ DWord.f x 4 0 && decide (DWord.f x 4 0 ≤ 16) then DWord.setF v 4 0 (DWord.f x 4 0) else v

/-- R372, R374, R359: a privileged write of QCTL. -/
def qctlWrite (s : State) (fe q : Nat) (x : DWord) : State :=
  let s := s.modQueue fe q fun y => { y with ctl := qctlValue y.ctl x }
  let y := s.queue fe q
  if !y.en then clearError s fe q
  else if decide (fe < 64) && y.stat == 0 && ctxAway s y.asid then
    s.setQueue fe q { y with ctl := DWord.setF y.ctl 35 32 2 }
  else s

/-- R333, R371, R372: a write of a queue's register by offset; the unprivileged view writes TAIL alone, and an interface in error
takes no write of the host. -/
def queueRegWrite (s : State) (fe q off : Nat) (privileged : Bool) (x : DWord) : State :=
  if frontInError s fe then s
  else match off with
  | 0 =>
    if privileged then
      s.modQueue fe q fun y => if y.en then y else { y with base := BitVec.ofNat 64 (DWord.f x 56 12 * 4096) }
    else s
  | 8 => if privileged then qctlWrite s fe q x else s
  | 16 => tailPublish s fe q x.toNat
  | _ => s

/-- QTAIL_WRITE (R359, R372). -/
def execQtailWrite (fe q value : Nat) (s : State) : Res :=
  .next (queueRegWrite s fe q 16 false (BitVec.ofNat 64 value))

/-- QUEUE_ENABLE (R372, R374): PF0 writes EN = 1. -/
def execQueueEnable (fe q : Nat) (s : State) : Res :=
  .next (queueRegWrite s fe q 8 true (DWord.setF (s.queue fe q).ctl 31 31 1))

/-- QUEUE_DISABLE (R372, R374): PF0 writes EN = 0. -/
def execQueueDisable (fe q : Nat) (s : State) : Res :=
  .next (queueRegWrite s fe q 8 true (DWord.setF (s.queue fe q).ctl 31 31 0))

/-- QUEUE_SWITCH (R359): a front end switches one of its queues out, or in again. -/
def execQueueSwitch (fe q : Nat) (s : State) : Res :=
  let x := s.queue fe q
  if 64 ≤ fe then .next s
  else if x.stat = 2 then .next (if ctxAway s x.asid then s else switchIn s fe q)
  else if x.stat = 3 then .next s
  else .next (s.setQueue fe q { x with ctl := DWord.setF x.ctl 35 32 2 })

/-! ## Fetching a command -/

/-- R378: all four dies are ready. -/
def moduleUp (s : State) : Bool := [0, 1, 2, 3].all fun d => (s.die d).boot == Boot.ready

/-- R378: die 0's firmware runs. -/
def firmwareRuns (s : State) : Bool := (s.die 0).boot == Boot.ready || (s.die 0).boot == Boot.loaded

/-- R372, R373, R378: whether a queue fetches: enabled, switched in, not in error, with a command published; the administration queue
not while die 0 is held in warm reset (R381), nobody being there to serve it (log entry 117); a tenant's queue also needs the whole module, and a context of the front end's partition (R322). -/
def Queue.fetches (s : State) (fe q : Nat) : Bool :=
  let x := s.queue fe q
  x.en && x.stat != 2 && x.stat != 3 && decide (x.head < x.tail) &&
  if fe = 64 then q == 0 && (s.die 0).boot != Boot.held
  else
    decide (fe < 64) && decide (q < 8) && moduleUp s &&
    match s.ctx? x.asid with
    | some c => c.part == fe
    | none => false

/-- R374: whether a record of the queue waits for the host. -/
def queueHeld (s : State) (asid fe q : Nat) : Bool :=
  match s.ctx? asid with
  | none => false
  | some c =>
    (c.records.any fun (e : Nat × Posted) => e.2.owner == RecordOwner.queue fe q && !e.2.answered) ||
    c.waiting.any fun r => r.owner == RecordOwner.queue fe q

/-- `n` bytes a front end reads at `sys` scope, at their homes, of a raw page of a context (R372, R373). -/
def frontRead (s : State) (asid va n : Nat) : Except Trap (List Byte) :=
  match engineTranslate s asid .user .read va with
  | .error t => .error t
  | .ok p =>
    if p.fmt != .raw then .error (plainTrap codeFORMAT va)
    else
      match p.rawPlace s asid .read va with
      | .error t => .error t
      | .ok pa => if s.lost pa n then .error (plainTrap codeDATAERR va) else .ok (s.homeBytesAt p.own pa n)

/-- R372, R375: the 64 bytes of the next command; the administration queue's ring is host physical memory. -/
def readRing (s : State) (fe q : Nat) : Except Trap (List Byte) :=
  let x := s.queue fe q
  let a := x.ring + 64 * (x.head % x.slots)
  if fe = 64 then .ok (s.mem.bytes (hostBase + a) 64) else frontRead s x.asid a 64

/-- The eight words of a command. -/
def commandWords (bs : List Byte) : List DWord := (List.range 8).map fun i => BitVec.ofNat 64 (ofBytes ((bs.drop (8 * i)).take 8))

/-- Word `i` of a command. -/
def wordAt (ws : List DWord) (i : Nat) : DWord := ws.getD i 0#64

/-- R373: the opcode of a command. -/
def opOf (ws : List DWord) : Nat := DWord.f (wordAt ws 0) 7 0

/-- R373, R375: the bytes that a command names in the words at 0x08, 0x10 and 0x18. -/
def namedBytes (op : Nat) : Nat × Nat × Nat :=
  let all := 2 ^ 64 - 1
  match op with
  | 1 => (all, 0, 0)
  | 2 => (all, all, all)
  | 3 => (all, all, 0)
  | 4 => (all, all, 0)
  | 16 => (0x00FFFFFFFFFFFFFF, all, 0)
  | 17 => (all, 0xFFFFFF, 0)
  | 18 => (0xFFFF, 0x00FFFFFF000000FF, 0)
  | 19 => (0xFFFF, 0, 0)
  | 20 => (0xFFFF00FF, all, 0)
  | 21 => (all, 0xFFFFFFFF, 0)
  | _ => (0, 0, 0)

/-- R373, R374: the check of a command as it is fetched: ERR 1. -/
def commandBroken (fe : Nat) (ws : List DWord) : Bool :=
  let op := opOf ws
  let (a, b, c) := namedBytes op
  let known := if fe = 64 then decide (16 ≤ op) && decide (op ≤ 21) else decide (1 ≤ op) && decide (op ≤ 5)
  let w (i : Nat) : DWord := wordAt ws i
  !known || DWord.f (w 0) 63 10 != 0 ||
  w 1 &&& ~~~(BitVec.ofNat 64 a) != 0#64 || w 2 &&& ~~~(BitVec.ofNat 64 b) != 0#64 ||
  w 3 &&& ~~~(BitVec.ofNat 64 c) != 0#64 || (ws.drop 4).any (· != 0#64) ||
  ((op == 3 || op == 4) && (w 1).toNat % 8 != 0) || (op == 1 && (w 1).toNat % 64 != 0)

/-- R373: whether a command must wait for those before it. -/
def mustWait (x : Queue) (ws : List DWord) : Bool :=
  let op := opOf ws
  (!x.begun.isEmpty && (DWord.f (wordAt ws 0) 8 8 == 1 || op == 3 || op == 5)) ||
  x.begun.any fun c => c.op == 4 && !c.done

/-- R373: the next command of a queue has begun. -/
def beginCommand (s : State) (fe q : Nat) (ws : List DWord) : State :=
  s.modQueue fe q fun x =>
    { x with
      head := x.head + 1
      begun := x.begun ++ [⟨x.head, opOf ws, ws, DWord.f (wordAt ws 0) 9 9 == 1, 0, false⟩] }

/-- R373, R374: a fault of the ring, a descriptor or a word: a record for the host, which holds the queue; where a die that is down is
met, the queue tries again (R364). -/
def queueFault (s : State) (fe q asid : Nat) (t : Trap) : State :=
  if t.code = codeBusy then s
  else
  let r : Posted :=
    ⟨#v[recordWord0 t.code t.cause t.report 0#32, 0#64, BitVec.ofNat 64 t.info, 0#64, BitVec.ofNat 64 (asid * 2 ^ 48), 0#64,
        0#64, 0#64], .queue fe q, none, false, t.report.ask⟩
  (postRecord s asid r).1

/-- R375, R368: a refused command of the administration queue: ERR 1, a report to the host, and a black-box record of class 0 (log
entry 37). -/
def refuseAdmin (s : State) (op : Nat) : State := bboxLog ((failQueue s 64 0 1).send (.refusal op)) 0 0 0 0

/-- R373: a queue's next command, if it is one of an opcode and may begin, is served; a broken one puts the queue in
error, and a fault of the ring posts a record. -/
def serve (s : State) (fe q op : Nat) (body : State → List DWord → State) : State :=
  let x := s.queue fe q
  if !Queue.fetches s fe q then s
  else if decide (fe < 64) && ((s.ctx? x.asid).bind (·.stopped)).isSome then failQueue s fe q 5
  else if queueHeld s x.asid fe q then s
  else
    match readRing s fe q with
    | .error t => queueFault s fe q x.asid t
    | .ok bs =>
      let ws := commandWords bs
      if commandBroken fe ws then if fe = 64 then refuseAdmin s (opOf ws) else failQueue s fe q 1
      else if opOf ws != op || mustWait x ws then s
      else body s ws

/-! ## The commands of a tenant (R373) -/

/-- LAUNCH (R130, R373, R374): the grid of the descriptor is created; the command completes when it retires. -/
def execLaunchCommand (fe q : Nat) (s : State) : Res :=
  .next <| serve s fe q 1 fun s ws =>
    let x := s.queue fe q
    match frontRead s x.asid (wordAt ws 1).toNat 64, s.ctx? x.asid with
    | _, none => s
    | .error t, _ => if t.code = codeFORMAT then failQueue s fe q 7 else queueFault s fe q x.asid t
    | .ok bs, some c =>
      match readDescriptor c bs with
      | none => failQueue s fe q 7
      | some d => (createGrid (beginCommand s fe q ws) x.asid fe (.queue fe q x.head) x.cls none d).1

/-- A window that stands for the whole address space. -/
def wholeWindow : Window := { Window.init with set := true, limit := 0#33, rd := true, wr := true }

/-- COPY (R177, R202, R373): an engine operation of the queue; its fork is an acquire at `sys` scope. -/
def execCopyCommand (fe q : Nat) (s : State) : Res :=
  .next <| serve s fe q 2 fun s ws =>
    let x := s.queue fe q
    let n := (wordAt ws 3).toNat
    if n = 0 then commandDone (beginCommand s fe q ws) fe q x.head
    else if !engineRoom s 0 fe then s
    else
      let o : EngineOp :=
        { kind := .copy, asid := x.asid, mode := .user, die := 0, source := .queue fe q x.head, dst := wholeWindow,
          src := wholeWindow, idx := none, dstOff := (wordAt ws 1).toNat, srcOff := (wordAt ws 2).toNat, len := n,
          idxOff := 0, esize := 1, rm := 0#3, seed := 0#64, lidx := 0, count := 0, instr := 0#57, grpid := 0#64,
          place := BitVec.ofNat 64 (x.asid * 2 ^ 48), done := 0, held := none, flags := 0#7 }
      let s := (beginCommand s fe q ws).modDie 0 fun e => { e with rdc := [] }
      let (name, s) := s.takeName
      { s with ops := put name o s.ops }

/-- SIGNAL (R177, R373): the word is written at its home once every earlier command has completed. -/
def execSignal (fe q : Nat) (s : State) : Res :=
  .next <| serve s fe q 3 fun s ws =>
    let x := s.queue fe q
    let va := (wordAt ws 1).toNat
    let place : Except Trap (Nat × Owner) :=
      match engineTranslate s x.asid .user .write va with
      | .error t => .error t
      | .ok p =>
        if p.fmt != .raw then .error (plainTrap codeFORMAT va) else (p.rawPlace s x.asid .write va).map fun pa => (pa, p.own)
    match place with
    | .error t => queueFault s fe q x.asid t
    | .ok (pa, o) =>
      let s := s.writeAt (fun s a b => s.homeWrite o a b) (fun i => pa + i) (toBytes 8 (wordAt ws 2).toNat)
      commandDone (beginCommand s fe q ws) fe q x.head

/-- R204, R373: a WAIT that has begun reads its word; the value reached, it completes. -/
def pollWait (s : State) (fe q : Nat) : State :=
  let x := s.queue fe q
  match x.begun.find? fun c => c.op == 4 && !c.done with
  | none => s
  | some c =>
    if x.stat = 2 || x.stat = 3 || queueHeld s x.asid fe q then s
    else
      match frontRead s x.asid (wordAt c.words 1).toNat 8 with
      | .error t => queueFault s fe q x.asid t
      | .ok bs =>
        if reached (BitVec.ofNat 64 (ofBytes bs)) (wordAt c.words 2).toNat then commandDone s fe q c.number else s

/-- WAIT (R373): later commands wait for it. -/
def execWaitCommand (fe q : Nat) (s : State) : Res :=
  .next <| serve s fe q 4 fun s ws => pollWait (beginCommand s fe q ws) fe q

/-- QUEUE_WAIT_POLL (R373): the word is read again. -/
def execQueueWaitPoll (fe q : Nat) (s : State) : Res := .next (pollWait s fe q)

/-- FENCE (R373): every earlier command has completed. -/
def execFenceCommand (fe q : Nat) (s : State) : Res :=
  .next <| serve s fe q 5 fun s ws => commandDone (beginCommand s fe q ws) fe q (s.queue fe q).head

end Sys2Proof.Machine
end

