-- ==== Sys2Proof/Machine/Admin.lean ====
section
/-!
DEFINITION. The administration queue (R375): contexts, answers (R341), pre-emption and resumption (R352, R354),
partition registers and firmware images (R330, R367, R378, R379), and the register writes from outside (R307, R371).
-/

namespace Sys2Proof.Machine

/-! ## Serving the administration queue -/

/-- What a command of the administration queue comes to: refused, complete at once, or complete later. -/
inductive AdminRes where
  | refuse
  | done (s : State)
  | later (s : State)
  deriving Repr

/-- R375: the next command, if it is one of an opcode that `pick` chooses, is carried out by the firmware; before the
firmware runs the boot ROM takes FWLOAD alone (R378). The body is given the state in which the command has begun, its
number and its words. -/
def serveAdmin (s : State) (op : Nat) (pick : List DWord → Bool) (body : State → Nat → List DWord → AdminRes) : State :=
  if !firmwareRuns s && op != 21 && Queue.fetches s 64 0 && opOf ((commandWords ((readRing s 64 0).toOption.getD []))) == op then
    refuseAdmin s op
  else
    serve s 64 0 op fun s ws =>
      if !pick ws then s
      else
        let n := (s.queue 64 0).head
        match body (beginCommand s 64 0 ws) n ws with
        | .refuse => refuseAdmin s op
        | .done s => adminDone s n
        | .later s => s

/-! ## Contexts (R308, R311, R375) -/

/-- The fields of a CONTEXT command. -/
def cmdAsid (ws : List DWord) : Nat := DWord.f (wordAt ws 1) 10 0
def cmdAction (ws : List DWord) : Nat := DWord.f (wordAt ws 1) 15 12
def cmdReg (ws : List DWord) : Nat := DWord.f (wordAt ws 1) 27 16

/-- A CONTEXT command of an action; one of no action is refused by each. -/
def contextAction (n : Nat) (ws : List DWord) : Bool := cmdAction ws == n || decide (2 < cmdAction ws)

/-- CONTEXT_CREATE: a context of zeros, bound to its partition and pod job, under an ASID of the partition that no live
context has; every cached entry of the ASID is dropped first (R308). While a thermal trip waits for the contexts to leave, none is
made (R381, log entry 123). -/
def execContextCreate (s : State) : Res :=
  .next <| serveAdmin s 16 (fun ws => contextAction 0 ws && !(s.dies.any fun e => e.2.trip)) fun s _ ws =>
    let asid := cmdAsid ws
    let p := DWord.f (wordAt ws 1) 37 32
    let x := s.part p
    if 2 < cmdAction ws || (s.ctx? asid).isSome || asid < x.abase || x.alimit < asid || x.tdis = 3 then .refuse
    else
      let c := Context.init p (DWord.f (wordAt ws 1) 51 40)
      let c := { c with cfg := c.cfg.set 0 (BitVec.ofNat 64 asid) }
      .done ((dropAsid s asid).setCtx asid c)

/-- CONTEXT_WRITE: a register of a context, written in M mode under R310, R311 and R337; none of one whose interface is in error
(R333). -/
def execContextWrite (s : State) : Res :=
  .next <| serveAdmin s 16 (contextAction 1) fun s _ ws =>
    let n := cmdReg ws
    if 2 < cmdAction ws || (s.ctx? (cmdAsid ws)).isNone || partInError s (cmdAsid ws) ||
        !((0x810 ≤ n && decide (n ≤ 0x817)) || (0x880 ≤ n && decide (n ≤ 0x884))) then .refuse
    else
      match ctxRegWrite s (cmdAsid ws) n true (wordAt ws 2) with
      | (s, true) => .done s
      | (_, false) => .refuse

/-- CONTEXT_DESTROY: a context with no admitted group goes, with everything it holds, and its ASID is free; a command that waits
for it completes. One whose interface is in error stays until the host stops the interface (R333). -/
def execContextDestroy (s : State) : Res :=
  .next <| serveAdmin s 16 (contextAction 2) fun s _ ws =>
    let asid := cmdAsid ws
    if 2 < cmdAction ws || (s.ctx? asid).isNone || partInError s asid ||
        (s.groups.any fun (e : Nat × Group) => e.2.asid == asid && decide (e.2.core < 256)) then .refuse
    else
      let s := (((s.ctx? asid).map Context.preemptCmds).getD []).foldl adminDone s
      let s := dropAsid (discardContext s asid) asid
      .done { s with contexts := drop asid s.contexts, requests := s.requests.filter fun (e : Nat × PageRequest) => e.2.asid != asid }

/-! ## Answers (R341) -/

inductive Answer where
  | retry | deliver | refuse | stop
  deriving DecidableEq, Repr

/-- R252: the matrix instruction that a group's data error stopped goes on from its step, in a saved unit's queue too. -/
def restartMatrix (s : State) (gid : Nat) : State :=
  match s.group? gid with
  | none => s
  | some g =>
    modSetAt s g.asid g.core fun x =>
      { x with mq := x.mq.map fun m => if m.gid = gid && m.stopped then { retranslate s g.asid m with stopped := false } else m }

/-- R362: a page whose data is uncorrectable is retired, and the host is told. -/
def retirePage (s : State) (pa : Nat) : State := (bboxLog s (homeDie pa) 8 0 0).send (.retired (pa / 65536))

/-- R362: data that a replay of a DATAERR is to read again, and that stays uncorrectable: its page is retired (log entry 108). -/
def retireLost (s : State) (asid va : Nat) : State :=
  match walk s.awake asid va with
  | .error _ => s
  | .ok p =>
    let off := va - p.vbase
    let here : List (Nat × Nat) :=
      if p.fmt = .raw then [(foldAlias (p.frame + off) / 8 * 8, 8)]
      else (List.range p.fmt.blockBytes).map (fun i => (p.blockAddr (off / 64) i, 1)) ++ [(p.sideAddr (off / 64) 0, 2)]
    match here.find? fun e => s.lost e.1 e.2 with
    | some e => retirePage s e.1
    | none => s

/-- R364: the operands of a queued matrix instruction whose translation met a die that was down are translated again. -/
def CoreSet.retry (x : CoreSet) (s : State) (asid : Nat) : CoreSet :=
  { x with mq := x.mq.map fun m => if (m.fault.map (·.code)) = some codeBusy then retranslate s asid m else m }

/-- R364: a die that is ready again answers: what waited for it goes on. Cores' copies of what it homes are dropped first, records take
their numbers, grids retire, parts of other modules are served (log entry 120). -/
def dieAnswers (s : State) (die : Nat) : State :=
  if !(s.die die).down then s
  else
    let s := (s.modDie die fun (e : Die) => { e with down := false }).dropHomed die
    let s := { s with sets := s.sets.map (fun (e : Nat × CoreSet) => (e.1, e.2.retry s (e.1 / 256))), stir := true, freed := true }
    let s := (s.contexts.map fun (e : Nat × Context) => (e.1, e.2.waiting.length)).foldl (fun s e => drainRecords s e.1 (e.2 + 1)) s
    let s := (s.grids.map fun (e : Nat × Grid) => e.1).foldl retireGrid s
    s.parked.foldl (fun s r => serveRemote r s) { s with parked := [] }

/-- R341: the answer on a group's record. -/
def answerGroup (s : State) (asid gid : Nat) (ws : Vector DWord 8) (ev : Event) (a : Answer) : State :=
  let s := if ev.code = codeDATAERR && a == .retry then retireLost s asid ev.info.toNat else s
  let s := if ev.report.matrix.isSome && a != .stop then restartMatrix s gid else s
  match a with
  | .retry => resumeGroup s gid ev
  | .stop => contextError s asid 12
  | _ => deliverRefused s gid ws ev

/-- R341, R201: the answer on an engine record; a refusal fails the operation, whose mark is that record. -/
def answerEngine (s : State) (asid name seq : Nat) (a : Answer) : State :=
  match look name s.ops with
  | none => s
  | some o =>
    if o.held != some seq then s
    else
      match a with
      | .retry => { s with ops := put name { o with held := none } s.ops }
      | .stop => contextError s asid 12
      | _ => endOp s name o (some (seq % 65536))

/-- R341, R374: the answer on a queue's record. -/
def answerQueue (s : State) (asid fe q : Nat) (a : Answer) : State :=
  match a with
  | .retry => s
  | .stop => contextError (failQueue s fe q 2) asid 12
  | _ => failQueue s fe q 2

/-- R341: the host answers a record; a second answer, or one to a record that needs none, is ignored. -/
def answerRecord (s : State) (asid seq : Nat) (a : Answer) : State :=
  match s.ctx? asid with
  | none => s
  | some c =>
    match look seq c.records with
    | none => s
    | some r =>
      if r.answered || c.stopped.isSome then s
      else
        let s := s.setCtx asid { c with records := put seq { r with answered := true } c.records }
        match r.owner, r.event with
        | .group gid, some ev => answerGroup s asid gid r.words ev a
        | .engine name, _ => answerEngine s asid name seq a
        | .queue fe q, _ => answerQueue s asid fe q a
        | _, _ => s

/-- An ANSWER command of a kind (R375). -/
def execAnswer (kind : Nat) (a : Answer) (s : State) : State :=
  serveAdmin s 17 (fun ws => DWord.f (wordAt ws 2) 1 0 == kind) fun s _ ws =>
    let asid := DWord.f (wordAt ws 2) 18 8
    if (s.ctx? asid).isNone then .refuse else .done (answerRecord s asid (wordAt ws 1).toNat a)

/-- ANSWER_RETRY. -/
def execAnswerRetry (s : State) : Res := .next (execAnswer 0 .retry s)

/-- ANSWER_DELIVER. -/
def execAnswerDeliver (s : State) : Res := .next (execAnswer 1 .deliver s)

/-- ANSWER_REFUSE. -/
def execAnswerRefuse (s : State) : Res := .next (execAnswer 2 .refuse s)

/-- ANSWER_STOP. -/
def execAnswerStop (s : State) : Res := .next (execAnswer 3 .stop s)

/-! ## PREEMPT and RESUME (R352, R354) -/

/-- A PREEMPT command of a kind; one of no kind is refused by both. -/
def preemptKind (n : Nat) (ws : List DWord) : Bool := DWord.f (wordAt ws 2) 1 0 == n || decide (1 < DWord.f (wordAt ws 2) 1 0)

/-- R375: the deadline that the field D names, in lane cycles. -/
def deadlineOf (d : Nat) : Nat := if d = 0 then 65536 else max d 1024

/-- A command that waits for a context. -/
def awaitContext (s : State) (asid n : Nat) : State := s.modCtx asid fun c => { c with preemptCmds := c.preemptCmds ++ [n] }

/-- The host has asked for a context to be taken off the module: it comes back by RESUME alone. -/
def stayOff (s : State) (asid : Nat) : State := s.modCtx asid fun c => { c with autoResume := false }

/-- PREEMPT_SOFT (R352): no further block of the context is placed. -/
def execPreemptSoft (s : State) : Res :=
  .next <| serveAdmin s 18 (preemptKind 0) fun s n ws =>
    let asid := cmdAsid ws
    match s.ctx? asid with
    | none => .refuse
    | some c =>
      if 1 < DWord.f (wordAt ws 2) 1 0 then .refuse
      else if c.stopped.isSome then .done s
      else if c.preempt == Preempt.saved then .done (stayOff s asid)
      else
        let s := awaitContext (stayOff s asid) asid n
        if c.preempt != Preempt.none then .later s
        else .later (softDone (bboxLog (s.modCtx asid fun c => { c with preempt := .soft }) 0 11 0 0) asid)

/-- PREEMPT_HARD (R352): groups begin no stint, and the context is saved once they have stopped; the deadline of the
first request stands. -/
def execPreemptHard (s : State) : Res :=
  .next <| serveAdmin s 18 (preemptKind 1) fun s n ws =>
    let asid := cmdAsid ws
    match s.ctx? asid with
    | none => .refuse
    | some c =>
      if 1 < DWord.f (wordAt ws 2) 1 0 then .refuse
      else if c.stopped.isSome then .done s
      else
        let s := awaitContext (stayOff s asid) asid n
        if c.stopping then .later s
        else .later (trySave (beginHard s asid (deadlineOf (DWord.f (wordAt ws 2) 55 32))) asid)

/-- RESUME (R354, R383): it waits for a pre-emption under way, for a thermal trip to pass (R381) and for the dies of the park area (R364);
a context that runs has nothing to place. -/
def execResume (s : State) : Res :=
  .next <| serveAdmin s 19 (fun ws => match s.ctx? (cmdAsid ws) with
      | some c => !c.stopping && c.preempt != Preempt.soft && (c.preempt != Preempt.saved || (!tripped s && !parkDown s (cmdAsid ws)))
      | none => true) fun s n ws =>
    let asid := cmdAsid ws
    match s.ctx? asid with
    | none => .refuse
    | some c =>
      if c.stopped.isSome then .done s
      else if c.preempt == Preempt.saved || !c.units.isEmpty then .later (resumeContext (awaitContext s asid n) asid)
      else .done s

/-! ## PARTSET (R312, R313) -/

/-- PARTSET: the firmware writes a partition register, or refuses. -/
def execPartset (s : State) : Res :=
  .next <| serveAdmin s 20 (fun _ => true) fun s _ ws =>
    let n := cmdReg ws
    if n < 0x820 || 0x825 < n then .refuse
    else
      match partWrite s (DWord.f (wordAt ws 1) 5 0) (n - 0x820) (wordAt ws 2) with
      | (s, true) => .done s
      | (s, false) => .later (refuseAdmin s 20)

/-! ## Firmware images (R330, R367, R378) -/

/-- FWLOAD: the boot ROM starts the image, or the running firmware stages it; a rejected image is ERR 6. -/
def execFwload (s : State) : Res :=
  .next <| serveAdmin s 21 (fun _ => true) fun s _ ws =>
    let a := (wordAt ws 1).toNat
    let n := DWord.f (wordAt ws 2) 31 0
    if a % 4096 != 0 then .refuse
    else if n < 20480 || 16777216 < n then .later (failQueue s 64 0 6)
    else
      let bs := s.mem.bytes (hostBase + a) n
      let x : Image := ⟨bs, imageWord bs 4⟩
      if !imageAccepted 0 x then .later (failQueue s 64 0 6)
      else if firmwareRuns s then
        if x.svn < (((s.die 0).image).map (·.svn)).getD 0 then .later (failQueue s 64 0 6)
        else .done ([0, 1, 2, 3].foldl (fun s d => s.modDie d fun e => { e with staged := some x }) s)
      else .done ([0, 1, 2, 3].foldl (fun s d => takeImage s d x) s)

/-- FIRMWARE_SWITCH (R367): with no firmware command in progress, a die changes to its staged image; one that the die does not accept
is no longer staged there. -/
def execFirmwareSwitch (die : Nat) (s : State) : Res :=
  match (s.die die).staged with
  | none => .next s
  | some x =>
    if !(s.queue 64 0).begun.isEmpty then .next s
    else if !imageAccepted die x || decide (x.svn < (((s.die die).image).map (·.svn)).getD 0) then
      .next (s.modDie die fun e => { e with staged := none })
    else
      let stat := acceptedStat die x ((s.die die).boot == Boot.ready)
      .next (bboxLog ((s.modDie die fun e => { e with image := some x, staged := none }).setMgmt die 0 stat) die 9 0 0)

/-- R378: whether a die has rejected the image that die 0 holds: it stays where it received it, and no other becomes ready (log entry
117). -/
def rejects (s : State) (d : Nat) : Bool :=
  (s.die d).boot == Boot.rom && (s.die 0).image.any fun x => !imageAccepted d x

/-- DIE_READY (R378, steps 4 and 5): a die with an accepted image is ready, unless another has rejected it; accesses that waited for it
go on (R364). -/
def execDieReady (die : Nat) (s : State) : Res :=
  match (s.die die).image with
  | none => .next s
  | some x =>
    if decide (die < 4) && (s.die die).boot == Boot.loaded && imageAccepted die x && !([0, 1, 2, 3].any (rejects s)) then
      .next (dieAnswers ((s.modDie die fun e => { e with boot := .ready }).setMgmt die 0 (acceptedStat die x true)) die)
    else .next s

/-! ## Register writes from outside (R307, R371) -/

/-- REGISTER_WRITE: a register written through the unprivileged, the privileged or the firmware's view, which reports a refused
write (R311). A tenant's function sees its queues alone, and answers once the module is up (R371, R378). -/
def execRegisterWrite (view : RegView) (r : RegName) (value : Nat) (s : State) : Res :=
  let x := BitVec.ofNat 64 value
  match view, r with
  | .unprivileged, .queue fe q off => .next (if moduleUp s && decide (fe < 64) then queueRegWrite s fe q off false x else s)
  | .unprivileged, _ => .next s
  | _, .queue fe q off => .next (queueRegWrite s fe q off true x)
  | _, .management die n => .next (if 0x900 ≤ n && decide (die < 4) then mgmtWrite s die (n - 0x900) x else s)
  | .privileged, .contextReg asid n => .next (if partInError s asid then s else (ctxRegWrite s asid n false x).1)
  | .firmware, .contextReg asid n =>
    let r := if partInError s asid then (s, false) else ctxRegWrite s asid n true x
    .next (if r.2 then r.1 else r.1.send (.refusal n))

/-- FBTAIL_WRITE (R337, R338); not for a context of an interface in error (R333). -/
def execFbtailWrite (asid value : Nat) (s : State) : Res :=
  .next (if partInError s asid then s else tailWrite s asid (value % 2 ^ 64))

/-- BENCHSZ_WRITE (R160, R161): the firmware writes SIZE of a core. -/
def execBenchszWrite (core value : Nat) (s : State) : Res := .next (if core < 256 then benchszSet s core value else s)

end Sys2Proof.Machine
end

