-- ==== Sys2Proof/Machine/Service.lean ====
section
/-!
DEFINITION. What the module's controllers and the world outside do to it: reset and bring-up (R378), power and cooling
(R380, R381), errors and repairs in service (R361 to R369), host translation (R320, R321), attestation and link keys
(R331, R332), trusted interfaces (R333) and arrivals of other modules (R108, R376, R377).
-/

namespace Sys2Proof.Machine

/-! ## Reset (R7, R378) -/

/-- WARM_RESET (R378): the host's MRESET.WARM of a die. -/
def execWarmReset (die : Nat) (s : State) : Res := .next (if die < 4 then warmReset s die else s)

/-- COLD_RESET (R378, R369): every register and memory of the module at its reset value; host memory is not the
module's. -/
def execColdReset (s : State) : Res :=
  .next { State.reset with
    mem := s.mem.filter fun c => isHost c.1
    agenda := s.agenda
    free := s.free
    sent := s.sent }

/-! ## Power and cooling (R380, R381) -/

/-- R382: PWR of a die. -/
def setWatts (s : State) (d w : Nat) : State := s.setMgmt d 3 (DWord.setF (s.mgmt d 3) 11 0 w)

/-- R380: the gate of a die rises by one sixteenth, up to fifteen. -/
def gateUp (s : State) (d : Nat) : State := s.modDie d fun e => { e with gate := min 15 (e.gate + 1) }

/-- R380: the module's power averaged over a window of samples, as a fraction: the sum over the dies of each die's average. -/
def modulePower (s : State) (win : Nat) : Nat × Nat :=
  [0, 1, 2, 3].foldl (fun (a : Nat × Nat) d =>
    let xs := (s.die d).samples.take win
    let n := max xs.length 1
    (a.1 * n + xs.foldl (· + ·) 0 * a.2, a.2 * n)) (0, 1)

/-- R382: TEMP.TJ of a die. -/
def setTj (s : State) (d tj : Nat) : State := s.setMgmt d 4 (DWord.setF (s.mgmt d 4) 7 0 tj)

/-- POWER_SAMPLE (R380): a millisecond's power of a die enters its average; while the module's power, averaged over this die's WIN,
exceeds LIMIT, or the die's junction is above 100 °C (R381), the gate rises, and otherwise it is open (log entry 17). -/
def execPowerSample (die watts : Nat) (s : State) : Res :=
  if 4 ≤ die then .next s
  else
    let win := max (DWord.f (s.mgmt die 2) 27 16) 1
    let s := s.modDie die fun e => { e with samples := (watts :: e.samples).take 1000 }
    let own := (s.die die).samples.take win
    let s := setWatts s die (own.foldl (· + ·) 0 / own.length)
    let (sum, n) := modulePower s win
    let hot := decide (100 < DWord.f (s.mgmt die 4) 7 0)
    .next (if hot || decide (DWord.f (s.mgmt die 2) 11 0 * n < sum) then gateUp s die else s.modDie die fun e => { e with gate := 0 })

/-- THERMAL_GATE (R381): above 100 °C the die gates issue. -/
def execThermalGate (die tj : Nat) (s : State) : Res :=
  .next (if die < 4 && decide (100 < tj) then gateUp (setTj s die tj) die else s)

/-- R381: a context is pre-empted hard with D = 65,536: one that is being pre-empted hard ends by then at the latest, and one that a
soft pre-emption has taken off the module has what it left on its cores saved (log entry 128). -/
def tripContext (s : State) (asid : Nat) : State :=
  match s.ctx? asid with
  | none => s
  | some c =>
    match c.preempt with
    | .hard t0 d => s.modCtx asid fun c => { c with preempt := .hard t0 (min d (s.now + 65536 - t0)) }
    | .saved => if (ctxCores s asid).isEmpty then s else trySave (beginHard s asid 65536) asid
    | _ => trySave (beginHard s asid 65536) asid

/-- THERMAL_TRIP (R381): at 110 °C every context is pre-empted hard with D = 65,536; then every die is held in warm
reset. A context that the firmware was taking off a core no longer resumes by itself. -/
def execThermalTrip (die tj : Nat) (s : State) : Res :=
  if 4 ≤ die || tj < 110 then .next s
  else
    let s := (setTj s die tj).modDie die fun e => { e with trip := true }
    let s := (s.contexts.map (·.1)).foldl (fun s a => tripContext (s.modCtx a fun c => { c with autoResume := false }) a) s
    .next (holdIfTripped s)

/-- R382: the die controller's measurements: TJ and INLET in °C, FLOW in mL/min, and which Seif links are up. -/
def telemetryTurn (die tj inlet flow links : Nat) (s : State) : State :=
  if 4 ≤ die then s
  else
    let temp := DWord.setF (DWord.setF (DWord.setF (s.mgmt die 4) 7 0 tj) 15 8 inlet) 63 32 flow
    (s.setMgmt die 4 temp).setMgmt die 11 (DWord.setF (s.mgmt die 11) 51 48 links)

/-- THERMAL_RECOVER (R381): below 90 °C a held die returns through bring-up. -/
def execThermalRecover (die tj : Nat) (s : State) : Res :=
  if decide (tj < 90) && (s.die die).boot == Boot.held then
    .next (rebootDie ((setTj s die tj).modDie die fun e => { e with boot := .rom }) die)
  else .next s

/-! ## Errors and repairs in service (R361 to R369) -/

/-- R151, R316: whether a first-stage leaf leads to a sector: its raw pages 4 KiB by 4 KiB, as an alias page lies over the dies, or
the extent of its grain page. -/
def leafHolds (s : State) (p : Partition) (level : Nat) (e : Pte) (sector : Nat) : Bool :=
  let fmt := pageFmtOf e.fmt
  let within (pa i n : Nat) : Bool :=
    let b := foldAlias (pa + 4096 * i) / 64
    decide (b ≤ sector) && decide (64 * (sector - b) < min 4096 (n - 4096 * i))
  if fmt = .raw then
    (List.range (leafSize level / 65536)).any fun j =>
      match stage2 s p.sroot (e.addr + 65536 * j) 0 with
      | .error _ => false
      | .ok (pa, _, _) => (List.range 16).any fun i => within pa i 65536
  else
    match stage2 s p.sroot e.addr 0 with
    | .error _ => false
    | .ok (pa, _, _) =>
      let n := fmt.extent (leafSize level)
      (List.range ((n + 4095) / 4096)).any fun i => within pa i n

/-- Whether some translation of a context leads to a sector, from a level of its first stage down (R363, R364). -/
def mapsFrom (s : State) (p : Partition) (sector : Nat) : Nat → Nat → Bool
  | level, t =>
    (List.range (if level = 0 then 32 else 512)).any fun i =>
      match stage2 s p.sroot (t + 8 * i) 0 with
      | .error _ => false
      | .ok (pa, _, _) =>
        match readPte s pa with
        | none => false
        | some e =>
          if !e.valid || e.malformed false level then false
          else if e.leaf then leafHolds s p level e sector
          else
            match level with
            | 0 => false
            | l + 1 => mapsFrom s p sector l e.addr

/-- Whether a context maps a sector. -/
def mapsSector (s : State) (c : Context) (sector : Nat) : Bool := mapsFrom s (s.part c.part) sector 4 c.groot

/-- R363, R364, R362: sectors whose only copy was a dirty L2 line that is lost: their pages are retired and the contexts
that map them stop. -/
def loseSectors (s : State) (lost : List Nat) (reason : Nat) : State :=
  let users := (s.contexts.filter fun (e : Nat × Context) => e.2.stopped.isNone && lost.any fun k => mapsSector s.awake e.2 k).map (·.1)
  let s := lost.foldl (fun s k => retirePage s (k * 64)) s
  users.foldl (fun s a => contextError s a reason) s

/-- R333: the interfaces that hold a core go to error (log entry 106). -/
def uncontainedOn (s : State) (p : Nat → Bool) : State :=
  (s.parts.map (·.1)).foldl (fun s n => if (partCores (s.part n)).any p then uncontained s n else s) s

/-- R365: a core is fenced; a spare takes over once no context is on it. -/
def fenceCore (s : State) (core : Nat) : State :=
  finishFences (bboxLog (s.modCore core fun c => { c with fenced := true }) (dieOf core) 4 core 0)

/-- R363: dirty lines that were found uncorrectable as they left L2 stop the contexts that map them, once every die answers (log entry
121). -/
def loseDead (s : State) : State := if s.dead.isEmpty || anyDown s then s else loseSectors { s with dead := [] } s.dead 8

/-- MACHINE_CHECK (R364): in a core, its contexts stop and it is fenced, what others still hold there being taken off it (R365); in a unit of a die, the die's contexts stop, what
its L2 held dirty is lost, and the die is warm-reset. The interfaces of its cores' partitions go to error (R333). -/
def execMachineCheck (unit : CheckUnit) (syndrome : Nat) (s : State) : Res :=
  match unit with
  | .core c =>
    if 256 ≤ c then .next s
    else
      let s := bboxLog s (dieOf c) 3 c syndrome
      let s := fenceCore (uncontainedOn (stopContexts s (fun a _ => onCore s a c) 9) (· == c)) c
      .next (if (s.core c).fenced then finishFences (takeOff s c) else s)
  | .die d =>
    if 4 ≤ d then .next s
    else
      let s := bboxLog s d 3 0 syndrome
      let s := stopContexts s (fun a _ => hasWork s a d) 9
      let s := loseSectors s (dirtyOf s d) 9
      let s := resetDie (bboxLog s d 12 0 0) d (bootAfter s d) true
      .next (rebootDie (uncontainedOn s fun c => dieOf c == d) d)

/-- R265, R368: rows or columns of a core's cells are fenced: no result changes, and the black box tells. -/
def cellFenceTurn (core : Nat) (s : State) : State := if core < 256 then bboxLog s (dieOf core) 4 core 0 else s

/-- CORE_FENCE (R365): a planned fencing: the contexts on the core are pre-empted hard first, and then resume elsewhere. -/
def execCoreFence (core : Nat) (s : State) : Res :=
  if 256 ≤ core || (s.core core).fenced || (s.core core).absent then .next s
  else
    .next (finishFences (takeOff (fenceCore s core) core))

/-- DRAM_ROW_SPARING (R366): the row is copied while its channel is held; nothing but time changes. -/
def execDramRowSparing (_die _channel : Nat) (s : State) : Res := .next s

/-- LANE_DROP (R366, R368): a link retrains with fewer lanes; nothing but time and the black box changes. -/
def execLaneDrop (die link : Nat) (s : State) : Res := .next (if die < 4 then bboxLog s die 6 link 0 else s)

/-- RECALIBRATION (R366, R368): a channel or link is held; nothing but time and the black box changes. -/
def execRecalibration (die unit : Nat) (s : State) : Res := .next (if die < 4 then bboxLog s die 7 unit 0 else s)

/-- DIRTY_LINE_ERROR (R363): a line of L2 is uncorrectable at its eviction: its dirty sectors are lost, and the contexts
that map them stop with reason 8. -/
def execDirtyLineError (line : Nat) (s : State) : Res :=
  let lost := (s.l2.map (·.1)).filter fun k => k / 4 == line
  if lost.isEmpty then .next s
  else
    let s := bboxLog s (homeDie (line * 256)) 2 0 0
    let s := loseSectors s lost 8
    .next (lost.foldl (fun s k => s.l2Discard k) s)

/-- BBOX_MIRROR (R369). -/
def execBboxMirror (die : Nat) (s : State) : Res := .next (mirrorBox s die)

/-! ## Host translation (R320, R321) -/

/-- ATS_TRANSLATION_COMPLETION (R320): a granted translation is cached; a refused or absent one is not. -/
def execAtsTranslationCompletion (pasid page : Nat) (readable writable : Bool) (target : Nat) (s : State) : Res :=
  if !readable && !writable then .next s
  else
    let x : AtcEntry := ⟨pasid, page, readable, writable, target⟩
    .next { s with atc := x :: s.atc.filter fun e => e.pasid != pasid || e.page != page }

/-- The queued matrix instructions, by group and count, that hold host translations, of the contexts that meet a condition (R249). -/
def hostMatrix (s : State) (p : Nat → Bool) : List (Nat × Nat) :=
  s.sets.flatMap fun e => if p (e.1 / 256) then
    (e.2.mq.filter fun m => m.ops.any fun o => !o.host.isEmpty).map fun m => (m.gid, m.count) else []

/-- R321: whether everything that an invalidation waits for is over. -/
def Inval.done (x : Inval) (s : State) : Bool :=
  (x.ops.all fun n => (look n s.ops).isNone) && (x.mats.isEmpty || !((hostMatrix s fun _ => true).any x.mats.contains))

/-- R321: the invalidations for which everything is over are complete. -/
def finishInvals (s : State) : State :=
  (s.invals.filter fun x => x.done s).foldl (fun s x => s.send (.invalidated x.pasid x.page))
    { s with invals := s.invals.filter fun x => !x.done s }

/-- ATS_INVALIDATE (R321): the covered entries are dropped; the completion is sent once the PASID's engine operations and queued matrix
instructions under way are over, the accesses of groups being performed when they issue (log entry 109). -/
def execAtsInvalidate (pasid page pages : Nat) (s : State) : Res :=
  let atc := s.atc.filter fun e => e.pasid != pasid || decide (e.page < page) || decide (page + pages ≤ e.page)
  let of (asid : Nat) : Bool := (s.ctx? asid).any fun c => c.pasid == pasid
  let ops := (s.ops.filter fun (e : Nat × EngineOp) => of e.2.asid).map (·.1)
  .next (finishInvals { s with atc := atc, invals := s.invals ++ [⟨pasid, page, ops, hostMatrix s of⟩] })

/-- R321: a Page Request that waited for room among the 512 is sent. -/
def nextRequest (s : State) : State :=
  if !pageRequestRoom s then s
  else match s.requests.find? fun e => !e.2.sent with
    | none => s
    | some (name, r) =>
      let pasid := ((s.ctx? r.asid).map Context.pasid).getD 0
      { s with requests := put name { r with sent := true } s.requests }.send (.pageRequest pasid r.page r.rd r.wr)

/-- PRI_RESPONSE (R320, R341): Success acts as RETRY, and the others as DELIVER; the next Page Request takes its room. -/
def execPriResponse (request : Nat) (response : PriResponse) (s : State) : Res :=
  match look request s.requests with
  | none => .next s
  | some r =>
    if !r.sent then .next s
    else
      let s := nextRequest { s with requests := drop request s.requests }
      .next (answerRecord s r.asid r.seq (if response = .success then .retry else .deliver))

/-! ## Attestation and link keys (R331, R332) -/

/-- Bytes cut or padded to a length. -/
def fit (n : Nat) (bs : List Byte) : List Byte := (bs ++ List.replicate n 0#8).take n

/-- R379: what the measurement of an image covers. -/
def measured (x : Image) : List Byte := x.bytes.take 0x7D0 ++ x.bytes.drop 0x4000

/-- R331: the part of a report that is signed. A report on the module has no partition fields (log entry 38). -/
def reportBody (s : State) (partition nonce : Nat) : List Byte :=
  let dies := [0, 1, 2, 3]
  let p := s.part partition
  let known := decide (partition < 64)
  let slots := (s.keys.filter fun k => decide (p.kbase ≤ k.1) && decide (k.1 ≤ p.klimit)).flatMap fun k => toBytes 2 k.1
  let regs := (List.range 6).flatMap fun i => toBytes 8 (partRead s partition i).toNat
  toBytes 4 1 ++ toBytes 4 partition ++ toBytes 32 nonce ++
  (dies.flatMap fun d => match (s.die d).image with
    | some x => Digest.sha384 (measured x)
    | none => List.replicate 48 0#8) ++
  (dies.flatMap fun d => toBytes 4 ((((s.die d).image).map (·.svn)).getD 0)) ++
  (if known then Digest.sha384 (regs ++ slots) else List.replicate 48 0#8) ++
  toBytes 4 (if known then p.tdis else 0)

/-- ATTESTATION_REQUEST (R331): die 0's firmware answers with a report signed by both alias keys. -/
def execAttestationRequest (partition nonce : Nat) (s : State) : Res :=
  if !firmwareRuns s || (decide (64 ≤ partition) && partition != 0xFFFFFFFF) then .next s
  else
    let body := reportBody s partition nonce
    .next (s.send (.report (body ++ fit 3373 (Config.signReport 0 body))))

/-- IDE_KEY_PROGRAM (R332): the key of a selective stream, 0 to 63, or of the link's, 64. -/
def execIdeKeyProgram (stream key : Nat) (s : State) : Res :=
  .next (if firmwareRuns s && decide (stream ≤ 64) then { s with streams := put stream (key % 2 ^ 256) s.streams } else s)

/-! ## Trusted interfaces (R333) -/

/-- TDISP_LOCK: an unlocked interface is locked. -/
def execTdispLock (partition : Nat) (s : State) : Res :=
  .next (if partition < 64 && (s.part partition).tdis == 0 then setTdis s partition 1 else s)

/-- TDISP_START: a locked interface runs. -/
def execTdispStart (partition : Nat) (s : State) : Res :=
  .next (if partition < 64 && (s.part partition).tdis == 1 then setTdis s partition 2 else s)

/-- TDISP_STOP: an interface returns to unlocked; the stop of one that was locked or running discards the partition's
work and its pins (R326, log entry 39). -/
def execTdispStop (partition : Nat) (s : State) : Res :=
  let p := s.part partition
  if 64 ≤ partition || p.tdis == 0 then .next s
  else if p.tdis = 3 then .next (setTdis s partition 0)
  else .next (setTdis (dropPins ((partCores p).foldl scrubCore (stopForPartition s partition)) partition) partition 0)

/-! ## The host (R164, R371) -/

/-- R164, R149: the host writes its own memory. -/
def hostStoreTurn (a : Nat) (bs : List Byte) (s : State) : State :=
  s.writeAt (fun s a b => s.homeWrite hostOwner a b) (fun i => hostBase + a + i) bs

/-- R164, R149: the host reads its own memory; what it sees is the message. -/
def hostLoadTurn (a n : Nat) (s : State) : State := s.send (.hostValue a (s.mem.bytes (hostBase + a) n))

/-- What an offset of a function's BAR0 holds (R371): a queue's register, privileged or not, or a die's management register. -/
inductive BarPlace where
  | queue (fe q off : Nat) (privileged : Bool)
  | management (die n : Nat)
  | nothing
  deriving DecidableEq, Repr

/-- R371: function 0 is PF0 and function f + 1 is VF f + 1; registers stand at multiples of 8. VFs answer once the module is up
(R378). -/
def barPlace (s : State) (function offset : Nat) : BarPlace :=
  if offset % 8 != 0 then .nothing
  else if function = 0 then
    if offset < 0x40 then .queue 64 0 offset true
    else if 0x8000 ≤ offset && decide (offset < 0x10000) then
      let o := offset - 0x8000
      if o % 0x2000 / 8 < 12 then .management (o / 0x2000) (o % 0x2000 / 8) else .nothing
    else if 0x100000 ≤ offset && decide (offset < 0x140000) then
      let o := offset - 0x100000
      if o % 0x1000 < 0x200 then .queue (o / 0x1000) (o % 0x1000 / 0x40) (o % 0x40) true else .nothing
    else .nothing
  else if function ≤ 64 && decide (offset < 0x200) && moduleUp s then .queue (function - 1) (offset / 0x40) (offset % 0x40) false
  else .nothing

/-- R371, R5: the host reads through a BAR; outside the ranges it reads zero. -/
def barReadTurn (function offset : Nat) (s : State) : State :=
  let x := match barPlace s function offset with
    | .queue fe q off p => queueRegRead (s.queue fe q) p off
    | .management d n => mgmtRead s d n
    | .nothing => 0#64
  s.send (.barValue function offset x)

/-- R371, R5: the host writes through a BAR; outside the ranges nothing is written. -/
def barWriteTurn (function offset value : Nat) (s : State) : State :=
  let x := BitVec.ofNat 64 value
  match barPlace s function offset with
  | .queue fe q off p => queueRegWrite s fe q off p x
  | .management d n => mgmtWrite s d n x
  | .nothing => s

/-! ## Other modules (R108, R376, R377) -/

/-- POD_BARRIER_ARRIVAL (R108): one more arrival at a pod barrier, of a group with an E (R210), kept for the grid that binds it
later where none has. -/
def execPodBarrierArrival (job : Nat) (a : BarArrival) (s : State) : Res :=
  let r := BarRef.pod job a.number
  let key := podKey job a.number
  if s.wide.any fun w => w.is r then .next (settle (setBar s r (barOf s r) (remoteArrivals s r ++ [a.epoch])) r)
  else if 4 ≤ a.number then .next s
  else .next { s with podEarly := put key ((look key s.podEarly).getD [] ++ [a.epoch]) s.podEarly }

end Sys2Proof.Machine
end

