-- ==== Sys2Proof/Machine/Uniform.lean ====
section
/-!
DEFINITION. The uniform arithmetic and the three instructions that cross between threads and group (R59, R244, R245).
-/

namespace Sys2Proof.Machine

/-- R59: the second operand of a uniform form: s_b, or the immediate sign-extended. -/
def uniOperand (g : Group) (f : UniF) : DWord := if f.i = 0#7 then g.sreg f.b.toNat else f.i.signExtend 64

/-- A uniform form: one result per group (R74, R244). -/
def uniform (i : Instr) (f : UniF) (op : DWord → DWord → DWord) (s : State) : Res :=
  issuePlain i s fun g =>
    s.retire (g.writeS f.d.toNat (op (g.sreg f.a.toNat) (uniOperand g f))) 4 1 f.e

/-- R244: gadd. -/
def execGadd (f : UniF) (s : State) : Res := uniform (.gadd f) f (fun a y => a + y) s

/-- R244: gsub. -/
def execGsub (f : UniF) (s : State) : Res := uniform (.gsub f) f (fun a y => a - y) s

/-- R244: gmul. -/
def execGmul (f : UniF) (s : State) : Res := uniform (.gmul f) f (fun a y => a * y) s

/-- R244: gand. -/
def execGand (f : UniF) (s : State) : Res := uniform (.gand f) f (fun a y => a &&& y) s

/-- R244: gor. -/
def execGor (f : UniF) (s : State) : Res := uniform (.gor f) f (fun a y => a ||| y) s

/-- R244: gxor. -/
def execGxor (f : UniF) (s : State) : Res := uniform (.gxor f) f (fun a y => a ^^^ y) s

/-- R244: gshl. -/
def execGshl (f : UniF) (s : State) : Res := uniform (.gshl f) f (fun a y => gshl a y) s

/-- R244: gshr. -/
def execGshr (f : UniF) (s : State) : Res := uniform (.gshr f) f (fun a y => gshr a y) s

/-- R244: gmin. -/
def execGmin (f : UniF) (s : State) : Res := uniform (.gmin f) f (fun a y => gminS a y) s

/-- R244: gmax. -/
def execGmax (f : UniF) (s : State) : Res := uniform (.gmax f) f (fun a y => gmaxS a y) s

/-- R244: gcmp. -/
def execGcmp (f : UniCmp) (s : State) : Res :=
  issuePlain (.gcmp f) s fun g =>
    s.retire (g.writeS f.d.toNat
      (if condHolds f.c (g.sreg f.a.toNat) (g.sreg f.b.toNat) then 1#64 else 0#64)) 4 1 f.e

/-- R59: gmovi. -/
def execGmovi (f : UniMov17) (s : State) : Res :=
  issuePlain (.gmovi f) s fun g => s.retire (g.writeS f.d.toNat (f.i.signExtend 64)) 4 1 f.e

/-- R59: gmovhi. -/
def execGmovhi (f : UniMov16) (s : State) : Res :=
  issuePlain (.gmovhi f) s fun g =>
    s.retire (g.writeS f.d.toNat ((g.sreg f.d.toNat <<< 16) ||| f.i.setWidth 64)) 4 1 f.e

/-- R245: the thread gtake takes from. -/
def takeThread (g : Group) (f : TakeF) : Nat := if f.f then g.active.headD 0 else f.t.toNat

/-- R245: gtake. -/
def execGtake (f : TakeF) (s : State) : Res :=
  issueChecked (.gtake f) s (fun _ => []) (fun _ => false) (fun g => takesBadLatch g f.a [takeThread g f]) fun g =>
    s.retire (g.writeS f.d.toNat ((takeFrom g f.a (takeThread g f)).setWidth 64)) 4 1 f.e

/-- R245: gput writes every active thread, and no latch. -/
def execGput (f : PutF) (s : State) : Res :=
  issuePlain (.gput f) s fun g =>
    s.retire (g.eachThread g.active fun h t => h.writeV t f.d.toNat ((g.sreg f.a.toNat).setWidth 32)) 4 1 f.e

/-- R245: gballot. -/
def execGballot (f : BallotF) (s : State) : Res :=
  issuePlain (.gballot f) s fun g =>
    s.retire (g.writeS f.d.toNat
      ((maskOf (g.active.filter fun t => (g.thread t).pred f.p.toNat)).setWidth 64)) 4 1 f.e

end Sys2Proof.Machine
end

