-- ==== Sys2Proof/Machine/Dispatch.lean ====
section
/-!
DEFINITION. One arm for each instruction and event of the opcode table: the meaning of the instruction, called once.
-/

namespace Sys2Proof.Machine

def exec (i : Instr) (s : State) : Host.Outcome State Fault Refusal :=
  match i with
  | .mov f => Sys2Proof.Machine.execMov f s
  | .add_16 f => Sys2Proof.Machine.execAdd_16 f s
  | .sub_16 f => Sys2Proof.Machine.execSub_16 f s
  | .mul_16 f => Sys2Proof.Machine.execMul_16 f s
  | .and_16 f => Sys2Proof.Machine.execAnd_16 f s
  | .or_16 f => Sys2Proof.Machine.execOr_16 f s
  | .xor_16 f => Sys2Proof.Machine.execXor_16 f s
  | .shl_16 f => Sys2Proof.Machine.execShl_16 f s
  | .shr_16 f => Sys2Proof.Machine.execShr_16 f s
  | .fadd_16 f => Sys2Proof.Machine.execFadd_16 f s
  | .fsub_16 f => Sys2Proof.Machine.execFsub_16 f s
  | .fmul_16 f => Sys2Proof.Machine.execFmul_16 f s
  | .fmin_16 f => Sys2Proof.Machine.execFmin_16 f s
  | .fmax_16 f => Sys2Proof.Machine.execFmax_16 f s
  | .ffmb f => Sys2Proof.Machine.execFfmb f s
  | .fadd2F16_16 f => Sys2Proof.Machine.execFadd2F16_16 f s
  | .nop_16 => Sys2Proof.Machine.execNop_16 s
  | .add f => Sys2Proof.Machine.execAdd f s
  | .sub f => Sys2Proof.Machine.execSub f s
  | .mul f => Sys2Proof.Machine.execMul f s
  | .mulhS f => Sys2Proof.Machine.execMulhS f s
  | .mulhN f => Sys2Proof.Machine.execMulhN f s
  | .minS f => Sys2Proof.Machine.execMinS f s
  | .minN f => Sys2Proof.Machine.execMinN f s
  | .maxS f => Sys2Proof.Machine.execMaxS f s
  | .maxN f => Sys2Proof.Machine.execMaxN f s
  | .and f => Sys2Proof.Machine.execAnd f s
  | .or f => Sys2Proof.Machine.execOr f s
  | .xor f => Sys2Proof.Machine.execXor f s
  | .andn f => Sys2Proof.Machine.execAndn f s
  | .shl f => Sys2Proof.Machine.execShl f s
  | .shr f => Sys2Proof.Machine.execShr f s
  | .sar f => Sys2Proof.Machine.execSar f s
  | .rotl f => Sys2Proof.Machine.execRotl f s
  | .bfeS f => Sys2Proof.Machine.execBfeS f s
  | .bfeN f => Sys2Proof.Machine.execBfeN f s
  | .abs f => Sys2Proof.Machine.execAbs f s
  | .neg f => Sys2Proof.Machine.execNeg f s
  | .clz f => Sys2Proof.Machine.execClz f s
  | .popc f => Sys2Proof.Machine.execPopc f s
  | .brev f => Sys2Proof.Machine.execBrev f s
  | .cmp f => Sys2Proof.Machine.execCmp f s
  | .fadd f => Sys2Proof.Machine.execFadd f s
  | .fsub f => Sys2Proof.Machine.execFsub f s
  | .fmul f => Sys2Proof.Machine.execFmul f s
  | .fmin f => Sys2Proof.Machine.execFmin f s
  | .fmax f => Sys2Proof.Machine.execFmax f s
  | .fdiv f => Sys2Proof.Machine.execFdiv f s
  | .fsqrt f => Sys2Proof.Machine.execFsqrt f s
  | .frcp f => Sys2Proof.Machine.execFrcp f s
  | .frsq f => Sys2Proof.Machine.execFrsq f s
  | .fexp2 f => Sys2Proof.Machine.execFexp2 f s
  | .flog2 f => Sys2Proof.Machine.execFlog2 f s
  | .fsin f => Sys2Proof.Machine.execFsin f s
  | .fcos f => Sys2Proof.Machine.execFcos f s
  | .frnd f => Sys2Proof.Machine.execFrnd f s
  | .fcmp f => Sys2Proof.Machine.execFcmp f s
  | .fclass f => Sys2Proof.Machine.execFclass f s
  | .cvt f => Sys2Proof.Machine.execCvt f s
  | .fadd2F16 f => Sys2Proof.Machine.execFadd2F16 f s
  | .fmul2F16 f => Sys2Proof.Machine.execFmul2F16 f s
  | .fadd2Bf16 f => Sys2Proof.Machine.execFadd2Bf16 f s
  | .fmul2Bf16 f => Sys2Proof.Machine.execFmul2Bf16 f s
  | .scan f => Sys2Proof.Machine.execScan f s
  | .sscan f => Sys2Proof.Machine.execSscan f s
  | .prev f => Sys2Proof.Machine.execPrev f s
  | .next f => Sys2Proof.Machine.execNext f s
  | .bcast f => Sys2Proof.Machine.execBcast f s
  | .perm f => Sys2Proof.Machine.execPerm f s
  | .rdx f => Sys2Proof.Machine.execRdx f s
  | .vote f => Sys2Proof.Machine.execVote f s
  | .rank f => Sys2Proof.Machine.execRank f s
  | .ffma f => Sys2Proof.Machine.execFfma f s
  | .mad f => Sys2Proof.Machine.execMad f s
  | .ffma2F16 f => Sys2Proof.Machine.execFfma2F16 f s
  | .ffma2Bf16 f => Sys2Proof.Machine.execFfma2Bf16 f s
  | .fdot2F16 f => Sys2Proof.Machine.execFdot2F16 f s
  | .dp4S8 f => Sys2Proof.Machine.execDp4S8 f s
  | .dp4N8 f => Sys2Proof.Machine.execDp4N8 f s
  | .sel f => Sys2Proof.Machine.execSel f s
  | .bfi f => Sys2Proof.Machine.execBfi f s
  | .shf f => Sys2Proof.Machine.execShf f s
  | .mulwS f => Sys2Proof.Machine.execMulwS f s
  | .mulwN f => Sys2Proof.Machine.execMulwN f s
  | .addi f => Sys2Proof.Machine.execAddi f s
  | .muli f => Sys2Proof.Machine.execMuli f s
  | .andi f => Sys2Proof.Machine.execAndi f s
  | .ori f => Sys2Proof.Machine.execOri f s
  | .xori f => Sys2Proof.Machine.execXori f s
  | .shli f => Sys2Proof.Machine.execShli f s
  | .shri f => Sys2Proof.Machine.execShri f s
  | .sari f => Sys2Proof.Machine.execSari f s
  | .cmpi f => Sys2Proof.Machine.execCmpi f s
  | .movi f => Sys2Proof.Machine.execMovi f s
  | .movhi f => Sys2Proof.Machine.execMovhi f s
  | .gadd f => Sys2Proof.Machine.execGadd f s
  | .gsub f => Sys2Proof.Machine.execGsub f s
  | .gmul f => Sys2Proof.Machine.execGmul f s
  | .gand f => Sys2Proof.Machine.execGand f s
  | .gor f => Sys2Proof.Machine.execGor f s
  | .gxor f => Sys2Proof.Machine.execGxor f s
  | .gshl f => Sys2Proof.Machine.execGshl f s
  | .gshr f => Sys2Proof.Machine.execGshr f s
  | .gmin f => Sys2Proof.Machine.execGmin f s
  | .gmax f => Sys2Proof.Machine.execGmax f s
  | .gcmp f => Sys2Proof.Machine.execGcmp f s
  | .gmovi f => Sys2Proof.Machine.execGmovi f s
  | .gmovhi f => Sys2Proof.Machine.execGmovhi f s
  | .gtake f => Sys2Proof.Machine.execGtake f s
  | .gput f => Sys2Proof.Machine.execGput f s
  | .gballot f => Sys2Proof.Machine.execGballot f s
  | .ld f => Sys2Proof.Machine.execLd f s
  | .st f => Sys2Proof.Machine.execSt f s
  | .ldi f => Sys2Proof.Machine.execLdi f s
  | .sti f => Sys2Proof.Machine.execSti f s
  | .atom f => Sys2Proof.Machine.execAtom f s
  | .red f => Sys2Proof.Machine.execRed f s
  | .lda f => Sys2Proof.Machine.execLda f s
  | .sta f => Sys2Proof.Machine.execSta f s
  | .gld f => Sys2Proof.Machine.execGld f s
  | .gst f => Sys2Proof.Machine.execGst f s
  | .wopen f => Sys2Proof.Machine.execWopen f s
  | .bld f => Sys2Proof.Machine.execBld f s
  | .bst f => Sys2Proof.Machine.execBst f s
  | .batom f => Sys2Proof.Machine.execBatom f s
  | .fence f => Sys2Proof.Machine.execFence f s
  | .cache f => Sys2Proof.Machine.execCache f s
  | .br f => Sys2Proof.Machine.execBr f s
  | .jmp f => Sys2Proof.Machine.execJmp f s
  | .join f => Sys2Proof.Machine.execJoin f s
  | .meet f => Sys2Proof.Machine.execMeet f s
  | .brx f => Sys2Proof.Machine.execBrx f s
  | .call f => Sys2Proof.Machine.execCall f s
  | .calli f => Sys2Proof.Machine.execCalli f s
  | .ret f => Sys2Proof.Machine.execRet f s
  | .switch f => Sys2Proof.Machine.execSwitch f s
  | .exit f => Sys2Proof.Machine.execExit f s
  | .nop f => Sys2Proof.Machine.execNop f s
  | .yield f => Sys2Proof.Machine.execYield f s
  | .wait f => Sys2Proof.Machine.execWait f s
  | .mark f => Sys2Proof.Machine.execMark f s
  | .tfence f => Sys2Proof.Machine.execTfence f s
  | .tcall f => Sys2Proof.Machine.execTcall f s
  | .brk f => Sys2Proof.Machine.execBrk f s
  | .spawn f => Sys2Proof.Machine.execSpawn f s
  | .launch f => Sys2Proof.Machine.execLaunch f s
  | .bar f => Sys2Proof.Machine.execBar f s
  | .xpand f => Sys2Proof.Machine.execXpand f s
  | .xnext f => Sys2Proof.Machine.execXnext f s
  | .sred f => Sys2Proof.Machine.execSred f s
  | .xend f => Sys2Proof.Machine.execXend f s
  | .copy f => Sys2Proof.Machine.execCopy f s
  | .gather f => Sys2Proof.Machine.execGather f s
  | .scatter f => Sys2Proof.Machine.execScatter f s
  | .cwait f => Sys2Proof.Machine.execCwait f s
  | .cpoll f => Sys2Proof.Machine.execCpoll f s
  | .carm f => Sys2Proof.Machine.execCarm f s
  | .mma f => Sys2Proof.Machine.execMma f s
  | .mmat f => Sys2Proof.Machine.execMmat f s
  | .mlut f => Sys2Proof.Machine.execMlut f s
  | .msp f => Sys2Proof.Machine.execMsp f s
  | .mzero f => Sys2Proof.Machine.execMzero f s
  | .mdrainReg f => Sys2Proof.Machine.execMdrainReg f s
  | .mdrainMem f => Sys2Proof.Machine.execMdrainMem f s
  | .mload f => Sys2Proof.Machine.execMload f s
  | .path f => Sys2Proof.Machine.execPath f s
  | .seg f => Sys2Proof.Machine.execSeg f s
  | .pend f => Sys2Proof.Machine.execPend f s
  | .tbind f => Sys2Proof.Machine.execTbind f s
  | .cdep f => Sys2Proof.Machine.execCdep f s
  | .cscan f => Sys2Proof.Machine.execCscan f s
  | .clpush f => Sys2Proof.Machine.execClpush f s
  | .clpop f => Sys2Proof.Machine.execClpop f s
  | .cspan f => Sys2Proof.Machine.execCspan f s
  | .tblend f => Sys2Proof.Machine.execTblend f s
  | .tload f => Sys2Proof.Machine.execTload f s
  | .tflush f => Sys2Proof.Machine.execTflush f s
  | .covget f => Sys2Proof.Machine.execCovget f s
  | .cget f => Sys2Proof.Machine.execCget f s
  | .cput f => Sys2Proof.Machine.execCput f s
  | .rte f => Sys2Proof.Machine.execRte f s
  | .tlbinv f => Sys2Proof.Machine.execTlbinv f s
  | .park f => Sys2Proof.Machine.execPark f s
  | .launchCommand fe q => Sys2Proof.Machine.execLaunchCommand fe q s
  | .copyCommand fe q => Sys2Proof.Machine.execCopyCommand fe q s
  | .signal fe q => Sys2Proof.Machine.execSignal fe q s
  | .waitCommand fe q => Sys2Proof.Machine.execWaitCommand fe q s
  | .fenceCommand fe q => Sys2Proof.Machine.execFenceCommand fe q s
  | .contextCreate => Sys2Proof.Machine.execContextCreate s
  | .contextWrite => Sys2Proof.Machine.execContextWrite s
  | .contextDestroy => Sys2Proof.Machine.execContextDestroy s
  | .answerRetry => Sys2Proof.Machine.execAnswerRetry s
  | .answerDeliver => Sys2Proof.Machine.execAnswerDeliver s
  | .answerRefuse => Sys2Proof.Machine.execAnswerRefuse s
  | .answerStop => Sys2Proof.Machine.execAnswerStop s
  | .preemptSoft => Sys2Proof.Machine.execPreemptSoft s
  | .preemptHard => Sys2Proof.Machine.execPreemptHard s
  | .resume => Sys2Proof.Machine.execResume s
  | .partset => Sys2Proof.Machine.execPartset s
  | .fwload => Sys2Proof.Machine.execFwload s
  | .qtailWrite fe q value => Sys2Proof.Machine.execQtailWrite fe q value s
  | .queueEnable fe q => Sys2Proof.Machine.execQueueEnable fe q s
  | .queueDisable fe q => Sys2Proof.Machine.execQueueDisable fe q s
  | .fbtailWrite asid value => Sys2Proof.Machine.execFbtailWrite asid value s
  | .warmReset die => Sys2Proof.Machine.execWarmReset die s
  | .benchszWrite core value => Sys2Proof.Machine.execBenchszWrite core value s
  | .amaskWrite value => Sys2Proof.Machine.execAmaskWrite value s
  | .registerWrite view r value => Sys2Proof.Machine.execRegisterWrite view r value s
  | .coldReset => Sys2Proof.Machine.execColdReset s
  | .packingTimerExpiry asid core entry grid => Sys2Proof.Machine.execPackingTimerExpiry asid core entry grid s
  | .packedGroupAdmit asid core => Sys2Proof.Machine.execPackedGroupAdmit asid core s
  | .blockPlace fe => Sys2Proof.Machine.execBlockPlace fe s
  | .laneSelect core lane => Sys2Proof.Machine.execLaneSelect core lane s
  | .stintBreak core lane => Sys2Proof.Machine.execStintBreak core lane s
  | .parkFill core => Sys2Proof.Machine.execParkFill core s
  | .idlePark core gid => Sys2Proof.Machine.execIdlePark core gid s
  | .rotation core => Sys2Proof.Machine.execRotation core s
  | .parkMoveComplete core => Sys2Proof.Machine.execParkMoveComplete core s
  | .waitWake gid => Sys2Proof.Machine.execWaitWake gid s
  | .waitTimeout gid => Sys2Proof.Machine.execWaitTimeout gid s
  | .loadDataArrival gid => Sys2Proof.Machine.execLoadDataArrival gid s
  | .enginePageFault op => Sys2Proof.Machine.execEnginePageFault op s
  | .engineFailure op => Sys2Proof.Machine.execEngineFailure op s
  | .engineOpComplete op => Sys2Proof.Machine.execEngineOpComplete op s
  | .matrixStepDone core => Sys2Proof.Machine.execMatrixStepDone core s
  | .matrixInstrDone core => Sys2Proof.Machine.execMatrixInstrDone core s
  | .accumulatorSwap core => Sys2Proof.Machine.execAccumulatorSwap core s
  | .tileStoreSwap core asid => Sys2Proof.Machine.execTileStoreSwap core asid s
  | .scribeDone gid => Sys2Proof.Machine.execScribeDone gid s
  | .depositDone gid => Sys2Proof.Machine.execDepositDone gid s
  | .blendApply asid core slot cell => Sys2Proof.Machine.execBlendApply asid core slot cell s
  | .contributionApply asid core slot => Sys2Proof.Machine.execContributionApply asid core slot s
  | .quantumEnd gid => Sys2Proof.Machine.execQuantumEnd gid s
  | .commitApply asid => Sys2Proof.Machine.execCommitApply asid s
  | .l1WritebackTimeout core sector => Sys2Proof.Machine.execL1WritebackTimeout core sector s
  | .l1CleanDropTimeout core sector => Sys2Proof.Machine.execL1CleanDropTimeout core sector s
  | .rdcDropTimeout die line => Sys2Proof.Machine.execRdcDropTimeout die line s
  | .tlbinvDone gid => Sys2Proof.Machine.execTlbinvDone gid s
  | .preemptDeadline asid => Sys2Proof.Machine.execPreemptDeadline asid s
  | .bboxMirror die => Sys2Proof.Machine.execBboxMirror die s
  | .powerSample die watts => Sys2Proof.Machine.execPowerSample die watts s
  | .thermalGate die tj => Sys2Proof.Machine.execThermalGate die tj s
  | .thermalTrip die tj => Sys2Proof.Machine.execThermalTrip die tj s
  | .thermalRecover die tj => Sys2Proof.Machine.execThermalRecover die tj s
  | .machineCheck unit syndrome => Sys2Proof.Machine.execMachineCheck unit syndrome s
  | .coreFence core => Sys2Proof.Machine.execCoreFence core s
  | .dramRowSparing die channel => Sys2Proof.Machine.execDramRowSparing die channel s
  | .laneDrop die link => Sys2Proof.Machine.execLaneDrop die link s
  | .recalibration die unit => Sys2Proof.Machine.execRecalibration die unit s
  | .dirtyLineError line => Sys2Proof.Machine.execDirtyLineError line s
  | .firmwareSwitch die => Sys2Proof.Machine.execFirmwareSwitch die s
  | .atsInvalidate pasid page pages => Sys2Proof.Machine.execAtsInvalidate pasid page pages s
  | .atsTranslationCompletion pasid page readable writable target => Sys2Proof.Machine.execAtsTranslationCompletion pasid page readable writable target s
  | .priResponse request response => Sys2Proof.Machine.execPriResponse request response s
  | .attestationRequest partition nonce => Sys2Proof.Machine.execAttestationRequest partition nonce s
  | .ideKeyProgram stream key => Sys2Proof.Machine.execIdeKeyProgram stream key s
  | .tdispLock partition => Sys2Proof.Machine.execTdispLock partition s
  | .tdispStart partition => Sys2Proof.Machine.execTdispStart partition s
  | .tdispStop partition => Sys2Proof.Machine.execTdispStop partition s
  | .queueWaitPoll fe q => Sys2Proof.Machine.execQueueWaitPoll fe q s
  | .queueSwitch fe q => Sys2Proof.Machine.execQueueSwitch fe q s
  | .dieReady die => Sys2Proof.Machine.execDieReady die s
  | .remoteGatherPart part => Sys2Proof.Machine.execRemoteGatherPart part s
  | .podBarrierArrival job a => Sys2Proof.Machine.execPodBarrierArrival job a s

end Sys2Proof.Machine
end

