-- ==== Sys2Proof/WellFormed.lean ====
section
/-!
DEFINITION. Well-formed instructions: what R51 asks of the fields alone, before any machine state. A word whose
instruction is not well-formed still decodes; running it raises ILLOP with the cause of the check it fails.
-/

namespace Sys2Proof

/-- Cause 2: a selector field with a value that its instruction does not assign. -/
def Needs.selOk (n : Needs) : Bool := n.sel

/-- Cause 3: a source code of 61 to 63, or a destination code of 48 or more. -/
def Needs.codesOk (n : Needs) : Bool :=
  n.srcs.all (fun c => decide (c.toNat < 61)) && n.dsts.all fun c => decide (c.toNat < 48)

/-- Cause 6: a run of thread registers out of alignment or past v47. -/
def Needs.threadRunsOk (n : Needs) : Bool := n.vruns.all fun r => r.1 % r.2.2 == 0 && decide (r.1 + r.2.1 ≤ 48)

/-- Cause 6: a run of uniform registers past s31. -/
def Needs.uniformRunsOk (n : Needs) : Bool := n.sruns.all fun r => decide (r.1 + r.2 ≤ 32)

/-- Cause 6: a quad of tiles that does not begin at a multiple of 4. -/
def Needs.tileOk (n : Needs) : Bool :=
  match n.tile4 with
  | some t => t.toNat % 4 == 0
  | none => true

/-- R32: the halfword of `mov v0, v0` is that of the 16-bit `nop`. -/
def notZeroMove (i : Instr) : Bool :=
  match i with
  | .mov f => f.s != 0#6 || f.d != 0#5
  | _ => true

/-- An instruction whose fields pass every check that needs no machine state. -/
def Instr.wellFormed (i : Instr) : Bool :=
  i.needs.selOk && i.needs.codesOk && i.needs.threadRunsOk && i.needs.uniformRunsOk && i.needs.tileOk && notZeroMove i

end Sys2Proof
end

