-- ==== Sys2Proof/Machine/Issue.lean ====
section
/-!
DEFINITION. A lane's turn to issue: the pending event, the fetch line, the decoder and the waits that hold the lane
(R49, R72, R78, R115, R176, R248, R249, R284, R290, R295, R348, R351); errors of stored data (R187, R252, R361); and what
the machine does when nothing outside it says which turn comes next.
-/

namespace Sys2Proof.Machine

/-! ## What an instruction waits for -/

/-- The thread registers that an instruction reads or writes (R72). -/
def instrRegs (i : Instr) : List Nat :=
  let n := i.needs
  (n.srcs.map BitVec.toNat).filter (fun r => decide (r < 48)) ++ n.dsts.map BitVec.toNat ++
  (n.vruns.flatMap fun r => (List.range r.2.1).map (r.1 + ·)) ++
  match i with
  | .tcall _ => [0, 1, 2, 3]
  | _ => []

/-- The matrix instructions (R249). -/
def isMatrix : Instr → Bool
  | .mma _ => true
  | .mmat _ => true
  | .mlut _ => true
  | .msp _ => true
  | .mzero _ => true
  | .mdrainReg _ => true
  | .mdrainMem _ => true
  | .mload _ => true
  | _ => false

/-- The matrix instructions that access memory in their steps (R176). -/
def matrixAccess : Instr → Bool
  | .mzero _ => false
  | .mdrainReg _ => false
  | i => isMatrix i

/-- The instructions that access memory (R176); `cache.inv` counts as a store (R199). -/
def accessesMemory (i : Instr) : Bool :=
  matrixAccess i ||
  match i with
  | .ld _ => true
  | .st _ => true
  | .ldi _ => true
  | .sti _ => true
  | .lda _ => true
  | .sta _ => true
  | .atom _ => true
  | .red _ => true
  | .gld _ => true
  | .gst _ => true
  | .bld _ => true
  | .bst _ => true
  | .batom _ => true
  | .wait _ => true
  | .switch _ => true
  | .mark _ => true
  | .launch _ => true
  | .copy _ => true
  | .gather _ => true
  | .scatter _ => true
  | .path _ => true
  | .seg _ => true
  | .pend _ => true
  | .cdep _ => true
  | .tbind _ => true
  | .tload _ => true
  | .tflush _ => true
  | .cache f => f.o == 2#4
  | _ => false

/-- The instructions that order a group's earlier accesses as their release does (R172, R176, R178, R179). -/
def ordersMemory : Instr → Bool
  | .fence _ => true
  | .bar _ => true
  | .spawn _ => true
  | .cspan _ => true
  | .tlbinv _ => true
  | _ => false

/-- The instructions that make groups, whose accesses follow their maker's (R178). -/
def makesGroups : Instr → Bool
  | .spawn _ => true
  | .cspan _ => true
  | _ => false

/-- The instructions that need the tile store (R284). -/
def needsTiles : Instr → Bool
  | .tbind _ => true
  | .tload _ => true
  | .cdep _ => true
  | .cscan _ => true
  | .clpush _ => true
  | .clpop _ => true
  | .cspan _ => true
  | .tflush _ => true
  | .tblend _ => true
  | .covget _ => true
  | _ => false

/-- A context waits for a store that another holds. -/
def heldByOther (holder : Option Nat) (asid : Nat) : Bool :=
  match holder with
  | some h => h != asid
  | none => false

/-- R176: whether a matrix instruction of the group still accesses memory. -/
def matrixPending (s : State) (gid : Nat) (g : Group) : Bool :=
  (s.set g.asid g.core).mq.any fun m => m.gid == gid && matrixAccess m.instr

/-- R249: the instructions in a core's matrix queue. -/
def queuedOn (s : State) (core : Nat) : Nat :=
  s.sets.foldl (fun n e => n + if e.1 % 256 == core then e.2.mq.length else 0) 0

/-- R72, R78, R178: whether an instruction of the issuing group must wait and holds its lane. -/
def interlocked (s : State) (g : Group) (i : Instr) : Bool :=
  (instrRegs i).any g.loads.contains || g.scribe || g.deposit ||
  ((accessesMemory i || ordersMemory i) && matrixPending s s.cur g) ||
  ((accessesMemory i || makesGroups i) && g.det.en && commitsDue s s.cur g) ||
  (isMatrix i && (decide (8 ≤ queuedOn s g.core) || heldByOther (s.core g.core).accHolder g.asid)) ||
  (needsTiles i && heldByOther (s.core g.core).tileHolder g.asid) ||
  match i with
  | .tfence _ => g.matrix != 0
  | _ => false

/-- R78, R81: the lane waits a cycle. -/
def waitCycle (s : State) (g : Group) : State :=
  { s with now := s.now + 1 }.setGrp { g with sched := { g.sched with stintWait := g.sched.stintWait + 1 } }

/-- R81: the lane waits a cycle; a context that needs a store another holds asks for it (R248, R284). -/
def holdLane (s : State) (g : Group) (i : Instr) : State :=
  let s := waitCycle s g
  if isMatrix i && heldByOther (s.core g.core).accHolder g.asid then s.modCore g.core fun c => { c with accWant := some g.asid }
  else if needsTiles i && heldByOther (s.core g.core).tileHolder g.asid then
    s.modCore g.core fun c => { c with tileWant := some g.asid }
  else s

/-! ## The fetch line -/

/-- R49, R115: the line at the issuing group's pc: its fetch, and where control has just entered it, its header; a new
group's or a handler's line must be of kind 2 with slot 0 marked. The fault's EPC is the group's pc, also where a popped path resumes in
the middle of a bad line: the spec names slot 0 for a line entered by falling through alone (log entry 119). -/
def lineAtPc (s : State) (g : Group) : Except Trap (List Byte × State) :=
  let va := g.pc.toNat
  match fetchLine s g.core g.asid g.mode va with
  | .error t => .error t
  | .ok (line, s) =>
    if g.line = some (BitVec.ofNat 57 (lineAddr va)) then .ok (line, s)
    else if lineSound line && (!g.fresh || (headerKind (lineHeader line) == 2 && slotMarked line va)) then .ok (line, s)
    else .error (plainTrap codeLINE va)

/-- R128, R132, R177: the state in which an instruction runs: its line checked, the group's opening acquire done. -/
def openInstr (s : State) (g : Group) : State :=
  let s := if g.opening = 0 then s else s.acquire g.core g.opening
  s.setGrp { g.acquired g.opening with line := some (BitVec.ofNat 57 (lineAddr g.pc.toNat)), fresh := false, opening := 0 }

/-- The instruction at the issuing group's pc runs, waits, or is rejected with its cause (R51). -/
def issueInstr (s : State) (g : Group) : Res :=
  match lineAtPc s g with
  | .error t => .next (raiseAll s t)
  | .ok (line, s) =>
    match decode (line.drop (g.pc.toNat % 128)) with
    | .error r => .next (illop (openInstr s g) r.cause)
    | .ok (i, _) => if interlocked s g i then .next (holdLane s g i) else exec i (openInstr s g)

/-- R81: whether what a group in a broken stint awaits is still not there: the unit it waits for works on, or the instruction at its pc
would still wait, a home that is down included (R364). An event that it has yet to meet it meets at once (R252, R351). -/
def stillHeld (s : State) (gid : Nat) (g : Group) : Bool :=
  g.sched.endDue || g.pending.isNone &&
  let s := { s with cur := gid }
  match lineAtPc s g with
  | .error t => t.code == codeBusy
  | .ok (line, s) =>
    match decode (line.drop (g.pc.toNat % 128)) with
    | .error _ => false
    | .ok (i, _) => interlocked s g i

/-- R81: the groups of broken stints whose awaited results are there are ready again. -/
def wakeUnheld (s : State) : State :=
  wakeWhere s fun gid g => g.wait == .stintBreak && decide (g.core < 256) && !stillHeld s gid g

/-- R103, R111, R131, R161, R200: room came free: the groups that wait for it test again, bench changes that it held up end,
complete sets open. -/
def useRoom (s : State) : State :=
  let s := wakeWhere s fun _ g => decide (g.core < 256) && match g.wait with
    | .spawn => true
    | .cspan _ => true
    | .launch => true
    | .engine => true
    | _ => false
  let s := (s.cores.map (·.1)).foldl resizeBench s
  ((s.sets.map fun e => e.1 % 256).eraseDups).foldl openAll s

/-- What is done before every turn: copies whose time is up go (R148), lines lost as they were written back are retired (R363), groups
look again where something came free or arrived, and invalidations complete (R321). -/
def upkeep (s : State) : State :=
  let s := loseDead s.expire
  let s := if s.freed then useRoom { s with freed := false, stir := true } else s
  let s := if s.stir then wakeUnheld { s with stir := false } else s
  if s.invals.isEmpty then s else finishInvals s

/-- The group whose stint runs on a lane. -/
def stintOn (s : State) (core lane : Nat) : Option (Nat × Group) := (onLane s core lane).find? fun e => e.2.sched.inStint

/-- A lane's turn: the group whose stint it runs waits for the unit that its last instruction keeps at work (R78), takes its pending
event (R252, R351) or issues. -/
def issueTurn (core lane : Nat) (s : State) : Res :=
  match stintOn s core lane with
  | none => .next s
  | some (gid, g) =>
    let s := { s with cur := gid }
    if g.sched.endDue then .next (waitCycle s g)
    else
      match g.pending with
      | some ev =>
        let g := { g with pending := none }
        let ev := { ev with epc := g.pc, report := { ev.report with inH := ev.report.inH || g.mode == .handler } }
        .next (takeEvent (s.setGroup gid g) gid g ev)
      | none => issueInstr s g

/-! ## Turns -/

/-- Whether an event may be a turn of its own: it has no word, its arguments name something, and it is not the part of
a `cput` that the issuing group alone performs. -/
def isEvent (i : Instr) : Bool :=
  i.size == 0 && i.wellFormed && match i with
    | .amaskWrite _ => false
    | _ => true

/-! ## Errors of stored data (R361, R252; log entry 49) -/

/-- R361, R368: a sector of memory is uncorrectable from now on, until it is written again: whoever consumes it meets it. -/
def damageTurn (sector unit syndrome : Nat) (s : State) : State :=
  bboxLog { s with bad := put sector (List.range 64) s.bad } (homeDie (sector * 64)) 2 unit syndrome

/-- The instructions that their threads perform one by one, each on its own data (R8, R186). -/
def perThread : Instr → Bool
  | .mov _ | .add_16 _ | .sub_16 _ | .mul_16 _ | .and_16 _ | .or_16 _ | .xor_16 _ | .shl_16 _ | .shr_16 _ | .fadd_16 _
  | .fsub_16 _ | .fmul_16 _ | .fmin_16 _ | .fmax_16 _ | .ffmb _ | .fadd2F16_16 _ => true
  | .add _ | .sub _ | .mul _ | .mulhS _ | .mulhN _ | .minS _ | .minN _ | .maxS _ | .maxN _ | .and _ | .or _ | .xor _
  | .andn _ | .shl _ | .shr _ | .sar _ | .rotl _ | .bfeS _ | .bfeN _ | .abs _ | .neg _ | .clz _ | .popc _ | .brev _ => true
  | .cmp _ | .fadd _ | .fsub _ | .fmul _ | .fmin _ | .fmax _ | .fdiv _ | .fsqrt _ | .frcp _ | .frsq _ | .fexp2 _ | .flog2 _
  | .fsin _ | .fcos _ | .frnd _ | .fcmp _ | .fclass _ | .cvt _ | .fadd2F16 _ | .fmul2F16 _ | .fadd2Bf16 _
  | .fmul2Bf16 _ => true
  | .ffma _ | .mad _ | .ffma2F16 _ | .ffma2Bf16 _ | .fdot2F16 _ | .dp4S8 _ | .dp4N8 _ | .sel _ | .bfi _ | .shf _ | .mulwS _
  | .mulwN _ => true
  | .addi _ | .muli _ | .andi _ | .ori _ | .xori _ | .shli _ | .shri _ | .sari _ | .cmpi _ | .movhi _ => true
  | .ld _ | .st _ | .ldi _ | .sti _ | .atom _ | .red _ | .lda _ | .sta _ | .bld _ | .bst _ | .batom _ => true
  | _ => false

/-- The instructions that read no stored data: constants, predicates, masks, paths and counters are all that they use. -/
def readsNothing : Instr → Bool
  | .nop_16 | .nop _ | .movi _ | .gmovi _ | .gballot _ => true
  | .br _ | .jmp _ | .join _ | .meet _ | .call _ | .exit _ | .yield _ => true
  | .tfence _ | .brk _ | .bar _ | .fence _ | .xnext _ | .xend _ | .cpoll _ | .mzero _ | .cget _ | .park _ => true
  | _ => false

/-- The instructions that consume data of the register files, the latches, the bench, L1, the tile store or memory (R361). -/
def consumes (i : Instr) : Bool := i.size != 0 && !readsNothing i

/-- R187: an uncorrectable error that an instruction meets; the address it reports is the spec's to leave open where the
data is no memory's. -/
def badData (s : State) : Trap := plainTrap codeDATAERR (ofBytes ((List.range 8).map fun i => Config.freeByte s.free i))

/-- The issuing group after the threads before the one that met the error have completed (R186): their registers, flags
and windows are written, and the instruction is not retired. -/
def keepPrefix (g h : Group) : Group :=
  { g with threads := h.threads, fflags := h.fflags, flash := if g.recipe then g.flash else h.flash, loads := h.loads, w := h.w,
           det := h.det }

/-- Whether a group waits for what its instruction asked for, with no event met. -/
def Group.awaits (g : Group) : Bool :=
  g.pending.isNone && g.wait != .none && g.wait != .host && g.wait != .room

/-- An instruction run for some threads of the issuing group, if it completes or comes to wait for what it asked for; a recipe's
instructions count here too (R357). -/
def runs (i : Instr) (s : State) (g : Group) (ts : List Nat) : Option (State × Group) :=
  if g.recipe && recipeRefuses i then none
  else
    match exec i (s.setGrp { g with amask := maskOf ts, recipe := false }) with
    | .next t =>
      match t.grp with
      | some h => if h.retired != g.retired || (h.awaits && h.mode == g.mode) then some (t, h) else none
      | none => none
    | _ => none

/-- R157, R186: the threads before a fault that complete, in descending index: a run of a grain store that the fault cuts faults as a
whole, at its first thread. -/
def earlyRun (i : Instr) (s : State) (g : Group) : List Nat → Option (List Nat × State × Group)
  | [] => none
  | t :: ts =>
    match runs i s g (t :: ts) with
    | some (u, h) => some (t :: ts, u, h)
    | none => earlyRun i s g ts

/-- R186: whether the threads up to one that meets damaged data have no other fault: with the runs that a grain store makes of later
threads, the instruction runs for them (R157). An instruction that is not performed thread by thread runs for all or none. -/
def reaches (i : Instr) (s : State) (g : Group) (thread : Nat) : Bool :=
  if perThread i then
    let upTo := g.active.filter fun t => decide (t ≤ thread)
    let later := g.active.filter fun t => decide (thread < t)
    (List.range (later.length + 1)).any fun n => (runs i s g (upTo ++ later.take n)).isSome
  else (runs i s g g.active).isSome

/-- R187, R361: the issuing group's instruction meets damaged data at a thread: the threads before it complete, and
DATAERR is raised for it and the later ones; an instruction that is not performed thread by thread has no effect. Under DETCTL the
threads before may wait for their commit, which the record then follows (R197). Where a thread before, or the thread itself, stops for
another reason, that is what happens (log entry 86). -/
def meetBadData (s : State) (g : Group) (i : Instr) (thread : Nat) : Res :=
  if !reaches i s g thread then exec i s
  else
    let trap := badData s
    let s := { s with free := s.free + 1 }
    if perThread i then
      match earlyRun i s g (g.active.filter fun t => decide (t < thread)).reverse with
      | none => .next (raise s trap g.amask)
      | some (ts, t, h) =>
        let first := (g.active.find? fun t => !ts.contains t).getD thread
        if h.awaits then
          .next (t.setGrp { h with amask := g.amask, recipe := g.recipe,
                                   pending := some (faultEvent t g trap (fromThread first g.active)) })
        else .next (raise (t.setGrp (keepPrefix g h)) trap (fromThread first g.active))
    else .next (raiseAll s trap)

/-- R361: the instruction that a lane issues next meets damaged data at one of its threads. -/
def badReadTurn (core lane thread syndrome : Nat) (s : State) : Res :=
  match stintOn s core lane with
  | none => .next s
  | some (gid, g) =>
    match lineAtPc { s with cur := gid } g with
    | .error _ => .next s
    | .ok (line, s') =>
      match decode (line.drop (g.pc.toNat % 128)) with
      | .error _ => .next s
      | .ok (i, _) =>
        let o := openInstr s' g
        match o.grp with
        | none => .next s
        | some h =>
          if g.sched.endDue || g.pending.isSome || interlocked s' g i || !consumes i || !g.active.contains thread then .next s
          else meetBadData (bboxLog o (dieOf core) 2 core syndrome) h i thread

/-- R252, R361: the running step of a core's matrix engine meets damaged data, in an operand or in the accumulators. -/
def badStepTurn (core syndrome : Nat) (s : State) : State :=
  match matHead s core with
  | none => s
  | some (asid, m) =>
    if matSteps m.instr ≤ m.step then s
    else stopStep (bboxLog { s with free := s.free + 1 } (dieOf core) 2 core syndrome) asid core m (badData s)

/-- One turn of the machine. An eviction leaves pinned lines where they are (R326). -/
def takeTurn (t : Turn) (s : State) : Res :=
  match t with
  | .issue core lane => issueTurn core lane s
  | .event i => if isEvent i then exec i s else .next s
  | .l2Evict sector => .next (if s.isPinned (sector * 64) then s else s.l2Clean sector)
  | .damage sector unit syndrome => .next (damageTurn sector unit syndrome s)
  | .corrected die unit syndrome => .next (if die < 4 then bboxLog s die 1 unit syndrome else s)
  | .badRead core lane thread syndrome => badReadTurn core lane thread syndrome s
  | .badStep core syndrome => .next (badStepTurn core syndrome s)
  | .reply op element code value => .next { s with replies := put (replyKey op element) (code, value) s.replies }
  | .keyLoad slot value => .next (loadKey s slot value)
  | .hostStore a bs => .next (hostStoreTurn a bs s)
  | .hostLoad a n => .next (hostLoadTurn a n s)
  | .barRead function offset => .next (barReadTurn function offset s)
  | .barWrite function offset value => .next (barWriteTurn function offset value s)
  | .cellFence core => .next (cellFenceTurn core s)
  | .telemetry die tj inlet flow links => .next (telemetryTurn die tj inlet flow links s)
  | .tick n => .next { s with now := s.now + n }

/-! ## The machine's own order -/

/-- The cores that hold something. -/
def liveCores (s : State) : List Nat :=
  ((s.groups.map fun (e : Nat × Group) => e.2.core) ++ (s.sets.map fun (e : Nat × CoreSet) => e.1 % 256)).eraseDups.filter
    fun k => decide (k < 256)

/-- An event as the machine itself takes it. -/
abbrev Due := State → Res

/-- Events of the groups, in the order of their names. -/
def groupEvents (s : State) : List Due :=
  s.groups.flatMap fun (e : Nat × Group) =>
    [execLoadDataArrival e.1, execScribeDone e.1, execDepositDone e.1, execTlbinvDone e.1, execQuantumEnd e.1, execWaitWake e.1,
     execWaitTimeout e.1]

/-- R248, R252: the accumulator store of a core for a context whose queue there has something to run. -/
def claimStore (core : Nat) (s : State) : Res :=
  match s.sets.find? fun e => e.1 % 256 == core && !e.2.mq.isEmpty && (s.core core).accHolder != some (e.1 / 256) with
  | some (k, _) => .next (s.modCore core (claimTiles (k / 256)))
  | none => .next s

/-- Events of the cores' units. -/
def unitEvents (s : State) : List Due :=
  (liveCores s).flatMap fun k =>
    [execMatrixStepDone k, execMatrixInstrDone k, claimStore k, execAccumulatorSwap k, execParkMoveComplete k] ++
    match (s.core k).tileWant with
    | some a => [execTileStoreSwap k a]
    | none => []

/-- Events of the state that lives with a core: expansions, blends, packed groups, packing timers. -/
def setEvents (s : State) : List Due :=
  s.sets.flatMap fun (e : Nat × CoreSet) =>
    let a := e.1 / 256
    let k := e.1 % 256
    let queued := e.2.slots.flatMap fun (x : Nat × Slot) =>
      (x.2.cells.filter fun (c : Nat × SlotCell) => !c.2.queue.isEmpty).map fun c => (x.1, c.1)
    (e.2.expands.map fun x => execContributionApply a k x.1) ++
    (queued.map fun c => execBlendApply a k c.1 c.2) ++
    (if (s.core k).tileHolder != some a && blendDue s a k then [execTileStoreSwap k a] else []) ++
    (if e.2.formed.isEmpty then [] else [execPackedGroupAdmit a k]) ++
    (((e.2.items.map fun i => (i.entry, i.grid)).eraseDups).map fun i => execPackingTimerExpiry a k i.1 i.2)

/-- Events of engine operations and contexts. -/
def contextEvents (s : State) : List Due :=
  (s.ops.flatMap fun (e : Nat × EngineOp) => [execEngineOpComplete e.1, execEnginePageFault e.1, execEngineFailure e.1]) ++
  s.contexts.flatMap fun (e : Nat × Context) => [execCommitApply e.1, execPreemptDeadline e.1]

/-- Events of the front ends and of the firmware. -/
def hostEvents (s : State) : List Due :=
  (s.queues.flatMap fun (e : Nat × Queue) =>
    let fe := e.1 / 8
    let q := e.1 % 8
    if fe = 64 then
      [execContextCreate, execContextWrite, execContextDestroy, execAnswerRetry, execAnswerDeliver, execAnswerRefuse,
       execAnswerStop, execPreemptSoft, execPreemptHard, execResume, execPartset, execFwload]
    else
      [execQueueWaitPoll fe q, execLaunchCommand fe q, execCopyCommand fe q, execSignal fe q, execWaitCommand fe q,
       execFenceCommand fe q]) ++
  (s.feGrids.map fun (e : Nat × List Nat) => execBlockPlace e.1) ++
  (s.contexts.map fun (e : Nat × Context) => execBlockPlace e.2.part) ++
  [0, 1, 2, 3].flatMap fun d => [execDieReady d, execFirmwareSwitch d]

/-- Events of the lanes and the park engines. -/
def laneEvents (s : State) : List Due :=
  let lanes := (s.groups.filterMap fun (e : Nat × Group) => e.2.sched.lane.map fun l => (e.2.core, l)).eraseDups
  ((liveCores s).flatMap fun k => [execParkFill k, execRotation k]) ++
  (s.groups.map fun (e : Nat × Group) => execIdlePark e.2.core e.1) ++
  (lanes.map fun x => execStintBreak x.1 x.2) ++
  lanes.map fun x => execLaneSelect x.1 x.2

/-- The first event of a list that changes the machine. -/
def firstEvent (s : State) : List Due → Option State
  | [] => none
  | d :: ds =>
    match d s with
    | .next t => if t = s then firstEvent s ds else some t
    | _ => firstEvent s ds

/-- The lane to issue next: that of the first group in a stint after the one that issued last, in the order of names. -/
def nextLane (s : State) : Option (Nat × Nat) :=
  let busy := s.groups.filter fun (e : Nat × Group) => e.2.sched.inStint && decide (e.2.core < 256)
  let e := match busy.find? fun e => decide (s.cur < e.1) with
    | some e => some e
    | none => busy.head?
  e.bind fun e => e.2.sched.lane.map fun l => (e.2.core, l)

/-- With no turn asked for: the first event that is due, else the next lane issues, else a cycle passes (log entry 9). -/
def defaultTurn (s : State) : Res :=
  match firstEvent s (groupEvents s ++ unitEvents s ++ setEvents s ++ contextEvents s ++ hostEvents s ++ laneEvents s) with
  | some t => .next t
  | none =>
    match nextLane s with
    | some (k, l) => issueTurn k l s
    | none => .next { s with now := s.now + 1 }

end Sys2Proof.Machine
end

