-- ==== Sys2Proof/Machine/Step.lean ====
section
/-!
DEFINITION. One step of the machine: the next turn of the agenda, or the machine's own choice; and a state in which a
given instruction is what the next step fetches.
-/

namespace Sys2Proof.Machine

/-- One step: what is due before any turn, and then the turn that the world outside asks for next, or the machine's own. -/
def step (s : State) : Host.Outcome State Fault Refusal :=
  let s := upkeep s
  match s.agenda with
  | t :: rest => takeTurn t { s with agenda := rest }
  | [] => defaultTurn s

/-- The payload of a fetch line that holds an instruction's word at slot 0, and zeros. -/
def fetchPayload (nbits w : Nat) : List Byte := leBytes 4 (w % 2 ^ nbits) ++ List.replicate 108 0#8

/-- The fetch line of a payload: an entry line whose slot 0 is a target (R29, R115). -/
def fetchLineOf (payload : List Byte) : List Byte :=
  let starts := derivedStarts (List.replicate 16 0#8 ++ payload) 57 0
  toBytes 16 (starts + 2 ^ 56 + 2 * 2 ^ 112) ++ payload

/-- The page that holds the line. -/
def fetchPage : Page :=
  { vbase := 0x10000, span := 0x10000, frame := 0x10000, fmt := .raw, key := 0, part := 0, rd1 := true, wr1 := true, ex1 := true,
    rd2 := true, wr2 := true, ex2 := true, ho := false, level1 := 0, level2 := 0 }

/-- A new group of one thread in its stint on lane 0 of core 0, at slot 0 of the line. -/
def fetchGroup : Group :=
  { Group.init with
    nregs := 48
    pc := 0x10010#57
    lmask := 1#32
    amask := 1#32
    sched := { lane := some 0, inStint := true } }

/-- The state with an instruction where the next step fetches: the program's line in memory, its page in the TLB of core
0, its sectors sound and under no other key, its group in a stint, its context, and the lane's turn (log entry 19). -/
def State.withFetchWord (s : State) (nbits w : Nat) : State :=
  { s with
    agenda := [.issue 0 0]
    mem := s.mem.write 0x10000 (fetchLineOf (fetchPayload nbits w))
    seals := drop 0x400 (drop 0x401 s.seals)
    bad := drop 0x400 (drop 0x401 s.bad)
    dead := []
    stir := false
    freed := false
    groups := [(1, fetchGroup)]
    contexts := put 0 (Context.init 0 0) s.contexts
    tlb := ⟨0, 0, 0, fetchPage⟩ :: s.tlb }

end Sys2Proof.Machine
end

