-- ==== Sys2Proof/Safety.lean ====
section
/-!
DEFINITION. What counts as a safe state of the machine: the conditions that every step must keep.
-/

namespace Sys2Proof.Machine

/-- Memory is in its one canonical form, so that equal memories are equal data; so is the bench of every block, and the
groups, the sectors of every L1, those dirty in L2 and those with damaged data stand in rising order of number, each once. L2 keeps
64 bytes of DRAM for each of its sectors. -/
structure State.tablesOk (s : State) : Prop where
  mem   : s.mem.wf = true
  bench : ∀ b ∈ s.blocks, ∀ m ∈ b.2.bench, Memory.wf m.2 = true
  groups : rising (s.groups.map (·.1)) = true
  l1    : ∀ c ∈ s.cores, rising (c.2.l1.map (·.1)) = true
  l2    : rising (s.l2.map (·.1)) = true ∧ ∀ e ∈ s.l2, e.2.old.length = 64
  bad   : rising (s.bad.map (·.1)) = true

end Sys2Proof.Machine
end

