-- ==== Sys2Proof/Certificates/Slice0/Obligations.lean ====
section
/-!
DEFINITION. What the provers are asked to prove: each `Obligations.<Name>` states what the rules of the spec that it
cites say of an instruction or of the machine. `Sys2Proof.Spec` holds the vocabulary of the statements.
-/

open Sys2Proof Sys2Proof.Machine

/-! ## The vocabulary of a lane instruction -/

namespace Sys2Proof.Spec

/-- The issuing group, with no ILLOP cause for an instruction of it that reads the latches of some threads (R51). -/
def Ready (i : Instr) (s : State) (g : Group) (readers : List Nat) : Prop :=
  s.grp = some g ∧ illopCause i g readers false false = none

/-- A ready instruction completes: the group after it, which meets `post`, goes on `len` bytes further. -/
def Completes (i : Instr) (s : State) (g : Group) (readers : List Nat) (len cycles : Nat) (e : Bool)
    (post : Group → Prop) : Prop :=
  Ready i s g readers → ∃ g', exec i s = .next (s.retire g' len cycles e) ∧ post g'

/-- A thread after a result of class 00 or 01: the register unless it is suppressed, and the latches (R79). -/
def resultIn (x : Thread) (w : Bool) (d : Nat) (r : Word) : Thread :=
  { (if w then x else x.setReg d r) with b1 := x.b0, b0 := ⟨r, true⟩ }

/-- The flashback state after thread registers are written (R355): void where a live one is among them. -/
def flashAfter (g : Group) (ds : List Nat) : Option Flash :=
  match g.flash with
  | some f => if ds.any f.live.getLsbD then none else some f
  | none => none

/-- The frame of a lane instruction: the group differs in its threads, its flashback state and its flags alone. -/
def LaneFrame (g g' : Group) (ds : List Nat) (fl : Flags) : Prop :=
  { g' with threads := g.threads, flash := g.flash, fflags := g.fflags } = g ∧
  g'.flash = flashAfter g ds ∧ g'.fflags = g.fflags ||| fl

/-- Each thread of a list after a function of it, every other thread as before. -/
def ThreadsAfter (g g' : Group) (ts : List Nat) (after : Nat → Thread) : Prop :=
  ∀ t, t < 32 → g'.thread t = if t ∈ ts then after t else g.thread t

/-- A lane instruction with one result a participant: `r t` in register `d` of thread `t`, and in its latch. -/
def LaneResults (g g' : Group) (ts : List Nat) (w : Bool) (d : Nat) (r : Nat → Word) (fl : Flags) : Prop :=
  ThreadsAfter g g' ts (fun t => resultIn (g.thread t) w d (r t)) ∧
  LaneFrame g g' (if w || ts.isEmpty then [] else [d]) fl

/-- The same where the result reaches the register alone (R233, R245). -/
def LaneWrites (g g' : Group) (ts : List Nat) (d : Nat) (r : Nat → Word) : Prop :=
  ThreadsAfter g g' ts (fun t => (g.thread t).setReg d (r t)) ∧
  LaneFrame g g' (if ts.isEmpty then [] else [d]) 0#7

/-- The flags of some threads, joined (R221). -/
def flagsOver (ts : List Nat) (f : Nat → Flags) : Flags := ts.foldl (fun fl t => fl ||| f t) 0#7

/-- The issue cycles of a lane instruction: one for each active thread. -/
def laneCycles (g : Group) : Nat := max g.active.length 1

/-! ## The values of the integer instructions (R229, R230) -/

/-- wrap_32. -/
def wrap (x : Int) : Word := BitVec.ofInt 32 x

/-- The number a pattern stands for. -/
def num {n : Nat} (sgn : Bool) (a : BitVec n) : Int := if sgn then a.toInt else (a.toNat : Int)

def shiftLeft (a b : Word) : Word := if b.toNat % 256 < 32 then wrap (a.toNat * 2 ^ (b.toNat % 256)) else 0#32
def shiftRight (a b : Word) : Word := if b.toNat % 256 < 32 then wrap (a.toNat / 2 ^ (b.toNat % 256)) else 0#32
def shiftArith (a b : Word) : Word :=
  if b.toNat % 256 < 32 then wrap (a.toInt / 2 ^ (b.toNat % 256)) else if a.toInt < 0 then 0xFFFFFFFF#32 else 0#32
def rotate (a b : Word) : Word :=
  wrap (a.toNat * 2 ^ (b.toNat % 32)) ||| wrap (a.toNat / 2 ^ (32 - b.toNat % 32))

/-- The field of R230 before its sign. -/
def rawField (sgn : Bool) (a b : Word) : Int := num sgn a / 2 ^ (b.toNat % 32) % 2 ^ min (b.toNat / 256 % 64) 32
def extract (sgn : Bool) (a b : Word) : Word :=
  let len := min (b.toNat / 256 % 64) 32
  wrap (if sgn = true ∧ 0 < len ∧ (2 : Int) ^ (len - 1) ≤ rawField sgn a b then rawField sgn a b - 2 ^ len
    else rawField sgn a b)

/-- Bit `i` of the result is bit `i − pos` of `b` inside the field and bit `i` of `a` outside (R232). -/
def insert (a b c : Word) : Word :=
  let pos := c.toNat % 32
  let len := min (c.toNat / 256 % 64) 32
  maskOf ((List.range 32).filter fun i => if pos ≤ i ∧ i < pos + len then b.getLsbD (i - pos) else a.getLsbD i)

def leadingZeros (a : Word) : Nat := ((List.range 32).takeWhile fun i => !a.getLsbD (31 - i)).length
def ones (a : Word) : Nat := ((List.range 32).filter fun i => a.getLsbD i).length
def reversed (a : Word) : Word := maskOf ((List.range 32).filter fun i => a.getLsbD (31 - i))

/-- A condition of R54. -/
def Cond {n : Nat} (c : Nat) (a b : BitVec n) : Prop :=
  match c with
  | 0 => a = b
  | 1 => a ≠ b
  | 2 => a.toInt < b.toInt
  | 3 => b.toInt ≤ a.toInt
  | 4 => a.toNat < b.toNat
  | 5 => b.toNat ≤ a.toNat
  | 6 => a &&& b ≠ 0#n
  | _ => a &&& b = 0#n

/-- The two-operand integer instructions of class 00 with their values. -/
def intTable : List ((T3 → Instr) × (Word → Word → Word)) :=
  [(.add, fun a b => wrap (a.toNat + b.toNat)), (.sub, fun a b => wrap (a.toNat - b.toNat)),
   (.mul, fun a b => wrap (a.toNat * b.toNat)), (.mulhS, fun a b => wrap (a.toInt * b.toInt / 2 ^ 32)),
   (.mulhN, fun a b => wrap ((a.toNat : Int) * b.toNat / 2 ^ 32)),
   (.minS, fun a b => if a.toInt ≤ b.toInt then a else b), (.minN, fun a b => if a.toNat ≤ b.toNat then a else b),
   (.maxS, fun a b => if a.toInt ≤ b.toInt then b else a), (.maxN, fun a b => if a.toNat ≤ b.toNat then b else a),
   (.and, fun a b => a &&& b), (.or, fun a b => a ||| b), (.xor, fun a b => a ^^^ b), (.andn, fun a b => a &&& ~~~b),
   (.shl, shiftLeft), (.shr, shiftRight), (.sar, shiftArith), (.rotl, rotate), (.bfeS, extract true),
   (.bfeN, extract false)]

/-- The one-operand integer instructions of class 00 with their values. -/
def intTable1 : List ((T2 → Instr) × (Word → Word)) :=
  [(.abs, fun a => wrap (a.toInt.natAbs : Int)), (.neg, fun a => wrap (-a.toInt)), (.clz, fun a => wrap (leadingZeros a)),
   (.popc, fun a => wrap (ones a)), (.brev, reversed)]

/-- A byte of a word as a number. -/
def byteNum (sgn : Bool) (a : Word) (i : Nat) : Int := num sgn (BitVec.ofNat 8 (a.toNat / 2 ^ (8 * i)))

/-- The sum of the products of four bytes and c. -/
def dotBytes (sgn : Bool) (a b c : Word) : Word :=
  wrap (byteNum sgn a 0 * byteNum sgn b 0 + byteNum sgn a 1 * byteNum sgn b 1 + byteNum sgn a 2 * byteNum sgn b 2 +
    byteNum sgn a 3 * byteNum sgn b 3 + c.toNat)

/-- The integer instructions of class 01 with one result. -/
def intTable3 : List ((Q4 → Instr) × (Word → Word → Word → Word)) :=
  [(.mad, fun a b c => wrap ((a.toNat : Int) * b.toNat + c.toNat)), (.dp4S8, dotBytes true), (.dp4N8, dotBytes false),
   (.bfi, insert), (.shf, fun a b c => wrap (((b.toNat * 2 ^ 32 + a.toNat) / 2 ^ (c.toNat % 32) : Nat)))]

/-! ## The floating-point instructions (R232, R234 to R239), their operations being those of R213 to R220 -/

/-- Two-operand instructions of class 00; `r` gives the rounding of a thread's draw. -/
def floatTable : List ((T3 → Instr) × ((Nat → Rnd) → Word → Word → Word × Flags)) :=
  [(.fadd, fun r a b => (fAdd fp32 (r 0) a.toNat b.toNat).word), (.fsub, fun r a b => (fSub fp32 (r 0) a.toNat b.toNat).word),
   (.fmul, fun r a b => (fMul fp32 (r 0) a.toNat b.toNat).word), (.fdiv, fun r a b => (fDiv (r 0) a.toNat b.toNat).word),
   (.fmin, fun _ a b => (fMinMax fp32 false a.toNat b.toNat).word),
   (.fmax, fun _ a b => (fMinMax fp32 true a.toNat b.toNat).word),
   (.fadd2F16, fun r a b => (packed2 (fAdd fp16) r a.toNat b.toNat).word),
   (.fmul2F16, fun r a b => (packed2 (fMul fp16) r a.toNat b.toNat).word),
   (.fadd2Bf16, fun r a b => (packed2 (fAdd bf16) r a.toNat b.toNat).word),
   (.fmul2Bf16, fun r a b => (packed2 (fMul bf16) r a.toNat b.toNat).word)]

/-- One-operand instructions of class 00. -/
def floatTable1 : List ((T2 → Instr) × (Rnd → Word → Word × Flags)) :=
  [(.fsqrt, fun r a => (fSqrt r a.toNat).word), (.frcp, fun r a => (fRcp r a.toNat).word),
   (.frsq, fun r a => (fRsq r a.toNat).word), (.fexp2, fun r a => (fExp2 r a.toNat).word),
   (.flog2, fun r a => (fLog2 r a.toNat).word), (.fsin, fun r a => (fSin r a.toNat).word),
   (.fcos, fun r a => (fCos r a.toNat).word), (.frnd, fun r a => (fRnd r a.toNat).word),
   (.fclass, fun _ a => (BitVec.ofNat 32 (fClass a.toNat), 0#7))]

/-- Three-operand instructions of class 01. -/
def floatTable3 : List ((Q4 → Instr) × ((Nat → Rnd) → Word → Word → Word → Word × Flags)) :=
  [(.ffma, fun r a b c => (fFma fp32 (r 0) a.toNat b.toNat c.toNat).word),
   (.ffma2F16, fun r a b c => (packedFma2 fp16 r a.toNat b.toNat c.toNat).word),
   (.ffma2Bf16, fun r a b c => (packedFma2 bf16 r a.toNat b.toNat c.toNat).word),
   (.fdot2F16, fun r a b c => (fDot2 (r 0) a.toNat b.toNat c.toNat).word)]

/-- The 16-bit forms and the 32-bit forms they stand for (R33). -/
def halfTable : List ((H16 → Instr) × (H16 → Instr)) :=
  let t (mk : T3 → Instr) (f : H16) : Instr := mk ⟨false, 0#3, f.s, f.d.setWidth 6, f.d.setWidth 6, false⟩
  [(.mov, fun f => .or ⟨false, 0#3, 60#6, f.s, f.d.setWidth 6, false⟩), (.add_16, t .add), (.sub_16, t .sub),
   (.mul_16, t .mul), (.and_16, t .and), (.or_16, t .or), (.xor_16, t .xor), (.shl_16, t .shl), (.shr_16, t .shr),
   (.fadd_16, t .fadd), (.fsub_16, t .fsub), (.fmul_16, t .fmul), (.fmin_16, t .fmin), (.fmax_16, t .fmax),
   (.ffmb, fun f => .ffma ⟨f.d.setWidth 6, 56#6, f.s, f.d.setWidth 6, false⟩), (.fadd2F16_16, t .fadd2F16)]

end Sys2Proof.Spec

/-! ## Lane instructions -/

/-- R229, R230, R228: each integer instruction of class 00 completes with the value of the tables in every participant,
its latch entered, no flag set, and nothing else of the group changed; it takes one cycle for each active thread. -/
def Obligations.IntegerLaneResults : Prop :=
  (∀ e ∈ Spec.intTable, ∀ (f : T3) (s : State) (g : Group),
    Spec.Completes (e.1 f) s g (g.participants f.g) 4 (Spec.laneCycles g) f.e fun g' =>
      Spec.LaneResults g g' (g.participants f.g) f.w f.d.toNat (fun t => e.2 (g.src f.a t) (g.src f.b t)) 0#7) ∧
  (∀ e ∈ Spec.intTable1, ∀ (f : T2) (s : State) (g : Group),
    Spec.Completes (e.1 f) s g (g.participants f.g) 4 (Spec.laneCycles g) f.e fun g' =>
      Spec.LaneResults g g' (g.participants f.g) f.w f.d.toNat (fun t => e.2 (g.src f.a t)) 0#7)

/-- R234 to R239, R228, R221: each floating-point instruction of class 00 gives every participant the value of its
operation under the thread's rounding (R215, R218), and FFLAGS the flags of them all. The fixed working width of the
four transcendental operations is the model's (log entry 12). -/
def Obligations.FloatLaneResults : Prop :=
  (∀ e ∈ Spec.floatTable, ∀ (f : T3) (s : State) (g : Group),
    Spec.Completes (e.1 f) s g (g.participants f.g) 4 (Spec.laneCycles g) f.e fun g' =>
      let v (t : Nat) : Word × Flags := e.2 (g.laneRnd t) (g.src f.a t) (g.src f.b t)
      Spec.LaneResults g g' (g.participants f.g) f.w f.d.toNat (fun t => (v t).1)
        (Spec.flagsOver (g.participants f.g) fun t => (v t).2)) ∧
  (∀ e ∈ Spec.floatTable1, ∀ (f : T2) (s : State) (g : Group),
    Spec.Completes (e.1 f) s g (g.participants f.g) 4 (Spec.laneCycles g) f.e fun g' =>
      let v (t : Nat) : Word × Flags := e.2 (g.laneRnd t 0) (g.src f.a t)
      Spec.LaneResults g g' (g.participants f.g) f.w f.d.toNat (fun t => (v t).1)
        (Spec.flagsOver (g.participants f.g) fun t => (v t).2)) ∧
  ∀ (f : CvtF) (s : State) (g : Group),
    Spec.Completes (.cvt f) s g (g.participants f.g) 4 (Spec.laneCycles g) f.e fun g' =>
      let v (t : Nat) : Word × Flags :=
        (fConvert (g.laneRnd t 0) (cvtType f.s) (cvtType f.t) (g.src f.a t).toNat).word
      Spec.LaneResults g g' (g.participants f.g) f.w f.d.toNat (fun t => (v t).1)
        (Spec.flagsOver (g.participants f.g) fun t => (v t).2)

/-- R232, R79: the class 01 instructions act on every active thread: one result each, `sel` by its predicate; `mulw`
writes the low word to d and the high word to d + 1, and the two words enter the latch in that order. The sign of an
exact zero sum of `fdot2`, and NV for its product of zero and infinity beside a quiet NaN, are the model's (log
entries 56, 134). -/
def Obligations.FourOperandResults : Prop :=
  (∀ e ∈ Spec.intTable3, ∀ (f : Q4) (s : State) (g : Group),
    Spec.Completes (e.1 f) s g g.active 4 (Spec.laneCycles g) f.e fun g' =>
      Spec.LaneResults g g' g.active false f.d.toNat (fun t => e.2 (g.src f.a t) (g.src f.b t) (g.src f.c t)) 0#7) ∧
  (∀ e ∈ Spec.floatTable3, ∀ (f : Q4) (s : State) (g : Group),
    Spec.Completes (e.1 f) s g g.active 4 (Spec.laneCycles g) f.e fun g' =>
      let v (t : Nat) : Word × Flags := e.2 (g.laneRnd t) (g.src f.a t) (g.src f.b t) (g.src f.c t)
      Spec.LaneResults g g' g.active false f.d.toNat (fun t => (v t).1) (Spec.flagsOver g.active fun t => (v t).2)) ∧
  (∀ (f : SelF) (s : State) (g : Group),
    Spec.Completes (.sel f) s g g.active 4 (Spec.laneCycles g) f.e fun g' =>
      Spec.LaneResults g g' g.active false f.d.toNat
        (fun t => if (g.thread t).p.getLsbD f.p.toNat = true then g.src f.a t else g.src f.b t) 0#7) ∧
  ∀ e ∈ ([(.mulwS, true), (.mulwN, false)] : List ((Q4 → Instr) × Bool)), ∀ (f : Q4) (s : State) (g : Group),
    Spec.Completes (e.1 f) s g g.active 4 (Spec.laneCycles g) f.e fun g' =>
      let p (t : Nat) : Int := Spec.num e.2 (g.src f.a t) * Spec.num e.2 (g.src f.b t)
      Spec.ThreadsAfter g g' g.active (fun t =>
        { ((g.thread t).setReg f.d.toNat (Spec.wrap (p t))).setReg (f.d.toNat + 1) (Spec.wrap (p t / 2 ^ 32)) with
          b1 := ⟨Spec.wrap (p t), true⟩
          b0 := ⟨Spec.wrap (p t / 2 ^ 32), true⟩ }) ∧
      Spec.LaneFrame g g' (if g.active.isEmpty then [] else [f.d.toNat, f.d.toNat + 1]) 0#7

/-- R33: the 16-bit form of operation `k` has its operation in bits 4:1, d in bits 9:5 and the source code in bits 15:10,
bit 0 being 0; it does exactly what its 32-bit counterpart with no guard, W = 0 and a = d does, in 2 bytes where that takes 4. -/
def Obligations.HalfwordFormsMatch : Prop :=
  ∀ k e, Spec.halfTable[k]? = some e → ∀ f : H16,
    encodeWord (e.1 f) = some (2 * k + 32 * f.d.toNat + 1024 * f.s.toNat) ∧ (e.1 f).size = 2 ∧
    ∀ (s : State) (g : Group), Spec.Ready (e.1 f) s g g.active →
      ∃ g', exec (e.1 f) s = .next (s.retire g' 2 (Spec.laneCycles g) false) ∧
        exec (e.2 f) s = .next (s.retire g' 4 (Spec.laneCycles g) false)

/-- R233, R59: the lane immediates write the register of every active thread and no latch; `movhi` keeps bits 15:0. -/
def Sys2Proof.Spec.LaneImmediates : Prop :=
  (∀ e ∈ ([(.addi, fun a i => Spec.wrap (a.toNat + i.toInt)), (.muli, fun a i => Spec.wrap (a.toNat * i.toInt)),
      (.andi, fun a i => a &&& Spec.wrap i.toInt), (.ori, fun a i => a ||| Spec.wrap i.toInt),
      (.xori, fun a i => a ^^^ Spec.wrap i.toInt)] : List ((LaneImm → Instr) × (Word → BitVec 10 → Word))),
    ∀ (f : LaneImm) (s : State) (g : Group),
    Spec.Completes (e.1 f) s g g.active 4 (Spec.laneCycles g) f.e fun g' =>
      Spec.LaneWrites g g' g.active f.d.toNat (fun t => e.2 (g.src f.a t) f.i)) ∧
  (∀ e ∈ ([(.shli, fun a n => Spec.wrap (a.toNat * 2 ^ n)), (.shri, fun a n => Spec.wrap (a.toNat / 2 ^ n)),
      (.sari, fun a n => Spec.wrap (a.toInt / 2 ^ n))] : List ((LaneSh → Instr) × (Word → Nat → Word))),
    ∀ (f : LaneSh) (s : State) (g : Group),
    Spec.Completes (e.1 f) s g g.active 4 (Spec.laneCycles g) f.e fun g' =>
      Spec.LaneWrites g g' g.active f.d.toNat (fun t => e.2 (g.src f.a t) f.n.toNat)) ∧
  (∀ (f : LaneMov) (s : State) (g : Group),
    Spec.Completes (.movi f) s g g.active 4 (Spec.laneCycles g) f.e fun g' =>
      Spec.LaneWrites g g' g.active f.d.toNat (fun _ => Spec.wrap f.i.toInt)) ∧
  ∀ (f : LaneMov) (s : State) (g : Group),
    Spec.Completes (.movhi f) s g g.active 4 (Spec.laneCycles g) f.e fun g' =>
      Spec.LaneWrites g g' g.active f.d.toNat
        (fun t => Spec.wrap (((g.thread t).reg f.d.toNat).toNat % 65536 + f.i.toNat * 65536))

/-- R231, R237, R54: a comparison writes the predicate of each participant, and no latch; `fcmp` sets the flags of its
comparisons. -/
def Sys2Proof.Spec.LaneComparisons : Prop :=
  (∀ (f : CmpF) (s : State) (g : Group),
    Spec.Completes (.cmp f) s g (g.participants f.g) 4 (Spec.laneCycles g) f.e fun g' =>
      ∃ b : Nat → Bool, (∀ t, b t = true ↔ Spec.Cond f.c.toNat (g.src f.a t) (g.src f.b t)) ∧
        Spec.ThreadsAfter g g' (g.participants f.g) (fun t => (g.thread t).setPred f.p.toNat (b t)) ∧
        Spec.LaneFrame g g' [] 0#7) ∧
  (∀ (f : CmpImm) (s : State) (g : Group),
    Spec.Completes (.cmpi f) s g g.active 4 (Spec.laneCycles g) f.e fun g' =>
      ∃ b : Nat → Bool, (∀ t, b t = true ↔ Spec.Cond f.c.toNat (g.src f.a t) (Spec.wrap f.i.toInt)) ∧
        Spec.ThreadsAfter g g' g.active (fun t => (g.thread t).setPred f.p.toNat (b t)) ∧
        Spec.LaneFrame g g' [] 0#7) ∧
  ∀ (f : CmpF) (s : State) (g : Group),
    Spec.Completes (.fcmp f) s g (g.participants f.g) 4 (Spec.laneCycles g) f.e fun g' =>
      let v (t : Nat) : Bool × Flags := fCompare f.c.toNat (g.src f.a t).toNat (g.src f.b t).toNat
      Spec.ThreadsAfter g g' (g.participants f.g) (fun t => (g.thread t).setPred f.p.toNat (v t).1) ∧
      Spec.LaneFrame g g' [] (Spec.flagsOver (g.participants f.g) fun t => (v t).2)

/-- R231, R233, R237: the lane immediates and the comparisons. -/
def Obligations.ImmediatesAndComparisons : Prop := Spec.LaneImmediates ∧ Spec.LaneComparisons

namespace Sys2Proof.Spec

/-! ## Exchange through time (R240 to R243) -/

/-- R241: what thread `t` makes of the accumulator, with its flags. -/
def foldStep (op : FoldOp) (rnd : Nat → Rnd) (x : Nat → Word) (head : Nat → Bool) (acc : Option Word) (t : Nat) :
    Word × Flags :=
  match acc with
  | none => op.enter (x t)
  | some a => if head t then op.enter (x t) else op.step (rnd t) a (op.enter (x t)).1

/-- R241: the accumulator after the threads of a list; none before the first. -/
def accAfter (op : FoldOp) (rnd : Nat → Rnd) (x : Nat → Word) (head : Nat → Bool) (ts : List Nat) : Option Word :=
  ts.foldl (fun acc t => some (foldStep op rnd x head acc t).1) none

/-- R241, R214: the flags of a whole fold. -/
def foldFlags (op : FoldOp) (rnd : Nat → Rnd) (x : Nat → Word) (head : Nat → Bool) (ts : List Nat) : Flags :=
  flagsOver ts fun t =>
    (foldStep op rnd x head (accAfter op rnd x head (ts.filter fun u => decide (u < t))) t).2 ||| (op.enter (x t)).2

end Sys2Proof.Spec

/-- R240, R241: each participant of a scan receives the fold of the participants up to it (before it, when X is set, and
the identity of R136 when it is the first), of a segmented scan the fold since its last segment head, of `rdx` the fold
of all; the fold goes in index order, every source read before any result is written. -/
def Sys2Proof.Spec.FoldsThroughTime : Prop :=
  (∀ (f : ScanF) (s : State) (g : Group),
    Spec.Completes (.scan f) s g (g.participants f.g) 4 (Spec.laneCycles g) f.e fun g' =>
      let ts := g.participants f.g
      let op := FoldOp.ofCode f.o.toNat
      let acc (us : List Nat) : Option Word := Spec.accAfter op (g.laneRnd · 0) (g.src f.a) (fun _ => false) us
      Spec.LaneResults g g' ts f.w f.d.toNat
        (fun t => (acc (ts.filter fun u => if f.x then decide (u < t) else decide (u ≤ t))).getD op.identity)
        (Spec.foldFlags op (g.laneRnd · 0) (g.src f.a) (fun _ => false) ts)) ∧
  (∀ (f : SscanF) (s : State) (g : Group),
    Spec.Completes (.sscan f) s g (g.participants f.g) 4 (Spec.laneCycles g) f.e fun g' =>
      let ts := g.participants f.g
      let op := FoldOp.ofSegCode f.o.toNat
      let head (t : Nat) : Bool := (g.thread t).p.getLsbD f.p.toNat
      Spec.LaneResults g g' ts f.w f.d.toNat
        (fun t => (Spec.accAfter op (g.laneRnd · 0) (g.src f.a) head (ts.filter fun u => decide (u ≤ t))).getD 0#32)
        (Spec.foldFlags op (g.laneRnd · 0) (g.src f.a) head ts)) ∧
  ∀ (f : RdxF) (s : State) (g : Group),
    Spec.Completes (.rdx f) s g (g.participants f.g) 4 (Spec.laneCycles g) f.e fun g' =>
      let ts := g.participants f.g
      let op := FoldOp.ofCode f.o.toNat
      Spec.LaneResults g g' ts f.w f.d.toNat
        (fun _ => (Spec.accAfter op (g.laneRnd · 0) (g.src f.a) (fun _ => false) ts).getD 0#32)
        (Spec.foldFlags op (g.laneRnd · 0) (g.src f.a) (fun _ => false) ts)

/-- R242, R240, R75: `prev` and `next` take from the neighbouring participant, or from the thread's own b at the end of
the row; `bcast` and `perm` take from the thread that b names, and zero from one that does not exist. Each completes
where the latch entries that it takes are valid. The one pass of a `bcast` that has no participant is the model's (log
entry 135). -/
def Obligations.ValuesMoveThroughTime : Prop :=
  (∀ (f : T3) (s : State) (g : Group), prevBadLatch g f = false →
    Spec.Completes (.prev f) s g [] 4 (Spec.laneCycles g) f.e fun g' =>
      let ts := g.participants f.g
      Spec.LaneResults g g' ts f.w f.d.toNat
        (fun t => match (ts.filter fun u => decide (u < t)).getLast? with
          | some u => g.src f.a u
          | none => g.src f.b t) 0#7) ∧
  (∀ (f : T3) (s : State) (g : Group), nextBadLatch g f = false →
    Spec.Completes (.next f) s g [] 4 (Spec.laneCycles g * 2) f.e fun g' =>
      let ts := g.participants f.g
      Spec.LaneResults g g' ts f.w f.d.toNat
        (fun t => match (ts.filter fun u => decide (t < u)).head? with
          | some u => g.src f.a u
          | none => g.src f.b t) 0#7) ∧
  (∀ (f : T3) (s : State) (g : Group), bcastBadLatch g f = false →
    let from_ : Nat := match (g.participants f.g).head? with
      | some t => (g.src f.b t).toNat % 32
      | none => 0
    Spec.Completes (.bcast f) s g [] 4 (Spec.laneCycles g * if from_ ≤ g.active.headD 0 then 1 else 2) f.e fun g' =>
      Spec.LaneResults g g' (g.participants f.g) f.w f.d.toNat
        (fun _ => if g.lmask.getLsbD from_ then g.src f.a from_ else 0#32) 0#7) ∧
  ∀ (f : T3) (s : State) (g : Group), permBadLatch g f = false →
    Spec.Completes (.perm f) s g [] 4 (Spec.laneCycles g * 2) f.e fun g' =>
      Spec.LaneResults g g' (g.participants f.g) f.w f.d.toNat
        (fun t => let u := (g.src f.b t).toNat % 32
          if g.lmask.getLsbD u then g.src f.a u else 0#32) 0#7

/-- R243: the four modes of `vote`, and `rank`. -/
def Sys2Proof.Spec.VoteAndRank : Prop :=
  (∀ (f : VoteF) (s : State) (g : Group),
    Spec.Completes (.vote f) s g (g.participants f.g) 4 (Spec.laneCycles g) f.e fun g' =>
      let ts := g.participants f.g
      ∃ v : Word, Spec.LaneResults g g' ts f.w f.d.toNat (fun _ => v) 0#7 ∧
        (f.m = 0#6 → v = if ∃ t ∈ ts, g.src f.a t ≠ 0#32 then 1#32 else 0#32) ∧
        (f.m = 1#6 → v = if ∀ t ∈ ts, g.src f.a t ≠ 0#32 then 1#32 else 0#32) ∧
        (f.m = 2#6 → ∀ u, u < 32 → (v.getLsbD u = true ↔ u ∈ ts ∧ g.src f.a u ≠ 0#32)) ∧
        (f.m = 3#6 → v = if ∀ t ∈ ts, ∀ u ∈ ts, g.src f.a t = g.src f.a u then 1#32 else 0#32)) ∧
  ∀ (f : T2) (s : State) (g : Group),
    Spec.Completes (.rank f) s g (g.participants f.g) 4 (Spec.laneCycles g) f.e fun g' =>
      let ts := g.participants f.g
      Spec.LaneResults g g' ts f.w f.d.toNat
        (fun t => Spec.wrap ((ts.filter fun u => decide (u < t ∧ g.src f.a u = g.src f.a t)).length : Nat)) 0#7

/-- R241, R243: folds, votes and ranks across a group's threads. -/
def Obligations.FoldsVotesAndRanks : Prop := Spec.FoldsThroughTime ∧ Spec.VoteAndRank

namespace Sys2Proof.Spec

/-! ## Uniform instructions -/

/-- A group after a uniform register is written (R355): the flashback state is void where it was live. -/
def uniWritten (g : Group) (n : Nat) (v : DWord) : Group :=
  { g with s := g.s.setIfInBounds n v, flash := flashAfter g [48 + n] }

/-- wrap_64. -/
def wrap64 (x : Int) : DWord := BitVec.ofInt 64 x

/-- The uniform instructions with two operands (R244). -/
def uniTable : List ((UniF → Instr) × (DWord → DWord → DWord)) :=
  [(.gadd, fun a y => wrap64 (a.toInt + y.toInt)), (.gsub, fun a y => wrap64 (a.toInt - y.toInt)),
   (.gmul, fun a y => wrap64 (a.toInt * y.toInt)), (.gand, fun a y => a &&& y), (.gor, fun a y => a ||| y),
   (.gxor, fun a y => a ^^^ y),
   (.gshl, fun a y => if y.toNat % 256 < 64 then wrap64 (a.toNat * 2 ^ (y.toNat % 256)) else 0#64),
   (.gshr, fun a y => if y.toNat % 256 < 64 then wrap64 (a.toNat / 2 ^ (y.toNat % 256)) else 0#64),
   (.gmin, fun a y => if a.toInt ≤ y.toInt then a else y), (.gmax, fun a y => if a.toInt ≤ y.toInt then y else a)]

end Sys2Proof.Spec

/-- R244, R59, R74: a uniform instruction acts once for the group in one cycle: s_d takes the value of s_a and of s_b or
the sign-extended immediate; nothing else of the group changes, and no flag. -/
def Obligations.UniformArithmetic : Prop :=
  (∀ e ∈ Spec.uniTable, ∀ (f : UniF) (s : State) (g : Group), Spec.Ready (e.1 f) s g g.active →
    exec (e.1 f) s = .next (s.retire (Spec.uniWritten g f.d.toNat
      (e.2 (g.sreg f.a.toNat) (if f.i = 0#7 then g.sreg f.b.toNat else Spec.wrap64 f.i.toInt))) 4 1 f.e)) ∧
  (∀ (f : UniCmp) (s : State) (g : Group), Spec.Ready (.gcmp f) s g g.active →
    ∃ v : DWord, exec (.gcmp f) s = .next (s.retire (Spec.uniWritten g f.d.toNat v) 4 1 f.e) ∧
      (v = 1#64 ∨ v = 0#64) ∧ (v = 1#64 ↔ Spec.Cond f.c.toNat (g.sreg f.a.toNat) (g.sreg f.b.toNat))) ∧
  (∀ (f : UniMov17) (s : State) (g : Group), Spec.Ready (.gmovi f) s g g.active →
    exec (.gmovi f) s = .next (s.retire (Spec.uniWritten g f.d.toNat (Spec.wrap64 f.i.toInt)) 4 1 f.e)) ∧
  ∀ (f : UniMov16) (s : State) (g : Group), Spec.Ready (.gmovhi f) s g g.active →
    exec (.gmovhi f) s = .next (s.retire (Spec.uniWritten g f.d.toNat
      (Spec.wrap64 ((g.sreg f.d.toNat).toNat * 65536 + f.i.toNat))) 4 1 f.e)

/-- R245: `gtake` brings a thread's source into a uniform register, zero from a thread that does not exist; `gput` writes
bits 31:0 of a uniform register in every active thread and no latch; `gballot` gathers a predicate. -/
def Obligations.ThreadsAndGroup : Prop :=
  (∀ (f : TakeF) (s : State) (g : Group), takesBadLatch g f.a [takeThread g f] = false →
    Spec.Ready (.gtake f) s g [] →
    let u := if f.f then g.active.headD 0 else f.t.toNat
    exec (.gtake f) s = .next (s.retire (Spec.uniWritten g f.d.toNat
      (if g.lmask.getLsbD u then BitVec.ofNat 64 (g.src f.a u).toNat else 0#64)) 4 1 f.e)) ∧
  (∀ (f : PutF) (s : State) (g : Group), Spec.Completes (.gput f) s g g.active 4 1 f.e fun g' =>
    Spec.LaneWrites g g' g.active f.d.toNat (fun _ => BitVec.ofNat 32 (g.sreg f.a.toNat).toNat)) ∧
  ∀ (f : BallotF) (s : State) (g : Group), Spec.Ready (.gballot f) s g g.active →
    ∃ v : DWord, exec (.gballot f) s = .next (s.retire (Spec.uniWritten g f.d.toNat v) 4 1 f.e) ∧
      ∀ t, v.getLsbD t = true ↔ t ∈ g.active ∧ (g.thread t).p.getLsbD f.p.toNat = true

namespace Sys2Proof.Spec

/-! ## The vocabulary of memory -/

/-- The byte a core has last written or that its home holds: a dirty byte of its L1, else the home's (R145, R146). -/
def latest (s : State) (core a : Nat) : Byte :=
  match look (a / 64) (s.core core).l1 with
  | some x => if x.dirty[a % 64]?.getD false then x.bytes[a % 64]?.getD 0#8 else s.mem.get a
  | none => s.mem.get a

/-- What an instruction of one group leaves alone, whatever it does to that group, to memory with its caches, to the
translations kept and to the benches. -/
structure Quiet (s t : State) : Prop where
  cur : t.cur = s.cur
  groups : ∀ j, j ≠ s.cur → t.group? j = s.group? j
  rest : (t.agenda, t.fresh, t.grids, t.contexts, t.sets, t.parts, t.queues, t.feGrids, t.wide, t.podEarly) =
    (s.agenda, s.fresh, s.grids, s.contexts, s.sets, s.parts, s.queues, s.feGrids, s.wide, s.podEarly)
  more : (t.ops, t.atc, t.requests, t.invals, t.parked, t.pool, t.base, t.streams, t.keys, t.stir, t.freed, t.sent, t.replies) =
    (s.ops, s.atc, s.requests, s.invals, s.parked, s.pool, s.base, s.streams, s.keys, s.stir, s.freed, s.sent, s.replies)

/-- The issuing group has completed as `k` and goes on `len` bytes further; nothing else of the machine has changed but
memory and its caches. -/
def Done (s t : State) (k : Group) (len cycles : Nat) (e : Bool) : Prop :=
  t.now = s.now + cycles ∧ t.grp = some (({ k with pc := nextPc k.pc len } : Group).finish e t.now) ∧ Quiet s t

/-- No L1 copy of an address holds data of a sector that its owner's slice does not have and DRAM has under another key, or another
slice holds dirty (R324, R329), so that writing the copy back leaves the sector's other bytes as they are. -/
def Keyed (s : State) (core a : Nat) : Prop :=
  ∀ x, look (a / 64) (s.core core).l1 = some x → s.foreign x.own (a / 64) = false

/-- The same, and a write of an owner finds no such sector either; an L1 copy of it is of the same key value. -/
def KeyedFor (s : State) (core : Nat) (o : Owner) (a : Nat) : Prop :=
  Keyed s core a ∧ s.foreign o (a / 64) = false ∧
  ∀ x, look (a / 64) (s.core core).l1 = some x → s.keyValue x.own.key = s.keyValue o.key

/-- Nothing written: every byte is as the core left it, the other cores' L1s and the benches stand. -/
def SameMemory (s t : State) (core : Nat) : Prop :=
  (∀ a, Keyed s core a → latest t core a = latest s core a) ∧ (∀ j, j ≠ core → t.core j = s.core j) ∧ t.blocks = s.blocks

/-- A window that is open, with rights, on a raw page of the module's memory, its pages' ends on 4 KiB (R152, R153). -/
structure OpenRaw (g : Group) (w : Nat) (rd wr : Bool) : Prop where
  fresh  : (g.win w).stale = false
  allows : (rd = true → (g.win w).rd = true) ∧ (wr = true → (g.win w).wr = true)
  raw    : (g.win w).page.fmt = .raw
  rights : (rd = true → (g.win w).page.rd1 = true ∧ (g.win w).page.rd2 = true) ∧
    (wr = true → (g.win w).page.wr1 = true ∧ (g.win w).page.wr2 = true)
  mode   : ¬(g.mode = .user ∧ (g.win w).page.ho = true)
  placed : (g.win w).page.frame % 4096 = 0 ∧ (g.win w).page.vbase % 4096 = 0

/-- The physical address of an offset in a window's first page (R152, R151). -/
def addr (g : Group) (w : Nat) (o : Int) : Nat :=
  foldAlias ((g.win w).page.frame + ((g.win w).va o - (g.win w).page.vbase))

/-- An access of `n` bytes at an offset passes the checks of R153 within the first page, on module memory whose home answers
(R364). -/
structure Reaches (s : State) (g : Group) (w : Nat) (o : Int) (n : Nat) : Prop where
  inside  : 0 ≤ o ∧ o + n ≤ (g.win w).limit.toNat ∧ o + n ≤ (g.win w).span
  aligned : (g.win w).va o % n = 0
  module  : (g.win w).page.frame + ((g.win w).va o - (g.win w).page.vbase) < hostBase
  up      : isDown s (addr g w o) = false

/-- The access reads no damaged data (R187). -/
structure Reads (s : State) (g : Group) (w : Nat) (o : Int) (n : Nat) : Prop extends Reaches s g w o n where
  sound : ∀ j, j < n → (addr g w o + j) % 64 ∉ (look ((addr g w o + j) / 64) s.bad).getD []

/-- A byte as a core's load finds it: with its L1, or past it where the window is pinned, the sector's dirty bytes going home first
(R145, R194). -/
def viewed (s : State) (core : Nat) (o : Owner) (past : Bool) (a : Nat) : Byte :=
  if past then (s.dropSector core (a / 64)).pastL1Byte core o a else s.coreByte core o a

/-- R181 to R183: the machine that an access of an order reads: an acquiring load with a release store of its group before it in program
order acts on the caches before it reads too (log entry 122). -/
def orderedAfter (s : State) (g : Group) (acq : Option Nat) : State :=
  match acq with
  | some sc => if g.relDue then s.acquire g.core sc else s
  | none => s

/-- The group once a load of an order has completed: an acquire at `pkg` or wider leaves no release store before it, and is noted
(R173; log entry 122). -/
def acquiring (g : Group) (acq : Option Nat) : Group :=
  match acq with
  | some sc => { g with relDue := g.relDue && decide (sc < 4), pkgSeen := g.pkgSeen || decide (4 ≤ sc) }
  | none => g

/-- R191: the cache actions of an acquire have been done: no sector is left in the core's L1 but dirty ones whose home is down, and at `pkg`
or wider no line in its die's RDC (R143, R147). -/
def Acquired (t : State) (core : Nat) (acq : Option Nat) : Prop :=
  ∀ sc, acq = some sc →
    (1 ≤ sc → ∀ k x, look k (t.core core).l1 = some x → x.isDirty = true ∧ isDown t (k * 64) = true) ∧
    (4 ≤ sc → (t.die (dieOf core)).rdc = [])

/-- R189: word `i` of what a load of a size writes from bytes. -/
def loadedWord (z : BitVec 3) (bs : Nat → Byte) (i : Nat) : Word :=
  match z.toNat with
  | 0 => wrap (bs 0).toInt
  | 1 => wrap (bs 0).toNat
  | 2 => wrap ((BitVec.ofNat 16 ((bs 0).toNat + 256 * (bs 1).toNat)).toInt)
  | 3 => wrap ((bs 0).toNat + 256 * (bs 1).toNat)
  | _ => wrap ((bs (4 * i)).toNat + 256 * (bs (4 * i + 1)).toNat + 65536 * (bs (4 * i + 2)).toNat +
      16777216 * (bs (4 * i + 3)).toNat)

/-- A thread after words are written to consecutive registers. -/
def wordsIn (x : Thread) (d k : Nat) (w : Nat → Word) : Thread := (List.range k).foldl (fun x i => x.setReg (d + i) (w i)) x

/-- The group after words reach registers d to d + k − 1 of some threads, which wait for them (R72). -/
def WordsArrive (g k : Group) (ts : List Nat) (d n : Nat) (w : Nat → Nat → Word) : Prop :=
  ThreadsAfter g k ts (fun t => wordsIn (g.thread t) d n (w t)) ∧
  { k with threads := g.threads, flash := g.flash, loads := g.loads } = g ∧
  k.flash = flashAfter g (if ts.isEmpty then [] else (List.range n).map (d + ·)) ∧
  ∀ r, r ∈ k.loads ↔ r ∈ g.loads ∨ (d ≤ r ∧ r < d + n)

/-- The registers a size takes. -/
def sizeWords (z : BitVec 3) : Nat := max (sizeBytes z / 4) 1

/-- Byte `i` of what a thread stores from code d (R190). -/
def dataByte (g : Group) (z : BitVec 3) (d : BitVec 6) (t i : Nat) : Byte :=
  let w := if sizeBytes z ≤ 4 then g.src d t else (g.thread t).reg (d.toNat + i / 4)
  BitVec.ofNat 8 (w.toNat / 2 ^ (8 * (i % 4)))

/-- A lane load completes: every active thread takes the bytes its core sees, before the cache actions of an ordered load, which are done
once after the last of them (R191); memory stands. -/
def LoadCompletes (i : Instr) (s : State) (g : Group) (w : Nat) (off : Nat → Int) (z : BitVec 3) (d : BitVec 6)
    (acq : Option Nat) (e : Bool) : Prop :=
  Ready i s g g.active → s.tablesOk → OpenRaw g w true false →
  (∀ t ∈ g.active, Reads s g w (off t) (sizeBytes z) ∧ ((g.win w).pin = true → Keyed s g.core (addr g w (off t)))) →
  ∃ t k, exec i s = .next t ∧ Done s t k 4 (laneCycles g) e ∧ SameMemory s t g.core ∧ Acquired t g.core acq ∧
    WordsArrive (acquiring g acq) k g.active d.toNat (sizeWords z)
      (fun u => loadedWord z fun j =>
        viewed (orderedAfter s g acq) g.core (g.win w).page.own (g.win w).pin (addr g w (off u) + j))

/-- The same for a group of one active thread on any raw page that the checks of R153 find: a later page of the window, host memory. -/
def LoadsAnywhere (i : Instr) (s : State) (g : Group) (w : Nat) (off : Nat → Int) (z : BitVec 3) (d : BitVec 6)
    (acq : Option Nat) (e : Bool) : Prop :=
  Ready i s g g.active → s.tablesOk → ∀ u p v s1, g.active = [u] →
    windowAccess (orderedAfter s g acq) g.core g.asid g.mode (g.win w) (off u) (sizeBytes z) true false = .ok (p, v, s1) →
    p.page.fmt = .raw → s.lost p.pa (sizeBytes z) = false → (v.pin = true → Keyed s g.core p.pa) →
    ∃ t k, exec i s = .next t ∧ Done s t k 4 1 e ∧ SameMemory s t g.core ∧ Acquired t g.core acq ∧
      WordsArrive (acquiring (g.setWin w v) acq) k [u] d.toNat (sizeWords z)
        (fun _ => loadedWord z fun j => viewed (orderedAfter s g acq) g.core p.page.own v.pin (p.pa + j))

/-- A window that is open for reading on a grain page of the module's memory (R152, R153, R155). -/
structure OpenGrain (g : Group) (w : Nat) (rd wr : Bool) : Prop where
  fresh  : (g.win w).stale = false
  allows : (rd = true → (g.win w).rd = true) ∧ (wr = true → (g.win w).wr = true)
  grain  : (g.win w).page.fmt ≠ .raw
  rights : (rd = true → (g.win w).page.rd1 = true ∧ (g.win w).page.rd2 = true) ∧
    (wr = true → (g.win w).page.wr1 = true ∧ (g.win w).page.wr2 = true)
  mode   : ¬(g.mode = .user ∧ (g.win w).page.ho = true)
  module : (g.win w).page.frame + (g.win w).page.span < hostBase
  placed : (g.win w).page.frame % 4096 = 0 ∧ (g.win w).page.vbase % 4096 = 0

/-- The offset of an access in a window's first page. -/
def pageOff (g : Group) (w : Nat) (o : Int) : Nat := (g.win w).va o - (g.win w).page.vbase

/-- R155, R156: the bytes of a block: its packed elements and its two side bytes. -/
def blockBytes (p : Page) (j : Nat) : List Nat :=
  (List.range p.fmt.blockBytes).map (p.blockAddr j) ++ [p.sideAddr j 0, p.sideAddr j 1]

/-- An access of `n` logical bytes passes the checks of R153 within the first page, a grain page whose block answers. -/
structure ReachesGrain (s : State) (g : Group) (w : Nat) (o : Int) (n : Nat) : Prop where
  inside  : 0 ≤ o ∧ o + n ≤ (g.win w).limit.toNat ∧ o + n ≤ (g.win w).span
  aligned : (g.win w).va o % n = 0
  up      : ∀ a ∈ blockBytes (g.win w).page (pageOff g w o / 64), isDown s a = false
  keyed   : ∀ a ∈ blockBytes (g.win w).page (pageOff g w o / 64), KeyedFor s g.core (g.win w).page.own a

/-- R155, R223: the FP32 value of an element of a block, from the bytes its core has last written or its home holds. -/
def grainValue (s : State) (core : Nat) (p : Page) (off : Nat) : Word :=
  let j := off / 64
  let x := ofBytes ((List.range p.fmt.blockBytes).map fun i => latest s core (p.blockAddr j i))
  (⟨(latest s core (p.sideAddr j 0)).toNat, (latest s core (p.sideAddr j 1)).toNat, unpackElems p.fmt x⟩ : GBlock).fp32 p.fmt
    (off % 64 / 4)

/-- R155: a lane load of 4, 8 or 16 bytes from a grain page completes: every active thread takes its elements' FP32 values. -/
def GrainLoadCompletes (i : Instr) (s : State) (g : Group) (w : Nat) (off : Nat → Int) (z : BitVec 3) (d : BitVec 6)
    (acq : Option Nat) (e : Bool) : Prop :=
  Ready i s g g.active → s.tablesOk → OpenGrain g w true false → 4 ≤ z.toNat →
  (∀ t ∈ g.active, ReachesGrain s g w (off t) (sizeBytes z) ∧
    ∀ a ∈ blockBytes (g.win w).page (pageOff g w (off t) / 64), a % 64 ∉ (look (a / 64) s.bad).getD []) →
  ∃ t k, exec i s = .next t ∧ Done s t k 4 (laneCycles g) e ∧ SameMemory s t g.core ∧ Acquired t g.core acq ∧
    WordsArrive (acquiring g acq) k g.active d.toNat (sizeWords z)
      (fun u n => grainValue s g.core (g.win w).page (pageOff g w (off u) + 4 * n))

/-- R157: a lane store of 4, 8 or 16 bytes to a grain page, its active threads writing every element of one block once: the block holds
the sixteen words encoded under R224, each with its thread's rounding, whose flags the group takes; every other byte stands. -/
def GrainStoreCompletes (i : Instr) (s : State) (g : Group) (w : Nat) (off : Nat → Int) (z : BitVec 3) (d : BitVec 6)
    (rel : Option Nat) (e : Bool) : Prop :=
  let n := sizeBytes z
  let p := (g.win w).page
  ∀ j (owner : Nat → Nat), Ready i s g g.active → s.tablesOk → OpenGrain g w false true → 4 ≤ z.toNat →
    g.active.length * n = 64 →
    (∀ u ∈ g.active, ReachesGrain s g w (off u) n ∧ pageOff g w (off u) / 64 = j) →
    (∀ m, m < 16 → owner m ∈ g.active ∧ pageOff g w (off (owner m)) % 64 ≤ 4 * m ∧ 4 * m < pageOff g w (off (owner m)) % 64 + n) →
    (blockBytes p j).Nodup →
    let part (m : Nat) : Nat := m - pageOff g w (off (owner m)) % 64 / 4
    let word (m : Nat) : Word := if n = 4 then g.src d (owner m) else (g.thread (owner m)).reg (d.toNat + part m)
    let r := encodeBlock p.fmt (fun m => g.laneRnd (owner m) (part m)) ((List.range 16).map word)
    ∃ t, exec i s = .next t ∧
      Done s t { (if rel.isSome then { g with flash := none, relDue := true } else g) with fflags := g.fflags ||| r.2 } 4
        (laneCycles g) e ∧
      (∀ c, c ≠ g.core → t.core c = s.core c) ∧ t.blocks = s.blocks ∧
      (∀ m, m < p.fmt.blockBytes → latest t g.core (p.blockAddr j m) = (r.1.packed p.fmt).getD m 0#8) ∧
      latest t g.core (p.sideAddr j 0) = BitVec.ofNat 8 r.1.e ∧ latest t g.core (p.sideAddr j 1) = BitVec.ofNat 8 r.1.mu ∧
      ∀ a, a ∉ blockBytes p j → KeyedFor s g.core p.own a → latest t g.core a = latest s g.core a

/-- A lane store completes: each unit of at most 8 bytes holds what some thread stored to it (R165, R167), and every
other byte stands, but those of a sector that DRAM has under another key than it is now written under (R329). A release at `quad` or
wider has written back what the core held before the first of the stores (R143, R191). -/
def StoreCompletes (i : Instr) (s : State) (g : Group) (w : Nat) (off : Nat → Int) (z : BitVec 3) (d : BitVec 6)
    (rel : Option Nat) (e : Bool) : Prop :=
  Ready i s g g.active → s.tablesOk → OpenRaw g w false true →
  (∀ t ∈ g.active, Reaches s g w (off t) (sizeBytes z)) →
  ∃ t, exec i s = .next t ∧
    Done s t (if rel.isSome then { g with flash := none, relDue := true } else g) 4 (laneCycles g) e ∧
    (∀ sc, rel = some sc → 2 ≤ sc → ∀ a,
      (∀ u ∈ g.active, ¬(addr g w (off u) ≤ a ∧ a < addr g w (off u) + sizeBytes z)) →
      KeyedFor s g.core (g.win w).page.own a → isDown s a = false → t.mem.get a = latest s g.core a) ∧
    (∀ j, j ≠ g.core → t.core j = s.core j) ∧ t.blocks = s.blocks ∧
    (∀ u ∈ g.active, ∀ q, ∃ v ∈ g.active, addr g w (off v) = addr g w (off u) ∧
      ∀ j, j < 8 → 8 * q + j < sizeBytes z →
        latest t g.core (addr g w (off u) + 8 * q + j) = dataByte g z d v (8 * q + j)) ∧
    ∀ a, (∀ u ∈ g.active, ¬(addr g w (off u) ≤ a ∧ a < addr g w (off u) + sizeBytes z)) →
      KeyedFor s g.core (g.win w).page.own a → latest t g.core a = latest s g.core a

/-- The unsigned offset in a source code (R188). -/
def codeOffset (g : Group) (a : BitVec 6) (t : Nat) : Int := (g.src a t).toNat

end Sys2Proof.Spec

/-! ## Memory instructions -/

/-- R188, R189, R191, R192: `ld`, `ldi` and `lda` bring every active thread the bytes at its address as the core sees
them, extended as the size says; the cache actions of `ld.acq` come once, after the last of them; nothing is written, and nothing of the
machine changes but the issuing group and what the caches hold. The same for one thread on any raw page, a window's later pages and host
memory among them. -/
def Sys2Proof.Spec.LoadsReadMemory : Prop :=
  (∀ (f : LaneMem) (s : State) (g : Group),
    Spec.LoadCompletes (.ld f) s g f.w.toNat (Spec.codeOffset g f.a) f.z f.d (if f.o then some f.s.toNat else none) f.e ∧
    Spec.LoadsAnywhere (.ld f) s g f.w.toNat (Spec.codeOffset g f.a) f.z f.d (if f.o then some f.s.toNat else none) f.e) ∧
  (∀ (f : LaneMemImm) (s : State) (g : Group),
    Spec.LoadCompletes (.ldi f) s g f.w.toNat (fun _ => f.i.toInt * sizeBytes f.z) f.z f.d none f.e ∧
    Spec.LoadsAnywhere (.ldi f) s g f.w.toNat (fun _ => f.i.toInt * sizeBytes f.z) f.z f.d none f.e) ∧
  ∀ (f : LdaF) (s : State) (g : Group), f.r = false →
    Spec.LoadCompletes (.lda f) s g f.w.toNat (Spec.codeOffset g f.a) f.z f.d none f.e ∧
    Spec.LoadsAnywhere (.lda f) s g f.w.toNat (Spec.codeOffset g f.a) f.z f.d none f.e

/-- R155, R189: the same loads from a grain page: each thread's elements decoded to FP32. -/
def Sys2Proof.Spec.LoadsReadGrain : Prop :=
  (∀ (f : LaneMem) (s : State) (g : Group),
    Spec.GrainLoadCompletes (.ld f) s g f.w.toNat (Spec.codeOffset g f.a) f.z f.d (if f.o then some f.s.toNat else none) f.e) ∧
  (∀ (f : LaneMemImm) (s : State) (g : Group),
    Spec.GrainLoadCompletes (.ldi f) s g f.w.toNat (fun _ => f.i.toInt * sizeBytes f.z) f.z f.d none f.e) ∧
  ∀ (f : LdaF) (s : State) (g : Group),
    Spec.GrainLoadCompletes (.lda f) s g f.w.toNat (Spec.codeOffset g f.a) f.z f.d none f.e

/-- R159, R192: `lda.rep` completes as `lda` does where the die holds no replica for the context yet; each thread's
bytes are those its core sees or those at the home, where DRAM has them under the page's key. -/
def Sys2Proof.Spec.ReplicaLoadsReadMemory : Prop :=
  ∀ (f : LdaF) (s : State) (g : Group), f.r = true →
    Spec.Ready (.lda f) s g g.active → s.tablesOk → Spec.OpenRaw g f.w.toNat true false →
    (∀ t ∈ g.active, Spec.Reads s g f.w.toNat (Spec.codeOffset g f.a t) (sizeBytes f.z) ∧
      ((g.win f.w.toNat).pin = true → Spec.Keyed s g.core (Spec.addr g f.w.toNat (Spec.codeOffset g f.a t)))) →
    (∀ r ∈ s.replicas, ¬(r.die = dieOf g.core ∧ r.asid = g.asid)) →
    ∃ t k, exec (.lda f) s = .next t ∧ Spec.Done s t k 4 (Spec.laneCycles g) f.e ∧ Spec.SameMemory s t g.core ∧
      ∃ bs : Nat → Nat → Byte,
        Spec.WordsArrive g k g.active f.d.toNat (Spec.sizeWords f.z) (fun u => Spec.loadedWord f.z (bs u)) ∧
        ∀ u ∈ g.active, ∀ a, a = Spec.addr g f.w.toNat (Spec.codeOffset g f.a u) →
          s.foreign (g.win f.w.toNat).page.own (a / 64) = false →
          (∀ j, j < sizeBytes f.z →
            bs u j = Spec.viewed s g.core (g.win f.w.toNat).page.own (g.win f.w.toNat).pin (a + j)) ∨
          (∀ j, j < sizeBytes f.z → bs u j = s.mem.get (a + j))

/-- R188, R189, R191, R192, R155, R159: the lane loads, from raw and from grain pages, those that may keep a replica among
them. That a load reads at its issue, which replica serves it, the bytes of a read under another key, how a load waits
for a die in reset, and what a group that has acquired at `pkg` writes back first are the model's (log entries 10, 15,
90, 120, 122). -/
def Obligations.LaneLoads : Prop := Spec.LoadsReadMemory ∧ Spec.LoadsReadGrain ∧ Spec.ReplicaLoadsReadMemory

/-- R188, R190, R165, R167, R191: `st`, `sti` and `sta` write every active thread's bytes at its address, a unit that
several threads store to taking the value of one of them; every other byte stands, and every register and flag. What
the core held is written back once, before the first store, by `st.rel`. Which of two threads' bytes stands is free,
and how a store waits for a die in reset is the model's (log entries 13, 112, 120). -/
def Obligations.StoresWriteMemory : Prop :=
  (∀ (f : LaneMem) (s : State) (g : Group),
    Spec.StoreCompletes (.st f) s g f.w.toNat (Spec.codeOffset g f.a) f.z f.d (if f.o then some f.s.toNat else none) f.e ∧
    Spec.GrainStoreCompletes (.st f) s g f.w.toNat (Spec.codeOffset g f.a) f.z f.d (if f.o then some f.s.toNat else none) f.e) ∧
  (∀ (f : LaneMemImm) (s : State) (g : Group),
    Spec.StoreCompletes (.sti f) s g f.w.toNat (fun _ => f.i.toInt * sizeBytes f.z) f.z f.d none f.e ∧
    Spec.GrainStoreCompletes (.sti f) s g f.w.toNat (fun _ => f.i.toInt * sizeBytes f.z) f.z f.d none f.e) ∧
  ∀ (f : StaF) (s : State) (g : Group),
    Spec.StoreCompletes (.sta f) s g f.w.toNat (Spec.codeOffset g f.a) f.z f.d none f.e ∧
    Spec.GrainStoreCompletes (.sta f) s g f.w.toNat (Spec.codeOffset g f.a) f.z f.d none f.e

/-- R186, R188: a load in any form (a grain page, host memory, a later page, an acquire, a replica) that no thread's
fault stops writes nothing, and changes of the machine only the issuing group's threads' registers and windows, and what
the caches and the TLB hold. -/
def Obligations.LoadsWriteNothing : Prop :=
  ∀ (i : Instr) (w : BitVec 3) (off : Group → Nat → Int) (z : BitVec 3) (d : BitVec 6) (route : Route) (acq : Option Nat)
    (e : Bool) (s : State) (g : Group), Spec.Ready i s g g.active → s.tablesOk →
    (visit (loadThread w.toNat off z d route) (Spec.orderedAfter s g acq) g.active).2 = none →
    ∃ t k, laneLoad i w off z d route acq e s = .next t ∧ Spec.Done s t k 4 (Spec.laneCycles g) e ∧
      Spec.SameMemory s t g.core ∧
      (∀ u, u < 32 → u ∉ g.active → k.thread u = g.thread u) ∧
      (∀ u, u < 32 → ∀ r, r < d.toNat ∨ d.toNat + Spec.sizeWords z ≤ r → (k.thread u).reg r = (g.thread u).reg r) ∧
      { k with threads := g.threads, flash := g.flash, loads := g.loads, w := g.w } = Spec.acquiring g acq

namespace Sys2Proof.Spec

/-! ## Bench and atomics -/

/-- The bench of a block on a core as a function. -/
def benchByte (s : State) (block core a : Nat) : Byte := (benchOf s block core).get a

/-- A thread's bench access of `n` bytes passes the checks of R144. -/
def BenchReaches (s : State) (g : Group) (a n : Nat) : Prop :=
  ∃ b, s.block? g.block = some b ∧ a + n ≤ b.benchSize ∧ a % n = 0

/-- R61, R196: the new value of a location under an atomic op, from its old value and the registers at d. -/
def atomicValue (op : Nat) (r : Rnd) (old : Nat) (reg : Nat → Word) : Nat :=
  let x := (reg 0).toNat
  let o := BitVec.ofNat 32 old
  let pair (i : Nat) : Nat := (reg i).toNat + 2 ^ 32 * (reg (i + 1)).toNat
  match op with
  | 0 => (old + x) % 2 ^ 32
  | 1 => if o.toInt ≤ (reg 0).toInt then old else x
  | 2 => if o.toInt ≤ (reg 0).toInt then x else old
  | 3 => min old x
  | 4 => max old x
  | 5 => old &&& x
  | 6 => old ||| x
  | 7 => old ^^^ x
  | 8 => x
  | 9 => if old = x then (reg 1).toNat else old
  | 10 => (old + pair 0) % 2 ^ 64
  | 11 => (fAdd fp32 r old x).bits % 2 ^ 32
  | 12 => (fMinMax fp32 false old x).bits % 2 ^ 32
  | 13 => (fMinMax fp32 true old x).bits % 2 ^ 32
  | 14 => (fMinMax fp32 true (fp32.absBits old) (fp32.absBits x)).bits % 2 ^ 32
  | _ => if old = pair 0 then pair 2 else old

/-- The number in `n` bytes. -/
def numberAt (m : Nat → Byte) (a n : Nat) : Nat := ofBytes ((List.range n).map fun i => m (a + i))

/-- R186, R196: the threads' atomics one after another in ascending index: memory after them, and each thread's old
value. -/
def atomics (g : Group) (op : Nat) (d : BitVec 6) (at_ : Nat → Nat) : List Nat → (Nat → Byte) → (Nat → Byte) × (Nat → Nat)
  | [], m => (m, fun _ => 0)
  | t :: ts, m =>
    let n := atomicSize op
    let old := numberAt m (at_ t) n
    let new := atomicValue op (g.laneRnd t 0) old (atomicReg g d t)
    let m' (a : Nat) : Byte :=
      if at_ t ≤ a ∧ a < at_ t + n then BitVec.ofNat 8 (new / 2 ^ (8 * (a - at_ t))) else m a
    let r := atomics g op d at_ ts m'
    (r.1, fun u => if u = t then old else r.2 u)

/-- A window atomic completes where DRAM has the locations under the page's key: the threads' updates in order, each returned old
value in its registers if it is asked for. -/
def AtomicCompletes (i : Instr) (f : AtomF) (back : Bool) (s : State) (g : Group) : Prop :=
  let n := atomicSize f.o.toNat
  let at_ (t : Nat) : Nat := addr g f.w.toNat (codeOffset g f.a t)
  let own := (g.win f.w.toNat).page.own
  let r := atomics g f.o.toNat f.d at_ g.active (latest s g.core)
  Ready i s g g.active → s.tablesOk → OpenRaw g f.w.toNat true true → g.det.atom = [] →
  (g.det.en = false ∨ isFloatOp f.o.toNat = false) →
  (∀ t ∈ g.active, Reads s g f.w.toNat (codeOffset g f.a t) n ∧ KeyedFor s g.core own (at_ t)) →
  ∃ t k, exec i s = .next t ∧ Done s t k 4 (laneCycles g) f.e ∧
    (∀ a, latest t g.core a = r.1 a) ∧ (∀ j, j ≠ g.core → t.core j = s.core j) ∧ t.blocks = s.blocks ∧
    if back then
      WordsArrive { g with flash := none } k g.active f.d.toNat (n / 4) (fun u j => wrap (r.2 u / 2 ^ (32 * j)))
    else k = { g with flash := none }

/-- R210: the contributions that deterministic mode holds back, one for each thread in ascending order, from a count on: where each
thread's location is, its address and owner are given. -/
def heldBack (gid : Nat) (g : Group) (op scope : Nat) (d : BitVec 6) (loc : Nat → Loc) (va : Nat → Nat) (own : Owner) :
    Nat → List Nat → List Contribution
  | _, [] => []
  | n, t :: ts =>
    { gid := gid, grid := g.grid, key := keyOf g t n, loc := loc t, own := own, op := op, x := atomicReg g d t 0,
      rnd := g.laneRnd t 0, core := g.core, scope := scope, due := false, instr := g.pc, va := va t } ::
      heldBack gid g op scope d loc va own (n + 1) ts

/-- The group once its active threads' contributions are counted (R210). -/
def counted (g : Group) : Group :=
  let h := { g with flash := none, det := { g.det with count := g.det.count + g.active.length } }
  g.active.foldl (fun (h : Group) t => h.modThread t fun x => { x with own := x.own + 1 }) h

/-- R178, R197, R210: a floating-point atomic of a deterministic group with room in its buffer. Asked for no value, it completes with its
contributions in the buffer; asked for one, it ends the quantum, so that the buffer goes to the homes as a release at the widest of their
scopes, and waits with its stint ended. No location changes. -/
def HeldBack (i : Instr) (op scope : Nat) (d : BitVec 6) (loc : Nat → Loc) (va : Nat → Nat) (own : Owner) (back e : Bool)
    (s : State) (g : Group) : Prop :=
  let cs := heldBack s.cur g op scope d loc va own g.det.count g.active
  let all := g.det.buffer ++ cs
  Ready i s g g.active → s.tablesOk → g.det.en = true → isFloatOp op = true → g.det.atom = [] → g.active ≠ [] →
  all.length < 256 →
  if back then
    ∃ t h, exec i s = .next t ∧ t.grp = some h ∧ t.now = s.now ∧ SameMemory s t g.core ∧ t.pool = s.pool ++ all ∧
      h.wait = .detAtom ∧ h.pc = g.pc ∧ h.pending = none ∧ h.retired = g.retired ∧ h.sched.inStint = false ∧
      h.det = { g.det with buffer := [], run := 0, count := g.det.count + g.active.length, dest := d.toNat,
                           atom := (g.active.zip cs).map fun x => (x.1, x.2.key, x.2.loc) } ∧
      (∀ r u, (h.thread u).reg r = (g.thread u).reg r) ∧ (∀ j, j ≠ s.cur → t.group? j = s.group? j)
  else
    ∃ t, exec i s = .next t ∧ Done s t { counted g with det := { (counted g).det with buffer := all } } 4 (laneCycles g) e ∧
      SameMemory s t g.core

end Sys2Proof.Spec

/-- R195, R144: `bld` and `bst` read and write the bench of the block on the group's core; nothing outside the bytes
stored changes. -/
def Obligations.BenchAccess : Prop :=
  (∀ (f : BenchF) (s : State) (g : Group), Spec.Ready (.bld f) s g g.active →
    (∀ t ∈ g.active, Spec.BenchReaches s g (g.src f.a t).toNat (sizeBytes f.z)) →
    ∃ t k, exec (.bld f) s = .next t ∧ Spec.Done s t k 4 (Spec.laneCycles g) f.e ∧
      (t.mem, t.cores, t.dies, t.blocks) = (s.mem, s.cores, s.dies, s.blocks) ∧
      Spec.WordsArrive g k g.active f.d.toNat (Spec.sizeWords f.z)
        (fun u => Spec.loadedWord f.z fun j => Spec.benchByte s g.block g.core ((g.src f.a u).toNat + j))) ∧
  ∀ (f : BenchF) (s : State) (g : Group), Spec.Ready (.bst f) s g g.active → s.tablesOk →
    (∀ t ∈ g.active, Spec.BenchReaches s g (g.src f.a t).toNat (sizeBytes f.z)) →
    ∃ t, exec (.bst f) s = .next t ∧ Spec.Done s t g 4 (Spec.laneCycles g) f.e ∧
      (t.mem, t.cores, t.dies) = (s.mem, s.cores, s.dies) ∧
      (∀ b, b ≠ g.block → t.block? b = s.block? b) ∧
      (∀ c, c ≠ g.core → ∀ a, Spec.benchByte t g.block c a = Spec.benchByte s g.block c a) ∧
      (∀ u ∈ g.active, ∀ q, ∃ v ∈ g.active, g.src f.a v = g.src f.a u ∧
        ∀ j, j < 8 → 8 * q + j < sizeBytes f.z →
          Spec.benchByte t g.block g.core ((g.src f.a u).toNat + 8 * q + j) = Spec.dataByte g f.z f.d v (8 * q + j)) ∧
      ∀ a, (∀ u ∈ g.active, ¬((g.src f.a u).toNat ≤ a ∧ a < (g.src f.a u).toNat + sizeBytes f.z)) →
        Spec.benchByte t g.block g.core a = Spec.benchByte s g.block g.core a

/-- R196, R197, R195, R61: `atom`, `red` and `batom` perform the active threads' updates one after another in ascending
index on the newest bytes, an `atom` or `batom` bringing each thread the value its location held; every other byte
stands, in memory and in every bench. Under deterministic mode the floating-point ones are held back until their commit (R178, R197,
R210). -/
def Obligations.AtomicsUpdateInOrder : Prop :=
  (∀ (f : AtomF) (s : State) (g : Group), Spec.AtomicCompletes (.atom f) f true s g) ∧
  (∀ (f : AtomF) (s : State) (g : Group), Spec.AtomicCompletes (.red f) f false s g) ∧
  (∀ (f : AtomF) (s : State) (g : Group) (i : Instr) (back : Bool), (i, back) = (.atom f, true) ∨ (i, back) = (.red f, false) →
    Spec.OpenRaw g f.w.toNat true true →
    (∀ t ∈ g.active, Spec.Reads s g f.w.toNat (Spec.codeOffset g f.a t) 4) →
    Spec.HeldBack i f.o.toNat f.s.toNat f.d (fun t => .home (Spec.addr g f.w.toNat (Spec.codeOffset g f.a t)))
      (fun t => (g.win f.w.toNat).va (Spec.codeOffset g f.a t)) (g.win f.w.toNat).page.own back f.e s g) ∧
  (∀ (f : BatomF) (s : State) (g : Group), (∀ t ∈ g.active, Spec.BenchReaches s g (g.src f.a t).toNat 4) →
    Spec.HeldBack (.batom f) f.o.toNat 1 f.d (fun t => .bench g.block g.core (g.src f.a t).toNat) (fun t => (g.src f.a t).toNat)
      hostOwner true f.e s g) ∧
  ∀ (f : BatomF) (s : State) (g : Group),
    let n := atomicSize f.o.toNat
    let r := Spec.atomics g f.o.toNat f.d (fun t => (g.src f.a t).toNat) g.active (Spec.benchByte s g.block g.core)
    Spec.Ready (.batom f) s g g.active → s.tablesOk → g.det.atom = [] →
    (g.det.en = false ∨ isFloatOp f.o.toNat = false) →
    (∀ t ∈ g.active, Spec.BenchReaches s g (g.src f.a t).toNat n) →
    ∃ t k, exec (.batom f) s = .next t ∧ Spec.Done s t k 4 (Spec.laneCycles g) f.e ∧
      (t.mem, t.cores, t.dies) = (s.mem, s.cores, s.dies) ∧
      (∀ a, Spec.benchByte t g.block g.core a = r.1 a) ∧
      (∀ b, b ≠ g.block → t.block? b = s.block? b) ∧
      (∀ c, c ≠ g.core → ∀ a, Spec.benchByte t g.block c a = Spec.benchByte s g.block c a) ∧
      (∀ x, s.block? g.block = some x → ∃ m, t.block? g.block = some { x with bench := m }) ∧
      Spec.WordsArrive { g with flash := none } k g.active f.d.toNat (n / 4) (fun u j => Spec.wrap (r.2 u / 2 ^ (32 * j)))

/-- R193: `gld` zero-extends the bytes the core sees into a uniform register, which waits for them, and writes nothing;
the cache actions of `gld.acq` come once, after the load (R191). `gst` stores the low bytes of one, and every other
byte stands; `gst.rel` has written back what the core held before it. That the load reads at its issue, a read under
another key, how it waits for a die in reset and the write-back after an acquire at `pkg` are the model's (log entries
10, 90, 120, 122). -/
def Obligations.UniformMemory : Prop :=
  (∀ (f : UniMem) (s : State) (g : Group),
    let n := if f.z = 4#3 then 4 else 8
    let o : Int := (g.sreg f.a.toNat).toNat
    let acq := if f.o then some f.s.toNat else none
    let a := Spec.addr g f.w.toNat o
    Spec.Ready (.gld f) s g g.active → s.tablesOk → Spec.OpenRaw g f.w.toNat true false →
    Spec.Reads s g f.w.toNat o n → ((g.win f.w.toNat).pin = true → Spec.Keyed s g.core a) →
    ∃ t k, exec (.gld f) s = .next t ∧ Spec.Done s t k 4 1 f.e ∧ Spec.SameMemory s t g.core ∧ Spec.Acquired t g.core acq ∧
      { k with loads := g.loads } = Spec.uniWritten (Spec.acquiring g acq) f.d.toNat
        (BitVec.ofNat 64 (ofBytes ((List.range n).map fun j =>
          Spec.viewed (Spec.orderedAfter s g acq) g.core (g.win f.w.toNat).page.own (g.win f.w.toNat).pin (a + j)))) ∧
      ∀ r, r ∈ k.loads ↔ r ∈ g.loads ∨ r = 64 + f.d.toNat) ∧
  ∀ (f : UniMem) (s : State) (g : Group),
    let n := if f.z = 4#3 then 4 else 8
    let o : Int := (g.sreg f.a.toNat).toNat
    let a := Spec.addr g f.w.toNat o
    Spec.Ready (.gst f) s g g.active → s.tablesOk → Spec.OpenRaw g f.w.toNat false true →
    Spec.Reaches s g f.w.toNat o n →
    ∃ t, exec (.gst f) s = .next t ∧ Spec.Done s t { g with flash := none, relDue := g.relDue || f.o } 4 1 f.e ∧
      (∀ j, j ≠ g.core → t.core j = s.core j) ∧ t.blocks = s.blocks ∧
      (∀ j, j < n → Spec.latest t g.core (a + j) = BitVec.ofNat 8 ((g.sreg f.d.toNat).toNat / 2 ^ (8 * j))) ∧
      (f.o = true → 2 ≤ f.s.toNat → ∀ x, ¬(a ≤ x ∧ x < a + n) → Spec.KeyedFor s g.core (g.win f.w.toNat).page.own x →
        isDown s x = false → t.mem.get x = Spec.latest s g.core x) ∧
      ∀ x, ¬(a ≤ x ∧ x < a + n) → Spec.KeyedFor s g.core (g.win f.w.toNat).page.own x →
        Spec.latest t g.core x = Spec.latest s g.core x

namespace Sys2Proof.Spec

/-! ## The vocabulary of control -/

/-- Memory, its caches and the benches exactly as before. -/
def Untouched (s t : State) : Prop :=
  (t.mem, t.l2, t.seals, t.bad, t.watch, t.cores, t.dies, t.blocks, t.replicas) =
    (s.mem, s.l2, s.seals, s.bad, s.watch, s.cores, s.dies, s.blocks, s.replicas)

/-- The issuing group has completed as `k` and goes on at an address; nothing else has changed but the TLB. -/
def Went (s t : State) (k : Group) (pc : VAddr) (e : Bool) : Prop :=
  t.now = s.now + 1 ∧ t.grp = some (({ k with pc := pc } : Group).finish e t.now) ∧ Quiet s t ∧ Untouched s t

/-- A transfer's target passes its checks (R49, R50, R120). -/
def TargetOk (s : State) (g : Group) (va : Nat) : Prop := ∃ s', checkTarget s g va = .ok s'

/-- The address `2 × offset` bytes from the instruction, modulo 2^57 (R40). -/
def target {n : Nat} (g : Group) (off : BitVec n) : Nat := (((g.pc.toNat : Int) + 2 * off.toInt) % 2 ^ 57).toNat

/-- R29: the slots of a line at which an instruction starts, as the length bits of its halfwords lay them out; a slot past 55 stands for
an end outside the line. -/
inductive Starts (line : List Byte) : Nat → Prop
  | first : Starts line 0
  | short {i : Nat} : Starts line i → i < 56 → (line.getD (16 + 2 * i) 0#8).toNat % 2 = 0 → Starts line (i + 1)
  | long {i : Nat} : Starts line i → i < 56 → (line.getD (16 + 2 * i) 0#8).toNat % 2 = 1 → Starts line (i + 2)

/-- R29, R49: a line that control may enter: kind 0 or 2, bits 127:116 zero, a start map of exactly its starts, none of which runs past
the line, and no target bit beside a start. -/
structure SoundLine (line : List Byte) : Prop where
  kind    : ofBytes (line.take 16) / 2 ^ 112 % 16 = 0 ∨ ofBytes (line.take 16) / 2 ^ 112 % 16 = 2
  zero    : ofBytes (line.take 16) / 2 ^ 116 = 0
  starts  : ∀ i, i < 56 → ((ofBytes (line.take 16)).testBit i = true ↔ Starts line i)
  whole   : ¬Starts line 57
  targets : ∀ i, i < 56 → (ofBytes (line.take 16)).testBit (56 + i) = true → Starts line i

/-- The group with the line of an address as the one whose header has been checked. -/
def inLine (g : Group) (va : Nat) : Group := { g with line := some (BitVec.ofNat 57 (va / 128 * 128)) }

/-- The threads of a stack entry; the marker has none. -/
def entryMask : StackEntry → Word
  | .join m _ => m
  | .path _ m _ => m
  | .marker => 0#32

/-- The reconvergence address of a stack's top. -/
def topAddr : List StackEntry → Option VAddr
  | .join _ r :: _ => some r
  | .path _ _ r :: _ => some r
  | _ => none

/-- R83, R84: the top entry that still has a thread, what lies above it being entries without one: the rest of the
stack and the entry. -/
def Leads (lmask : Word) (st : List StackEntry) (dead : List StackEntry) (x : StackEntry) (rest : List StackEntry) : Prop :=
  st = dead ++ x :: rest ∧ (∀ y ∈ dead, y ≠ .marker ∧ entryMask y &&& lmask = 0#32) ∧ entryMask x &&& lmask ≠ 0#32

/-- R105, R124: whether a thread is a receiver of its group's open expansion. -/
def Receives (s : State) (g : Group) (t : Nat) : Prop :=
  ∃ slot member x, g.expand = some (slot, member) ∧ look slot (s.set g.asid g.core).expands = some x ∧
    (x.masks.getD member 0#32).getLsbD t = true

/-- Where a path that an entry leads to goes on. -/
def entryPc : StackEntry → VAddr
  | .path p _ _ => p
  | .join _ r => nextPc r 4
  | .marker => 0#57

end Sys2Proof.Spec

/-! ## Control -/

/-- R117, R83: `br` goes to its target for the whole group, or nowhere, or splits the group: the taken threads go first,
and the others wait in a path entry at the next instruction. A split with an empty stack raises ILLOP, cause 2. -/
def Sys2Proof.Spec.BranchSplits : Prop :=
  ∀ (f : BrF) (s : State) (g : Group), Spec.Ready (.br f) s g g.active →
    let taken (t : Nat) : Prop := t < 32 ∧ g.amask.getLsbD t = true ∧ (f.g = 0#3 ∨ (g.thread t).p.getLsbD f.g.toNat = true)
    let va := Spec.target g f.f
    ((∀ t, t < 32 → g.amask.getLsbD t = true → taken t) → Spec.TargetOk s g va →
      ∃ t, exec (.br f) s = .next t ∧ Spec.Went s t (Spec.inLine g va) (BitVec.ofNat 57 va) f.e) ∧
    (g.amask ≠ 0#32 → (∀ t, ¬taken t) → ∃ t, exec (.br f) s = .next t ∧ Spec.Went s t g (nextPc g.pc 4) f.e) ∧
    ∀ m : Word, (∀ t, t < 32 → (m.getLsbD t = true ↔ taken t)) → m ≠ 0#32 → m ≠ g.amask →
      (∀ r, Spec.topAddr g.stack = some r → g.stack.length < 256 → Spec.TargetOk s g va →
        ∃ t, exec (.br f) s = .next t ∧
          Spec.Went s t { Spec.inLine g va with
            stack := .path (nextPc g.pc 4) (g.amask &&& ~~~m) r :: g.stack, amask := m, replay := none }
            (BitVec.ofNat 57 va) f.e) ∧
      (Spec.topAddr g.stack = none → exec (.br f) s = .next (illop s 2))

/-- R117, R83, R84: `join` pushes the active threads with its reconvergence address; `meet` at that address resumes the
first entry that still has a thread, at its path's address, or behind itself where that is the join entry on top. -/
def Sys2Proof.Spec.JoinAndMeet : Prop :=
  (∀ (f : JmpF) (s : State) (g : Group), Spec.Ready (.join f) s g g.active → g.stack.length < 256 →
    ∃ t, exec (.join f) s = .next t ∧
      Spec.Went s t { g with stack := .join g.amask (BitVec.ofNat 57 (Spec.target g f.f)) :: g.stack } (nextPc g.pc 4) f.e) ∧
  ∀ (f : JmpF) (s : State) (g : Group) (dead rest : List StackEntry) (x : StackEntry),
    Spec.Ready (.meet f) s g g.active → Spec.topAddr g.stack = some (BitVec.ofNat 57 (Spec.target g f.f)) →
    Spec.Leads g.lmask g.stack dead x rest →
    ∃ t, exec (.meet f) s = .next t ∧
      Spec.Went s t { g with stack := rest, amask := Spec.entryMask x &&& g.lmask, replay := none }
        (match dead, x with
          | [], .join _ _ => nextPc g.pc 4
          | _, x => Spec.entryPc x) f.e

/-- R83, R84, R117, R118: divergence and reconvergence. That the target of `br`, `join` and `meet` is taken modulo 2^57 is
the model's (log entry 97). -/
def Obligations.Reconvergence : Prop := Spec.BranchSplits ∧ Spec.JoinAndMeet

/-- R117, R120, R357: `jmp`, `brx`, `call`, `calli` and `ret` transfer the whole group to a checked target; the calls
leave the return point in s31, `calli` reading its target first; the first `jmp` of a recipe ends recipe mode. -/
def Sys2Proof.Spec.TransfersAndCalls : Prop :=
  (∀ (f : JmpF) (s : State) (g : Group), Spec.Ready (.jmp f) s g g.active → Spec.TargetOk s g (Spec.target g f.f) →
    ∃ t, exec (.jmp f) s = .next t ∧ t.now = s.now + 1 ∧
      t.grp = some { ({ Spec.inLine g (Spec.target g f.f) with
        pc := BitVec.ofNat 57 (Spec.target g f.f) } : Group).finish f.e t.now with recipe := false } ∧
      Spec.Quiet s t ∧ Spec.Untouched s t) ∧
  (∀ (f : JmpF) (s : State) (g : Group), Spec.Ready (.call f) s g g.active → Spec.TargetOk s g (Spec.target g f.f) →
    ∃ t, exec (.call f) s = .next t ∧
      Spec.Went s t (Spec.inLine (Spec.uniWritten g 31 (BitVec.ofNat 64 (nextPc g.pc 4).toNat)) (Spec.target g f.f))
        (BitVec.ofNat 57 (Spec.target g f.f)) f.e) ∧
  (∀ (f : RegF) (s : State) (g : Group), Spec.Ready (.calli f) s g g.active →
    let va := (g.sreg f.a.toNat).toNat % 2 ^ 57
    Spec.TargetOk s g va → ∃ t, exec (.calli f) s = .next t ∧
      Spec.Went s t (Spec.inLine (Spec.uniWritten g 31 (BitVec.ofNat 64 (nextPc g.pc 4).toNat)) va) (BitVec.ofNat 57 va) f.e) ∧
  (∀ (f : RegF) (s : State) (g : Group), Spec.Ready (.brx f) s g g.active →
    let va := (g.sreg f.a.toNat).toNat % 2 ^ 57
    Spec.TargetOk s g va → ∃ t, exec (.brx f) s = .next t ∧ Spec.Went s t (Spec.inLine g va) (BitVec.ofNat 57 va) f.e) ∧
  ∀ (f : PlainF) (s : State) (g : Group), Spec.Ready (.ret f) s g g.active →
    let va := (g.sreg 31).toNat % 2 ^ 57
    Spec.TargetOk s g va → ∃ t, exec (.ret f) s = .next t ∧ Spec.Went s t (Spec.inLine g va) (BitVec.ofNat 57 va) f.e

/-- R49, R50, R120: the checks of a target answer for a marked slot alone: an even address past the 16 header bytes of a line that can be
fetched and is sound, whose target map has the slot's bit; an address that is no slot's, an unsound line and a clear target bit are LINE,
and a fetch that fails is its own fault. -/
def Sys2Proof.Spec.TargetsAreMarked : Prop :=
  ∀ (s : State) (g : Group) (va : Nat),
    let slot : Prop := va % 2 = 0 ∧ 16 ≤ va % 128
    (∀ s', checkTarget s g va = .ok s' → slot ∧
      ∃ line, fetchLine s g.core g.asid g.mode va = .ok (line, s') ∧ Spec.SoundLine line ∧
        (ofBytes (line.take 16)).testBit (56 + (va % 128 - 16) / 2) = true) ∧
    (¬slot → checkTarget s g va = .error (plainTrap codeLINE va)) ∧
    (∀ tr, slot → fetchLine s g.core g.asid g.mode va = .error tr → checkTarget s g va = .error tr) ∧
    ∀ line s', slot → fetchLine s g.core g.asid g.mode va = .ok (line, s') →
      (¬Spec.SoundLine line ∨ (ofBytes (line.take 16)).testBit (56 + (va % 128 - 16) / 2) = false →
        checkTarget s g va = .error (plainTrap codeLINE va)) ∧
      (Spec.SoundLine line → (ofBytes (line.take 16)).testBit (56 + (va % 128 - 16) / 2) = true → checkTarget s g va = .ok s')

/-- R50: a transfer whose target's checks fail raises the fault at the transferring instruction, with no other effect: a `br` that some
thread takes, and a `switch` at the targets its threads match, among them. -/
def Sys2Proof.Spec.TransferTargetChecked : Prop :=
  ∀ (s : State) (g : Group) (tr : Trap),
    (∀ f : JmpF, Spec.Ready (.jmp f) s g g.active → checkTarget s g (Spec.target g f.f) = .error tr →
      exec (.jmp f) s = .next (raise s tr g.amask)) ∧
    (∀ f : BrF, Spec.Ready (.br f) s g g.active →
      let taken (t : Nat) : Prop := t < 32 ∧ g.amask.getLsbD t = true ∧ (f.g = 0#3 ∨ (g.thread t).p.getLsbD f.g.toNat = true)
      ((∀ t, t < 32 → g.amask.getLsbD t = true → taken t) ∨ ((∃ t, taken t) ∧ ∃ r, Spec.topAddr g.stack = some r)) →
      checkTarget s g (Spec.target g f.f) = .error tr → exec (.br f) s = .next (raise s tr g.amask)) ∧
    (∀ (f : SwitchF) (s1 : State) (ws : List Nat), Spec.Ready (.switch f) s g g.active → Spec.target g f.f % 4 = 0 →
      readTable s g (Spec.target g f.f) = .ok (some ws, s1) →
      let hits (t i : Nat) : Prop := ws.getD (2 * i) 0 = (g.src f.a t).toNat ∧
        ∀ j, j < i → ws.getD (2 * j) 0 ≠ (g.src f.a t).toNat
      let dest (i : Nat) : Nat :=
        (((Spec.target g f.f : Int) + 2 * signed 32 (ws.getD (2 * i + 1) 0)) % 2 ^ 57).toNat
      let hit (i : Nat) : Prop := ∃ t ∈ g.active, hits t i
      (∀ i, i < ws.length / 2 → g.active ≠ [] → (∀ t ∈ g.active, hits t i) → checkTarget s1 g (dest i) = .error tr →
        exec (.switch f) s = .next (raise s1 tr g.amask)) ∧
      ∀ is : List Nat, (∀ i, i ∈ is ↔ i < ws.length / 2 ∧ hit i) → is.Pairwise (· < ·) → is ≠ [] →
        (∀ i ∈ is, ∃ t ∈ g.active, ¬hits t i) → (∃ r, Spec.topAddr g.stack = some r) →
        checkTargets s1 g (is.map dest) = .error tr → exec (.switch f) s = .next (raise s1 tr g.amask)) ∧
    (∀ f : RegF, Spec.Ready (.brx f) s g g.active → checkTarget s g ((g.sreg f.a.toNat).toNat % 2 ^ 57) = .error tr →
      exec (.brx f) s = .next (raise s tr g.amask)) ∧
    (∀ f : PlainF, Spec.Ready (.ret f) s g g.active → checkTarget s g ((g.sreg 31).toNat % 2 ^ 57) = .error tr →
      exec (.ret f) s = .next (raise s tr g.amask)) ∧
    (∀ f : JmpF, Spec.Ready (.call f) s g g.active → checkTarget s g (Spec.target g f.f) = .error tr →
      exec (.call f) s = .next (raise s tr g.amask)) ∧
    ∀ f : RegF, Spec.Ready (.calli f) s g g.active →
      checkTarget s g ((g.sreg f.a.toNat).toNat % 2 ^ 57) = .error tr →
      exec (.calli f) s = .next (raise s tr g.amask)

/-- R122, R123: a `switch` on a sound table sends each active thread to the target of the first value it matches: all of
them at once, or the first nonempty target's threads now and the others by path entries, in table order from the top,
the unmatched ones at the next instruction last. -/
def Sys2Proof.Spec.SwitchSplits : Prop :=
  ∀ (f : SwitchF) (s s1 : State) (g : Group) (ws : List Nat), Spec.Ready (.switch f) s g g.active → s.tablesOk →
    let ta := Spec.target g f.f
    let n := ws.length / 2
    let hits (t i : Nat) : Prop := ws.getD (2 * i) 0 = (g.src f.a t).toNat ∧
      ∀ j, j < i → ws.getD (2 * j) 0 ≠ (g.src f.a t).toNat
    let dest (i : Nat) : Nat := (((ta : Int) + 2 * signed 32 (ws.getD (2 * i + 1) 0)) % 2 ^ 57).toNat
    ta % 4 = 0 → readTable s g ta = .ok (some ws, s1) →
    ((∀ t ∈ g.active, ∀ i, i < n → ¬hits t i) →
      ∃ t, exec (.switch f) s = .next t ∧ Spec.Done s t g 4 1 f.e ∧ Spec.SameMemory s t g.core) ∧
    (∀ i, i < n → g.active ≠ [] → (∀ t ∈ g.active, hits t i) → Spec.TargetOk s1 g (dest i) →
      ∃ t, exec (.switch f) s = .next t ∧ Spec.SameMemory s t g.core ∧ Spec.Quiet s t ∧ t.now = s.now + 1 ∧
        t.grp = some (({ Spec.inLine g (dest i) with pc := BitVec.ofNat 57 (dest i) } : Group).finish f.e t.now)) ∧
    ∀ (i : Nat) (more : List Nat) (mask : Nat → Word) (rest : Word) (r : VAddr) (s2 : State),
      (∀ j t, t < 32 → ((mask j).getLsbD t = true ↔ t ∈ g.active ∧ j < n ∧ hits t j)) →
      (∀ t, t < 32 → (rest.getLsbD t = true ↔ t ∈ g.active ∧ ∀ j, j < n → ¬hits t j)) →
      (List.range n).filter (fun j => mask j != 0#32) = i :: more → mask i ≠ g.amask →
      Spec.topAddr g.stack = some r → g.stack.length + n + 1 ≤ 256 → checkTargets s1 g ((i :: more).map dest) = .ok s2 →
      ∃ t, exec (.switch f) s = .next t ∧ Spec.SameMemory s t g.core ∧ Spec.Quiet s t ∧ t.now = s.now + 1 ∧
        t.grp = some (({ Spec.inLine g (dest i) with
          pc := BitVec.ofNat 57 (dest i)
          amask := mask i
          replay := none
          stack := (more.map fun j => StackEntry.path (BitVec.ofNat 57 (dest j)) (mask j) r) ++
            (if rest = 0#32 then [] else [.path (nextPc g.pc 4) rest r]) ++ g.stack } : Group).finish f.e t.now)

/-- R49, R50, R117, R120 to R123: transfers of control: where they go, which targets are marked slots and what another
does, how `switch` splits. That a register's target is its bits 56:0, that a target is taken modulo 2^57, that a table
may run on into a line of any kind, and LINE before a malformed header, are the model's (log entries 23, 97, 113,
130). -/
def Obligations.TransfersOfControl : Prop := Spec.TransfersAndCalls ∧ Spec.TargetsAreMarked ∧ Spec.TransferTargetChecked ∧ Spec.SwitchSplits

/-- R124, R84: `exit` takes its threads out of the group's masks and of every stack entry; the rest of the active
threads go on, or the next path does; a group left without a thread is gone. An `exit` that would remove a receiver of an open expansion
is ILLOP, cause 2, with no effect. -/
def Obligations.ExitRemovesThreads : Prop :=
  (∀ (f : ExitF) (s : State) (g : Group), s.grp = some g → (∃ t ∈ g.participants f.g, Spec.Receives s g t) →
    exec (.exit f) s = .next (illop s 2)) ∧
  ∀ (f : ExitF) (s : State) (g : Group) (gone : Word), Spec.Ready (.exit f) s g g.active → g.det.en = false →
    (∀ t, t < 32 → (gone.getLsbD t = true ↔ t ∈ g.participants f.g)) → (∀ t ∈ g.participants f.g, ¬Spec.Receives s g t) →
    (∀ t, (g.thread t).ticket = none) → s.tablesOk →
    let cut (x : StackEntry) : StackEntry := match x with
      | .join m r => .join (m &&& ~~~gone) r
      | .path p m r => .path p (m &&& ~~~gone) r
      | .marker => .marker
    let left := g.lmask &&& ~~~gone
    (left ≠ 0#32 → g.amask &&& ~~~gone ≠ 0#32 →
      ∃ t, exec (.exit f) s = .next t ∧
        Spec.Went s t { g with lmask := left, amask := g.amask &&& ~~~gone, stack := g.stack.map cut, flash := none,
                               replay := g.replay.map fun m => m &&& ~~~gone } (nextPc g.pc 4) f.e) ∧
    (∀ dead x rest, left ≠ 0#32 → g.amask &&& ~~~gone = 0#32 → Spec.Leads left (g.stack.map cut) dead x rest →
      ∃ t, exec (.exit f) s = .next t ∧
        Spec.Went s t { g with lmask := left, amask := Spec.entryMask x &&& left, stack := rest, flash := none,
                               replay := none } (Spec.entryPc x) f.e) ∧
    (left = 0#32 → ∃ t, exec (.exit f) s = .next t ∧ t.group? s.cur = none)

/-- R125, R32, R97, R77: `nop`, in both sizes, changes nothing but the program counter; `yield` ends the stint, and the
items of the entries its group has spawned to, whichever grid's they are, become packed groups at once, one of each grid's items for each
entry; every other item, set and register stands. -/
def Sys2Proof.Spec.NopAndYield : Prop :=
  (∀ (s : State) (g : Group), Spec.Ready .nop_16 s g g.active →
    ∃ t, exec .nop_16 s = .next t ∧ Spec.Went s t g (nextPc g.pc 2) false) ∧
  (∀ (f : PlainF) (s : State) (g : Group), Spec.Ready (.nop f) s g g.active →
    ∃ t, exec (.nop f) s = .next t ∧ Spec.Went s t g (nextPc g.pc 4) f.e) ∧
  ∀ (f : PlainF) (s : State) (g : Group), Spec.Ready (.yield f) s g g.active →
    let x := s.set g.asid g.core
    ∃ t, exec (.yield f) s = .next t ∧ Spec.Went s { t with sets := s.sets } g (nextPc g.pc 4) true ∧
      (g.scribe = false → g.deposit = false → ∀ h, t.grp = some h → h.sched.inStint = false) ∧
      (g.spawned = [] → t.sets = s.sets) ∧ (∀ k, k ≠ g.asid * 256 + g.core → look k t.sets = look k s.sets) ∧
      let y := t.set g.asid g.core
      { y with items := x.items, formed := x.formed } = x ∧
      (∀ n, n ∉ g.spawned → ∀ m, itemsFor y n m = itemsFor x n m) ∧
      (∀ n ∈ g.spawned, ∀ m, (itemsFor x n m).length ≤ 32 → itemsFor y n m = []) ∧
      ((∀ n m, (itemsFor x n m).length ≤ 32) → ∃ new, y.formed = x.formed ++ new ∧
        (∀ q ∈ new, ∃ n ∈ g.spawned, ∃ m, q.items = itemsFor x n m ∧ q.items ≠ []) ∧
        ∀ n ∈ g.spawned, ∀ m, itemsFor x n m ≠ [] → new.filter (fun q => q.items == itemsFor x n m) = [⟨itemsFor x n m⟩])

/-- R126, R110: `wait` on a word that DRAM has under the page's key completes when the word differs from the value, as the newest
bytes have it, with the cache actions of an acquire at its scope, and memory stands; when they are equal the group leaves its slot, not ready, watching for a write of the word's
sector for at most 4,096 cycles. -/
def Sys2Proof.Spec.WaitTestsWord : Prop :=
  ∀ (f : WaitF) (s : State) (g : Group),
    let n := if f.z = 4#3 then 4 else 8
    let o : Int := (g.sreg f.a.toNat).toNat
    let a := Spec.addr g f.w.toNat o
    let same : Prop := Spec.numberAt (Spec.latest s g.core) a n = (g.sreg f.b.toNat).toNat % 2 ^ (8 * n)
    Spec.Ready (.wait f) s g g.active → s.tablesOk → g.det.en = false → Spec.OpenRaw g f.w.toNat true false →
    Spec.Reads s g f.w.toNat o n → Spec.KeyedFor s g.core (g.win f.w.toNat).page.own a →
    (¬same → ∃ t, exec (.wait f) s = .next t ∧ Spec.Done s t { g with pkgSeen := g.pkgSeen || decide (4 ≤ f.s.toNat) } 4 1 f.e ∧
      Spec.SameMemory s t g.core ∧ Spec.Acquired t g.core (some f.s.toNat)) ∧
    (same → ∃ t h k, exec (.wait f) s = .next t ∧ t.now = s.now ∧ t.grp = some h ∧ h.pc = g.pc ∧
      look (a / 64) t.watch = some k ∧ h.wait = .word (a / 64) k (s.now + 4096) ∧ h.sched.lane = none ∧
      h.sched.inStint = false ∧ ∀ x, Spec.Keyed s g.core x → Spec.latest t g.core x = Spec.latest s g.core x)

/-- R32, R82, R110: `nop`, `yield` and `wait`. That `wait` counts every write from its start, and PERM for a grain page in
host memory, are the model's (log entries 18, 132). -/
def Obligations.NopYieldAndWait : Prop := Spec.NopAndYield ∧ Spec.WaitTestsWord

/-- R194: `wopen` opens a window over the page that its base translates to, with the limit capped at 2^32 and the flags
of its word; R172, R198, R143: `fence` changes no register and no byte that its core has written: a release puts every
byte the core has written at its home, an acquire empties the levels the scope names, where the homes answer (R364). -/
def Sys2Proof.Spec.WindowsAndFences : Prop :=
  (∀ (f : WopenF) (s s1 : State) (g : Group) (p : Page),
    let x := (g.sreg f.a.toNat).toNat
    Spec.Ready (.wopen f) s g g.active → (x / 2 ^ 56 = 0 ∨ x / 2 ^ 56 = 255) →
    translate s g.core g.asid g.mode (accessOf f.r f.x) (x % 2 ^ 57) = .ok (p, s1) →
    ¬(f.n = true ∧ isHost p.frame = true) → (p.fmt = .raw ∨ x % 64 = 0) →
    let opened : Window :=
      { set := true, base := BitVec.ofNat 57 x, limit := BitVec.ofNat 33 (min (g.sreg f.b.toNat).toNat (2 ^ 32)),
        rd := f.r, wr := f.x, pin := f.n, stale := false, page := p }
    ∃ t, exec (.wopen f) s = .next t ∧
      Spec.Went s t { g with w := g.w.setIfInBounds f.w.toNat opened } (nextPc g.pc 4) f.e) ∧
  ∀ (f : FenceF) (s : State) (g : Group), Spec.Ready (.fence f) s g g.active → s.tablesOk →
    let rel : Prop := f.k ≠ 0#2
    let acq : Prop := f.k ≠ 1#2
    ∃ t, exec (.fence f) s = .next t ∧
      Spec.Done s t (if f.k = 1#2 then g else { g with pkgSeen := g.pkgSeen || decide (4 ≤ f.s.toNat) }) 4 1 f.e ∧
      Spec.SameMemory s t g.core ∧
      ((rel ∧ 2 ≤ f.s.toNat ∨ acq ∧ 1 ≤ f.s.toNat) →
        ∀ a, Spec.Keyed s g.core a → isDown s a = false → t.mem.get a = Spec.latest s g.core a) ∧
      (¬(rel ∧ 2 ≤ f.s.toNat) → ¬(acq ∧ 1 ≤ f.s.toNat) → t.mem = s.mem) ∧
      (acq → Spec.Acquired t g.core (some f.s.toNat))

/-- R199, R326: `cache` over a range whose checks pass completes with every register as it was: a length of zero does nothing, prefetch
changes nothing; write-back loses no byte and leaves none of its range dirty in the core's L1 or in its slices of L2; invalidation leaves
no copy of a byte of its range that the page's partition has in an L1, in its part of an RDC or in its slices of L2, so that it has the
value DRAM held, and changes no byte that L2 did not hold; pin and unpin
change the pins of the group's partition alone. On one page, pin adds the range's lines that are not yet pinned, each once, where they
stay within PINQ, and no copy of them stays in an L1, what was dirty there going home; past PINQ it raises PERM and pins none; unpin takes
the range's lines away and touches no memory. -/
def Sys2Proof.Spec.CacheControl : Prop :=
  ∀ (f : CacheF) (s : State) (g : Group), Spec.Ready (.cache f) s g g.active → s.tablesOk →
    ¬((f.o = 3#4 ∨ f.o = 4#4) ∧ g.mode = .user ∧ (g.win f.w.toNat).pin = false) →
    let a := (g.sreg f.a.toNat).toNat
    let b := (g.sreg f.b.toNat).toNat
    let w := g.win f.w.toNat
    let op := f.o.toNat
    let part : Nat := ((s.ctx? g.asid).map (·.part)).getD 0
    let old := s.part part
    (b = 0 → ∃ t, exec (.cache f) s = .next t ∧ Spec.Went s t g (nextPc g.pc 4) f.e) ∧
    (b ≠ 0 → cacheCheck w op a b = none →
      (cachePages g part op (if op = 2 then .write else .read) (b / 65536 + 2) s (w.va a) (w.va a + b - 1)).2 = none →
      ∃ t, exec (.cache f) s = .next t ∧ Spec.Done { s with parts := t.parts } t g 4 1 f.e ∧
        (op = 0 → Spec.Untouched s t) ∧ (op ≤ 1 → Spec.SameMemory s t g.core ∧ t.parts = s.parts) ∧
        (op = 2 → t.parts = s.parts ∧ (∀ j, { t.core j with l1 := [] } = { s.core j with l1 := [] }) ∧
          ∀ x, look (x / 64) s.l2 = none → t.mem.get x = s.mem.get x) ∧
        (3 ≤ op → (∀ p, p ≠ part → t.part p = s.part p) ∧ { t.part part with pins := old.pins } = old) ∧
        (op = 4 → Spec.Untouched s t)) ∧
    ∀ p s1, b ≠ 0 → cacheCheck w op a b = none →
      translate s g.core g.asid g.mode (if op = 2 then .write else .read) (w.va a) = .ok (p, s1) → p.fmt = .raw →
      p.frame % 4096 = 0 → p.frame + p.span ≤ 0x20000000000 → w.va a + b ≤ p.vbase + p.span → p.vbase ≤ w.va a →
      let pa (o : Nat) : Nat := p.frame + (w.va a + o - p.vbase)
      let lines := (List.range (pa (b - 1) / 256 + 1 - pa 0 / 256)).map (pa 0 / 256 + ·)
      let new := lines.filter fun l => !old.pins.contains l
      (op ≠ 0 → ∀ l ∈ lines, isDown s (256 * l) = false) →
      (op = 1 → ∃ t, exec (.cache f) s = .next t ∧ Spec.Done s t g 4 1 f.e ∧ Spec.SameMemory s t g.core ∧ ∀ o, o < b →
        (look (pa o / 64) t.l2 = none ∨ t.elsewhere p.own (pa o / 64) = true) ∧
        (∀ x, look (pa o / 64) (t.core g.core).l1 = some x → x.isDirty = false) ∧
        (Spec.Keyed s g.core (pa o) → t.mem.get (pa o) = Spec.latest s g.core (pa o))) ∧
      (op = 2 → ∃ t, exec (.cache f) s = .next t ∧ Spec.Done s t g 4 1 f.e ∧ ∀ o, o < b →
        (∀ j x, look (pa o / 64) (t.core j).l1 = some x → x.own.part ≠ p.part) ∧
          (∀ d x, look (pa o / 256) (t.die d).rdc = some x → x.slot ≠ s.slotOf p.own (pa o / 256 * 256)) ∧
          (look (pa o / 64) t.l2 = none ∨ t.elsewhere p.own (pa o / 64) = true) ∧
          t.mem.get (pa o) = match look (pa o / 64) s.l2 with
            | some x => if s.elsewhere p.own (pa o / 64) then s.mem.get (pa o) else x.old.getD (pa o % 64) 0#8
            | none => s.mem.get (pa o)) ∧
      (op = 3 → old.pins.length + new.length ≤ old.pinq →
        ∃ t, exec (.cache f) s = .next t ∧ Spec.Done { s with parts := t.parts } t g 4 1 f.e ∧
          (∀ q, q ≠ part → t.part q = s.part q) ∧ t.part part = { old with pins := old.pins ++ new } ∧
          (∀ x, x / 256 ∉ new → t.mem.get x = s.mem.get x) ∧
          (∀ c k, k / 4 ∉ new → look k (t.core c).l1 = look k (s.core c).l1) ∧
          (∀ c k, k / 4 ∈ new → look k (t.core c).l1 = none) ∧
          ∀ x c, x / 256 ∈ new → Spec.Keyed s c x →
            (∀ j y, j ≠ c → look (x / 64) (s.core j).l1 = some y → y.isDirty = false) → t.mem.get x = Spec.latest s c x) ∧
      (op = 3 → old.pinq < old.pins.length + new.length →
        exec (.cache f) s = .next (raiseAll s1 (plainTrap codePERM (w.va a)))) ∧
      (op = 4 → ∃ t, exec (.cache f) s = .next t ∧ Spec.Done { s with parts := t.parts } t g 4 1 f.e ∧ Spec.Untouched s t ∧
        (∀ q, q ≠ part → t.part q = s.part q) ∧
        t.part part = { old with pins := old.pins.filter fun l => !lines.contains l })

/-- R152, R143, R198, R199: windows, fences and cache control. That the read after `cache.inv` gives what DRAM holds is
the model's reading (log entry 22). -/
def Obligations.WindowsFencesAndCaches : Prop := Spec.WindowsAndFences ∧ Spec.CacheControl

namespace Sys2Proof.Spec

/-! ## The vocabulary of traps -/

/-- The trap frame of a group is at a raw place that its handler may update, at the start of a sector. -/
def FrameAt (s : State) (g : Group) (c : Context) (pa : Nat) : Prop :=
  pa % 64 = 0 ∧ ∃ p s1, translate s g.core g.asid .handler .update (frameAddr c g) = .ok (p, s1) ∧
    p.rawPlace s1 g.asid .write (frameAddr c g) = .ok pa

/-- R340: bits 31:16 of a record. -/
def reportBits (r : Report) : Nat :=
  let flag (b : Bool) (i : Nat) : Nat := if b then 2 ^ i else 0
  flag r.host 0 + flag r.refused 1 + (match r.walk with | some w => 2 ^ 11 + w.1 * 2 ^ 2 + w.2 * 2 ^ 3 | none => 0) +
    flag r.expand.isSome 6 + flag r.matrix.isSome 7 + flag r.engine.isSome 8 + flag r.inH 9 + flag r.wasPending 10

/-- R340: the record of a group's event in memory, but for its sequence number. -/
structure RecordHolds (m : Nat → Byte) (pa : Nat) (g : Group) (ev : Event) : Prop where
  code   : m pa = BitVec.ofNat 8 ev.code
  cause  : m (pa + 1) = BitVec.ofNat 8 ev.cause
  bits   : numberAt m (pa + 2) 2 = reportBits ev.report
  shown  : numberAt m (pa + 0x04) 4 = ev.shown.toNat
  instr  : numberAt m (pa + 0x08) 8 = ev.instr.toNat
  info   : numberAt m (pa + 0x10) 8 = ev.info.toNat
  grpid  : numberAt m (pa + 0x18) 8 = g.grpid.toNat
  bidx   : numberAt m (pa + 0x20) 4 = g.bidx % 2 ^ 32
  place  : g.core < 256 → g.sched.lane.getD 0 < 128 → g.asid < 2048 →
    numberAt m (pa + 0x24) 4 = g.core + g.sched.lane.getD 0 * 2 ^ 8 + g.asid * 2 ^ 16
  expand : numberAt m (pa + 0x28) 8 = (ev.report.expand.getD 0#64).toNat
  matrix : numberAt m (pa + 0x30) 8 = (ev.report.matrix.getD 0#64).toNat

/-- R344: a window in its 16 bytes of a frame. -/
structure WindowIn (m : Nat → Byte) (a : Nat) (w : Window) : Prop where
  base  : w.base.toNat = numberAt m a 8
  limit : w.limit.toNat = numberAt m (a + 8) 5
  flags : w.rd = (m (a + 13)).getLsbD 0 ∧ w.wr = (m (a + 13)).getLsbD 1 ∧ w.pin = (m (a + 13)).getLsbD 2 ∧
    w.set = (m (a + 13)).getLsbD 3
  zeros : (m (a + 13)).toNat < 16 ∧ numberAt m (a + 14) 2 = 0

/-- R344, R345: the fields of a frame in memory, at their offsets: the record of the event, or the record that the host delivers
with its refused bit (R341). -/
structure FrameHolds (m : Nat → Byte) (pa : Nat) (g : Group) (ev : Event) (saved : Word) : Prop where
  record  : ev.report.posted = none → RecordHolds m pa g ev ∧ numberAt m (pa + 0x38) 8 = 0
  posted  : ∀ ws : Vector DWord 8, ev.report.posted = some ws → numberAt m pa 8 = (ws[0] ||| 0x20000#64).toNat ∧
    ∀ i : Fin 8, i ≠ 0 → numberAt m (pa + 8 * i.val) 8 = ws[i].toNat
  epc     : numberAt m (pa + 0x40) 8 = ev.epc.toNat
  kept    : numberAt m (pa + 0x48) 4 = saved.toNat
  replay  : numberAt m (pa + 0x4C) 4 = ev.replay.toNat
  sregs   : ∀ i, i < 8 → numberAt m (pa + 0x50 + 8 * i) 8 = (g.sreg (24 + i)).toNat
  win6    : WindowIn m (pa + 0x90) (g.win 6)
  win7    : WindowIn m (pa + 0xA0) (g.win 7)
  fpmode  : numberAt m (pa + 0xB0) 8 = g.fpmode.toNat
  fflags  : numberAt m (pa + 0xB8) 8 = g.fflags.toNat
  zeros   : ∀ i, i < 64 → m (pa + 0xC0 + i) = 0#8
  request : ev.code = 16 → ∀ t, saved.getLsbD t = true → ∀ i, i < 4 →
    numberAt m (pa + 0x100 + 16 * t + 4 * i) 4 = ((g.thread t).reg i).toNat
  reply   : ev.code = 16 → ∀ t, t < 32 → numberAt m (pa + 0x300 + 4 * t) 4 = 0

/-- R345: the handler of a group is entered with an event: the frame written, the marker pushed, its registers and its
windows set, FPMODE and FFLAGS cleared, mode H, the pc at slot 0 of the handler's line; everything else of the group, and
every byte outside the frame's head and, for TCALL, its requests and replies, stands. -/
def Entered (s t : State) (gid : Nat) (g : Group) (c : Context) (ev : Event) (pa : Nat) : Prop :=
  let saved := (g.replay.getD g.amask) &&& g.lmask
  ∃ h, t.group? gid = some h ∧ h.mode = .handler ∧ h.pc = BitVec.ofNat 57 (c.hline + 16) ∧
    h.stack = .marker :: g.stack ∧ h.amask = (if ev.replay = 0#32 then saved else ev.replay) ∧
    h.fpmode = 0#3 ∧ h.fflags = 0#7 ∧ h.sreg 24 = BitVec.ofNat 64 (frameAddr c g) ∧
    (h.sreg 25).toNat = numberAt (latest t g.core) pa 4 ∧
    (∀ i, 2 ≤ i → i < 8 → h.sreg (24 + i) = 0#64) ∧ (∀ i, i < 24 → h.sreg i = g.sreg i) ∧
    (h.win 6).set = false ∧ (h.win 7).set = true ∧ (h.win 7).base = BitVec.ofNat 57 (frameAddr c g) ∧
    (h.win 7).limit = 1024#33 ∧ (h.win 7).rd = true ∧ (h.win 7).wr = true ∧ (∀ i, i < 6 → h.win i = g.win i) ∧
    h.wait = .none ∧ h.sched.inStint = false ∧ h.fresh = true ∧ h.line = none ∧ h.threads = g.threads ∧
    h.lmask = g.lmask ∧ h.retired = g.retired ∧ h.ftrapen = g.ftrapen ∧ h.fpseed = g.fpseed ∧
    FrameHolds (latest t g.core) pa g ev saved ∧
    (∀ a, a < pa ∨ pa + 0x380 ≤ a ∨ (ev.code ≠ 16 ∧ pa + 0x100 ≤ a) → latest t g.core a = latest s g.core a) ∧
    (∀ j, j ≠ gid → t.group? j = s.group? j) ∧ t.contexts = s.contexts ∧ t.sent = s.sent

/-- R338, R339: the fault buffer takes a context's next record at a place of memory. -/
def RecordFits (s : State) (asid : Nat) (c : Context) (pa : Nat) : Prop :=
  c.waiting = [] ∧ c.seq - c.fbtail < c.fslots ∧
  ∃ p, walk s asid (c.fbase + 64 * (c.seq % c.fslots)) = .ok p ∧ p.wr1 = true ∧ p.wr2 = true ∧
    p.rawPlace s asid .write (c.fbase + 64 * (c.seq % c.fslots)) = .ok pa

/-- R335, R338, R339, R371: the event is the host's: its record has the next number and stands in the buffer, the host is
signalled, and the group waits at the event's address with the mask it had; a host page it lacks is requested, at once where fewer
than 512 requests are outstanding (R320, R321). -/
def AtHost (s t : State) (gid : Nat) (g : Group) (c : Context) (ev : Event) (pa : Nat) : Prop :=
  (∃ h, t.group? gid = some h ∧ h.wait = .host ∧ h.pc = ev.epc ∧ h.amask = (g.replay.getD g.amask) &&& g.lmask ∧
    h.sched.inStint = false ∧ h.mode = g.mode ∧ h.threads = g.threads ∧ h.s = g.s ∧ h.stack = g.stack) ∧
  (∃ c', t.ctx? g.asid = some c' ∧ c'.seq = c.seq + 1 ∧ c'.fbhead = c.seq + 1 ∧ c'.fbtail = c.fbtail) ∧
  RecordHolds t.mem.get pa g ev ∧ numberAt t.mem.get (pa + 0x38) 8 = c.seq % 2 ^ 64 ∧
  (∀ a, a < pa ∨ pa + 64 ≤ a → t.mem.get a = s.mem.get a) ∧ (∀ j, j ≠ gid → t.group? j = s.group? j) ∧
  let now : Bool := decide ((s.requests.filter fun e => e.2.sent).length < 512)
  match ev.report.ask with
  | none => t.sent = s.sent ++ [.signal (c.part + 1) 8, .signal 0 1] ∧ t.requests = s.requests
  | some (page, rd, wr) =>
    t.sent = s.sent ++ [.signal (c.part + 1) 8, .signal 0 1] ++ (if now then [.pageRequest c.pasid page rd wr] else []) ∧
      look s.fresh t.requests = some ⟨g.asid, c.seq, page, rd, wr, now⟩

/-- The group as its trapping instruction leaves it, retired, at the next start. -/
def trapped (s : State) (g : Group) (e : Bool) : Group := ({ g with pc := nextPc g.pc 4 } : Group).finish e (s.now + 1)

/-- The event of an instruction that resumes at the next one (R335), PARKED showing an empty mask (R340). -/
def afterEvent (s : State) (g : Group) (e : Bool) (code : Nat) (info : DWord) : Event :=
  { code := code, epc := (trapped s g e).pc, replay := 0#32, info := info, instr := g.pc,
    shown := if code = 19 then 0#32 else g.amask, report := { inH := g.mode == .handler } }

/-- The instructions whose operand rules look at more of the machine than the group's fetch state (R51, cause 2; R199, cause 5). -/
def stateChecked : Instr → Bool
  | .switch _ | .exit _ | .mark _ | .path _ | .seg _ | .pend _ | .tblend _ | .tbind _ | .tload _ | .covget _ | .cdep _ => true
  | .cscan _ | .clpush _ | .clpop _ | .cspan _ | .tflush _ => true
  | .xpand _ | .xnext _ | .sred _ | .xend _ | .spawn _ | .bar _ | .cput _ | .tlbinv _ | .cache _ => true
  | _ => false

end Sys2Proof.Spec

/-! ## Traps and faults -/

/-- R51: the first cause that applies, in the order of the causes, is the one recorded; an instruction that meets none has
no ILLOP. The cause is that of the ILLOP which the instruction raises, for each instruction of a program whose rules
look at the group's fetch state alone; for one with a rule over more of the machine, that cause or 2. That the field d
of a form with W = 1 is checked too is the model's (log entry 133). -/
def Obligations.IllopOrder : Prop :=
  ∀ (i : Instr) (g : Group) (readers : List Nat) (bad2 badLatch : Bool),
    let n := i.needs
    let c2 : Prop := n.sel = false ∨ (g.recipe = true ∧ recipeRefuses i = true) ∨ bad2 = true
    let c3 : Prop := (∃ x ∈ n.srcs, 61 ≤ x.toNat) ∨ ∃ x ∈ n.dsts, 48 ≤ x.toNat
    let c4 : Prop := needsBadReg n g.nregs = true
    let c5 : Prop := n.priv = true ∧ g.mode = .user
    let c6 : Prop := (∃ r ∈ n.vruns, r.1 % r.2.2 ≠ 0 ∨ 48 < r.1 + r.2.1) ∨ (∃ r ∈ n.sruns, 32 < r.1 + r.2) ∨
      ∃ t, n.tile4 = some t ∧ t.toNat % 4 ≠ 0
    let c7 : Prop := (∃ t ∈ readers, (56#6 ∈ n.srcs ∧ (g.thread t).b0.valid = false) ∨
      (57#6 ∈ n.srcs ∧ (g.thread t).b1.valid = false)) ∨ badLatch = true
    let c8 : Prop := n.samples = true ∧ 5 ≤ g.fpmode.toNat
    let c9 : Prop := ∃ w ∈ n.wins, (g.win w.toNat).set = false
    let r := illopCause i g readers bad2 badLatch
    (r = some 2 ↔ c2) ∧ (r = some 3 ↔ ¬c2 ∧ c3) ∧ (r = some 4 ↔ ¬c2 ∧ ¬c3 ∧ c4) ∧
    (r = some 5 ↔ ¬c2 ∧ ¬c3 ∧ ¬c4 ∧ c5) ∧ (r = some 6 ↔ ¬c2 ∧ ¬c3 ∧ ¬c4 ∧ ¬c5 ∧ c6) ∧
    (r = some 7 ↔ ¬c2 ∧ ¬c3 ∧ ¬c4 ∧ ¬c5 ∧ ¬c6 ∧ c7) ∧ (r = some 8 ↔ ¬c2 ∧ ¬c3 ∧ ¬c4 ∧ ¬c5 ∧ ¬c6 ∧ ¬c7 ∧ c8) ∧
    (r = some 9 ↔ ¬c2 ∧ ¬c3 ∧ ¬c4 ∧ ¬c5 ∧ ¬c6 ∧ ¬c7 ∧ ¬c8 ∧ c9) ∧
    (r = none ↔ ¬c2 ∧ ¬c3 ∧ ¬c4 ∧ ¬c5 ∧ ¬c6 ∧ ¬c7 ∧ ¬c8 ∧ ¬c9) ∧
    ∀ (s : State) (c : Nat), s.grp = some g →
      (∃ rep, illop s c = takeEvent s s.cur g
        { code := 7, cause := c, epc := g.pc, replay := g.amask, info := 0#64, instr := g.pc, shown := g.amask, report := rep }) ∧
      (i.size ≠ 0 → (∀ t, t < 32 → (g.thread t).b0.valid = true ∧ (g.thread t).b1.valid = true) →
        illopCause i g [] false false = some c →
        (Spec.stateChecked i = false → exec i s = .next (illop s c)) ∧
        (Spec.stateChecked i = true → (∀ f, i ≠ .cache f) → exec i s = .next (illop s c) ∨ exec i s = .next (illop s 2)))

/-- R335, R337: an event of a group goes to the host, to the handler, or stops the context: XLATE, PERM, DATAERR and
PARKED go to the host in either mode, any other in H mode is DOUBLE, TCALL and ARITH go to the handler, BRK to the
host under HOSTBRK, the others to the handler where DLG says so; with no handler the context stops with reason 11. One
that the host delivers or refuses goes to the handler whatever it is (R341). Code 255 is the model's own, of an access
that waits for a die to answer, and no event (log entry 120). How an access waits for a die in reset is the model's
(log entry 120). -/
def Obligations.EventsGoWhereTheySay : Prop :=
  ∀ (s : State) (gid : Nat) (g : Group) (c : Context) (ev : Event), s.ctx? g.asid = some c → c.stopping = false → ev.code ≠ 255 →
    let exact_ : Prop := ev.code = 1 ∨ ev.code = 2 ∨ ev.code = 5 ∨ ev.code = 19
    let delegated : Prop := ev.code ∈ [3, 4, 6, 7, 8, 9] ∧ c.hctl.getLsbD ev.code = true
    let refused : Prop := ev.report.refused = true
    (exact_ → ¬refused → takeEvent s gid g ev = sendToHost s gid g ev) ∧
    (¬exact_ → g.mode = .handler → takeEvent s gid g ev = contextError s g.asid 6) ∧
    (g.mode = .user → ¬refused → ev.code = 17 → c.hctl.getLsbD 16 = true → takeEvent s gid g ev = sendToHost s gid g ev) ∧
    (g.mode = .user → ¬refused → ev.code ∈ [3, 4, 6, 7, 8, 9] → c.hctl.getLsbD ev.code = false →
      takeEvent s gid g ev = sendToHost s gid g ev) ∧
    (g.mode = .user → (refused ∨ delegated ∨ ev.code = 16 ∨ ev.code = 18 ∨ (ev.code = 17 ∧ c.hctl.getLsbD 16 = false)) →
      (DWord.f c.hvec 56 7 = 0 → takeEvent s gid g ev = contextError s g.asid 11) ∧
      (DWord.f c.hvec 56 7 ≠ 0 → takeEvent s gid g ev = enterHandler s gid g c ev))

/-- R345, R344, R341: entering the handler writes the trap frame and sets the group's state as the rule lists it; a stack
of 256 entries stops the context. The frame's place, DOUBLE for a frame that cannot be reached, and how the frame
waits for a die in reset are the model's (log entries 7, 53, 120). -/
def Obligations.HandlerEntry : Prop :=
  ∀ (s : State) (gid : Nat) (g : Group) (c : Context) (ev : Event) (pa : Nat),
    s.ctx? g.asid = some c → s.tablesOk → ev.code < 256 → ev.cause < 256 →
    (∀ w, ev.report.walk = some w → w.1 ≤ 1 ∧ w.2 ≤ 4) →
    (256 ≤ g.stack.length → enterHandler s gid g c ev = contextError s g.asid 1) ∧
    (g.stack.length < 256 → Spec.FrameAt s g c pa → Spec.Entered s (enterHandler s gid g c ev) gid g c ev pa)

/-- R338, R339, R340, R371, R320, R321: an event of the host's, its buffer having room, takes the next number, and its record
stands in the buffer with its fields; the group waits, and a Page Request asks for a host page it lacks. -/
def Obligations.RecordsReachTheHost : Prop :=
  ∀ (s : State) (gid : Nat) (g : Group) (c : Context) (ev : Event) (pa : Nat),
    s.ctx? g.asid = some c → s.tablesOk → ev.code < 256 → ev.cause < 256 → rising (s.requests.map (·.1)) = true →
    (∀ w, ev.report.walk = some w → w.1 ≤ 1 ∧ w.2 ≤ 4) → Spec.RecordFits s g.asid c pa → pa % 64 = 0 →
    Spec.AtHost s (sendToHost s gid g ev) gid g c ev pa

/-- R346, R347, R348: `tcall` and, without HOSTBRK, `brk` retire and enter the handler with the next instruction's
address, the service or break number as the record's value; under HOSTBRK `brk` goes to the host; `tfence` traps with
ARITH in U mode when a trapped flag is set, and otherwise only goes on. -/
def Sys2Proof.Spec.ProgramTraps : Prop :=
  ∀ (s : State) (g : Group) (c : Context) (pa : Nat), s.ctx? g.asid = some c → s.tablesOk → c.stopping = false →
    g.mode = .user →
    (∀ f : TcallF, Spec.Ready (.tcall f) s g g.active → c.hline ≠ 0 → g.stack.length < 256 → Spec.FrameAt s g c pa →
      ∃ t, exec (.tcall f) s = .next t ∧
        Spec.Entered s t s.cur (Spec.trapped s g f.e) c (Spec.afterEvent s g f.e 16 (BitVec.ofNat 64 f.n.toNat)) pa) ∧
    (∀ f : BrkF, Spec.Ready (.brk f) s g g.active → c.hostbrk = false → c.hline ≠ 0 → g.stack.length < 256 →
      Spec.FrameAt s g c pa →
      ∃ t, exec (.brk f) s = .next t ∧
        Spec.Entered s t s.cur (Spec.trapped s g f.e) c (Spec.afterEvent s g f.e 17 (BitVec.ofNat 64 f.c.toNat)) pa) ∧
    (∀ f : BrkF, Spec.Ready (.brk f) s g g.active → c.hostbrk = true → Spec.RecordFits s g.asid c pa → pa % 64 = 0 →
      ∃ t, exec (.brk f) s = .next t ∧
        Spec.AtHost s t s.cur (Spec.trapped s g f.e) c (Spec.afterEvent s g f.e 17 (BitVec.ofNat 64 f.c.toNat)) pa) ∧
    (∀ f : PlainF, Spec.Ready (.tfence f) s g g.active → g.fflags &&& g.ftrapen ≠ 0#7 → c.hline ≠ 0 →
      g.stack.length < 256 → Spec.FrameAt s g c pa →
      ∃ t, exec (.tfence f) s = .next t ∧
        Spec.Entered s t s.cur (Spec.trapped s g f.e) c
          (Spec.afterEvent s g f.e 18 ((g.fflags &&& g.ftrapen).setWidth 64)) pa) ∧
    ∀ f : PlainF, Spec.Ready (.tfence f) s g g.active → g.fflags &&& g.ftrapen = 0#7 →
      ∃ t, exec (.tfence f) s = .next t ∧ Spec.Went s t g (nextPc g.pc 4) f.e

/-- R350, R335, R340: `park` in H mode retires and posts PARKED with its trap frame's address: the group waits for the host at the
next instruction; in U mode it is ILLOP, cause 5, and so is `rte`. -/
def Sys2Proof.Spec.ParkPostsAndWaits : Prop :=
  ∀ (s : State) (g : Group) (f : PlainF),
    (∀ (c : Context) (pa : Nat), s.ctx? g.asid = some c → s.tablesOk → c.stopping = false →
      Spec.Ready (.park f) s g g.active → Spec.RecordFits s g.asid c pa → pa % 64 = 0 →
      ∃ t, exec (.park f) s = .next t ∧
        Spec.AtHost s t s.cur (Spec.trapped s g f.e) c (Spec.afterEvent s g f.e 19 (BitVec.ofNat 64 (frameAddr c g))) pa) ∧
    (s.grp = some g → g.mode = .user →
      exec (.park f) s = .next (illop s 5) ∧ exec (.rte f) s = .next (illop s 5))

/-- R346 to R348, R350: the instructions that trap by themselves. The frame's place, and DOUBLE for a frame that cannot be
reached, are the model's (log entries 7, 53). -/
def Obligations.TrapsByInstruction : Prop := Spec.ProgramTraps ∧ Spec.ParkPostsAndWaits

/-- R349: `rte` returns what the frame holds: s24 to s31, FPMODE and FFLAGS, the two windows with their limits and flags,
to be translated again, v0 of each saved thread after a `tcall`; the marker is popped, the mode is U, the pc is EPC,
and the mask is REPLAY, or SAVED where REPLAY is 0; the interrupted stint resumes with its latches (R80); the other
windows, the predicates and every byte of memory stand. A frame that breaks a rule, or that sends the group to another
address than the Speter wrote without a target bit there, is DOUBLE: the context stops with reason 6. The frame's
place and what is DOUBLE are the model's (log entries 7, 34). -/
def Obligations.ReturnFromHandler : Prop :=
  ∀ (f : PlainF) (s s1 : State) (g : Group) (c : Context) (fr : List Byte) (p : Page),
    Spec.Ready (.rte f) s g g.active → s.ctx? g.asid = some c →
    readVirtual s g.core g.asid .handler .read (frameAddr c g) 1024 = .ok (fr, p, s1) →
    let m (i : Nat) : Byte := fr.getD i 0#8
    let epc := Spec.numberAt m 0x40 8
    let saved := BitVec.ofNat 32 (Spec.numberAt m 0x48 4)
    let replay := BitVec.ofNat 32 (Spec.numberAt m 0x4C 4)
    let sound : Prop := g.stack.head? = some .marker ∧ saved ≠ 0#32 ∧ saved &&& ~~~g.lmask = 0#32 ∧ replay &&& ~~~saved = 0#32 ∧
      frameZeros fr = true
    (¬sound → exec (.rte f) s = .next (contextError s1 g.asid 6)) ∧
    (∀ (line : List Byte) (s2 : State), sound → enterLine s1 g.core g.asid .user epc = .ok (line, s2) →
      (BitVec.ofNat 57 epc ≠ g.frameEpc → slotMarked line epc = false → exec (.rte f) s = .next (contextError s1 g.asid 6)) ∧
      (BitVec.ofNat 57 epc = g.frameEpc ∨ slotMarked line epc = true →
        ∃ t h, exec (.rte f) s = .next t ∧ t.grp = some h ∧ h.mode = .user ∧ h.pc = BitVec.ofNat 57 epc ∧
          h.stack = g.stack.drop 1 ∧
          h.amask = (if replay = 0#32 then saved else replay) ∧ h.replay = (if replay = 0#32 then none else some saved) ∧
          h.fpmode.toNat = Spec.numberAt m 0xB0 8 ∧ h.fflags.toNat = Spec.numberAt m 0xB8 8 ∧
          (∀ i, i < 8 → (h.sreg (24 + i)).toNat = Spec.numberAt m (0x50 + 8 * i) 8) ∧ (∀ i, i < 24 → h.sreg i = g.sreg i) ∧
          (h.win 6).stale = true ∧ (h.win 7).stale = true ∧ Spec.WindowIn m 0x90 (h.win 6) ∧ Spec.WindowIn m 0xA0 (h.win 7) ∧
          (∀ i, i < 6 → h.win i = g.win i) ∧
          (∀ t', t' < 32 → ∀ r, (h.thread t').reg r =
            if Spec.numberAt m 0 1 = 16 ∧ saved.getLsbD t' = true ∧ r = 0 then
              BitVec.ofNat 32 (Spec.numberAt m (0x300 + 4 * t') 4)
            else (g.thread t').reg r) ∧
          (∀ u, u < 32 → { h.thread u with v := (g.thread u).v, b0 := (g.thread u).b0, b1 := (g.thread u).b1 } = g.thread u) ∧
          (∀ k, g.kept = some k → h.sched.resumeStint = true ∧ h.sched.stintCount = k.count ∧ ∀ u, u < 32 →
            (h.thread u).b0 = k.b0.getD u Latch.init ∧ (h.thread u).b1 = k.b1.getD u Latch.init) ∧
          (g.kept = none → h.sched.resumeStint = false ∧ ∀ u, u < 32 →
            (h.thread u).b0 = (g.thread u).b0 ∧ (h.thread u).b1 = (g.thread u).b1) ∧
          h.lmask = g.lmask ∧ h.ftrapen = g.ftrapen ∧ h.fpseed = g.fpseed ∧
          h.retired = (if g.recipe then g.retired else g.retired + 1) ∧
          t.now = s.now + 1 ∧ Spec.Quiet s t ∧ Spec.Untouched s t))

/-- R356, R355: `mark` outside the handler, with an empty stack, a sound live descriptor in a line of kind 1 and a recipe
line of kind 0 whose slot 0 is marked, makes the flashback state: the mark's own address, the descriptor, the recipe's
line and the group's count, LMASK, FPMODE and FPSEED as they then are; inside an open expansion that state is void at
once. That the live and recipe addresses are taken modulo 2^57, and that a descriptor may run on into a line of any
kind, are the model's (log entries 97, 113). -/
def Obligations.MarkKeepsRecipe : Prop :=
  ∀ (f : MarkF) (s s1 s2 s3 : State) (g : Group) (ws : List Nat), Spec.Ready (.mark f) s g g.active → s.tablesOk →
    g.mode = .user → g.stack = [] →
    let base : Int := (g.pc.toNat / 128 * 128 : Nat)
    let live := ((base + 4 * f.l.toInt) % 2 ^ 57).toNat
    let recipe := ((base + 128 * f.c.toInt) % 2 ^ 57).toNat
    let d := ws.getD 0 0 + ws.getD 1 0 * 2 ^ 32 + ws.getD 2 0 * 2 ^ 64 + ws.getD 3 0 * 2 ^ 96
    dataLineKind s g live = .ok (1, s1) → readWords s1 g live 4 = .ok (ws, s2) → liveFault d g.nregs = none →
    checkRecipe s2 g recipe = .ok s3 →
    ∃ t h, exec (.mark f) s = .next t ∧ t.grp = some h ∧ Spec.SameMemory s t g.core ∧
      (g.expand = none → h.flash = some
        { mark := g.pc, live := BitVec.ofNat 128 d, recipe := BitVec.ofNat 57 recipe, count := h.retired, lmask := g.lmask,
          fpmode := g.fpmode, fpseed := g.fpseed }) ∧
      (g.expand ≠ none → h.flash = none) ∧
      { h with flash := g.flash } = ({ g with pc := nextPc g.pc 4 } : Group).finish f.e (s.now + 1)

namespace Sys2Proof.Spec

/-! ## The vocabulary of work -/

/-- R127, R129: the item that a thread's `spawn` makes. -/
def spawnItem (g : Group) (f : SpawnF) (t : Nat) : Item :=
  { entry := f.n.toNat, grid := g.grid, payload := Vector.ofFn fun i : Fin 4 => (g.thread t).reg (f.a.toNat + i.val),
    origin := ⟨g.lidx, t, g.retired⟩, ticket := none, cls := g.cls, bcnt := g.bcnt, bidx := g.bidx, args := g.args,
    prefixKey := itemPrefix g t, block := g.block, spot := 0 }

/-- A group after a `spawn` that completes: its predicate says whether there was room, where it asks, and one that made items is counted
(R210). -/
structure Spawned (g k : Group) (f : SpawnF) (room : Bool) : Prop where
  threads : ThreadsAfter g k (if f.t then g.active else []) (fun t => (g.thread t).setPred f.p.toNat room)
  rest    : { k with threads := g.threads, flash := g.flash, spawned := g.spawned, det := g.det } = g
  places  : k.det = { g.det with spawns := g.det.spawns + if room then 1 else 0 }
  flash   : k.flash = none
  spawned : ∀ n, n ∈ k.spawned ↔ n ∈ g.spawned ∨ (room = true ∧ n = f.n.toNat)

/-- A group that has begun to wait at its instruction, its slot given up and its stint ended (R86), and nothing else changed. -/
def Stalled (s t : State) (g : Group) (w : Wait) : Prop :=
  t = s.setGrp ({ g with flash := none, wait := w, sched := { g.sched with
    inStint := false, resumeStint := false, stintCount := 0, stintWait := 0,
    lastEnd := if g.sched.inStint then s.now else g.sched.lastEnd, idleSince := s.now, endDue := false } } : Group)

/-- The sets of other contexts and cores stand. -/
def OtherSets (s t : State) (asid core : Nat) : Prop :=
  ∀ k, k ≠ State.setKey asid core → look k t.sets = look k s.sets

end Sys2Proof.Spec

/-! ## Work -/

/-- R127, R96 to R99, R129: `spawn` makes one item for each active thread in thread order, where all of them fit on chip,
the packing timer of the entry starting again, and the 32 oldest items of the grid for the entry form a packed group
once they are there; where nothing has room the try form only clears its predicate, a launched group waits, and a
packed group's context stops with reason 2. What the place of a spawn counts is the model's (log entry 112). -/
def Obligations.SpawnMakesItems : Prop :=
  ∀ (f : SpawnF) (s : State) (g : Group) (c : Context), Spec.Ready (.spawn f) s g g.active → s.ctx? g.asid = some c →
    f.n.toNat < c.ecnt →
    let x := s.set g.asid g.core
    let new := g.active.map (Spec.spawnItem g f)
    let mine := itemsFor x f.n.toNat g.grid ++ new
    (chipUsed s g.core + g.active.length ≤ 2048 → (itemsFor x f.n.toNat g.grid).length < 32 →
      ∃ t k, exec (.spawn f) s = .next t ∧ Spec.Went s { t with sets := s.sets } k (nextPc g.pc 4) f.e ∧
        Spec.Spawned g k f true ∧ Spec.OtherSets s t g.asid g.core ∧
        (mine.length < 32 → t.set g.asid g.core = { x with
          items := x.items ++ new
          timers := if g.active = [] then x.timers else put f.n.toNat (s.now + c.ptimer) x.timers }) ∧
        (32 ≤ mine.length → (t.set g.asid g.core).formed = x.formed ++ [⟨mine.take 32⟩] ∧
          itemsFor (t.set g.asid g.core) f.n.toNat g.grid = mine.drop 32)) ∧
    (g.amask ≠ 0#32 → 2048 ≤ chipUsed s g.core → c.ovfn * 896 ≤ overflowUsed s g.asid 1 →
      (g.packed = true → c.ovfn * 128 ≤ overflowUsed s g.asid 2) →
      (f.t = true → ∃ t k, exec (.spawn f) s = .next t ∧ Spec.Went s t k (nextPc g.pc 4) f.e ∧ Spec.Spawned g k f false ∧
        t.sets = s.sets) ∧
      (f.t = false → g.packed = false → ∃ t, exec (.spawn f) s = .next t ∧ Spec.Stalled s t g .spawn) ∧
      (f.t = false → g.packed = true → exec (.spawn f) s = .next (contextError s g.asid 2)))

/-- R130 to R132, R108: `launch` reads its descriptor, puts every byte its core has written at its home and creates the
grid it describes in its context, unplaced, behind the front end's others (bytes whose home is down wait, R364), with
the barriers that its BAR fields in use name: their instances are bound at once, one on every die for a `die` barrier,
a `pod` one starting with what other modules have brought, unless another launch holds one of them, when none is; with
a reserved bit, an entry out of range or a BAR field that R131 refuses it is ILLOP, cause 2; with a sound descriptor
and 64 device-made grids unplaced it waits, and creates nothing. When a launch that waits for a barrier's number is
tried again, and the E that an early arrival of another module carries, are the model's (log entries 102, 124). -/
def Obligations.LaunchCreatesGrid : Prop :=
  ∀ (f : LaunchF) (s : State) (g : Group) (c : Context), Spec.Ready (.launch f) s g g.active → s.ctx? g.asid = some c →
    s.tablesOk →
    let o : Int := (g.sreg f.a.toNat).toNat
    let m (i : Nat) : Byte := s.coreByte g.core (g.win f.w.toNat).page.own (Spec.addr g f.w.toNat o + i)
    let w0 := Spec.numberAt m 0 8
    let w1 := Spec.numberAt m 8 8
    let zeros : Prop := w0 / 2 ^ 10 % 2 ^ 6 = 0 ∧ w0 / 2 ^ 21 % 2 ^ 11 = 0 ∧ w0 / 2 ^ 42 = 0 ∧ w1 / 2 ^ 39 = 0
    let bar (i : Nat) : BoundBar :=
      let v := Spec.numberAt m (0x30 + 4 * i) 4
      ⟨v % 8, v / 8 % 32, v / 256⟩
    let bars : List BoundBar := ((List.range 4).map bar).filter fun b => b.scope != 0
    let numbers (sc : Nat) : Nat := if sc = 3 then 16 else if sc = 4 then 8 else if sc = 5 ∧ c.job ≠ 0 then 4 else 0
    let named : Prop := ∀ i, i < 4 → (bar i).scope ≠ 0 → (bar i).number < numbers (bar i).scope ∧ (bar i).count ≠ 0 ∧
      ∀ j, j < i → ¬((bar j).scope = (bar i).scope ∧ (bar j).number = (bar i).number)
    let places (sc : Nat) : List Nat := if sc = 3 then [0, 1, 2, 3] else if sc = 5 then [c.job] else [0]
    let held : Prop := ∃ b ∈ bars, ∃ w ∈ s.wide, w.scope = b.scope ∧ w.place ∈ places b.scope ∧ w.number = b.number
    let early (b : BoundBar) : List Nat := if b.scope = 5 then (look (4 * c.job + b.number) s.podEarly).getD [] else []
    let bound : List WideBarrier := bars.flatMap fun b => (places b.scope).map fun p =>
      let n := (early b).length / b.count
      ⟨b.scope, p, b.number, s.fresh, { gen := n }, (early b).drop (n * b.count)⟩
    ((g.sreg f.a.toNat).toNat % 64 = 0 → Spec.OpenRaw g f.w.toNat true false → Spec.Reads s g f.w.toNat o 64 →
      (zeros → w0 % 2 ^ 10 < c.ecnt → named → unplacedDevice s c.part < 64 →
        (∀ e ∈ s.groups, ∀ n k, e.2.wait ≠ .bar (.pod c.job n) k ∧ e.2.wait ≠ .barArrive (.pod c.job n) k) →
        ∃ t bnd, exec (.launch f) s = .next t ∧ t.now = s.now + 1 ∧ t.fresh = s.fresh + 1 ∧ (bnd = true ↔ ¬held) ∧
          t.grid? s.fresh = some
            { asid := g.asid, source := .device c.part g.core, entry := w0 % 2 ^ 10, tpg := w0 / 2 ^ 16 % 2 ^ 5 + 1,
              gpb := w0 / 2 ^ 32 % 2 ^ 10 + 1, blocks := w1 % 2 ^ 32 + 1,
              args := Vector.ofFn fun i : Fin 4 => BitVec.ofNat 64 (Spec.numberAt m (0x10 + 8 * i.val) 8),
              cls := g.cls, k := w1 / 2 ^ 32 % 2 ^ 6, ken := decide (w1 / 2 ^ 38 % 2 = 1), bars := bars, bound := bnd,
              nextBlock := 0, live := 0, core := some g.core } ∧
          (∀ n, n ≠ s.fresh → t.grid? n = s.grid? n) ∧
          look c.part t.feGrids = some ((look c.part s.feGrids).getD [] ++ [s.fresh]) ∧
          Spec.SameMemory s t g.core ∧ (∀ a, Spec.Keyed s g.core a → isDown s a = false → t.mem.get a = Spec.latest s g.core a) ∧
          t.grp = some (({ g with flash := none, pc := nextPc g.pc 4 } : Group).finish f.e t.now) ∧
          (t.sets, t.contexts, t.ops) = (s.sets, s.contexts, s.ops) ∧
          (held → t.wide = s.wide ∧ t.podEarly = s.podEarly) ∧
          (¬held → t.wide = s.wide ++ bound ∧ ∀ k, look k t.podEarly =
            if ∃ b ∈ bars, b.scope = 5 ∧ k = 4 * c.job + b.number then none else look k s.podEarly)) ∧
      (zeros → w0 % 2 ^ 10 < c.ecnt → named → 64 ≤ unplacedDevice s c.part →
        ∃ t s1, exec (.launch f) s = .next t ∧ Spec.Stalled s1 t g .launch ∧ s1.now = s.now ∧ s1.cur = s.cur ∧
          Spec.SameMemory s s1 g.core ∧ (t.grids, t.feGrids) = (s.grids, s.feGrids)) ∧
      (¬zeros ∨ c.ecnt ≤ w0 % 2 ^ 10 ∨ ¬named →
        ∃ s1, exec (.launch f) s = .next (illop s1 2) ∧ s1.cur = s.cur ∧ s1.grp = some g ∧ Spec.SameMemory s s1 g.core ∧
          s1.grids = s.grids))

/-- R133, R107, R109: `bar` at core or quad scope: an arrival that fills its generation completes it: the next one opens,
and the group and every group waiting for that generation go on; one that does not waits, but for `bar.arrive`, which
goes on; a second arrival waits for the first one's generation. A number the block has not is ILLOP, cause 2. R108:
the same at die, pkg and pod scope, where the number is the launch's, the arrivals of other modules count at pod
scope, and these hear of each arrival; a number that the launch has not bound, and a packed group, take ILLOP, cause
2. The end of a wait is an acquire (R169, R173). The instance at which a resumed group waits, and the E of those that
have retired or that other modules hold, are the model's (log entries 105, 124). -/
def Obligations.BarriersComplete : Prop :=
  (∀ (f : BarF) (s : State) (g : Group) (b : Block), Spec.Ready (.bar f) s g g.active → s.block? g.block = some b →
      s.tablesOk → g.det.en = false → g.wait = .none → (f.s = 1#3 ∨ f.s = 2#3) →
      let n := f.n.toNat
      let r : BarRef := if f.s = 1#3 then .core g.block g.core n else .quad g.block n
      let held := if f.s = 1#3 then b.cbar else b.qbar
      let x : Barrier := (if f.s = 1#3 then look (g.core * 32 + n) b.coreBars else look n b.quadBars).getD {}
      let count := (b.live.filter fun j => decide (f.s = 2#3) || (s.group? j).any fun h => decide (h.core = g.core)).length
      let here : Group := ({ g with flash := none, pc := nextPc g.pc 4 } : Group)
      (held ≤ n → exec (.bar f) s = .next (illop s 2)) ∧
      (n < held → s.cur ∉ x.arrived → x.arrived.length + 1 = count → (∀ e ∈ s.groups, e.2.wait ≠ .barArrive r x.gen) →
        ∃ t h, exec (.bar f) s = .next t ∧ t.now = s.now + 1 ∧ barOf t r = { gen := x.gen + 1, arrived := [] } ∧
          t.grp = some h ∧ { h with det := g.det } = here.finish f.e t.now ∧
          (∀ j k, j ≠ s.cur → s.group? j = some k → k.wait = .bar r x.gen →
            ∃ h, t.group? j = some h ∧ h.wait = .none ∧ h.pc = nextPc k.pc 4 ∧ h.threads = k.threads ∧ h.s = k.s) ∧
          ∀ j k, j ≠ s.cur → s.group? j = some k → k.wait ≠ .bar r x.gen → j ∉ x.arrived → t.group? j = some k) ∧
      (n < held → s.cur ∉ x.arrived → x.arrived.length + 1 < count →
        ∃ t h, exec (.bar f) s = .next t ∧ t.grp = some h ∧ barOf t r = { x with arrived := x.arrived ++ [s.cur] } ∧
          (∀ j, j ≠ s.cur → t.group? j = s.group? j) ∧
          (f.x = true → t.now = s.now + 1 ∧ h = here.finish f.e t.now) ∧
          (f.x = false → t.now = s.now ∧ h.wait = .bar r x.gen ∧ h.pc = g.pc ∧ h.sched.inStint = false ∧
            h.threads = g.threads ∧ h.s = g.s)) ∧
      (n < held → s.cur ∈ x.arrived →
        ∃ t h, exec (.bar f) s = .next t ∧ t.grp = some h ∧ barOf t r = x ∧ h.pc = g.pc ∧
          h.wait = (if f.x then .barArrive r x.gen else .bar r x.gen) ∧ ∀ j, j ≠ s.cur → t.group? j = s.group? j)) ∧
  ∀ (f : BarF) (s : State) (g : Group) (x : Grid), Spec.Ready (.bar f) s g g.active → s.grid? g.grid = some x →
    s.tablesOk → g.det.en = false → g.wait = .none → (f.s = 3#3 ∨ f.s = 4#3 ∨ f.s = 5#3) →
    let n := f.n.toNat
    let sc := f.s.toNat
    let job := ((s.ctx? g.asid).map (·.job)).getD 0
    let r : BarRef := if sc = 3 then .die (dieOf g.core) n else if sc = 4 then .pkg n else .pod job n
    let named (b : BoundBar) : Bool := b.scope == sc && b.number == n
    let here : Group := ({ g with flash := none, pc := nextPc g.pc 4 } : Group)
    let heard : List Sent := if sc = 5 then s.sent ++ [.podArrival job n g.det.wide] else s.sent
    (g.packed = true ∨ x.bars.any named = false → exec (.bar f) s = .next (illop s 2)) ∧
    ∀ w b, g.packed = false → x.bars.find? named = some b → w ∈ s.wide → w.is r = true → (∀ v ∈ s.wide, v.is r = true → v = w) →
      w.grid = g.grid →
      (s.cur ∉ w.bar.arrived → w.bar.arrived.length + w.remote.length + 1 = b.count →
        (∀ e ∈ s.groups, e.2.wait ≠ .barArrive r w.bar.gen) →
        ∃ t h, exec (.bar f) s = .next t ∧ t.now = s.now + 1 ∧ t.sent = heard ∧
          (∀ v, v ∈ t.wide ↔ (v ∈ s.wide ∧ v ≠ w) ∨ v = { w with bar := { gen := w.bar.gen + 1, arrived := [] }, remote := [] }) ∧
          t.grp = some h ∧ { h with det := g.det } =
            ({ here with pkgSeen := g.pkgSeen || (!f.x && decide (4 ≤ sc)) } : Group).finish f.e t.now ∧
          (f.x = false → Spec.Acquired t g.core (some sc)) ∧
          (∀ j k, j ≠ s.cur → s.group? j = some k → k.wait = .bar r w.bar.gen →
            ∃ h, t.group? j = some h ∧ h.wait = .none ∧ h.pc = nextPc k.pc 4 ∧ h.threads = k.threads ∧ h.s = k.s ∧
              (k.core < 256 → Spec.Acquired t k.core (some sc)) ∧ (256 ≤ k.core → sc ≤ h.opening)) ∧
          ∀ j k, j ≠ s.cur → s.group? j = some k → k.wait ≠ .bar r w.bar.gen → j ∉ w.bar.arrived → t.group? j = some k) ∧
      (s.cur ∉ w.bar.arrived → w.bar.arrived.length + w.remote.length + 1 < b.count →
        ∃ t h, exec (.bar f) s = .next t ∧ t.grp = some h ∧ t.sent = heard ∧
          (∀ v, v ∈ t.wide ↔
            (v ∈ s.wide ∧ v ≠ w) ∨ v = { w with bar := { w.bar with arrived := w.bar.arrived ++ [s.cur] } }) ∧
          (∀ j, j ≠ s.cur → t.group? j = s.group? j) ∧
          (∀ a, Spec.Keyed s g.core a → isDown s a = false → t.mem.get a = Spec.latest s g.core a) ∧
          (f.x = true → t.now = s.now + 1 ∧ h = here.finish f.e t.now) ∧
          (f.x = false → t.now = s.now ∧ h.wait = .bar r w.bar.gen ∧ h.pc = g.pc ∧ h.sched.inStint = false ∧
            h.threads = g.threads ∧ h.s = g.s)) ∧
      (s.cur ∈ w.bar.arrived →
        ∃ t h, exec (.bar f) s = .next t ∧ t.grp = some h ∧ t.wide = s.wide ∧ h.pc = g.pc ∧
          h.wait = (if f.x then .barArrive r w.bar.gen else .bar r w.bar.gen) ∧ ∀ j, j ≠ s.cur → t.group? j = s.group? j)

namespace Sys2Proof.Spec

/-- A member of a set as it arrives at `xpand`. -/
def arrival (s : State) (g : Group) (f : XpandF) : XArrival :=
  { gid := s.cur, block := g.block, rank := g.rank, size := 2 ^ f.z.toNat, op := f.o.toNat, mask := g.amask,
    starts := g.active.map (g.src f.a), lens := g.active.map (g.src f.b) }

/-- A set's arrivals by rank: the list holds exactly those of another, and member `i` is the one of rank `base + i`. -/
structure SetOf (ms all : List XArrival) (g : Group) (size : Nat) : Prop where
  count : ms.length = size ∧ all.length = size
  same  : ∀ a, a ∈ ms ↔ a ∈ all
  place : ∀ i a, ms[i]? = some a → a.block = g.block ∧ a.size = size ∧ a.rank = g.rank / size * size + i

/-- An owner's value and its place: the iteration `k` of an expansion belongs to owner `o` (R104). -/
def Owns (x : Expansion) (o k : Nat) : Prop :=
  o < x.lens.length ∧ ((x.lens.take o).map BitVec.toNat).sum ≤ k ∧
  k < ((x.lens.take o).map BitVec.toNat).sum + (x.lens.getD o 0#32).toNat

/-- The receivers of a member, in index order. -/
def receivers (x : Expansion) (m : Nat) : List Nat := threadsOf (x.masks.getD m 0#32)

/-- R104: the rank of a member's receiver among all of them. -/
def rankOf (x : Expansion) (m t : Nat) : Nat :=
  ((x.masks.take m).map fun a => (threadsOf a).length).sum + ((receivers x m).filter fun u => decide (u < t)).length

/-- R139: the empty contributions that a member leaves as its present wave closes: one for each iteration of the wave that has
none, held or applied. -/
structure Leaves (x : Expansion) (m gid : Nat) (es : List XContribution) : Prop where
  each : ∀ c ∈ es, c.empty = true ∧ c.gid = gid ∧ Owns x c.owner c.k
  all  : ∀ k, (∃ c ∈ es, c.k = k) ↔ 0 < x.waves.getD m 0 ∧ k < (x.lens.map BitVec.toNat).sum ∧
    (∃ t ∈ receivers x m, k = (x.waves.getD m 0 - 1) * x.starts.length + rankOf x m t) ∧ (∀ d ∈ x.held, d.k ≠ k) ∧
    ∀ o, Owns x o k → x.applied.getD o 0 ≤ k - ((x.lens.take o).map BitVec.toNat).sum

end Sys2Proof.Spec

/-- R103, R104, R135, R136: with the other members of its set waiting and a slot free, `xpand` opens the expansion: its
receivers and owners by rank, each partial the identity of the op, no wave dealt, and every member goes on; with other
members missing, or no slot free, the group waits; where the ops of a complete set differ every member takes ILLOP, cause 2, and
nothing opens. -/
def Obligations.ExpansionOpens : Prop :=
  ∀ (f : XpandF) (s : State) (g : Group) (b : Block), Spec.Ready (.xpand f) s g g.active → s.block? g.block = some b →
    f.z ≠ 3#2 → g.wait = .none →
    let size := 2 ^ f.z.toNat
    let base := g.rank / size * size
    let x := s.set g.asid g.core
    let mine := Spec.arrival s g f
    (g.expand ≠ none ∨ (g.packed = true ∧ 1 < size) ∨ b.gpb < base + size → exec (.xpand f) s = .next (illop s 2)) ∧
    (g.expand = none → ¬(g.packed = true ∧ 1 < size) → base + size ≤ b.gpb →
      (x.xwait.length + 1 < size → (∀ a ∈ x.xwait, a.size = size) →
        ∃ t h, exec (.xpand f) s = .next t ∧ t.grp = some h ∧ h.wait = .xpand ∧ h.pc = g.pc ∧ h.expand = none ∧
          (t.set g.asid g.core).xwait = x.xwait ++ [mine] ∧ ∀ j, j ≠ s.cur → t.group? j = s.group? j) ∧
      ∀ ms : List XArrival, Spec.SetOf ms (x.xwait ++ [mine]) g size →
        ((∃ a ∈ ms, a.op ≠ f.o.toNat) → exec (.xpand f) s = .next (refuseSet
          ((s.setGrp { g with flash := none }).setSet g.asid g.core { x with xwait := [] }) ms)) ∧
        ((∀ a ∈ ms, a.op = f.o.toNat) →
        (∀ a ∈ x.xwait, a.gid ≠ s.cur ∧ ∃ k, s.group? a.gid = some k ∧ k.wait = .xpand) → (ms.map (·.gid)).Nodup →
        (∀ slot, slot < 16 → slot ∉ slotsUsed s g.core → (∀ j, j < slot → j ∈ slotsUsed s g.core) →
          ∃ t h, exec (.xpand f) s = .next t ∧ t.grp = some h ∧ t.now = s.now + Spec.laneCycles g ∧
            (t.set g.asid g.core).xwait = [] ∧
            look slot (t.set g.asid g.core).expands = some
              { size := size, op := f.o.toNat, gids := ms.map (·.gid), masks := ms.map (·.mask),
                waves := ms.map fun _ => 0, ends := ms.map fun _ => none, starts := ms.flatMap (·.starts),
                lens := ms.flatMap (·.lens),
                partials := (ms.flatMap (·.starts)).map fun _ => (FoldOp.ofCode f.o.toNat).identity,
                applied := (ms.flatMap (·.starts)).map fun _ => 0, held := [] } ∧
            h.pc = nextPc g.pc 4 ∧ h.expand = some (slot, g.rank % size) ∧
            { h with expand := g.expand, threads := g.threads } =
              ({ g with flash := none, pc := nextPc g.pc 4 } : Group).finish f.e t.now ∧
            ∀ i a, ms[i]? = some a → a.gid ≠ s.cur →
              ∃ h k, s.group? a.gid = some k ∧ t.group? a.gid = some h ∧ h.wait = .none ∧ h.pc = nextPc k.pc 4 ∧
                h.expand = some (slot, i)) ∧
        ((∀ slot, slot < 16 → slot ∈ slotsUsed s g.core) →
          ∃ t h, exec (.xpand f) s = .next t ∧ t.grp = some h ∧ h.wait = .xpand ∧ h.pc = g.pc)))

/-- R137 to R139, R104, R105: `xnext` closes the group's wave, leaving empty contributions, and deals wave w: receiver t takes
iteration w T + rank(t) with its owner's value, or none, and its predicate; a thread that is no receiver has its predicate cleared.
`sred` appends one contribution of each active thread that holds an iteration. Neither waits; contributions beyond the 64 on chip
and the spill area stop the context with reason 4. -/
def Sys2Proof.Spec.IterationsAreDealt : Prop :=
  (∀ (f : XnextF) (s : State) (g : Group) (slot m : Nat) (x : Expansion), Spec.Ready (.xnext f) s g g.active →
    g.expand = some (slot, m) → look slot (s.set g.asid g.core).expands = some x → x.starts.length = x.lens.length →
    let w := x.waves.getD m 0
    let k (t : Nat) : Nat := w * x.starts.length + Spec.rankOf x m t
    let all := (x.lens.map BitVec.toNat).sum
    let others := g.active.filter fun t => !(Spec.receivers x m).contains t
    ∃ es h, Spec.Leaves x m s.cur es ∧
      (64 + Config.spillRoom < x.held.length + es.length → exec (.xnext f) s = .next (contextError s g.asid 4)) ∧
      (x.held.length + es.length ≤ 64 + Config.spillRoom → exec (.xnext f) s = .next
        ((s.setExpansion g.asid g.core slot { x with held := x.held ++ es, waves := x.waves.set m (w + 1) }).retire h 4
          (max ((Spec.receivers x m).length + others.length) 1) f.e)) ∧
      { h with threads := g.threads, flash := g.flash } = g ∧ h.flash = none ∧
      (∀ u ∈ Spec.receivers x m, ∀ o, Spec.Owns x o (k u) →
        h.thread u = { ((g.thread u).setReg f.d.toNat
            (x.starts.getD o 0#32 + BitVec.ofNat 32 (k u - ((x.lens.take o).map BitVec.toNat).sum))).setPred f.p.toNat true with
          ox := BitVec.ofNat 32 o, current := some (k u, o) }) ∧
      (∀ u ∈ Spec.receivers x m, all ≤ k u → h.thread u = { (g.thread u).setPred f.p.toNat false with current := none }) ∧
      (∀ u ∈ Spec.receivers x m, k u < all → ∃ o, Spec.Owns x o (k u)) ∧
      (∀ u ∈ others, h.thread u = (g.thread u).setPred f.p.toNat false) ∧
      ∀ u, u < 32 → u ∉ Spec.receivers x m → u ∉ others → h.thread u = g.thread u) ∧
  ∀ (f : SredF) (s : State) (g : Group) (slot m : Nat) (x : Expansion), Spec.Ready (.sred f) s g g.active →
    g.expand = some (slot, m) → look slot (s.set g.asid g.core).expands = some x →
    (∀ new : List XContribution, new = (g.active.filterMap fun t => (g.thread t).current.map fun (c : Nat × Nat) =>
        ({ k := c.1, owner := c.2, value := g.src f.a t, rnd := g.laneRnd t 0, gid := s.cur, empty := false } :
          XContribution)) →
      (64 + Config.spillRoom < x.held.length + new.length → exec (.sred f) s = .next (contextError s g.asid 4)) ∧
      (x.held.length + new.length ≤ 64 + Config.spillRoom →
        exec (.sred f) s = .next ((s.setExpansion g.asid g.core slot { x with held := x.held ++ new }).retire
          { g with flash := none } 4 (Spec.laneCycles g) f.e)))

/-- R105, R139, R140: a contribution that every earlier iteration of its owner has let by is applied to its owner's
partial with the rounding that travelled with it, an empty one leaving the partial as it is; `xend` closes the group's wave, waits
while a member or a contribution is missing, and else ends the expansion: every owner thread of every member takes its partial, the
slot is free and the waiting members go on. -/
def Sys2Proof.Spec.ExpansionEnds : Prop :=
  (∀ (asid core slot : Nat) (s : State) (x : Expansion) (c : XContribution),
    look slot (s.set asid core).expands = some x → x.nextApply = some c → (∃ e ∈ x.ends, e = none) →
    let old := x.partials.getD c.owner 0#32
    let r : Word × Flags := if c.empty then (old, 0#7) else (FoldOp.ofCode x.op).step c.rnd old c.value
    exec (.contributionApply asid core slot) s = .next
      ((s.setExpansion asid core slot { x with
        held := x.held.erase c
        partials := x.partials.set c.owner r.1
        applied := x.applied.set c.owner (max (x.applied.getD c.owner 0) (c.k + 1 - x.before c.owner)) }).modGroup c.gid
        fun g => { g with fflags := g.fflags ||| r.2 })) ∧
  (∀ (x : Expansion) (c : XContribution), x.nextApply = some c → x.ranks.length = x.starts.length →
    c ∈ x.held ∧ (∀ d ∈ x.held, d.owner = c.owner → c.k ≤ d.k) ∧
    ∀ r m t, x.ranks[r]? = some (m, t) → ∀ w, Spec.Owns x c.owner (w * x.starts.length + r) →
      w * x.starts.length + r < c.k → x.ends.getD m none ≠ none ∨ w + 1 < x.waves.getD m 0) ∧
  ∀ (f : XendF) (s : State) (g : Group) (slot m : Nat) (x : Expansion), Spec.Ready (.xend f) s g g.active →
    g.expand = some (slot, m) → look slot (s.set g.asid g.core).expands = some x → x.ends.length = x.masks.length →
    x.gids.length = x.masks.length → x.gids[m]? = some s.cur → g.wait = .none →
    rising ((s.set g.asid g.core).expands.map (·.1)) = true →
    let ends := x.ends.set m (some f.d.toNat)
    ∃ es, Spec.Leaves x m s.cur es ∧
      (64 + Config.spillRoom < x.held.length + es.length → exec (.xend f) s = .next (contextError s g.asid 4)) ∧
      (x.held.length + es.length ≤ 64 + Config.spillRoom →
        ((∃ e ∈ ends, e = none) ∨ x.held ++ es ≠ [] →
          ∃ t h, exec (.xend f) s = .next t ∧ t.grp = some h ∧ h.wait = .xend ∧ h.pc = g.pc ∧
            look slot (t.set g.asid g.core).expands = some { x with held := x.held ++ es, ends := ends }) ∧
        ((∀ e ∈ ends, e ≠ none) → x.held ++ es = [] → x.gids.Nodup →
          (∀ j ∈ x.gids, j ≠ s.cur → ∃ k, s.group? j = some k ∧ k.wait = .xend) → (∀ e ∈ s.sets, e.2.xwait = []) →
          x.starts.length = (x.masks.map fun a => (threadsOf a).length).sum → x.partials.length = x.starts.length →
          ∃ t, exec (.xend f) s = .next t ∧ look slot (t.set g.asid g.core).expands = none ∧
            ∀ i j, x.gids[i]? = some j → ∃ h k, s.group? j = some k ∧ t.group? j = some h ∧ h.wait = .none ∧
              h.expand = none ∧ h.pc = nextPc k.pc 4 ∧ h.s = k.s ∧
              ∀ u, u < 32 → h.thread u = { (if u ∈ Spec.receivers x i then
                  (k.thread u).setReg ((ends.getD i none).getD 0) (x.partials.getD (Spec.rankOf x i u) 0#32)
                else k.thread u) with current := none }))

/-- R104, R105, R137 to R140: an open expansion's waves, contributions and end. The room of the spill area is free (log
entry 24). -/
def Obligations.ExpansionRuns : Prop := Spec.IterationsAreDealt ∧ Spec.ExpansionEnds

namespace Sys2Proof.Spec

/-! ## The vocabulary of the copy engines -/

/-- What every engine operation captures at issue (R174, R200, R218, R340). -/
def captured (s : State) (g : Group) (kind : OpKind) (k : Nat) (dst src : Window) : EngineOp :=
  { kind := kind, asid := g.asid, mode := g.mode, die := g.core / 64, source := .group s.cur g.core k, dst := dst,
    src := src, idx := none, dstOff := 0, srcOff := 0, len := 0, idxOff := 0, esize := 1, rm := g.fpmode,
    seed := g.fpseed, lidx := g.lidx, count := g.retired, instr := g.pc, grpid := g.grpid, place := g.placeWord,
    done := 0, held := none, flags := 0#7 }

/-- A counter of a context on a core. -/
def counter (s : State) (asid core k : Nat) : Counter := (look k (s.set asid core).counters).getD {}

/-- A check of an issue that fails, with its fault at a window's offset. -/
def permAt (w : Window) (o : Nat) : Trap := { code := 2, info := w.va o }
def alignAt (w : Window) (o : Nat) : Trap := { code := 3, info := w.va o }

/-- R200, R174: an issue whose checks hold forks its operation, everything its core has written being at its home (where that answers,
R364), or waits for room; one of no length adds 1 to its counter at once; the first check that fails raises its fault. -/
def Forks (i : Instr) (s : State) (g : Group) (c : Context) (k : Nat) (e : Bool) (checks : List (Prop × Trap))
    (op : EngineOp) : Prop :=
  Ready i s g g.active → s.ctx? g.asid = some c → s.tablesOk → g.core < 256 →
  (∀ before p tr after, checks = before ++ (p, tr) :: after → (∀ q ∈ before, q.1) → ¬p →
    exec i s = .next (raise s tr g.amask)) ∧
  ((∀ q ∈ checks, q.1) →
    (op.len ≠ 0 → engineRoom s (g.core / 64) c.part = false → ∃ t, exec i s = .next t ∧ Stalled s t g .engine) ∧
    (op.len ≠ 0 → engineRoom s (g.core / 64) c.part = true →
      ∃ t, exec i s = .next t ∧ t.now = s.now + 1 ∧ t.fresh = s.fresh + 1 ∧ look s.fresh t.ops = some op ∧
        (∀ n, n ≠ s.fresh → look n t.ops = look n s.ops) ∧ SameMemory s t g.core ∧
        (∀ a, Keyed s g.core a → isDown s a = false → t.mem.get a = latest s g.core a) ∧ t.sets = s.sets ∧
        t.grp = some (({ g with flash := none, pc := nextPc g.pc 4 } : Group).finish e t.now)) ∧
    (op.len = 0 →
      ∃ t, exec i s = .next t ∧ t.now = s.now + 1 ∧ t.ops = s.ops ∧ SameMemory s t g.core ∧
        counter t g.asid g.core k = { counter s g.asid g.core k with value := (counter s g.asid g.core k).value + 1#64 } ∧
        t.grp = some (({ g with flash := none, pc := nextPc g.pc 4 } : Group).finish e t.now)))

/-- An operation that stands at its next byte of a copy. -/
structure Copies (s : State) (name : Nat) (o : EngineOp) : Prop where
  named : look name s.ops = some o
  order : rising (s.ops.map (·.1)) = true
  kind  : o.kind = .copy
  free  : o.held = none
  more  : o.done < o.len

/-- The next bytes that an operation writes and reads. -/
def dstVa (o : EngineOp) : Nat := o.dst.base.toNat + o.dstOff + o.done
def srcVa (o : EngineOp) : Nat := o.src.base.toNat + o.srcOff + o.done

/-- No byte of `n` from an address lies in a page of a format. -/
def NoPageOf (s : State) (asid : Nat) (mode : Mode) (va n : Nat) (f : PageFmt) : Prop :=
  ∀ v q, va ≤ v → v < va + n → engineTranslate s asid mode .read v = .ok q → q.fmt ≠ f

/-- The source of a whole block starts in a page of another format than the destination's and runs on into one of that format. -/
structure RunsInto (s : State) (o : EngineOp) (p : Page) : Prop where
  whole  : dstVa o % 64 = 0 ∧ 64 ≤ o.len - o.done
  module : isHost p.frame = false
  up     : p.blockDown s ((dstVa o - p.vbase) / 64) = false
  starts : ∃ q, engineTranslate s o.asid o.mode .read (srcVa o) = .ok q ∧ q.hostGrain = false ∧ q.fmt ≠ p.fmt
  ends   : ∃ q, engineTranslate s o.asid o.mode .read (srcVa o + 63) = .ok q ∧ q.fmt = p.fmt

/-- An operation that stands at its last element, entry `x` of its list naming the module and the element. -/
structure LastElement (s s2 : State) (name : Nat) (o : EngineOp) (kind : OpKind) (l : Window) (x : Nat) : Prop where
  named : look name s.ops = some o
  order : rising (s.ops.map (·.1)) = true
  tables : s.tablesOk
  kind  : o.kind = kind
  idx   : o.idx = some l
  free  : o.held = none
  last  : o.done + 1 = o.len
  entry : engineRead s o.asid o.die o.mode 3 (l.base.toNat + o.idxOff + 8 * o.done) 8 = .ok (toBytes 8 x, s2)
  zero  : x < 2 ^ 57

/-- An operation has ended: it is gone, and its counter has 1 more and its flags (R174, R221). -/
def Ended (s t : State) (name : Nat) (o : EngineOp) (core k : Nat) (fl : Flags) : Prop :=
  look name t.ops = none ∧
  counter t o.asid core k = { counter s o.asid core k with
    value := (counter s o.asid core k).value + 1#64, flags := (counter s o.asid core k).flags ||| (o.flags ||| fl) }

/-- Bytes stand at a place, and every other byte of memory as before but those of a sector that DRAM has under another key than the
page's (R329). -/
def Moved (s t : State) (o : Owner) (pa : Nat) (bs : List Byte) : Prop :=
  (∀ i, i < bs.length → t.mem.get (pa + i) = bs.getD i 0#8) ∧
  ∀ a, a < pa ∨ pa + bs.length ≤ a → s.foreign o (a / 64) = false → t.mem.get a = s.mem.get a

/-- A destination of `n` bytes on one raw page that answers. -/
def Lands (s : State) (o : EngineOp) (va n : Nat) (p : Page) (pa : Nat) : Prop :=
  engineTranslate s o.asid o.mode .write va = .ok p ∧ p.fmt = .raw ∧ n ≤ p.reach va ∧
  p.rawPlace s o.asid .write va = .ok pa

end Sys2Proof.Spec

/-! ## Engines and counters -/

/-- R200, R202, R203, R174: `copy`, `gather` and `scatter` check their windows' rights, then their limits, then alignment,
and fork an operation that holds everything they captured. -/
def Obligations.EngineOperationsFork : Prop :=
  (∀ (f : CopyF) (s : State) (g : Group) (c : Context),
    let r (i : Nat) : Nat := (g.sreg (f.a.toNat + i)).toNat
    let d := g.win f.d.toNat
    let w := g.win f.s.toNat
    Spec.Forks (.copy f) s g c f.k.toNat f.e
      [(d.wr = true, Spec.permAt d (r 0)), (w.rd = true, Spec.permAt w (r 1)),
       (r 0 + r 2 ≤ d.limit.toNat, Spec.permAt d (r 0)), (r 1 + r 2 ≤ w.limit.toNat, Spec.permAt w (r 1))]
      { Spec.captured s g .copy f.k.toNat d w with dstOff := r 0, srcOff := r 1, len := r 2 }) ∧
  (∀ (f : GatherF) (s : State) (g : Group) (c : Context),
    let r (i : Nat) : Nat := (g.sreg (f.a.toNat + i)).toNat
    let e := [4, 8, 16, 64].getD f.z.toNat 0
    let d := g.win f.d.toNat
    let w := g.win f.s.toNat
    let l := g.win f.i.toNat
    Spec.Forks (.gather f) s g c f.k.toNat f.e
      [(d.wr = true, Spec.permAt d (r 0)), (w.rd = true, Spec.permAt w 0), (l.rd = true, Spec.permAt l (r 1)),
       (r 0 + r 2 * e ≤ d.limit.toNat, Spec.permAt d (r 0)), (r 1 + 8 * r 2 ≤ l.limit.toNat, Spec.permAt l (r 1)),
       (r 1 % 8 = 0, Spec.alignAt l (r 1)), (r 0 % e = 0, Spec.alignAt d (r 0))]
      { Spec.captured s g .gather f.k.toNat d w with
        idx := some l, dstOff := r 0, idxOff := r 1, len := r 2, esize := e }) ∧
  ∀ (f : GatherF) (s : State) (g : Group) (c : Context),
    let r (i : Nat) : Nat := (g.sreg (f.a.toNat + i)).toNat
    let e := [4, 8, 16, 64].getD f.z.toNat 0
    let d := g.win f.d.toNat
    let w := g.win f.s.toNat
    let l := g.win f.i.toNat
    Spec.Forks (.scatter f) s g c f.k.toNat f.e
      [(d.wr = true, Spec.permAt d 0), (w.rd = true, Spec.permAt w (r 0)), (l.rd = true, Spec.permAt l (r 1)),
       (r 0 + r 2 * e ≤ w.limit.toNat, Spec.permAt w (r 0)), (r 1 + 8 * r 2 ≤ l.limit.toNat, Spec.permAt l (r 1)),
       (r 1 % 8 = 0, Spec.alignAt l (r 1)), (r 0 % e = 0, Spec.alignAt w (r 0))]
      { Spec.captured s g .scatter f.k.toNat d w with
        idx := some l, srcOff := r 0, idxOff := r 1, len := r 2, esize := e }

/-- R202, R174, R201, R205: the last part of a copy moves its bytes between raw pages, every other byte standing but those
of a sector that DRAM has under another key than the destination's, and the completion adds 1 to the counter with the
operation's flags; a page that fails translation posts a record and holds the operation; a part that breaks a rule of
the page formats fails it, adding 1 and setting a clear error mark to the record's number. R158, R203: the last
element of a `gather` reaches its place in the destination, from the element that the list names or as its module
answered, and that of a `scatter` the place that the list names; the last block of a copy into a grain page is moved
raw from a page of the same format, and else encoded from bytes none of which lies in such a page (a source that runs
on into one fails the operation), its flags joining the counter's (R221). An operation performing its parts in the
events that complete or stop it, the size of a part, the answers that a link carries and a part that waits for a die
in reset are the model's (log entries 11, 110, 115, 120). -/
def Obligations.EngineOperationsRun : Prop :=
  (∀ (s : State) (name : Nat) (o : EngineOp) (p q : Page) (dpa spa gid core k : Nat), Spec.Copies s name o → s.tablesOk →
    o.source = .group gid core k → core < 256 → o.len - o.done ≤ 64 →
    engineTranslate s o.asid o.mode .write (Spec.dstVa o) = .ok p → p.fmt = .raw →
    o.len - o.done ≤ p.reach (Spec.dstVa o) → p.rawPlace s o.asid .write (Spec.dstVa o) = .ok dpa →
    engineTranslate s o.asid o.mode .read (Spec.srcVa o) = .ok q → q.fmt = .raw →
    o.len - o.done ≤ q.reach (Spec.srcVa o) → q.rawPlace s o.asid .read (Spec.srcVa o) = .ok spa →
    (∀ i, i < o.len - o.done → (spa + i) % 64 ∉ (look ((spa + i) / 64) s.bad).getD []) →
    ∃ t, exec (.engineOpComplete name) s = .next t ∧ look name t.ops = none ∧
      (∀ i, i < o.len - o.done → t.mem.get (dpa + i) = s.pastL1Byte (64 * o.die) q.own (spa + i)) ∧
      (∀ a, a < dpa ∨ dpa + (o.len - o.done) ≤ a → s.foreign p.own (a / 64) = false → t.mem.get a = s.mem.get a) ∧
      let c := Spec.counter s o.asid core k
      Spec.counter t o.asid core k = { c with value := c.value + 1#64, flags := c.flags ||| o.flags }) ∧
  (∀ (s : State) (name : Nat) (o : EngineOp) (c : Context) (tr : Trap) (pa : Nat), Spec.Copies s name o → s.tablesOk →
    s.ctx? o.asid = some c → Spec.RecordFits s o.asid c pa → pa % 64 = 0 →
    engineTranslate s o.asid o.mode .write (Spec.dstVa o) = .error tr → (tr.code = 1 ∨ tr.code = 2) →
    ∃ t, exec (.enginePageFault name) s = .next t ∧ look name t.ops = some { o with held := some c.seq } ∧
      (∃ c', t.ctx? o.asid = some c' ∧ c'.seq = c.seq + 1) ∧ t.mem.get pa = BitVec.ofNat 8 tr.code ∧
      Spec.numberAt t.mem.get (pa + 16) 8 = tr.info % 2 ^ 64 ∧
      ∀ a, a < pa ∨ pa + 64 ≤ a → t.mem.get a = s.mem.get a) ∧
  (∀ (s : State) (name : Nat) (o : EngineOp) (c : Context) (p : Page) (pa gid core k : Nat), Spec.Copies s name o →
    s.tablesOk → o.source = .group gid core k → core < 256 → s.ctx? o.asid = some c → Spec.RecordFits s o.asid c pa →
    pa % 64 = 0 →
    engineTranslate s o.asid o.mode .write (Spec.dstVa o) = .ok p → p.fmt ≠ .raw →
    (Spec.dstVa o % 64 ≠ 0 ∨ o.len - o.done < 64 ∨ Spec.RunsInto s o p) →
    ∃ t, exec (.engineFailure name) s = .next t ∧ look name t.ops = none ∧ t.mem.get pa = 4#8 ∧
      (∀ a, a < pa ∨ pa + 64 ≤ a → t.mem.get a = s.mem.get a) ∧
      let x := Spec.counter s o.asid core k
      Spec.counter t o.asid core k = { value := x.value + 1#64, err := some (x.err.getD (c.seq % 65536)),
                                       flags := x.flags ||| o.flags }) ∧
  (∀ (s s2 : State) (name : Nat) (o : EngineOp) (l : Window) (p : Page) (x pa gid core k : Nat),
    Spec.LastElement s s2 name o .gather l x → o.source = .group gid core k → core < 256 →
    let va := o.src.base.toNat + x % 2 ^ 48 * o.esize
    x % 2 ^ 48 * o.esize + o.esize ≤ o.src.limit.toNat →
    Spec.Lands s o (o.dst.base.toNat + o.dstOff + o.done * o.esize) o.esize p pa →
    (∀ (s3 : State) (q : Page) (bs : List Byte), x / 2 ^ 48 = podPos s →
      engineTranslate s2 o.asid o.mode .read va = .ok q →
      (va % (if o.esize = 64 then 64 else 4) = 0 ∨
        q.fmt = .raw ∧ (o.esize = 64 → ∀ f, f ≠ .raw → Spec.NoPageOf s2 o.asid o.mode va 64 f)) →
      engineRead s2 o.asid o.die o.mode 17 va o.esize = .ok (bs, s3) → bs.length = o.esize →
      ∃ t, exec (.engineOpComplete name) s = .next t ∧ Spec.Moved s t p.own pa bs ∧ Spec.Ended s t name o core k 0#7) ∧
    ∀ bs : List Byte, x / 2 ^ 48 ≠ podPos s → x / 2 ^ 48 < podSize s → (∃ c, s.ctx? o.asid = some c ∧ c.job ≠ 0) →
      look (replyKey name o.done) s.replies = some (0, bs) → bs.length = o.esize →
      ∃ t, exec (.engineOpComplete name) s = .next t ∧ Spec.Moved s t p.own pa bs ∧ Spec.Ended s t name o core k 0#7) ∧
  (∀ (s s2 s3 : State) (name : Nat) (o : EngineOp) (l : Window) (p : Page) (x pa gid core k : Nat) (bs : List Byte),
    Spec.LastElement s s2 name o .scatter l x → o.source = .group gid core k → core < 256 → x / 2 ^ 48 = podPos s →
    let va := o.dst.base.toNat + x % 2 ^ 48 * o.esize
    x % 2 ^ 48 * o.esize + o.esize ≤ o.dst.limit.toNat → Spec.Lands s o va o.esize p pa →
    engineRead s2 o.asid o.die o.mode 17 (o.src.base.toNat + o.srcOff + o.done * o.esize) o.esize = .ok (bs, s3) →
    bs.length = o.esize →
    ∃ t, exec (.engineOpComplete name) s = .next t ∧ Spec.Moved s t p.own pa bs ∧ Spec.Ended s t name o core k 0#7) ∧
  ∀ (s : State) (name : Nat) (o : EngineOp) (p q : Page) (gid core k : Nat), Spec.Copies s name o → s.tablesOk →
    o.source = .group gid core k → core < 256 → o.len - o.done = 64 →
    engineTranslate s o.asid o.mode .write (Spec.dstVa o) = .ok p → p.fmt ≠ .raw → Spec.dstVa o % 64 = 0 →
    isHost p.frame = false → engineTranslate s o.asid o.mode .read (Spec.srcVa o) = .ok q → q.hostGrain = false →
    let c := 64 * o.die
    let j := (Spec.dstVa o - p.vbase) / 64
    let i := (Spec.srcVa o - q.vbase) / 64
    p.blockDown s j = false → (Spec.blockBytes p j).Nodup →
    (∀ b fl, (q.fmt = p.fmt ∧ Spec.srcVa o % 64 = 0 ∧ q.blockDown s i = false ∧
          (Place.mk q (Spec.srcVa o - q.vbase) q.frame).damaged s 64 = false ∧ b = readBlock s q i ∧ fl = 0#7) ∨
        (q.fmt ≠ p.fmt ∧ Spec.NoPageOf s o.asid o.mode (Spec.srcVa o) 64 p.fmt ∧ ∃ bs s2, engineRead s o.asid o.die o.mode 17 (Spec.srcVa o) 64 = .ok (bs, s2) ∧
          (b, fl) = encodeBlock p.fmt (fun n => engineRnd o.rm o.seed o.lidx o.count (o.done / 4 + n)) (wordsOf bs)) →
      ∃ t, exec (.engineOpComplete name) s = .next t ∧ Spec.Ended s t name o core k fl ∧
        (∀ m, m < p.fmt.blockBytes → t.mem.get (p.blockAddr j m) = (b.packed p.fmt).getD m 0#8) ∧
        t.mem.get (p.sideAddr j 0) = BitVec.ofNat 8 b.e ∧ t.mem.get (p.sideAddr j 1) = BitVec.ofNat 8 b.mu ∧
        ∀ a, a ∉ Spec.blockBytes p j → Spec.KeyedFor s c p.own a → Spec.latest t c a = Spec.latest s c a)

/-- R204, R205, R221, R85: `cwait` completes where the counter has reached its value, as an acquire at die scope that
takes the counter's flags; with the error mark set it raises ENGINE and clears the mark; below the value it waits for
it. `cpoll` reads the value; `carm` sets it and clears the mark and the flags, and of the other groups those alone are
ready that wait for a value the counter then has reached. That ENGINE clears the mark as it is raised, also where its
record waits, is the model's reading (log entry 116). -/
def Obligations.CountersCount : Prop :=
  (∀ (f : CwaitF) (s : State) (g : Group), Spec.Ready (.cwait f) s g g.active → s.tablesOk → g.det.en = false →
    let k := f.k.toNat
    let c := Spec.counter s g.asid g.core k
    let got : Prop := (c.value - g.sreg f.a.toNat).toNat < 2 ^ 63
    (got → c.err = none → ∃ t, exec (.cwait f) s = .next t ∧
      Spec.Done s t { g with fflags := g.fflags ||| c.flags } 4 1 f.e ∧ Spec.Acquired t g.core (some 3) ∧
      (∀ a, Spec.Keyed s g.core a → isDown s a = false → t.mem.get a = Spec.latest s g.core a) ∧ (∀ j, j ≠ g.core → t.core j = s.core j)) ∧
    (∀ n, got → c.err = some n → ∃ s1, exec (.cwait f) s = .next (raise s1 { code := 9, info := n } g.amask) ∧
      s1.grp = some g ∧ Spec.counter s1 g.asid g.core k = { c with err := none } ∧ s1.mem = s.mem) ∧
    (¬got → ∃ t h, exec (.cwait f) s = .next t ∧ t.grp = some h ∧ h.wait = .counter k (g.sreg f.a.toNat).toNat ∧ h.pc = g.pc ∧
      h.sched.inStint = false ∧ h.threads = g.threads ∧ Spec.counter t g.asid g.core k = c ∧ t.mem = s.mem)) ∧
  (∀ (f : CpollF) (s : State) (g : Group), Spec.Ready (.cpoll f) s g g.active →
    exec (.cpoll f) s = .next (s.retire
      (Spec.uniWritten g f.d.toNat (Spec.counter s g.asid g.core f.k.toNat).value) 4 1 f.e)) ∧
  ∀ (f : CwaitF) (s : State) (g : Group), Spec.Ready (.carm f) s g g.active →
    ∃ t, exec (.carm f) s = .next t ∧ t.now = s.now + 1 ∧
      Spec.counter t g.asid g.core f.k.toNat = { value := g.sreg f.a.toNat } ∧
      (∀ k, k ≠ f.k.toNat → Spec.counter t g.asid g.core k = Spec.counter s g.asid g.core k) ∧
      Spec.OtherSets s t g.asid g.core ∧ Spec.Untouched s t ∧
      (∀ j h, j ≠ s.cur → s.group? j = some h →
        let hears : Prop := h.asid = g.asid ∧ h.core = g.core ∧
          ∃ v, h.wait = .counter f.k.toNat v ∧ (g.sreg f.a.toNat - BitVec.ofNat 64 v).toNat < 2 ^ 63
        (hears → t.group? j = some { h with wait := .none, sched := { h.sched with readySince := s.now } }) ∧
        (¬hears → t.group? j = some h)) ∧
      t.grp = some (({ g with flash := none, pc := nextPc g.pc 4 } : Group).finish f.e t.now)

namespace Sys2Proof.Spec

/-! ## The vocabulary of the matrix engine -/

/-- The queued record of a matrix instruction as its issue leaves it (R249). -/
def queuedRecord (s : State) (i : Instr) (g : Group) (refs : List MemRef) (staged : List (List Word)) : MatInstr :=
  { instr := i, gid := s.cur, grid := g.grid, va := g.pc, rm := g.fpmode, seed := g.fpseed, lidx := g.lidx,
    count := g.retired, grpid := g.grpid, staged := staged, ops := refs, det := none, lmask := g.lmask, step := 0,
    flags := 0#7, peak := none, stopped := false, seen := [] }

/-- Every byte is as the core left it. -/
def SameBytes (s t : State) (core : Nat) : Prop := ∀ a, Keyed s core a → latest t core a = latest s core a

/-- R249, R65, R253, R248: a matrix instruction under a partial mask raises MASK; under a full one it raises the fault that
its operands' checks give, or enters the core's queue with what it captured, and its group goes on; `msp`, which alone reads memory at its
issue, may write its core's dirty bytes home (R173). -/
def Queues (i : Instr) (s : State) (g : Group) (captured : Except Trap (List MemRef × List (List Word) × State))
    (cycles : Nat) (commit e : Bool) (awaits : List Nat) : Prop :=
  Ready i s g g.active →
  (g.amask ≠ g.lmask → exec i s = .next (raise s { code := 8 } g.amask)) ∧
  (g.amask = g.lmask → (∀ tr, captured = .error tr → exec i s = .next (raise s tr g.amask)) ∧
    ∀ refs staged s1, captured = .ok (refs, staged, s1) →
      ∃ t h, exec i s = .next t ∧ t.now = s.now + cycles ∧ t.grp = some h ∧
        { h with w := g.w, loads := g.loads } =
          ({ g with matrix := g.matrix + 1, flash := if commit then none else g.flash, pc := nextPc g.pc 4 } : Group).finish
            e t.now ∧
        (∀ r, r ∈ h.loads ↔ r ∈ g.loads ∨ r ∈ awaits) ∧
        (t.set g.asid g.core).mq = (s.set g.asid g.core).mq ++ [queuedRecord s i g refs staged] ∧
        OtherSets s t g.asid g.core ∧ (t.core g.core).accHolder = some ((s.core g.core).accHolder.getD g.asid) ∧
        (t.blocks, t.contexts) = (s.blocks, s.contexts) ∧ SameBytes s t g.core ∧
        ((∀ f, i ≠ .msp f) → (t.mem, t.l2, t.dies) = (s.mem, s.l2, s.dies) ∧ (t.core g.core).l1 = (s.core g.core).l1) ∧
        (∀ j, j ≠ g.core → (t.core j).l1 = (s.core j).l1) ∧ ∀ j, j ≠ s.cur → t.group? j = s.group? j)

/-- The captures of an instruction whose operands are all in memory. -/
def memoryOperands (s : State) (ops : List (OperandCheck × Nat × Nat × Nat)) : Except Trap (List MemRef × List (List Word) × State) :=
  match checkOperands s ops with
  | .error t => .error t
  | .ok (refs, s) => .ok (refs, [], s)

/-- A source in module memory, in pages of a format, at an offset that is a multiple of 64. -/
def source (fmt : PageFmt) : OperandCheck := { align := 64, rd := true, wr := false, acc := .read, noHost := true, fmt := some fmt }

/-- R257: the bytes of an M × K operand. -/
def operandBytes (y m k : Nat) : Nat := m * k * (if y ≤ 2 then 4 else 2)
def formatOf (y : Nat) : PageFmt := [PageFmt.g3, .g5, .g8].getD y .raw

/-- The first instruction of the accumulator holder's queue on a core, free to run. -/
structure Head (s : State) (core asid : Nat) (m : MatInstr) (rest : List MatInstr) : Prop where
  holder : (s.core core).accHolder = some asid
  queue  : (s.set asid core).mq = m :: rest
  free   : m.stopped = false
  runs   : ∃ c, s.ctx? asid = some c ∧ c.stopping = false
  tiles  : rising ((s.set asid core).tiles.map (·.1)) = true

/-- An element of a context's accumulator on a core, by tile, row and column; quads of tiles hold 256 × 256 (R247). -/
def element (s : State) (asid core t r c : Nat) : Word :=
  (look ((t + 2 * (r / 128) + c / 128) * 16384 + r % 128 * 128 + c % 128) (s.set asid core).tiles).getD 0#32

/-- A step of the head has been done, with some flags: the next one is due. -/
def Stepped (t : State) (asid core : Nat) (m : MatInstr) (rest : List MatInstr) : Prop :=
  ∃ fl pk sn, (t.set asid core).mq = { m with step := m.step + 1, flags := m.flags ||| fl, peak := pk, seen := sn } :: rest

/-- What the head's next step reads from: the core's copies of what it reads past L1 are written back and dropped first, in the die's RDC
too (R156, R166, R176), dirty ones that it reads through L1 are written back where its group has acquired at `pkg` or wider (R173), and
the sectors that its earlier steps have read are at hand. -/
def stepFetch (s : State) (core asid : Nat) (m : MatInstr) : Fetch :=
  let settled (s : State) (k : Nat × Bool × Owner) : State :=
    if k.2.1 then (if (s.group? m.gid).any (·.pkgSeen) then s.cleanSector core k.1 else s)
    else dropRdcLine (s.dropSector core k.1) (core / 64) k.2.2 (64 * k.1)
  ⟨((stepRuns m).flatMap fun r => r.1.sectors s asid r.2.1 r.2.2).foldl settled s, asid, core, m.seen⟩

/-- Each element of an accumulator's rows below `a` and columns below `b` has taken a K-step, and the others of the shape stand. -/
def Accumulated (s t : State) (asid core tile side a b : Nat) (fours : Bool) (rows cols : List (List FVal)) : Prop :=
  ∀ r c, r < side → c < side → element t asid core tile r c =
    if r < a ∧ c < b then (kStep fours (element s asid core tile r c) (rows.getD r []) (cols.getD c [])).1
    else element s asid core tile r c

/-- The value, before rounding, format and flags apart, that `mdrain` stores of an element: number `x` of the destination's (R263,
R264). -/
def drained (s : State) (asid core : Nat) (m : MatInstr) (f : MdrainMemF) (bias : List Word) (ty : Nat) (rnd : Rnd → Rnd)
    (x : Nat) : FRes :=
  let n := if f.q then 256 else 128
  drainFloat ty (rnd (engineRnd m.rm m.seed m.lidx m.count x)) (element s asid core f.t.toNat (x / n) (x % n))
    (if f.b then some (bias.getD (x % n) 0#32) else none) f.r

/-- The tiles of a context other than some stand. -/
def OtherTiles (s t : State) (asid core n k : Nat) : Prop :=
  ∀ u r c, r < 128 → c < 128 → (u < n ∨ n + k ≤ u) → element t asid core u r c = element s asid core u r c

end Sys2Proof.Spec

/-! ## The matrix engine -/

/-- R249, R65, R255 to R263: each matrix instruction makes its checks in order and enters the queue with the operands and
the staged registers it captured. When the issue reads of `msp` write dirty bytes back, PERM for a greatest-magnitude
word in host memory and the alignment of a grain operand are the model's readings (log entries 60, 61, 122). -/
def Obligations.MatrixInstructionsQueue : Prop :=
  (∀ (f : MmaF) (s : State) (g : Group),
    let o := (g.sreg f.a.toNat).toNat
    let elems := mmaN f.h * mmaK f.h
    let rows := (List.range 32).map fun t => (List.range (mmaRegs f.h f.y)).map fun m =>
      if g.lmask.getLsbD t then (g.thread t).reg (8 * f.v.toNat + m) else 0#32
    Spec.Queues (.mma f) s g
      (if f.n then
        if ((s.block? g.block).map (·.benchSize)).getD 0 < o + (if f.y = 2#2 then elems / 16 * 18 else 2 * elems) then
          .error { code := 2, info := o }
        else if o % 4 ≠ 0 then .error { code := 3, info := o }
        else .ok ([{ va := o, pages := [], bench := some (g.block, g.core) }], rows, s)
      else match Spec.memoryOperands s [(Spec.source (if f.y = 2#2 then .g8 else .raw), f.w.toNat, o,
          if f.y = 2#2 then 4 * elems else 2 * elems)] with
        | .error t => .error t
        | .ok (refs, _, s1) => .ok (refs, rows, s1))
      (max (threadsOf g.lmask).length 1) true f.e []) ∧
  (∀ (f : MmatF) (s : State) (g : Group),
    let n := Spec.operandBytes f.y.toNat (shapeM f.h) (shapeK f.h)
    Spec.Queues (.mmat f) s g
      (Spec.memoryOperands s [(Spec.source (Spec.formatOf f.y.toNat), f.c.toNat, (g.sreg f.a.toNat).toNat, n),
        (Spec.source (Spec.formatOf f.y.toNat), f.b.toNat, (g.sreg (f.a.toNat + 1)).toNat, n)]) 1 true f.e []) ∧
  (∀ (f : MlutF) (s : State) (g : Group),
    let elems := shapeM f.h * shapeK f.h
    Spec.Queues (.mlut f) s g
      (Spec.memoryOperands s [(Spec.source .raw, f.c.toNat, (g.sreg f.a.toNat).toNat, elems / (if f.x then 4 else 8)),
        (Spec.source (if f.y then .g5 else .g8), f.b.toNat, (g.sreg (f.a.toNat + 1)).toNat, 4 * elems)]) 1 true f.e []) ∧
  (∀ (f : MmatF) (s : State) (g : Group),
    let m := shapeM f.h
    let base := (g.sreg f.a.toNat).toNat
    Spec.Queues (.msp f) s g
      (match checkOperand (Spec.source .raw) s f.c.toNat base (4 * m) with
        | .error t => .error t
        | .ok (r, s1) =>
          match sparseRows f.y.toNat m f.c.toNat base (shapeK f.h / 16) m ⟨s1, r, 4 * m⟩ with
          | .error t => .error t
          | .ok (rows, a) =>
            match checkOperand (Spec.source (Spec.formatOf f.y.toNat)) a.s f.b.toNat (g.sreg (f.a.toNat + 1)).toNat
                (Spec.operandBytes f.y.toNat m (shapeK f.h)) with
            | .error t => .error t
            | .ok (rb, s2) => .ok ([a.ref, rb], rows, s2)) 1 true f.e []) ∧
  (∀ (f : MzeroF) (s : State) (g : Group), Spec.Queues (.mzero f) s g (.ok ([], [], s)) 1 false f.e []) ∧
  (∀ (f : MloadF) (s : State) (g : Group),
    let c := if f.q then 256 else 128
    Spec.Queues (.mload f) s g
      (Spec.memoryOperands s [(Spec.source ([PageFmt.raw, .raw, .raw, .g8, .g5, .g3].getD f.y.toNat .raw), f.w.toNat,
        (g.sreg f.a.toNat).toNat, c * c * (if f.y = 1#3 ∨ f.y = 2#3 then 2 else 4))]) 1 false f.e []) ∧
  (∀ (f : MdrainMemF) (s : State) (g : Group), g.det.en = false →
    let c := if f.q then 256 else 128
    let at_ (i : Nat) : Nat := (g.sreg (f.a.toNat + i)).toNat
    let dst : OperandCheck :=
      { Spec.source ([PageFmt.raw, .raw, .raw, .g8, .g5, .g3].getD f.y.toNat .raw) with rd := false, wr := true, acc := .write }
    let bias : OperandCheck := { align := 4, rd := true, wr := false, acc := .read, noHost := false, fmt := none }
    let word : OperandCheck := { align := 4, rd := true, wr := false, acc := .update, noHost := true, fmt := some .raw }
    Spec.Queues (.mdrainMem f) s g
      (Spec.memoryOperands s ([(dst, f.w.toNat, at_ 0, c * c * (if f.y = 1#3 ∨ f.y = 2#3 then 2 else 4))] ++
        (if f.b then [(bias, f.w.toNat, at_ 1, 4 * c)] else []) ++
        (if f.s ≠ 0#3 then [(word, f.w.toNat, at_ 2, 4)] else []))) 1 false f.e []) ∧
  ∀ (f : MdrainRegF) (s : State) (g : Group),
    Spec.Queues (.mdrainReg f) s g (.ok ([], [], s)) 1 false f.e
      ((List.range (if f.y = 0#3 then 32 else 16)).map (f.v.toNat + ·))

/-- R249, R254, R247, R261 to R264: the steps: `mzero` clears its tiles; a K-step of `mmat` adds the exact sum of its 16
products of a row and a column to each element, rounded as R254 says; a step of `mload` brings 16 rows; a step of a
register drain writes its threads' registers; the other tiles stand. The K-steps of `mma` (R256), `mlut` (R260) and `msp` (R259) do the
same with their operands' elements; a step of a drain to memory stores its 16 rows, float by float or block by block, every other byte
standing. -/
def Sys2Proof.Spec.MatrixStepsCompute : Prop :=
  (∀ (core asid : Nat) (s : State) (m : MatInstr) (rest : List MatInstr) (f : MzeroF), Spec.Head s core asid m rest →
    m.fault = none → m.instr = .mzero f → m.step = 0 →
    let n := if f.q then 4 else 1
    ∃ t, exec (.matrixStepDone core) s = .next t ∧ Spec.Stepped t asid core m rest ∧
      (∀ u r c, f.t.toNat ≤ u → u < f.t.toNat + n → r < 128 → c < 128 → Spec.element t asid core u r c = 0#32) ∧
      Spec.OtherTiles s t asid core f.t.toNat n ∧ t.mem = s.mem) ∧
  (∀ (core asid : Nat) (s : State) (m : MatInstr) (rest : List MatInstr) (f : MmatF) (a b : MemRef)
    (rows cols : List (List FVal)), Spec.Head s core asid m rest → m.fault = none → m.instr = .mmat f →
    m.ops = [a, b] →
    let n := shapeM f.h
    let steps := shapeK f.h / 16
    let v := Spec.stepFetch s core asid m
    m.step < steps →
    fetchBlocks v (typeKind f.y.toNat) a ((List.range n).map fun i => i * steps + m.step) = .ok rows →
    fetchBlocks v (typeKind f.y.toNat) b ((List.range n).map fun i => i * steps + m.step) = .ok cols →
    ∃ t, exec (.matrixStepDone core) s = .next t ∧ Spec.Stepped t asid core m rest ∧
      (∀ r c, r < n → c < n → Spec.element t asid core f.t.toNat r c =
        (kStep (decide (3 ≤ f.y.toNat)) (Spec.element s asid core f.t.toNat r c) (rows.getD r []) (cols.getD c [])).1) ∧
      Spec.OtherTiles s t asid core f.t.toNat (if 2 ≤ f.h.toNat then 4 else 1) ∧ Spec.SameBytes s t core) ∧
  (∀ (core asid : Nat) (s : State) (m : MatInstr) (rest : List MatInstr) (f : MloadF) (a : MemRef)
    (bs : List (List FVal)), Spec.Head s core asid m rest → m.fault = none → m.instr = .mload f → m.ops = [a] →
    let n := if f.q then 256 else 128
    16 * m.step < n →
    fetchBlocks (Spec.stepFetch s core asid m) (loadKind f.y.toNat) a ((List.range n).map fun i => m.step * n + i) = .ok bs →
    (∀ b ∈ bs, b.length = 16) →
    ∃ t, exec (.matrixStepDone core) s = .next t ∧ Spec.Stepped t asid core m rest ∧
      (∀ r c, r < n → c < n → Spec.element t asid core f.t.toNat r c =
        if r / 16 = m.step then exactWord ((bs.getD ((r % 16 * n + c) / 16) []).getD (c % 16) (.nan false))
        else Spec.element s asid core f.t.toNat r c) ∧
      Spec.OtherTiles s t asid core f.t.toNat (if f.q then 4 else 1) ∧ Spec.SameBytes s t core) ∧
  (∀ (core asid : Nat) (s : State) (m : MatInstr) (rest : List MatInstr) (f : MmaF) (b : MemRef) (cols : List (List FVal)),
    Spec.Head s core asid m rest → m.fault = none → m.instr = .mma f → m.ops = [b] →
    let n := if f.h = 0#2 then 8 else if f.h = 1#2 then 16 else 32
    let steps := if f.h = 3#2 then 4 else 2
    m.step < steps →
    fetchBlocks (Spec.stepFetch s core asid m) (mmaKind f) b ((List.range n).map fun i => i * steps + m.step) = .ok cols →
    ∃ t, exec (.matrixStepDone core) s = .next t ∧ Spec.Stepped t asid core m rest ∧
      Spec.Accumulated s t asid core f.t.toNat 128 32 n (decide (f.y ≠ 2#2))
        (m.staged.map fun regs => stagedBlock f.y.toNat (16 * steps) regs m.step) cols ∧
      Spec.OtherTiles s t asid core f.t.toNat 1 ∧ Spec.SameBytes s t core) ∧
  (∀ (core asid : Nat) (s : State) (m : MatInstr) (rest : List MatInstr) (f : MlutF) (a b : MemRef)
    (rows cols : List (List FVal)), Spec.Head s core asid m rest → m.fault = none → m.instr = .mlut f → m.ops = [a, b] →
    let n := shapeM f.h
    let steps := shapeK f.h / 16
    let at_ := (List.range n).map fun i => i * steps + m.step
    m.step < steps → fetchBlocks (Spec.stepFetch s core asid m) (.weights f.x) a at_ = .ok rows →
    fetchBlocks (Spec.stepFetch s core asid m) .grain b at_ = .ok cols →
    let tiles := if 2 ≤ f.h.toNat then 4 else 1
    ∃ t, exec (.matrixStepDone core) s = .next t ∧ Spec.Stepped t asid core m rest ∧
      Spec.Accumulated s t asid core f.t.toNat (if tiles = 4 then 256 else 128) n n false rows cols ∧
      Spec.OtherTiles s t asid core f.t.toNat tiles ∧ Spec.SameBytes s t core) ∧
  (∀ (core asid : Nat) (s : State) (m : MatInstr) (rest : List MatInstr) (f : MmatF) (a b : MemRef)
    (rows cols : List (List FVal)), Spec.Head s core asid m rest → m.fault = none → m.instr = .msp f → m.ops = [a, b] →
    let n := shapeM f.h
    let steps := shapeK f.h / 16
    m.step < steps → sparseBlocks (Spec.stepFetch s core asid m) f.y.toNat m.step a m.staged = .ok rows →
    fetchBlocks (Spec.stepFetch s core asid m) (typeKind f.y.toNat) b ((List.range n).map fun i => i * steps + m.step) = .ok cols →
    let tiles := if 2 ≤ f.h.toNat then 4 else 1
    ∃ t, exec (.matrixStepDone core) s = .next t ∧ Spec.Stepped t asid core m rest ∧
      Spec.Accumulated s t asid core f.t.toNat (if tiles = 4 then 256 else 128) n n (decide (3 ≤ f.y.toNat)) rows cols ∧
      Spec.OtherTiles s t asid core f.t.toNat tiles ∧ Spec.SameBytes s t core) ∧
  (∀ (core asid : Nat) (s : State) (m : MatInstr) (rest : List MatInstr) (f : MdrainMemF) (dst : MemRef) (more : List MemRef)
    (p : Page) (bias : List Word), Spec.Head s core asid m rest → m.fault = none → m.instr = .mdrainMem f →
    m.ops = dst :: more → s.tablesOk →
    let n := if f.q then 256 else 128
    let first := 16 * n * m.step
    16 * m.step < n →
    (if f.b then ∃ r, more.head? = some r ∧ biasRow (Spec.stepFetch s core asid m) r (List.range n) = .ok bias else True) →
    (f.y.toNat ≤ 2 → ∀ pa,
      let size := if f.y = 0#3 then 4 else 2
      (∀ o, o < 16 * n * size → dst.page (dst.va + first * size + o) = some p ∧
        p.rawPlace s asid .write (dst.va + first * size + o) = .ok (pa + o)) →
      ∃ t, exec (.matrixStepDone core) s = .next t ∧ Spec.Stepped t asid core m rest ∧ (t.set asid core).tiles = (s.set asid core).tiles ∧
        (∀ x, x < 16 * n → ∀ b, b < size → t.mem.get (pa + x * size + b) =
          BitVec.ofNat 8 ((Spec.drained s asid core m f bias f.y.toNat id (first + x)).bits / 256 ^ b)) ∧
        ∀ a, a < pa ∨ pa + 16 * n * size ≤ a → Spec.KeyedFor s core p.own a → Spec.latest t core a = Spec.latest s core a) ∧
    (3 ≤ f.y.toNat → ∀ j,
      (∀ u, u < n → dst.page (dst.va + 4 * first + 64 * u) = some p ∧
        (dst.va + 4 * first + 64 * u - p.vbase) / 64 = j + u ∧ p.blockDown s (j + u) = false) →
      ((List.range n).flatMap fun u => Spec.blockBytes p (j + u)).Nodup →
      ∃ t, exec (.matrixStepDone core) s = .next t ∧ Spec.Stepped t asid core m rest ∧
        (∀ u, u < n →
          let e := (encodeBlock p.fmt (fun i => engineRnd m.rm m.seed m.lidx m.count (first + 16 * u + i))
            ((List.range 16).map fun i => BitVec.ofNat 32
              (Spec.drained s asid core m f bias 0 (fun r => if r.mode = .rsr then ⟨.rne, 0⟩ else r) (first + 16 * u + i)).bits)).1
          (∀ b, b < p.fmt.blockBytes → t.mem.get (p.blockAddr (j + u) b) = (e.packed p.fmt).getD b 0#8) ∧
          t.mem.get (p.sideAddr (j + u) 0) = BitVec.ofNat 8 e.e ∧ t.mem.get (p.sideAddr (j + u) 1) = BitVec.ofNat 8 e.mu) ∧
        ∀ a, (∀ u, u < n → a ∉ Spec.blockBytes p (j + u)) → Spec.KeyedFor s core p.own a →
          Spec.latest t core a = Spec.latest s core a)) ∧
  ∀ (core asid : Nat) (s : State) (m : MatInstr) (rest : List MatInstr) (f : MdrainRegF) (g : Group),
    Spec.Head s core asid m rest → m.fault = none → m.instr = .mdrainReg f → m.step < 2 → f.y = 0#3 → f.v.toNat + 32 ≤ 48 →
    s.group? m.gid = some g →
    ∃ t h, exec (.matrixStepDone core) s = .next t ∧ Spec.Stepped t asid core m rest ∧ t.group? m.gid = some h ∧
      (∀ u, u < 32 → m.lmask.getLsbD u = true → u / 16 = m.step → ∀ c, c < 32 → (h.thread u).reg (f.v.toNat + c) =
        BitVec.ofNat 32 (drainFloat 0 (engineRnd m.rm m.seed m.lidx m.count (u * 32 + c))
          (Spec.element s asid core f.t.toNat u c) none f.r).bits) ∧
      (∀ u, u < 32 → ¬(m.lmask.getLsbD u = true ∧ u / 16 = m.step) → h.thread u = g.thread u) ∧
      (t.set asid core).tiles = (s.set asid core).tiles

/-- R250, R252, R248: an instruction whose steps are done leaves the queue, its flags join its group's and the registers
it drained are ready; the greatest magnitude of a drain to memory enters its word as one `famax`, or under
deterministic mode as a contribution that its group's buffer takes, a full one ending the quantum (R264, R178, R209); one whose step meets damaged data, or an operand of which lost its translation at a resumption, stops, and its
group has the record pending; the accumulator
store passes to the waiting context once the holder's queue is empty. -/
def Sys2Proof.Spec.MatrixQueueAdvances : Prop :=
  (∀ (core asid : Nat) (s : State) (m : MatInstr) (rest : List MatInstr) (g : Group), Spec.Head s core asid m rest →
    matSteps m.instr ≤ m.step → (∀ f, m.instr = .mdrainMem f → f.s = 0#3) → s.group? m.gid = some g →
    (∀ x, s.grid? m.grid = some x → x.live ≠ 0) →
    ∃ t h, exec (.matrixInstrDone core) s = .next t ∧ (t.set asid core).mq = rest ∧ t.group? m.gid = some h ∧
      h.fflags = g.fflags ||| m.flags ∧ h.matrix = g.matrix - 1 ∧ h.threads = g.threads ∧ h.pc = g.pc ∧
      (∀ r, r ∈ h.loads ↔ r ∈ g.loads ∧ ∀ f, m.instr = .mdrainReg f →
        r < f.v.toNat ∨ f.v.toNat + (if f.y = 0#3 then 32 else 16) ≤ r) ∧
      (t.set asid core).tiles = (s.set asid core).tiles ∧ t.mem = s.mem) ∧
  (∀ (core asid : Nat) (s : State) (m : MatInstr) (rest : List MatInstr) (f : MdrainMemF) (p : Page) (pa : Nat),
    Spec.Head s core asid m rest → matSteps m.instr ≤ m.step → m.instr = .mdrainMem f → f.s ≠ 0#3 → s.tablesOk →
    (∀ x, s.grid? m.grid = some x → x.live ≠ 0) →
    let r := m.ops.getD (if f.b then 2 else 1) { va := 0, pages := [] }
    let peak := m.peak.getD 0x7FC00000#32
    r.place s asid r.va = .ok (p, pa) → pa % 4 = 0 → isDown s pa = false →
    (m.det = none → (∀ i, i < 4 → (pa + i) % 64 ∉ (look ((pa + i) / 64) s.bad).getD [] ∧ Spec.KeyedFor s core p.own (pa + i)) →
      ∃ t, exec (.matrixInstrDone core) s = .next t ∧ (t.set asid core).mq = rest ∧
        Spec.numberAt t.mem.get pa 4 =
          Spec.atomicValue 14 ⟨.rne, 0⟩ (Spec.numberAt (Spec.latest s core) pa 4) (fun _ => peak) ∧
        ∀ a, a < pa ∨ pa + 4 ≤ a → Spec.KeyedFor s core p.own a → Spec.latest t core a = Spec.latest s core a) ∧
    ∀ grid key, m.det = some (grid, key) →
      let x : Contribution := ⟨m.gid, grid, key, .home pa, p.own, 14, peak, ⟨.rne, 0⟩, core, f.s.toNat, false, m.va, r.va⟩
      ∃ t, exec (.matrixInstrDone core) s = .next t ∧ (t.set asid core).mq = rest ∧ Spec.SameBytes s t core ∧
        (s.group? m.gid = none → t.pool = s.pool ++ [x]) ∧
        ∀ g, s.group? m.gid = some g → g.core < 256 → ∃ h, t.group? m.gid = some h ∧ h.det.count = g.det.count ∧
          (g.det.buffer.length < 255 → t.pool = s.pool ∧ h.det.buffer = g.det.buffer ++ [x]) ∧
          (255 ≤ g.det.buffer.length → t.pool = s.pool ++ (g.det.buffer ++ [x]) ∧ h.det.buffer = [] ∧ h.det.run = 0)) ∧
  (∀ (core asid : Nat) (s : State) (m : MatInstr) (rest : List MatInstr) (g : Group) (tr : Trap),
    Spec.Head s core asid m rest → m.step < matSteps m.instr →
    (m.fault = some tr ∨ (m.fault = none ∧ matStep (Spec.stepFetch s core asid m) m = .error tr)) → tr.code ≠ 255 →
    s.group? m.gid = some g → g.pending = none →
    ∃ t h ev, exec (.matrixStepDone core) s = .next t ∧ (t.set asid core).mq = { m with stopped := true } :: rest ∧
      (t.set asid core).tiles = (s.set asid core).tiles ∧ t.group? m.gid = some h ∧ h = { g with pending := some ev } ∧
      ev.code = tr.code ∧ ev.instr = m.va ∧ Spec.SameBytes s t core) ∧
  ∀ (core asid : Nat) (s : State), (s.core core).accWant = some asid →
    (((s.core core).accHolder = none ∨ ∃ h, (s.core core).accHolder = some h ∧ (s.set h core).mq = []) →
      ∃ t, exec (.accumulatorSwap core) s = .next t ∧ (t.core core).accHolder = some asid ∧ (t.core core).accWant = none ∧
        t.sets = s.sets) ∧
    (∀ h m rest, (s.core core).accHolder = some h → (s.set h core).mq = m :: rest →
      exec (.accumulatorSwap core) s = .next s)

/-- R249 to R252: the matrix engine's steps and its queue. An event that is not due changes nothing, and the steps of the
register drain, and the write-back after an acquire at `pkg`, are the model's (log entries 8, 62, 122). -/
def Obligations.MatrixEngineAdvances : Prop := Spec.MatrixStepsCompute ∧ Spec.MatrixQueueAdvances

namespace Sys2Proof.Spec

/-! ## The vocabulary of coverage -/

/-- A tile slot of a group's context on its core (R284). -/
def slot (s : State) (g : Group) (n : Nat) : Slot := (look n (s.set g.asid g.core).slots).getD {}

/-- A slot instruction has completed in one cycle: its slot as given, the other slots and all memory as before, the
group as `k` at the next instruction. -/
def SlotDone (s t : State) (g k : Group) (n : Nat) (x : Slot) (e : Bool) : Prop :=
  t.now = s.now + 1 ∧ slot t g n = x ∧ (∀ m, m ≠ n → slot t g m = slot s g m) ∧ OtherSets s t g.asid g.core ∧
  (t.mem, t.l2, t.dies, t.blocks) = (s.mem, s.l2, s.dies, s.blocks) ∧
  (t.core g.core).tileHolder = some ((s.core g.core).tileHolder.getD g.asid) ∧
  t.grp = some (({ k with pc := nextPc g.pc 4 } : Group).finish e t.now) ∧ ∀ j, j ≠ s.cur → t.group? j = s.group? j

/-- A state in which a result has come: the groups of a broken stint are looked at before the next turn (R81). -/
def resultHere (s t : State) : State :=
  { t with stir := s.stir || s.groups.any fun e => e.2.wait == .stintBreak }

/-- R78: a group once the scribe or the deposit it kept at work is done: its stint ends now where its last instruction has completed. -/
def unitOver (s : State) (g : Group) : Group :=
  if g.sched.endDue = true then { g with sched := { g.sched with
    inStint := false, resumeStint := false, stintCount := 0, stintWait := 0,
    lastEnd := if g.sched.inStint = true then s.now else g.sched.lastEnd, idleSince := s.now, endDue := false } }
  else g

/-- R276: the fill of a winding-weighted area. -/
def fill (evenOdd : Bool) (x : Int) : Nat :=
  if evenOdd then (if x.natAbs % 262144 ≤ 131072 then x.natAbs % 262144 else 262144 - x.natAbs % 262144)
  else min x.natAbs 131072

/-- R277: the value at a cell's current depth, and its effective coverage, the nearest integer, a tie to the even. -/
def topOf (x : Slot) (i : Nat) : Nat := if x.depth = 0 then 131072 else (x.cell i).clip[x.depth - 1]?.getD 0
def effOf (x : Slot) (i : Nat) : Nat :=
  let p := (x.cell i).cov * topOf x i
  let q := p / 131072
  if 65536 < p % 131072 ∨ (p % 131072 = 65536 ∧ q % 2 = 1) then q + 1 else q

/-- The sum of the increments that an entry's pieces give a cell. -/
def sumAt (ps : List Piece) (i : Nat) (f : Piece → Int) : Int := ((ps.filter fun p => p.cell == i).map f).sum

/-- R297: the item of a cell. -/
def cellItem (g : Group) (n : Nat) (x : Slot) (e : BinEntry) (i : Nat) : Item :=
  { entry := e.entry, grid := g.grid,
    payload := #v[BitVec.ofNat 32 (16 * x.tx + i % 16 + (16 * x.ty + i / 16) * 65536), BitVec.ofNat 32 (effOf x i),
      BitVec.ofNat 32 e.index, e.paint],
    origin := ⟨g.lidx, 0, g.retired * 256 + i⟩, ticket := some ⟨n, i, x.stamp, effOf x i⟩, cls := g.cls, bcnt := g.bcnt,
    bidx := g.bidx, args := g.args, prefixKey := itemPrefix g 0 ++ [i], block := g.block, spot := 0 }

/-- The tile an `s_a` names (R292). -/
def tileX (g : Group) (a : BitVec 5) : Nat := (g.sreg a.toNat).toNat % 65536
def tileY (g : Group) (a : BitVec 5) : Nat := (g.sreg a.toNat).toNat / 65536 % 65536

/-- A slot as a binding leaves it: idle on the tile and its window, the accumulators and the coverage clear. -/
structure Bound (x : Slot) (w : Window) (tx ty depth : Nat) (colour : Nat → Vector (BitVec 16) 4)
    (clip : Nat → Vector Nat 8) : Prop where
  state : x.state = .idle ∧ x.tx = tx ∧ x.ty = ty ∧ x.win = some w ∧ x.depth = depth ∧ x.stamp = 0 ∧ x.entry = none
  back  : x.back = List.replicate 16 0
  cells : ∀ i, i < 256 → x.cell i = { c := 0#32, a := 0#48, cov := 0, clip := clip i, colour := colour i, queue := [] }

/-- The colour of cell `i` among a tile's channels. -/
def channels (cs : List (BitVec 16)) (i : Nat) : Vector (BitVec 16) 4 := Vector.ofFn fun j : Fin 4 => cs.getD (4 * i + j.val) 0#16

/-- A slot that may be bound (R285, R292). -/
def Bindable (s : State) (g : Group) (c : Context) (a : BitVec 5) (n : Nat) : Prop :=
  tileX g a < c.gw ∧ tileY g a < c.gh ∧ ((slot s g n).state = .unbound ∨ (slot s g n).state = .idle) ∧
  ∀ e ∈ (slot s g n).cells, e.2.queue = []

/-- The bytes of a cell, a row and an image of a raw target (R293). -/
def rawTarget (c : Context) : Target :=
  { cell := 8, row := 16 * c.gw * 8, image := 16 * c.gw * 16 * c.gh * 8, whole := 16 * c.gw * 16 * c.gh * 8 + 9216 * c.gw * c.gh }

end Sys2Proof.Spec

/-! ## Coverage -/

/-- R289 to R291, R279, R274, R283: `path` opens a path; `seg` bins its segments' pieces against the group's window while
the bin area holds them, and otherwise closes the path unfinished and clears its predicate; the group then waits for
the scribe, at whose end its stint ends where its last instruction has completed (R78). `pend` closes a path: each
binned tile gets its entry, a push one in every tile of its box, which the group keeps open, a pop one in every tile
of the innermost box (R279). Which page of the bin area a charge reaches, that every later `cdep` finds an entry, and
that the area's bytes stand, are the model's (log entries 30, 137, 138). -/
def Obligations.PathsAreBinned : Prop :=
  (∀ (f : PathF) (s : State) (g : Group) (c : Context), Spec.Ready (.path f) s g g.active → s.ctx? g.asid = some c →
    let r (i : Nat) : Nat := (g.sreg (f.a.toNat + i)).toNat
    let allowed : Prop := r 0 < 2 ^ 32 ∧ (f.o = 2#2 ∨ (1 ≤ r 2 % 512 ∧ r 2 % 512 ≤ 256)) ∧ (f.o = 0#2 → f.n.toNat < c.ecnt) ∧
      g.bin.open_ = none ∧ (f.o = 2#2 → g.bin.boxes ≠ []) ∧ (f.o = 1#2 → g.bin.boxes.length < 8) ∧
      ∀ k, g.bin.closed = some k → k < r 0
    let p : OpenPath :=
      { index := r 0, role := f.o.toNat, evenOdd := f.u, entry := f.n.toNat, paint := BitVec.ofNat 32 (r 1),
        tol := if f.o = 2#2 then 1 else r 2 % 512, pieces := [], carry := [], carryL := [] }
    let opened : Binning := { g.bin with open_ := some p }
    (allowed → exec (.path f) s = .next (s.retire { g with flash := none, bin := opened } 4 1 f.e)) ∧
    (f.a.toNat ≤ 29 → ¬allowed → exec (.path f) s = .next (illop s 2))) ∧
  (∀ (f : SegF) (s : State) (g : Group) (c : Context) (p : OpenPath), Spec.Ready (.seg f) s g g.active →
    s.ctx? g.asid = some c → g.bin.open_ = some p → p.role ≠ 2 →
    let point (t i : Nat) : Pt := ⟨((g.thread t).reg (f.a.toNat + 2 * i)).toInt, ((g.thread t).reg (f.a.toNat + 2 * i + 1)).toInt⟩
    let b := binPieces (binWindow c.gw c.gh g.bin.boxes) p
      (g.active.flatMap fun t => segmentPieces p.tol ((List.range (f.k.toNat + 2)).map (point t)))
    let q : OpenPath := { b.1 with rows := (p.rows ++ scanRows b.1).eraseDups }
    let used := c.binUsed - p.charge + q.charge
    let lost : Flags := if b.2 then 64#7 else 0#7
    let binned : Binning := { g.bin with open_ := some q }
    let shut : Binning := { g.bin with open_ := none }
    (used ≤ c.binn * 65536 → binDown s g.asid used = false → binAnswers s g.asid used = true →
      ∃ t k, exec (.seg f) s = .next t ∧ t.now = s.now + Spec.laneCycles g ∧ t.mem = s.mem ∧ t.sets = s.sets ∧
        t.ctx? g.asid = some { c with binUsed := used } ∧
        t.grp = some (({ k with pc := nextPc g.pc 4 } : Group).finish f.e t.now) ∧
        Spec.ThreadsAfter g k g.active (fun u => (g.thread u).setPred f.p.toNat true) ∧
        k = { g with threads := k.threads, flash := none, scribe := true, bin := binned, fflags := g.fflags ||| lost }) ∧
    (c.binn * 65536 < used →
      ∃ t k, exec (.seg f) s = .next t ∧ t.now = s.now + Spec.laneCycles g ∧ t.mem = s.mem ∧ t.sets = s.sets ∧
        t.ctx? g.asid = some { c with binUsed := c.binUsed - p.charge } ∧
        t.grp = some (({ k with pc := nextPc g.pc 4 } : Group).finish f.e t.now) ∧
        Spec.ThreadsAfter g k g.active (fun u => (g.thread u).setPred f.p.toNat false) ∧
        { k with threads := g.threads } = { g with flash := none, scribe := true, bin := shut })) ∧
  (∀ (gid : Nat) (s : State) (g : Group), s.group? gid = some g →
    exec (.scribeDone gid) s = .next (Spec.resultHere s (s.setGroup gid (Spec.unitOver s { g with scribe := false })))) ∧
  ∀ (f : PlainF) (s : State) (g : Group) (c : Context) (p : OpenPath), Spec.Ready (.pend f) s g g.active →
    s.ctx? g.asid = some c → g.bin.open_ = some p → binDown s g.asid c.binUsed = false →
    binAnswers s g.asid c.binUsed = true →
    (p.role = 0 → ∀ w, binWindow c.gw c.gh g.bin.boxes = some w →
      ∃ t c' h, exec (.pend f) s = .next t ∧ t.now = s.now + 1 ∧ t.ctx? g.asid = some c' ∧ t.grp = some h ∧
        h.bin = { open_ := none, boxes := g.bin.boxes, closed := some p.index } ∧ h.pc = nextPc g.pc 4 ∧
        h.threads = g.threads ∧ h.s = g.s ∧ t.mem = s.mem ∧
        (∀ k ps, look k p.pieces = some ps → w.x0 ≤ k % 4096 → k % 4096 ≤ w.x1 →
          ∃ e ∈ (look k c'.bins).getD [], e.pieces = ps ∧ e.index = p.index ∧ e.role = 0 ∧ e.evenOdd = p.evenOdd ∧
            e.entry = p.entry ∧ e.paint = p.paint ∧ e.lidx = g.lidx) ∧
        ∀ k, k % 4096 < w.x0 ∨ w.x1 < k % 4096 → look k c'.bins = look k c.bins) ∧
    (p.role = 1 →
      ∃ t c' h box, exec (.pend f) s = .next t ∧ t.now = s.now + 1 ∧ t.ctx? g.asid = some c' ∧ t.grp = some h ∧
        h.bin = { open_ := none, boxes := box :: g.bin.boxes, closed := some p.index } ∧ h.pc = nextPc g.pc 4 ∧
        h.threads = g.threads ∧ h.s = g.s ∧ t.mem = s.mem ∧
        (∀ w, binWindow c.gw c.gh g.bin.boxes = some w → ∀ k ps, look k p.pieces = some ps → w.x0 ≤ k % 4096 → k % 4096 ≤ w.x1 →
          (∃ b, box = some b ∧ b.x0 ≤ k % 4096 ∧ k % 4096 ≤ b.x1 ∧ b.y0 ≤ k / 4096 ∧ k / 4096 ≤ b.y1) ∧
          ∃ e ∈ (look k c'.bins).getD [], e.pieces = ps ∧ e.index = p.index ∧ e.role = 1 ∧ e.lidx = g.lidx) ∧
        (∀ b, box = some b → ∀ x y, b.x0 ≤ x → x ≤ b.x1 → b.y0 ≤ y → y ≤ b.y1 →
          ∃ e ∈ (look (y * 4096 + x) c'.bins).getD [], e.index = p.index ∧ e.role = 1) ∧
        (binWindow c.gw c.gh g.bin.boxes = none → box = none) ∧
        ∀ k, (∀ b, box = some b → k % 4096 < b.x0 ∨ b.x1 < k % 4096 ∨ k / 4096 < b.y0 ∨ b.y1 < k / 4096) →
          look k c'.bins = look k c.bins) ∧
    (p.role = 2 → ∀ b rest, g.bin.boxes = some b :: rest →
      ∃ t c' h, exec (.pend f) s = .next t ∧ t.now = s.now + 1 ∧ t.ctx? g.asid = some c' ∧ t.grp = some h ∧
        h.bin = { open_ := none, boxes := rest, closed := some p.index } ∧ h.pc = nextPc g.pc 4 ∧
        h.threads = g.threads ∧ h.s = g.s ∧ t.mem = s.mem ∧
        (∀ x y, b.x0 ≤ x → x ≤ b.x1 → b.y0 ≤ y → y ≤ b.y1 →
          ∃ e ∈ (look (y * 4096 + x) c'.bins).getD [], e.pieces = [] ∧ e.index = p.index ∧ e.role = 2) ∧
        c'.binUsed = c.binUsed)

/-- R292 to R294, R285: `tbind` binds a slot to a tile: cleared to a colour, read from the target, or keeping what it
held; `tload` reads the colour and the clip stack back, refusing an unsound record, its window's limit, rights and
alignment checked in the order of R249 before any page is; `tflush` waits while a ticket is outstanding and else
writes the colours of a raw target's tile and unbinds the slot. The limit that a stale window is held to before it is
translated again is the model's (log entry 125). -/
def Obligations.TilesBindAndFlush : Prop :=
  (∀ (f : TbindF) (s s1 : State) (g : Group) (c : Context) (r : TileRefs), Spec.Ready (.tbind f) s g g.active →
    s.ctx? g.asid = some c → Spec.Bindable s g c f.a f.s.toNat →
    let tx := Spec.tileX g f.a
    let ty := Spec.tileY g f.a
    let old := Spec.slot s g f.s.toNat
    let clear := (g.sreg (f.a.toNat + 1)).toNat
    let after (s t : State) (fl : Flags) (x : Slot) : Prop := ∃ k, { k with w := g.w } = { g with flash := none, fflags := g.fflags ||| fl } ∧
      Spec.SlotDone s t g k f.s.toNat x f.e
    checkTile s g (g.win f.w.toNat) c.gw c.gh tx ty (f.i == 1#2) false = .ok (r, s1) →
    (f.i = 0#2 → ∃ t x, exec (.tbind f) s = .next t ∧ after s t 0#7 x ∧
      Spec.Bound x r.win tx ty 0 (fun _ => Spec.channels [BitVec.ofNat 16 clear, BitVec.ofNat 16 (clear / 2 ^ 16),
        BitVec.ofNat 16 (clear / 2 ^ 32), BitVec.ofNat 16 (clear / 2 ^ 48)] 0) (fun _ => Vector.replicate 8 0)) ∧
    (f.i = 2#2 → ∃ t x, exec (.tbind f) s = .next t ∧ after s t 0#7 x ∧
      Spec.Bound x r.win tx ty old.depth (fun i => (old.cell i).colour) (fun i => (old.cell i).clip)) ∧
    -- the copies that the core itself has of a grain target's bytes go back first (R156)
    let s2 := settleTile s1 g r.image (targetOf r.win.page.fmt c.gw c.gh) tx ty
    ∀ cs fl, f.i = 1#2 → readTile ⟨s2, g.asid, g.core, []⟩ (engineRnd g.fpmode g.fpseed g.lidx g.retired) r.image
        r.win.page.fmt (targetOf r.win.page.fmt c.gw c.gh) tx ty (List.range 16) = .ok (cs, fl) →
      ∃ t x, exec (.tbind f) s = .next t ∧ after { s with mem := s2.mem, l2 := s2.l2, dies := s2.dies } t fl x ∧
        Spec.Bound x r.win tx ty 0 (Spec.channels cs) (fun _ => Vector.replicate 8 0)) ∧
  (∀ (f : TloadF) (s s1 : State) (g : Group) (c : Context) (r : TileRefs) (record : Nat) (cs : List (BitVec 16)) (fl : Flags)
    (bs : List Byte), Spec.Ready (.tload f) s g g.active → s.ctx? g.asid = some c → Spec.Bindable s g c f.a f.s.toNat →
    let tx := Spec.tileX g f.a
    let ty := Spec.tileY g f.a
    checkTile s g (g.win f.w.toNat) c.gw c.gh tx ty true true = .ok (r, s1) → r.clip = some record →
    -- the dirty bytes of its core that a group reads after an acquire at the package or wider go back first (R173)
    let s2 := settleTile s1 g r.image (Spec.rawTarget c) tx ty
    let s3 := settleSectors s2 g.core g.pkgSeen (r.image.sectors s2 g.asid record 9216)
    readTile ⟨s3, g.asid, g.core, []⟩ (engineRnd g.fpmode g.fpseed g.lidx g.retired) r.image .raw (Spec.rawTarget c) tx ty
      (List.range 16) = .ok (cs, fl) →
    refBytes ⟨s3, g.asid, g.core, []⟩ r.image record 9216 = .ok bs →
    (∀ depth, clipRecord bs = some depth → ∃ t x k, exec (.tload f) s = .next t ∧
      { k with w := g.w } = { g with flash := none } ∧
      Spec.SlotDone { s with mem := s3.mem, l2 := s3.l2, dies := s3.dies } t g k f.s.toNat x f.e ∧
      Spec.Bound x r.win tx ty depth (Spec.channels cs)
        (fun i => Vector.ofFn fun l : Fin 8 => Spec.numberAt (fun a => bs.getD a 0#8) (1024 * (l.val + 1) + 4 * i) 4)) ∧
    (clipRecord bs = none → ∃ s2, s2.grp = some g ∧ s2.sets = s.sets ∧ Spec.SameBytes s s2 g.core ∧
      exec (.tload f) s = .next (raise s2 { code := 4, info := r.image.va + record } g.amask))) ∧
  (∀ (f : TloadF) (s : State) (g : Group) (c : Context), Spec.Ready (.tload f) s g g.active → s.ctx? g.asid = some c →
    Spec.Bindable s g c f.a f.s.toNat →
    let w := g.win f.w.toNat
    let reaches : Prop := (Spec.rawTarget c).whole ≤ w.limit.toNat ∧ w.rd = true ∧ w.wr = true
    (¬reaches → exec (.tload f) s = .next (raise s (Spec.permAt w 0) g.amask)) ∧
    (reaches → w.va 0 % 64 ≠ 0 → exec (.tload f) s = .next (raise s (Spec.alignAt w 0) g.amask))) ∧
  ∀ (f : SlotF) (s s1 : State) (g : Group) (c : Context) (r : TileRefs) (p : Page), Spec.Ready (.tflush f) s g g.active →
    s.tablesOk → s.ctx? g.asid = some c →
    let x := Spec.slot s g f.s.toNat
    (x.state = .idle ∨ x.state = .deposited 0 ∨ x.state = .scanned 0) →
    checkTile s g (x.win.getD Window.init) c.gw c.gh x.tx x.ty false false = .ok (r, s1) →
    ((∃ e ∈ x.cells, e.2.queue ≠ []) → ∃ t h, exec (.tflush f) s = .next t ∧ t.grp = some h ∧ h.wait = .tflush f.s.toNat ∧
      h.pc = g.pc ∧ h.sched.inStint = false ∧ Spec.slot t g f.s.toNat = x ∧ t.mem = s.mem) ∧
    ((∀ e ∈ x.cells, e.2.queue = []) → p ∈ r.image.pages → (∀ q ∈ r.image.pages, q = p) → r.clip = none → r.win.page.fmt = .raw → p.vbase ≤ r.image.va →
      r.image.va + (Spec.rawTarget c).image ≤ p.vbase + p.span → p.frame + p.span ≤ 0x20000000000 → x.tx < c.gw → x.ty < c.gh →
      p.frame % 4096 = 0 → p.vbase % 4096 = 0 → r.image.va % 64 = 0 →
      let row (i : Nat) : Nat := p.frame + (r.image.va - p.vbase) + (16 * x.ty + i) * (16 * c.gw * 8) + 16 * x.tx * 8
      (∀ i j, i < 16 → j < 128 → isDown s (row i + j) = false) →
      ∃ t, exec (.tflush f) s = .next t ∧ t.now = s.now + 1 ∧
        Spec.slot t g f.s.toNat = { x with state := .unbound, win := some r.win } ∧
        t.grp = some (({ g with flash := none, pc := nextPc g.pc 4 } : Group).finish f.e t.now) ∧
        ∀ i j, i < 16 → j < 64 → Spec.numberAt t.mem.get (row i + 2 * j) 2 =
          ((x.cell (16 * i + j / 4)).colour[j % 4]?.getD 0#16).toNat)

/-- R295, R273, R281, R285: `cdep` takes the first entry of its slot's tile, gives its three words, deposits the sums of its
pieces in the cells and loads the backdrop; with the bin exhausted it leaves the slot idle and gives zeros. The group
waits until the deposit ends. -/
def Obligations.EntriesAreDeposited : Prop :=
  (∀ (f : CdepF) (s : State) (g : Group) (c : Context), Spec.Ready (.cdep f) s g g.active → s.ctx? g.asid = some c →
    let x := Spec.slot s g f.s.toNat
    let d := f.d.toNat
    let tile := x.ty * 4096 + x.tx
    (x.state = .idle ∨ x.state = .deposited 0 ∨ x.state = .scanned 0) →
    ((look tile c.bins).getD [] = [] → ∃ t k, exec (.cdep f) s = .next t ∧
      Spec.SlotDone s t g k f.s.toNat { x with state := .idle, entry := none } f.e ∧
      (∀ i, k.sreg i = if i = d ∨ i = d + 1 ∨ i = d + 2 then 0#64 else g.sreg i) ∧
      { k with s := g.s } = { g with flash := none, deposit := true } ∧ t.contexts = s.contexts) ∧
    ∀ e rest, (look tile c.bins).getD [] = e :: rest → binDown s g.asid 1 = false → binAnswers s g.asid 1 = true → e.role < 3 → e.entry < 1024 →
      ∃ t k y c' fl, exec (.cdep f) s = .next t ∧ Spec.SlotDone s t g k f.s.toNat y f.e ∧
        (∀ i, k.sreg i = if i = d then BitVec.ofNat 64 (e.index % 2 ^ 32) else if i = d + 1 then BitVec.ofNat 64 e.paint.toNat
          else if i = d + 2 then BitVec.ofNat 64 (e.entry + (if e.evenOdd then 65536 else 0) + e.role * 2 ^ 24 + 2 ^ 32)
          else g.sreg i) ∧
        { k with s := g.s } = { g with flash := none, deposit := true, fflags := g.fflags ||| fl } ∧ (fl = 0#7 ∨ fl = 64#7) ∧
        t.ctx? g.asid = some c' ∧ (∀ k, k ≠ tile → look k c'.bins = look k c.bins) ∧
        (rising (c.bins.map (·.1)) = true → (look tile c'.bins).getD [] = rest) ∧
        y.entry = some e ∧ y.state = .deposited e.role ∧ (y.tx, y.ty, y.win, y.depth, y.stamp) = (x.tx, x.ty, x.win, x.depth, x.stamp) ∧
        (e.role ≠ 2 → y.back = e.back ∧ ∀ i, i < 256 →
          y.cell i = { x.cell i with
            c := BitVec.ofInt 32 (Spec.sumAt e.pieces i Piece.c)
            a := BitVec.ofInt 48 (Spec.sumAt e.pieces i Piece.a) }) ∧
        (e.role = 2 → y.back = x.back ∧ y.cells = x.cells)) ∧
  ∀ (gid : Nat) (s : State) (g : Group), s.group? gid = some g →
    exec (.depositDone gid) s = .next (Spec.resultHere s (s.setGroup gid (Spec.unitOver s { g with deposit := false })))

/-- R275 to R277, R296, R299: `cscan` gives each cell the fill of its winding-weighted area; `clpush` pushes the effective
coverages one level up and `clpop` returns to the level below; `covget` reads a cell for each active thread. That a
`cscan` counts one cycle of the clock is the model's (log entry 1). -/
def Obligations.CoverageIsScanned : Prop :=
  (∀ (f : SlotF) (s : State) (g : Group) (role : Nat), Spec.Ready (.cscan f) s g g.active →
    let x := Spec.slot s g f.s.toNat
    let w (r j : Nat) : Int := x.back.getD r 0 + ((List.range j).map fun i => (x.cell (16 * r + i)).c.toInt).sum
    x.state = .deposited role → role < 2 → (∀ r j, r < 16 → j ≤ 16 → -2 ^ 31 ≤ w r j ∧ w r j < 2 ^ 31) →
    ∃ t y, exec (.cscan f) s = .next t ∧ Spec.SlotDone s t g g f.s.toNat y f.e ∧
      { y with state := x.state, cells := x.cells } = x ∧ y.state = .scanned role ∧
      ∀ r j, r < 16 → j < 16 → y.cell (16 * r + j) = { x.cell (16 * r + j) with
        cov := Spec.fill ((x.entry.map BinEntry.evenOdd).getD false) (512 * w r j + (x.cell (16 * r + j)).a.toInt) }) ∧
  (∀ (f : SlotF) (s : State) (g : Group), Spec.Ready (.clpush f) s g g.active →
    let x := Spec.slot s g f.s.toNat
    x.state = .scanned 1 → x.depth < 8 →
    ∃ t y, exec (.clpush f) s = .next t ∧ Spec.SlotDone s t g { g with flash := none } f.s.toNat y f.e ∧
      { y with state := x.state, cells := x.cells, depth := x.depth } = x ∧ y.state = .idle ∧ y.depth = x.depth + 1 ∧
      ∀ i, i < 256 → Spec.topOf y i = Spec.effOf x i ∧
        (y.cell i).clip = (x.cell i).clip.setIfInBounds x.depth (Spec.effOf x i) ∧
        { y.cell i with clip := (x.cell i).clip } = x.cell i) ∧
  (∀ (f : SlotF) (s : State) (g : Group), Spec.Ready (.clpop f) s g g.active →
    let x := Spec.slot s g f.s.toNat
    x.state = .deposited 2 →
    ∃ t, exec (.clpop f) s = .next t ∧
      Spec.SlotDone s t g { g with flash := none } f.s.toNat { x with state := .idle, depth := x.depth - 1 } f.e) ∧
  ∀ (f : CovgetF) (s : State) (g : Group), Spec.Ready (.covget f) s g g.active →
    let x := Spec.slot s g f.s.toNat
    x.state ≠ .unbound → x.state ≠ .deposited 2 → (∀ t ∈ g.active, (g.src f.a t).toNat < 256) →
    ∃ t k, exec (.covget f) s = .next t ∧ t.now = s.now + Spec.laneCycles g ∧ t.sets = s.sets ∧ t.mem = s.mem ∧
      t.grp = some (({ k with pc := nextPc g.pc 4 } : Group).finish f.e t.now) ∧
      Spec.LaneWrites g k g.active f.d.toNat fun u =>
        let y := x.cell (g.src f.a u).toNat
        match f.w.toNat with
        | 0 => y.c
        | 1 => BitVec.ofNat 32 y.a.toNat
        | 2 => Spec.wrap (y.a.toInt / 2 ^ 32)
        | _ => BitVec.ofNat 32 y.cov

/-- R297, R286 to R288, R298, R284: `cspan` makes one item, with its ticket, for each cell that is covered, in order, or
stalls whole where a cell has 4 tickets out; `tblend` gives each active thread's ticket its colour; the oldest ticket
of a cell, once used, is blended in; a context takes a tile store that no one holds, or whose holder has no slot
instruction in progress and no blend to apply. The cell number and the place of the `cspan` in an item's prefix key,
and the entry noted for `yield`, are the model's readings (log entries 29, 51, 112). -/
def Obligations.SpansAndBlends : Prop :=
  (∀ (f : SlotF) (s : State) (g : Group) (e : BinEntry), Spec.Ready (.cspan f) s g g.active →
    let x := Spec.slot s g f.s.toNat
    let cells := (List.range 256).filter fun i => Spec.effOf x i != 0
    let y := s.set g.asid g.core
    x.state = .scanned 0 → x.entry = some e →
    ((∃ i ∈ cells, 4 ≤ (x.cell i).queue.length) → ∃ t h, exec (.cspan f) s = .next t ∧ t.grp = some h ∧
      h.wait = .cspan f.s.toNat ∧ h.pc = g.pc ∧ t.sets = s.sets ∧ t.mem = s.mem) ∧
    ((∀ i ∈ cells, (x.cell i).queue.length < 4) → chipUsed s g.core + cells.length ≤ 2048 →
      (itemsFor y e.entry g.grid).length + cells.length < 32 →
      ∃ t k z, exec (.cspan f) s = .next t ∧ Spec.SlotDone s t g k f.s.toNat z f.e ∧
        { k with spawned := g.spawned, det := g.det } = { g with flash := none } ∧ e.entry ∈ k.spawned ∧
        k.det = { g.det with spawns := g.det.spawns + 1 } ∧
        (t.set g.asid g.core).items = y.items ++ cells.map (Spec.cellItem g f.s.toNat x e) ∧
        { z with state := x.state, cells := x.cells, stamp := x.stamp } = x ∧ z.state = .idle ∧ z.stamp = x.stamp + 1 ∧
        ∀ i, i < 256 → z.cell i = if i ∈ cells then
          { x.cell i with queue := (x.cell i).queue ++ [⟨x.stamp, Spec.effOf x i, none⟩] } else x.cell i)) ∧
  (∀ (f : TblendF) (s : State) (g : Group) (u : Nat) (k : Ticket), Spec.Ready (.tblend f) s g g.active →
    (∀ t ∈ g.active, (g.thread t).ticket ≠ none) → u ∈ g.active → (g.thread u).ticket = some k →
    (∀ t ∈ g.active, t ≠ u → ∀ k', (g.thread t).ticket = some k' → k'.slot ≠ k.slot ∨ k'.cell ≠ k.cell ∨ k'.stamp ≠ k.stamp) →
    let lo := (g.thread u).reg f.a.toNat
    let hi := (g.thread u).reg (f.a.toNat + 1)
    ∃ t h, exec (.tblend f) s = .next t ∧ t.grp = some h ∧ t.now = s.now + Spec.laneCycles g ∧ h.pc = nextPc g.pc 4 ∧
      (∀ v, v < 32 → h.thread v = if v ∈ g.active then { g.thread v with ticket := none } else g.thread v) ∧
      ∀ b, b ∈ ((Spec.slot s g k.slot).cell k.cell).queue → b.stamp = k.stamp → b.colour = none →
        { b with colour := some (f.m.toNat, #v[BitVec.ofNat 16 lo.toNat, BitVec.ofNat 16 (lo.toNat / 65536),
          BitVec.ofNat 16 hi.toNat, BitVec.ofNat 16 (hi.toNat / 65536)]) } ∈ ((Spec.slot t g k.slot).cell k.cell).queue) ∧
  (∀ (asid core n i : Nat) (s : State) (b : Blend) (rest : List Blend) (mode : Nat) (colour : Vector (BitVec 16) 4),
    let x := (look n (s.set asid core).slots).getD {}
    (x.cell i).queue = b :: rest → b.colour = some (mode, colour) → (s.core core).tileHolder = some asid →
    ∃ t, exec (.blendApply asid core n i) s = .next t ∧
      let y := (look n (t.set asid core).slots).getD {}
      let painted := if mode = 4 then (x.cell i).colour else blendColour mode b.cov colour (x.cell i).colour
      y.cell i = { x.cell i with queue := rest, colour := painted } ∧ (∀ j, j ≠ i → y.cell j = x.cell j) ∧ t.mem = s.mem) ∧
  ∀ (core asid : Nat) (s : State),
    ((s.core core).tileHolder = none ∨ ∃ h, (s.core core).tileHolder = some h ∧
      (∀ e ∈ s.groups, e.2.asid = h → e.2.core = core → e.2.deposit = false) ∧
      ∀ x ∈ (s.set h core).slots, ∀ k ∈ x.2.cells, ∀ b rest, k.2.queue = b :: rest → b.colour = none) →
    ∃ t, exec (.tileStoreSwap core asid) s = .next t ∧ (t.core core).tileHolder = some asid ∧
      (t.core core).tileWant = none ∧ t.sets = s.sets

namespace Sys2Proof.Spec

/-! ## The vocabulary of the control registers and of translation -/

/-- R314, R64, R69, R70, R382: what a control register reads as, for a group of a context. -/
def register (s : State) (g : Group) (c : Context) (n : Nat) : DWord :=
  match n with
  | 0 => BitVec.ofNat 64 g.fpmode.toNat
  | 1 => g.fpseed
  | 2 => BitVec.ofNat 64 g.fflags.toNat
  | 3 => BitVec.ofNat 64 g.ftrapen.toNat
  | 4 => BitVec.ofNat 64 g.lmask.toNat
  | 5 => BitVec.ofNat 64 g.amask.toNat
  | 6 => g.grpid
  | 7 => g.blkid
  | 0x800 => c.detctl
  | 0x801 => BitVec.ofNat 64 ((s.core g.core).bench + if (s.core g.core).pend = none then 0 else 256)
  | 0x824 => BitVec.ofNat 64 ((s.part c.part).cfg[4].toNat % 2 ^ 32 + (s.part c.part).pins.length % 2 ^ 32 * 2 ^ 32)
  | 0x880 => c.hvec
  | 0x881 => c.hctl
  | 0x882 => c.fbuf
  | 0x883 => BitVec.ofNat 64 c.fbhead
  | 0x884 => BitVec.ofNat 64 c.fbtail
  | _ =>
    if 0x900 ≤ n then mgmtRead s (g.core / 64) (n - 0x900)
    else if 0x820 ≤ n ∧ n ≤ 0x825 then (s.part c.part).cfg[n - 0x820]?.getD 0#64
    else c.cfg[n - 0x810]?.getD 0#64

/-- R382, R5: what a `cput` of a management register does to the group's die: the fields that are read only, and the reserved bits, take
nothing; SIZE and POS, once locked, neither. -/
def ManagementPut (n : Nat) (x : DWord) (d : Nat) (r : Host.Outcome State Fault Refusal) (s : State) : Prop :=
  let v := x.toNat
  (n ∈ [0x900, 0x903, 0x904, 0x908, 0x909] → r = .next s) ∧
  (n = 0x901 → (v % 2 = 0 → r = .next s) ∧ (v % 2 = 1 → r = exec (.warmReset d) s)) ∧
  (n = 0x902 → ∃ t, r = .next t ∧ { t with dies := s.dies } = s ∧
    (∀ e, e < 4 → (t.mgmt e 2).toNat % 2 ^ 12 =
      if 600 ≤ v % 2 ^ 12 ∧ v % 2 ^ 12 ≤ 2400 then v % 2 ^ 12 else (s.mgmt d 2).toNat % 2 ^ 12) ∧
    (t.mgmt d 2).toNat / 2 ^ 16 % 2 ^ 12 =
      if 1 ≤ v / 2 ^ 16 % 2 ^ 12 ∧ v / 2 ^ 16 % 2 ^ 12 ≤ 1000 then v / 2 ^ 16 % 2 ^ 12 else (s.mgmt d 2).toNat / 2 ^ 16 % 2 ^ 12) ∧
  (n = 0x90A → ∃ t, r = .next t ∧ { t with dies := s.dies } = s ∧ (t.mgmt d 10).toNat = v / 2 ^ 12 * 2 ^ 12 + v % 2) ∧
  (n = 0x90B →
    ((s.die d).boot = .ready ∨ (s.die d).boot = .held → r = .next s) ∧
    ((s.die d).boot ≠ .ready → (s.die d).boot ≠ .held → ∃ t, r = .next t ∧ { t with dies := s.dies } = s ∧
      (t.mgmt d 11).toNat % 2 ^ 9 = v % 2 ^ 9 ∧ (t.mgmt d 11).toNat / 2 ^ 16 % 2 ^ 9 = v / 2 ^ 16 % 2 ^ 9 ∧
      (t.mgmt d 11).toNat / 2 ^ 25 = (s.mgmt d 11).toNat / 2 ^ 25))

/-- A join entry stands above any handler marker (R69). -/
def JoinAbove (st : List StackEntry) : Prop :=
  ∃ before m r after, st = before ++ .join m r :: after ∧ StackEntry.marker ∉ before

/-- R69: what AMASK accepts. -/
def MaskAllowed (g : Group) (m : Word) : Prop :=
  m ≠ 0#32 ∧ m &&& ~~~g.amask = 0#32 ∧ (m = g.amask ∨ JoinAbove g.stack)

/-- R319: what a `tlbinv` of a kind covers: a translation held (by address, one of a first-stage page that holds it), and an ASID. -/
def CoversEntry (kind asid part x : Nat) (e : TlbEntry) : Prop :=
  match kind with
  | 0 => e.asid = asid ∧ x % 2 ^ 57 / leafSize e.page.level1 = e.page.vbase / leafSize e.page.level1
  | 1 => e.asid = asid
  | 2 => e.asid = x
  | _ => e.part = part
def CoversAsid (s : State) (kind asid part x a : Nat) : Prop :=
  match kind with
  | 2 => a = x
  | 3 => ∃ c, s.ctx? a = some c ∧ c.part = part
  | _ => a = asid

end Sys2Proof.Spec

/-! ## System instructions -/

/-- R314, R51, R69, R208: `cget` reads a control register and `cput` writes one: the group's own in either mode, the
privileged set in H mode alone (ILLOP, cause 5, in U mode); AMASK takes a value only under R69's rule; a write of the
bench size or of a partition register, and of every field that M mode alone writes, is ignored; a packing timer below 15 too (R310); FBTAIL
takes no value above HEAD (R337). -/
def Sys2Proof.Spec.ControlRegisters : Prop :=
  (∀ (f : CgetF) (s : State) (g : Group) (c : Context), Spec.Ready (.cget f) s g g.active → s.ctx? g.asid = some c →
    (g.mode = .user → 0x800 ≤ f.n.toNat → exec (.cget f) s = .next (illop s 5)) ∧
    (g.mode = .handler ∨ f.n.toNat < 0x800 →
      exec (.cget f) s = .next (s.retire (Spec.uniWritten g f.d.toNat (Spec.register s g c f.n.toNat)) 4 1 f.e))) ∧
  (∀ (f : CputF) (s : State) (g : Group) (c : Context), Spec.Ready (.cput f) s g g.active → s.ctx? g.asid = some c →
    let x := g.sreg f.a.toNat
    let n := f.n.toNat
    let done (k : Group) : State := s.retire { k with flash := none } 4 1 f.e
    (g.mode = .user → 0x800 ≤ n → exec (.cput f) s = .next (illop s 5)) ∧
    (n = 0 → exec (.cput f) s = .next (done { g with fpmode := BitVec.ofNat 3 x.toNat })) ∧
    (n = 1 → exec (.cput f) s = .next (done { g with fpseed := x })) ∧
    (n = 2 → exec (.cput f) s = .next (done { g with fflags := BitVec.ofNat 7 x.toNat })) ∧
    (n = 3 → exec (.cput f) s = .next (done { g with ftrapen := BitVec.ofNat 7 x.toNat })) ∧
    (n = 5 → Spec.MaskAllowed g (BitVec.ofNat 32 x.toNat) →
      exec (.cput f) s = .next (done { g with amask := BitVec.ofNat 32 x.toNat, replay := none })) ∧
    (n = 5 → ¬Spec.MaskAllowed g (BitVec.ofNat 32 x.toNat) → exec (.cput f) s = .next (illop s 2)) ∧
    (n = 0x801 ∨ (0x820 ≤ n ∧ n ≤ 0x825) → g.mode = .handler → exec (.cput f) s = .next (done g)) ∧
    (n = 0x800 → g.mode = .handler → ∃ t c', exec (.cput f) s = .next t ∧ t.ctx? g.asid = some c' ∧
      t.groups = (done g).groups ∧ t.now = s.now + 1 ∧ c' = { c with detctl := c'.detctl } ∧
      c'.detctl.toNat % 2 = x.toNat % 2 ∧
      (10 ≤ x.toNat / 256 % 32 ∧ x.toNat / 256 % 32 ≤ 20 → c'.detctl.toNat / 256 % 32 = x.toNat / 256 % 32) ∧
      (¬(10 ≤ x.toNat / 256 % 32 ∧ x.toNat / 256 % 32 ≤ 20) → c'.detctl.toNat / 256 % 32 = c.detctl.toNat / 256 % 32)) ∧
    (n = 0x817 → g.mode = .handler → exec (.cput f) s =
      .next ((done g).setCtx g.asid { c with cfg := c.cfg.set 7 x })) ∧
    (0x810 ≤ n → n ≤ 0x815 → g.mode = .handler → exec (.cput f) s = .next ((done g).setCtx g.asid c)) ∧
    (n = 0x816 → g.mode = .handler → ∃ v : DWord,
      exec (.cput f) s = .next ((done g).setCtx g.asid { c with cfg := c.cfg.set 6 v }) ∧
      v.toNat % 2 ^ 32 = c.cfg[6].toNat % 2 ^ 32 ∧ v.toNat / 2 ^ 48 = c.cfg[6].toNat / 2 ^ 48 ∧
      (15 ≤ x.toNat / 2 ^ 32 % 2 ^ 16 → v.toNat / 2 ^ 32 % 2 ^ 16 = x.toNat / 2 ^ 32 % 2 ^ 16) ∧
      (x.toNat / 2 ^ 32 % 2 ^ 16 < 15 → v = c.cfg[6])) ∧
    (0x880 ≤ n → n ≤ 0x883 → g.mode = .handler → exec (.cput f) s = .next (done g)) ∧
    (n = 0x884 → g.mode = .handler →
      (c.fbhead < x.toNat → exec (.cput f) s = .next (done g)) ∧
      (x.toNat ≤ c.fbhead → c.waiting = [] →
        exec (.cput f) s = .next ((done g).setCtx g.asid { c with fbtail := x.toNat }))) ∧
    (g.core < 256 → g.mode = .handler → Spec.ManagementPut f.n.toNat x (g.core / 64) (exec (.cput f) s) (done g))) ∧
  ∀ (v : Nat) (s : State) (g : Group), s.grp = some g →
    let m := BitVec.ofNat 32 v
    (Spec.MaskAllowed g m → exec (.amaskWrite v) s = .next (s.setGrp { g with amask := m, replay := none, flash := none })) ∧
    (¬Spec.MaskAllowed g m → exec (.amaskWrite v) s = .next (illop s 2))

/-- R319, R154: `tlbinv` puts every byte its core has written at its home (where that answers, R364), drops the translations it covers and no other,
marks the set windows of the covered contexts' groups and slots to be translated again, and waits; an ASID outside the partition
is ILLOP, cause 2. TLBINV_DONE completes it. -/
def Sys2Proof.Spec.TranslationsAreDropped : Prop :=
  (∀ (f : TlbinvF) (s : State) (g : Group) (c : Context), Spec.Ready (.tlbinv f) s g g.active → s.ctx? g.asid = some c →
    s.tablesOk →
    let x := (g.sreg f.a.toNat).toNat
    let k := f.k.toNat
    let p := s.part c.part
    (k = 2 → ¬(x < 2048 ∧ p.abase ≤ x ∧ x ≤ p.alimit) → exec (.tlbinv f) s = .next (illop s 2)) ∧
    ((k = 2 → x < 2048 ∧ p.abase ≤ x ∧ x ≤ p.alimit) → ∃ t h, exec (.tlbinv f) s = .next t ∧ t.grp = some h ∧
      h.wait = .tlbinv ∧ h.pc = g.pc ∧ h.sched.inStint = false ∧ h.threads = g.threads ∧ h.s = g.s ∧
      (∀ e, e ∈ t.tlb ↔ e ∈ s.tlb ∧ ¬Spec.CoversEntry k g.asid c.part x e) ∧
      (∀ j o, s.group? j = some o → ∃ n, t.group? j = some n ∧
        (Spec.CoversAsid s k g.asid c.part x o.asid →
          ∀ i, i < 8 → n.win i = { o.win i with stale := (o.win i).stale || (o.win i).set }) ∧
        (¬Spec.CoversAsid s k g.asid c.part x o.asid → n.w = o.w)) ∧
      (∀ key m y z, look key s.sets = some y → look m y.slots = some z → ∃ y' z', look key t.sets = some y' ∧
        look m y'.slots = some z' ∧ { z' with win := z.win } = z ∧
        (Spec.CoversAsid s k g.asid c.part x (key / 256) →
          z'.win = z.win.map fun w => { w with stale := w.stale || w.set }) ∧
        (¬Spec.CoversAsid s k g.asid c.part x (key / 256) → z'.win = z.win)) ∧
      (∀ a, Spec.Keyed s g.core a → isDown s a = false → t.mem.get a = Spec.latest s g.core a) ∧ Spec.SameMemory s t g.core)) ∧
  ∀ (gid : Nat) (s : State) (g : Group), s.group? gid = some g → g.wait = .tlbinv →
    ∃ t h, exec (.tlbinvDone gid) s = .next t ∧ t.group? gid = some h ∧ h.wait = .none ∧ h.pc = nextPc g.pc 4 ∧
      h.sched.inStint = false ∧
      -- the stint ended when the wait began (R78, R86)
      (g.sched.inStint = false → h.sched.lastEnd = g.sched.lastEnd) ∧ h.retired = (if g.recipe then g.retired else g.retired + 1) ∧ h.threads = g.threads ∧
      h.s = g.s ∧ h.w = g.w ∧ t.mem = s.mem ∧ ∀ j, j ≠ gid → t.group? j = s.group? j

/-- R64, R307, R319: control registers and the dropping of translations. That a replayed `cput` of AMASK keeps its value,
and that a held die ignores a write of POD, are the model's readings (log entries 117, 126). -/
def Obligations.ControlRegistersAndTlb : Prop := Spec.ControlRegisters ∧ Spec.TranslationsAreDropped

namespace Sys2Proof.Spec

/-! ## The vocabulary of the queues -/

/-- R372 to R374: a front end's queue offers a command: it fetches, nothing holds it, the command is well formed and
waits for no other. -/
structure Offers (s : State) (fe q : Nat) (ws : List DWord) : Prop where
  fetches : Queue.fetches s fe q = true
  ready   : queueHeld s (s.queue fe q).asid fe q = false
  ring    : ∃ bs, readRing s fe q = .ok bs ∧ commandWords bs = ws
  sound   : commandBroken fe ws = false
  first   : mustWait (s.queue fe q) ws = false

/-- A queue of a partition offers a command for a context that runs. -/
def TenantOffers (s : State) (fe q : Nat) (ws : List DWord) (c : Context) : Prop :=
  Offers s fe q ws ∧ fe < 64 ∧ s.ctx? (s.queue fe q).asid = some c ∧ c.stopped = none

/-- The words of a command. -/
def word (ws : List DWord) (i : Nat) : Nat := (ws.getD i 0#64).toNat

/-- The command as it stands among those begun. -/
def begunAs (x : Queue) (ws : List DWord) (done : Bool) : Command :=
  { number := x.head, op := word ws 0 % 256, words := ws, irq := decide (word ws 0 / 512 % 2 = 1), target := 0, done := done }

/-- A command has begun and is not complete: the queue stands past it, its progress where it was. -/
def Begun (s t : State) (fe q : Nat) (ws : List DWord) : Prop :=
  let x := s.queue fe q
  t.queue fe q = { x with head := x.head + 1, begun := x.begun ++ [begunAs x ws false] }

/-- A command of a queue with nothing else begun is complete: the progress passes it. -/
def Completed (s t : State) (fe q : Nat) (ws : List DWord) : Prop :=
  let x := s.queue fe q
  t.queue fe q = { x with head := x.head + 1, prog := x.head + 1, begun := [] } ∧
  t.sent = s.sent ++ if word ws 0 / 512 % 2 = 1 then [.signal (if fe = 64 then 0 else fe + 1) (if fe = 64 then 0 else q)] else []

/-- A queue in error (R374): its registers but QCTL stand. -/
def InError (s t : State) (fe q err : Nat) : Prop :=
  let x := s.queue fe q
  ∃ y, t.queue fe q = y ∧ { y with ctl := x.ctl, head := x.head, begun := x.begun } = x ∧
    y.ctl.toNat / 2 ^ 32 % 16 = 3 ∧ y.ctl.toNat / 2 ^ 40 % 256 = err

end Sys2Proof.Spec

/-! ## Queues -/

/-- R373, R130, R204, R374: the five commands of a tenant's queue: LAUNCH begins and creates the grid of its descriptor (a
broken one is ERR 7); COPY begins an engine operation, or completes at once when it has no length; SIGNAL writes its
word at its home and completes; WAIT completes when its word is reached, at once or at a later poll; FENCE completes.
An event that is not due changes nothing; the die and the rounding of a COPY, and a queue serving its own partition's
contexts only, are the model's (log entries 8, 67, 68). -/
def Obligations.QueueCommands : Prop :=
  (∀ (fe q : Nat) (s : State) (ws : List DWord) (c : Context) (bs : List Byte), Spec.TenantOffers s fe q ws c →
    Spec.word ws 0 % 256 = 1 → frontRead s (s.queue fe q).asid (Spec.word ws 1) 64 = .ok bs →
    (∀ d, readDescriptor c bs = some d → ∃ t b, exec (.launchCommand fe q) s = .next t ∧ Spec.Begun s t fe q ws ∧
      t.grid? s.fresh = some
        { asid := (s.queue fe q).asid, source := .queue fe q (s.queue fe q).head, entry := d.entry, tpg := d.tpg,
          gpb := d.gpb, blocks := d.blocks, args := d.args, cls := (s.queue fe q).cls, k := d.k, ken := d.ken, bars := d.bars,
          bound := b, nextBlock := 0, live := 0, core := none } ∧
      look fe t.feGrids = some ((look fe s.feGrids).getD [] ++ [s.fresh]) ∧
      -- a pod barrier that early arrivals of other modules fill completes at once (R109)
      ((∀ b ∈ d.bars, b.scope ≠ 5) ∨ s.podEarly = [] → t.mem = s.mem)) ∧
    (readDescriptor c bs = none → ∃ t, exec (.launchCommand fe q) s = .next t ∧ Spec.InError s t fe q 7)) ∧
  (∀ (fe q : Nat) (s : State) (ws : List DWord) (c : Context), Spec.TenantOffers s fe q ws c → Spec.word ws 0 % 256 = 2 →
    (Spec.word ws 3 = 0 → (s.queue fe q).begun = [] →
      ∃ t, exec (.copyCommand fe q) s = .next t ∧ Spec.Completed s t fe q ws ∧ t.mem = s.mem ∧ t.ops = s.ops) ∧
    (Spec.word ws 3 ≠ 0 → engineRoom s 0 fe = true → ∃ t o, exec (.copyCommand fe q) s = .next t ∧ Spec.Begun s t fe q ws ∧
      look s.fresh t.ops = some o ∧ o.kind = .copy ∧ o.asid = (s.queue fe q).asid ∧ o.mode = .user ∧
      o.source = .queue fe q (s.queue fe q).head ∧ Spec.dstVa o = Spec.word ws 1 ∧ Spec.srcVa o = Spec.word ws 2 ∧
      o.len = Spec.word ws 3 ∧ o.held = none ∧ t.mem = s.mem ∧ ∀ n, n ≠ s.fresh → look n t.ops = look n s.ops)) ∧
  (∀ (fe q : Nat) (s : State) (ws : List DWord) (c : Context) (p : Page) (pa : Nat), Spec.TenantOffers s fe q ws c →
    s.tablesOk → Spec.word ws 0 % 256 = 3 →
    engineTranslate s (s.queue fe q).asid .user .write (Spec.word ws 1) = .ok p → p.fmt = .raw →
    p.rawPlace s (s.queue fe q).asid .write (Spec.word ws 1) = .ok pa →
    ∃ t, exec (.signal fe q) s = .next t ∧ Spec.Completed s t fe q ws ∧
      Spec.numberAt t.mem.get pa 8 = Spec.word ws 2 ∧
      ∀ a, a < pa ∨ pa + 8 ≤ a → a / 64 ≠ pa / 64 ∨ s.foreign p.own (pa / 64) = false → t.mem.get a = s.mem.get a) ∧
  (∀ (fe q : Nat) (s : State) (ws : List DWord) (c : Context) (bs : List Byte), Spec.TenantOffers s fe q ws c →
    Spec.word ws 0 % 256 = 4 → (s.queue fe q).begun = [] →
    frontRead s (s.queue fe q).asid (Spec.word ws 1) 8 = .ok bs →
    let v := Spec.numberAt (fun i => bs.getD i 0#8) 0 8
    ((BitVec.ofNat 64 v - BitVec.ofNat 64 (Spec.word ws 2)).toNat < 2 ^ 63 → bs.length = 8 →
      ∃ t, exec (.waitCommand fe q) s = .next t ∧ Spec.Completed s t fe q ws) ∧
    (2 ^ 63 ≤ (BitVec.ofNat 64 v - BitVec.ofNat 64 (Spec.word ws 2)).toNat → bs.length = 8 →
      ∃ t, exec (.waitCommand fe q) s = .next t ∧ Spec.Begun s t fe q ws)) ∧
  (∀ (fe q : Nat) (s : State) (x : Queue) (cmd : Command) (bs : List Byte), s.queue fe q = x → x.begun = [cmd] →
    cmd.op = 4 → cmd.done = false → x.stat ≠ 2 → x.stat ≠ 3 → queueHeld s x.asid fe q = false →
    frontRead s x.asid (Spec.word cmd.words 1) 8 = .ok bs → bs.length = 8 →
    let v := Spec.numberAt (fun i => bs.getD i 0#8) 0 8
    ((BitVec.ofNat 64 v - BitVec.ofNat 64 (Spec.word cmd.words 2)).toNat < 2 ^ 63 →
      ∃ t, exec (.queueWaitPoll fe q) s = .next t ∧ t.queue fe q = { x with begun := [], prog := cmd.number + 1 }) ∧
    (2 ^ 63 ≤ (BitVec.ofNat 64 v - BitVec.ofNat 64 (Spec.word cmd.words 2)).toNat →
      exec (.queueWaitPoll fe q) s = .next s)) ∧
  ∀ (fe q : Nat) (s : State) (ws : List DWord) (c : Context), Spec.TenantOffers s fe q ws c → Spec.word ws 0 % 256 = 5 →
    ∃ t, exec (.fenceCommand fe q) s = .next t ∧ Spec.Completed s t fe q ws ∧ t.mem = s.mem

/-- R372, R374, R359: the registers of a queue: TAIL publishes commands, a value below it or more than the ring holds above
PROG being ERR 3; EN = 1 enables the queue, EN = 0 disables it and clears an error, the next command being number PROG; a
front end switches a queue out and in again. An interface in error takes none of these writes (R333). -/
def Sys2Proof.Spec.QueueRegisters : Prop :=
  (∀ (fe q : Nat) (s : State), fe < 64 → (s.part fe).tdis = 3 →
    (∀ v, exec (.qtailWrite fe q v) s = .next s) ∧ exec (.queueEnable fe q) s = .next s ∧ exec (.queueDisable fe q) s = .next s) ∧
  (∀ (fe q v : Nat) (s : State), v < 2 ^ 64 → frontInError s fe = false →
    let x := s.queue fe q
    ((x.tail ≤ v ∧ v ≤ x.prog + 2 ^ (x.ctl.toNat % 32)) →
      ∃ t, exec (.qtailWrite fe q v) s = .next t ∧ t.queue fe q = { x with tail := v } ∧ t.mem = s.mem) ∧
    (¬(x.tail ≤ v ∧ v ≤ x.prog + 2 ^ (x.ctl.toNat % 32)) → x.ctl.toNat / 2 ^ 32 % 16 ≠ 3 →
      ∃ t, exec (.qtailWrite fe q v) s = .next t ∧ Spec.InError s t fe q 3)) ∧
  (∀ (fe q : Nat) (s : State),
    let x := s.queue fe q
    (x.ctl.toNat / 2 ^ 32 % 16 = 0 → ctxAway s x.asid = false ∨ 64 ≤ fe → frontInError s fe = false →
      ∃ t y, exec (.queueEnable fe q) s = .next t ∧ t.queue fe q = y ∧ { y with ctl := x.ctl } = x ∧ y.en = true ∧
        y.asid = x.asid ∧ y.cls = x.cls ∧ y.slots = x.slots ∧ y.stat = x.stat) ∧
    (frontInError s fe = false → ∃ t y, exec (.queueDisable fe q) s = .next t ∧ t.queue fe q = y ∧ y.en = false ∧ y.asid = x.asid ∧ y.cls = x.cls ∧
      y.slots = x.slots ∧ (y.base, y.tail, y.prog) = (x.base, x.tail, x.prog) ∧
      (x.stat ≠ 3 → y.stat = x.stat ∧ y.head = x.head ∧ y.begun = x.begun) ∧
      (x.stat = 3 → y.stat = 0 ∧ y.head = x.prog ∧ y.begun = [] ∧
        -- no pre-emption completes a command of the administration queue that is begun no longer
        (fe = 64 → ∀ a c, s.ctx? a = some c → t.ctx? a = some { c with preemptCmds := [] }))) ∧
    (fe < 64 → x.stat ≠ 2 → x.stat ≠ 3 →
      ∃ t y, exec (.queueSwitch fe q) s = .next t ∧ t.queue fe q = y ∧ { y with ctl := x.ctl } = x ∧ y.stat = 2 ∧
        y.en = x.en ∧ y.asid = x.asid) ∧
    (fe < 64 → x.stat = 2 → ctxAway s x.asid = false → (∀ cmd ∈ x.begun, cmd.done = false) →
      ∃ t y, exec (.queueSwitch fe q) s = .next t ∧ t.queue fe q = y ∧ { y with ctl := x.ctl } = x ∧ y.stat = 0))

namespace Sys2Proof.Spec

/-! ## The vocabulary of the administration queue -/

/-- R375: the administration queue offers a command of an opcode to the firmware, with nothing else begun. -/
def AdminOffers (s : State) (op : Nat) (ws : List DWord) : Prop :=
  firmwareRuns s = true ∧ Offers s 64 0 ws ∧ word ws 0 % 256 = op ∧ (s.queue 64 0).begun = []

/-- R375, R313: a refused command puts the queue in error with ERR 1 and changes no context, partition or memory. -/
def Refused (s t : State) : Prop :=
  InError s t 64 0 1 ∧ t.contexts = s.contexts ∧ t.parts = s.parts ∧ t.groups = s.groups ∧ t.mem = s.mem

/-- The progress of the administration queue passes its command. -/
def Passed (s t : State) : Prop :=
  let x := s.queue 64 0
  t.queue 64 0 = { x with head := x.head + 1, prog := x.head + 1, begun := [] }

/-- The register a CONTEXT or PARTSET command names. -/
def regOf (ws : List DWord) : Nat := word ws 1 / 2 ^ 16 % 4096

/-- R310: the fields of CTXCFG register `i` that M mode alone writes: the lowest bit and the width of each. -/
def mOnly (i : Nat) : List (Nat × Nat) :=
  match i with
  | 0 => [(16, 20), (0, 11)]
  | 1 => [(12, 40)]
  | 2 => [(12, 45), (0, 11)]
  | 3 => [(16, 41), (0, 16)]
  | 4 => [(16, 41), (0, 16)]
  | 5 => [(16, 41), (0, 16)]
  | 6 => [(16, 12), (0, 12)]
  | _ => []

/-- A field of a number. -/
def bitsAt (x : Nat) (f : Nat × Nat) : Nat := x / 2 ^ f.1 % 2 ^ f.2

/-- R310: what a field takes of a write: ECNT ignores values above 1,024. -/
def fieldAfter (i old x : Nat) (f : Nat × Nat) : Nat := if i = 2 ∧ f.1 = 0 ∧ 1024 < bitsAt x f then bitsAt old f else bitsAt x f

/-- R311: a context has an admitted group, an engine operation, a queued matrix instruction or a bound slot. -/
def Busy (s : State) (asid : Nat) : Prop :=
  (∃ e ∈ s.groups, e.2.asid = asid ∧ e.2.core < 256) ∨ (∃ e ∈ s.ops, e.2.asid = asid) ∨
  ∃ e ∈ s.sets, e.1 / 256 = asid ∧ (e.2.mq ≠ [] ∨ ∃ x ∈ e.2.slots, x.2.state ≠ .unbound)

/-- R313: a context of the partition is busy. -/
def PartBusy (s : State) (p : Nat) : Prop := ∃ e ∈ s.contexts, e.2.part = p ∧ Busy s e.1

/-- Two ranges share a number. -/
def Overlap (a b c d : Nat) : Prop := a ≤ d ∧ c ≤ b

end Sys2Proof.Spec

/-! ## The administration queue -/

/-- R375, R308, R310 to R313, R330, R378, R379: the commands of the administration queue that the firmware serves (the
boot ROM takes FWLOAD alone): a context is created in zeros under a free ASID of its partition, its registers written
under their rules, and destroyed when no group of it is admitted, a PREEMPT that waits for it being complete then; a
partition register is written or refused, and a core that a partition loses is scrubbed (R323); an image is started,
staged or rejected with ERR 6. R311: a changed M-only field of a busy context is refused; R313: so are ranges that
meet another partition's, an empty COLOUR of a partition with cores, one shared with a locked or running partition,
and a change while a context of the partition is busy; a changed KBASE, KLIMIT or SROOT leaves no translation of the
partition in use (R305, R329); R333: so is everything asked for a partition whose interface is in error. No context is
made while a thermal trip is pending (log entry 123). What counts as admitted, the black-box record of a refusal,
FWLOAD's completion, the ranges that hold cores and keys, and CONTEXT_CREATE waiting for a thermal trip are the
model's (log entries 31, 36, 37, 63, 64, 70, 123). -/
def Obligations.AdminCommands : Prop :=
  (∀ (s : State) (ws : List DWord), Spec.AdminOffers s 16 ws → Spec.word ws 1 / 2 ^ 12 % 16 = 0 →
    let asid := Spec.word ws 1 % 2048
    let p := s.part (Spec.word ws 1 / 2 ^ 32 % 64)
    let allowed : Prop := s.ctx? asid = none ∧ p.abase ≤ asid ∧ asid ≤ p.alimit ∧ p.tdis ≠ 3
    ((∃ e ∈ s.dies, e.2.trip = true) → exec .contextCreate s = .next s) ∧
    ((∀ e ∈ s.dies, e.2.trip = false) → allowed → ∃ t c, exec .contextCreate s = .next t ∧ Spec.Completed s t 64 0 ws ∧ t.ctx? asid = some c ∧
      c.cfg.toList = [BitVec.ofNat 64 asid, 0#64, 0#64, 0#64, 0#64, 0#64, BitVec.ofNat 64 (255 * 2 ^ 32), 0#64] ∧
      c.part = Spec.word ws 1 / 2 ^ 32 % 64 ∧ c.job = Spec.word ws 1 / 2 ^ 40 % 4096 ∧ c.stopped = none ∧
      c.preempt = .none ∧ c.records = [] ∧ (c.hvec, c.hctl, c.fbuf, c.seq) = (0#64, 0#64, 0#64, 0) ∧
      (∀ a, a ≠ asid → t.ctx? a = s.ctx? a) ∧ (∀ e, e ∈ t.tlb ↔ e ∈ s.tlb ∧ e.asid ≠ asid) ∧ t.mem = s.mem) ∧
    ((∀ e ∈ s.dies, e.2.trip = false) → ¬allowed → ∃ t, exec .contextCreate s = .next t ∧ Spec.Refused s t)) ∧
  (∀ (s : State) (ws : List DWord), firmwareRuns s = false → Spec.Offers s 64 0 ws → Spec.word ws 0 % 256 = 16 →
    ∃ t, exec .contextCreate s = .next t ∧ Spec.InError s t 64 0 1 ∧ t.contexts = s.contexts) ∧
  (∀ (s : State) (ws : List DWord), Spec.AdminOffers s 16 ws → Spec.word ws 1 / 2 ^ 12 % 16 = 1 →
    let asid := Spec.word ws 1 % 2048
    let n := Spec.regOf ws
    (∀ c, s.ctx? asid = some c → (s.part c.part).tdis = 3 → ∃ t, exec .contextWrite s = .next t ∧ Spec.Refused s t) ∧
    (∀ c, s.ctx? asid = some c → (s.part c.part).tdis ≠ 3 →
      (∀ i, i ≤ 6 → n = 0x810 + i →
        let old := (c.cfg[i]?.getD 0#64).toNat
        let x := Spec.word ws 2
        let changed : Prop := ∃ f ∈ Spec.mOnly i, Spec.fieldAfter i old x f ≠ Spec.bitsAt old f
        (changed → Spec.Busy s asid → ∃ t, exec .contextWrite s = .next t ∧ Spec.Refused s t) ∧
        ((i = 0 → x % 2048 = old % 2048) → ¬changed ∨ ¬Spec.Busy s asid →
          ∃ t c', exec .contextWrite s = .next t ∧ Spec.Completed s t 64 0 ws ∧ t.ctx? asid = some c' ∧
            { c' with cfg := c.cfg } = c ∧ (∀ j, j ≠ i → c'.cfg[j]? = c.cfg[j]?) ∧
            (∀ f ∈ Spec.mOnly i, Spec.bitsAt (c'.cfg[i]?.getD 0#64).toNat f = Spec.fieldAfter i old x f) ∧
            (i = 6 → Spec.bitsAt (c'.cfg[i]?.getD 0#64).toNat (32, 16) =
              if 15 ≤ Spec.bitsAt x (32, 16) then Spec.bitsAt x (32, 16) else Spec.bitsAt old (32, 16)) ∧
            ∀ a, a ≠ asid → t.ctx? a = s.ctx? a) ∧
        (i = 0 → x % 2048 ≠ old % 2048 → ¬Spec.Busy s asid → ∀ p, p = s.part c.part →
          (x % 2048 < p.abase ∨ p.alimit < x % 2048 ∨ s.ctx? (x % 2048) ≠ none →
            ∃ t, exec .contextWrite s = .next t ∧ Spec.Refused s t) ∧
          (p.abase ≤ x % 2048 → x % 2048 ≤ p.alimit → s.ctx? (x % 2048) = none → rising (s.contexts.map (·.1)) = true →
            ∃ t c', exec .contextWrite s = .next t ∧ Spec.Completed s t 64 0 ws ∧ t.ctx? (x % 2048) = some c' ∧
              t.ctx? asid = none ∧ c'.cfg[0].toNat % 2048 = x % 2048 ∧ { c' with cfg := c.cfg } = c))) ∧
      (n = 0x881 → ∃ t, exec .contextWrite s = .next t ∧ Spec.Completed s t 64 0 ws ∧ t.ctx? asid = some { c with
        hctl := BitVec.ofNat 64 (Spec.word ws 2 / 2 ^ 16 % 2 * 2 ^ 16 + Spec.word ws 2 / 2 ^ 3 % 2 ^ 7 * 2 ^ 3) }) ∧
      (n = 0x882 → ∃ t, exec .contextWrite s = .next t ∧ Spec.Completed s t 64 0 ws ∧ t.ctx? asid = some { c with
        fbuf := BitVec.ofNat 64 (Spec.word ws 2 / 2 ^ 12 % 2 ^ 45 * 2 ^ 12 + Spec.word ws 2 % 2 ^ 12) }) ∧
      (n = 0x883 → ∃ t, exec .contextWrite s = .next t ∧ Spec.Completed s t 64 0 ws ∧ t.ctx? asid = some c) ∧
      (n = 0x817 → ∃ t, exec .contextWrite s = .next t ∧ Spec.Completed s t 64 0 ws ∧
        t.ctx? asid = some { c with cfg := c.cfg.set 7 (ws.getD 2 0#64) } ∧ ∀ a, a ≠ asid → t.ctx? a = s.ctx? a) ∧
      (n = 0x811 → (∀ e ∈ s.groups, e.2.asid ≠ asid) → (∀ e ∈ s.ops, e.2.asid ≠ asid) → (∀ e ∈ s.sets, e.1 / 256 ≠ asid) →
        ∃ t c', exec .contextWrite s = .next t ∧ Spec.Completed s t 64 0 ws ∧ t.ctx? asid = some c' ∧
          { c' with cfg := c.cfg } = c ∧ (∀ i, i ≠ 1 → c'.cfg[i]? = c.cfg[i]?) ∧
          c'.cfg[1].toNat / 4096 % 2 ^ 40 = Spec.word ws 2 / 4096 % 2 ^ 40) ∧
      (n = 0x880 → ∃ t, exec .contextWrite s = .next t ∧ Spec.Completed s t 64 0 ws ∧
        t.ctx? asid = some { c with hvec := BitVec.ofNat 64 (Spec.word ws 2 / 128 % 2 ^ 50 * 128) })) ∧
    ((s.ctx? asid = none ∨ ¬(0x810 ≤ n ∧ n ≤ 0x817 ∨ 0x880 ≤ n ∧ n ≤ 0x884)) →
      ∃ t, exec .contextWrite s = .next t ∧ Spec.Refused s t)) ∧
  (∀ (s : State) (ws : List DWord) (c : Context), Spec.AdminOffers s 16 ws → Spec.word ws 1 / 2 ^ 12 % 16 = 2 →
    let asid := Spec.word ws 1 % 2048
    s.ctx? asid = some c → rising (s.contexts.map (·.1)) = true → c.preemptCmds = [] →
    ((s.part c.part).tdis = 3 → ∃ t, exec .contextDestroy s = .next t ∧ Spec.Refused s t) ∧
    ((s.part c.part).tdis ≠ 3 → (∀ e ∈ s.groups, e.2.asid = asid → 256 ≤ e.2.core) → ∃ t, exec .contextDestroy s = .next t ∧
      Spec.Completed s t 64 0 ws ∧ t.ctx? asid = none ∧ (∀ a, a ≠ asid → t.ctx? a = s.ctx? a) ∧ t.mem = s.mem) ∧
    ((∃ e ∈ s.groups, e.2.asid = asid ∧ e.2.core < 256) → ∃ t, exec .contextDestroy s = .next t ∧ Spec.Refused s t)) ∧
  (∀ (s : State) (ws : List DWord) (c : Context) (cmd : Command), firmwareRuns s = true → Spec.Offers s 64 0 ws →
    Spec.word ws 0 % 256 = 16 → Spec.word ws 1 / 2 ^ 12 % 16 = 2 → s.ctx? (Spec.word ws 1 % 2048) = some c →
    (s.part c.part).tdis ≠ 3 → (s.queue 64 0).begun = [cmd] → c.preemptCmds = [cmd.number] → (∀ e ∈ s.groups, e.2.asid ≠ Spec.word ws 1 % 2048) →
    ∃ t, exec .contextDestroy s = .next t ∧ Spec.Passed s t) ∧
  (∀ (s : State) (ws : List DWord), Spec.AdminOffers s 20 ws →
    let p := Spec.word ws 1 % 64
    let n := Spec.regOf ws
    let x := Spec.word ws 2
    let q := s.part p
    let refused : Prop := ∃ t, exec .partset s = .next t ∧ Spec.Refused s t
    let low (n : Nat) : Nat := x % 2 ^ n
    let mid (l n : Nat) : Nat := x / 2 ^ l % 2 ^ n
    let alone : Prop := (∀ e ∈ s.parts, e.1 = p) ∧ ∀ e ∈ s.contexts, e.2.part ≠ p
    (n < 0x820 ∨ 0x825 < n → refused) ∧ (0x820 ≤ n → n ≤ 0x825 → q.tdis = 3 → refused) ∧
    (q.tdis = 0 → n = 0x820 →
      q.made = false ∨ q.cbase ≠ low 8 ∨ q.climit ≠ mid 8 8 ∨ q.abase ≠ mid 16 11 ∨ q.alimit ≠ mid 32 11 →
      (Spec.PartBusy s p ∨ ∃ e ∈ s.parts, e.1 ≠ p ∧ e.2.made = true ∧ (Spec.Overlap (low 8) (mid 8 8) e.2.cbase e.2.climit ∨
        Spec.Overlap (mid 16 11) (mid 32 11) e.2.abase e.2.alimit)) → refused) ∧
    (q.tdis = 0 → n = 0x821 →
      (q.kbase ≠ low 11 ∨ q.klimit ≠ mid 16 11 → (Spec.PartBusy s p ∨ ∃ e ∈ s.parts, e.1 ≠ p ∧
        (e.2.made = true ∨ e.2.kbase ≠ 0 ∨ e.2.klimit ≠ 0) ∧ Spec.Overlap (low 11) (mid 16 11) e.2.kbase e.2.klimit) → refused) ∧
      (256 < mid 40 8 + ((s.parts.filter fun e => e.1 != p).map fun e => e.2.bww).sum → refused) ∧
      (alone → ∃ t, exec .partset s = .next t ∧ Spec.Completed s t 64 0 ws ∧ (t.part p).kbase = low 11 ∧
        (t.part p).klimit = mid 16 11 ∧ (t.part p).bww = mid 40 8 ∧
        (t.part p).qlog = (if 12 ≤ mid 32 5 ∧ mid 32 5 ≤ 20 then mid 32 5 else q.qlog) ∧
        (q.kbase ≠ low 11 ∨ q.klimit ≠ mid 16 11 → ∀ e ∈ t.tlb, e.part ≠ p))) ∧
    (q.tdis = 0 → n = 0x822 → x ≠ q.colour →
      (Spec.PartBusy s p ∨ (x = 0 ∧ q.made = true) ∨ (∃ e ∈ s.parts, e.1 ≠ p ∧ (e.2.tdis = 1 ∨ e.2.tdis = 2) ∧
        ∃ i, e.2.colour.testBit i = true ∧ x.testBit i = true) → refused) ∧
      (x ≠ 0 → alone → s.tablesOk → ∃ t, exec .partset s = .next t ∧ Spec.Completed s t 64 0 ws ∧ (t.part p).colour = x ∧
        (∀ e ∈ t.l2, e.2.own.part = p → e.2.slice < 64 → x.testBit e.2.slice = true) ∧
        ∀ r ∈ t.replicas, r.own.part = p → r.slice < 64 → x.testBit r.slice = true)) ∧
    (q.tdis = 0 → n = 0x823 →
      (q.sroot ≠ mid 12 40 * 4096 → Spec.PartBusy s p → refused) ∧
      (alone → ∃ t, exec .partset s = .next t ∧ Spec.Completed s t 64 0 ws ∧ (t.part p).sroot = mid 12 40 * 4096 ∧
        (q.sroot ≠ mid 12 40 * 4096 → ∀ e ∈ t.tlb, e.part ≠ p))) ∧
    (q.tdis = 0 → n = 0x825 → ∃ t, exec .partset s = .next t ∧ Spec.Completed s t 64 0 ws ∧ ∀ k, k < 8 →
      (t.part p).lclog k = if 10 ≤ mid (5 * k) 5 ∧ mid (5 * k) 5 ≤ 20 then mid (5 * k) 5 else q.lclog k) ∧
    ((s.part p).tdis = 0 → n = 0x824 → ∃ t, exec .partset s = .next t ∧ Spec.Completed s t 64 0 ws ∧
      t.part p = { s.part p with cfg := (s.part p).cfg.set 4 (BitVec.ofNat 64 (x % 2 ^ 32)) } ∧
      ∀ j, j ≠ p → t.part j = s.part j) ∧
    ((s.part p).tdis = 0 → n = 0x820 → x / 2 ^ 8 % 256 < x % 256 →
      (s.part p).cbase ≠ x % 256 ∨ (s.part p).climit ≠ x / 2 ^ 8 % 256 →
      ∃ t, exec .partset s = .next t ∧ Spec.Refused s t) ∧
    (q.tdis = 0 → n = 0x820 → q.colour = 0 →
      q.made = false ∨ q.cbase ≠ low 8 ∨ q.climit ≠ mid 8 8 ∨ q.abase ≠ mid 16 11 ∨ q.alimit ≠ mid 32 11 → refused) ∧
    ((s.part p).tdis = 0 → n = 0x820 → q.colour ≠ 0 → x % 256 ≤ x / 2 ^ 8 % 256 → (∀ e ∈ s.parts, e.1 = p) →
      (∀ e ∈ s.contexts, e.2.part ≠ p) → ∃ t, exec .partset s = .next t ∧ Spec.Completed s t 64 0 ws ∧
        (t.part p).cbase = x % 256 ∧ (t.part p).climit = x / 2 ^ 8 % 256 ∧ (t.part p).abase = x / 2 ^ 16 % 2048 ∧
        (t.part p).alimit = x / 2 ^ 32 % 2048 ∧
        (s.tablesOk → ∀ k ∈ partCores (s.part p), k ∉ partCores (t.part p) →
          (∀ j x, look j (t.core k).l1 = some x → x.isDirty = true ∧ isDown s (j * 64) = true) ∧
            ∀ e ∈ t.sets, e.1 % 256 ≠ k))) ∧
  ∀ (s : State) (ws : List DWord), Spec.Offers s 64 0 ws → Spec.word ws 0 % 256 = 21 → (s.queue 64 0).begun = [] →
    let a := Spec.word ws 1
    let n := Spec.word ws 2 % 2 ^ 32
    let bs := s.mem.bytes (hostBase + a) n
    let x : Image := ⟨bs, imageWord bs 4⟩
    (a % 4096 = 0 → 20480 ≤ n ∧ n ≤ 16777216 → imageAccepted 0 x = true →
      ((s.die 0).boot = .rom → ∃ t, exec .fwload s = .next t ∧ Spec.Completed s t 64 0 ws ∧
        ∀ d, d < 4 → (s.die d).boot = .rom → imageAccepted d x = true →
          (t.die d).boot = .loaded ∧ (t.die d).image = some x) ∧
      (firmwareRuns s = true → (∀ y, (s.die 0).image = some y → y.svn ≤ x.svn) →
        ∃ t, exec .fwload s = .next t ∧ Spec.Completed s t 64 0 ws ∧
          ∀ d, d < 4 → t.die d = { s.die d with staged := some x })) ∧
    (a % 4096 = 0 → (n < 20480 ∨ 16777216 < n ∨ imageAccepted 0 x = false) →
      ∃ t, exec .fwload s = .next t ∧ Spec.InError s t 64 0 6 ∧ t.dies = s.dies)

namespace Sys2Proof.Spec

/-! ## The vocabulary of answers -/

/-- R341: a record of a context waits for the host's answer, and its group waits with it. -/
structure Awaits (s : State) (asid seq : Nat) (c : Context) (r : Posted) (gid : Nat) (g : Group) (ev : Event) : Prop where
  ctx     : s.ctx? asid = some c
  record  : look seq c.records = some r
  open_   : r.answered = false ∧ c.stopped = none
  owner   : r.owner = .group gid
  event   : r.event = some ev
  plain   : ev.report.matrix = none
  group   : s.group? gid = some g ∧ g.asid = asid

/-- R341, R186: RETRY: the group resumes at EPC with REPLAY, everything it holds as it was. -/
def Retried (t : State) (gid : Nat) (g : Group) (ev : Event) : Prop :=
  ∃ h, t.group? gid = some h ∧ h.wait = .none ∧ h.pc = ev.epc ∧
    h.amask = (if ev.replay = 0#32 then g.amask else ev.replay &&& g.lmask) ∧
    h.replay = (if ev.replay = 0#32 then none else some g.amask) ∧
    { h with wait := g.wait, pc := g.pc, amask := g.amask, replay := g.replay, line := g.line, sched := g.sched } = g

/-- R341, R345: DELIVER: the group enters the handler with the record's refused bit, 17, set; with HVEC = 0 its context
stops with reason 11. -/
def Delivered (s t : State) (asid gid : Nat) (g : Group) (c : Context) (ev : Event) (pa : Nat) : Prop :=
  g.mode = .user → g.stack.length < 256 →
  (c.hline = 0 → ∃ c', t.ctx? asid = some c' ∧ c'.stopped = some 11) ∧
  (c.hline ≠ 0 → FrameAt s g c pa → ev.code < 256 → ev.cause < 256 →
    ∃ h, t.group? gid = some h ∧ h.mode = .handler ∧ h.pc = BitVec.ofNat 57 (c.hline + 16) ∧
      h.stack = .marker :: g.stack ∧ h.wait = .none ∧ h.sreg 24 = BitVec.ofNat 64 (frameAddr c g) ∧
      (h.sreg 25).toNat % 65536 = ev.code + ev.cause * 256 ∧ (h.sreg 25).getLsbD 17 = true ∧ h.threads = g.threads ∧
      h.lmask = g.lmask)

/-- An ANSWER command on a record. -/
def AnswerOffers (s : State) (ws : List DWord) (kind asid seq : Nat) : Prop :=
  AdminOffers s 17 ws ∧ word ws 2 % 4 = kind ∧ word ws 2 / 256 % 2048 = asid ∧ word ws 1 = seq

/-- The four answers and their values. -/
def answerTable : List (Instr × Nat) := [(.answerRetry, 0), (.answerDeliver, 1), (.answerRefuse, 2), (.answerStop, 3)]

end Sys2Proof.Spec

/-- R341, R320, R375: the host's answers, by command and by PRI response: RETRY lets a group or an engine operation go on,
a page whose data it still finds uncorrectable being retired (R362), DELIVER and REFUSE take a group to its handler
and end an operation, STOP stops the context with reason 12; Success acts as RETRY, the other responses as DELIVER; a
second answer to a record changes nothing, and one for no context is refused. The stop of a group in the handler, and
when a page is retired, are the model's (log entries 21, 108). -/
def Obligations.Answers : Prop :=
  (∀ (s : State) (ws : List DWord) (asid seq : Nat) (c : Context) (r : Posted) (gid : Nat) (g : Group) (ev : Event) (pa : Nat),
    Spec.Awaits s asid seq c r gid g ev →
    (Spec.AnswerOffers s ws 0 asid seq → ∃ t, exec .answerRetry s = .next t ∧ Spec.Passed s t ∧ Spec.Retried t gid g ev ∧
      (ev.code ≠ codeDATAERR ∨ s.bad = [] → Spec.Completed s t 64 0 ws) ∧
      ∀ p : Page, ev.code = codeDATAERR → walk s asid ev.info.toNat = .ok p → p.fmt = .raw →
        let at_ := foldAlias (p.frame + (ev.info.toNat - p.vbase)) / 8 * 8
        s.lost at_ 8 = true → Sent.retired (at_ / 65536) ∈ t.sent) ∧
    (∀ e ∈ ([(.answerDeliver, 1), (.answerRefuse, 2)] : List (Instr × Nat)), Spec.AnswerOffers s ws e.2 asid seq →
      ∃ t, exec e.1 s = .next t ∧ Spec.Passed s t ∧ Spec.Delivered s t asid gid g c ev pa) ∧
    (Spec.AnswerOffers s ws 3 asid seq →
      ∃ t c', exec .answerStop s = .next t ∧ Spec.Passed s t ∧ t.ctx? asid = some c' ∧ c'.stopped = some 12) ∧
    ∀ (n : Nat) (q : PageRequest), look n s.requests = some q → (q.asid, q.seq, q.sent) = (asid, seq, true) →
      ∀ p : PriResponse, ∃ t, exec (.priResponse n p) s = .next t ∧
        if p = .success then Spec.Retried t gid g ev ∧ t.queues = s.queues else Spec.Delivered s t asid gid g c ev pa) ∧
  (∀ (s : State) (ws : List DWord) (asid seq name : Nat) (c : Context) (r : Posted) (o : EngineOp),
    s.ctx? asid = some c → look seq c.records = some r → r.answered = false → c.stopped = none → r.owner = .engine name →
    r.event = none → look name s.ops = some o → o.held = some seq → rising (s.ops.map (·.1)) = true →
    (Spec.AnswerOffers s ws 0 asid seq → ∃ t, exec .answerRetry s = .next t ∧ Spec.Completed s t 64 0 ws ∧
      look name t.ops = some { o with held := none } ∧ t.groups = s.groups) ∧
    ∀ gid core k, o.source = .group gid core k → Spec.AnswerOffers s ws 2 asid seq →
      ∃ t, exec .answerRefuse s = .next t ∧ look name t.ops = none ∧ ∀ m, m ≠ name → look m t.ops = look m s.ops) ∧
  ∀ e ∈ Spec.answerTable, ∀ (s : State) (ws : List DWord) (asid seq : Nat), Spec.AnswerOffers s ws e.2 asid seq →
    (s.ctx? asid = none → ∃ t, exec e.1 s = .next t ∧ Spec.Refused s t) ∧
    ∀ (c : Context) (r : Posted), s.ctx? asid = some c → look seq c.records = some r → r.answered = true →
      ∃ t, exec e.1 s = .next t ∧ Spec.Completed s t 64 0 ws ∧ t.groups = s.groups ∧ t.contexts = s.contexts ∧
        t.ops = s.ops

namespace Sys2Proof.Spec

/-- R352, R355, R357: a group as a save leaves it: in full, or by flashback in its recipe with what `mark` kept. -/
def SavedGroup (g h : Group) : Prop :=
  256 ≤ h.core ∧ h.sched.lane = none ∧ h.sched.inStint = false ∧
  (g.flash = none ∨ g.expand ≠ none → h.pc = g.pc ∧ h.threads = g.threads ∧ h.s = g.s ∧ h.w = g.w ∧ h.stack = g.stack ∧ h.mode = g.mode ∧
    h.amask = g.amask ∧ h.fpmode = g.fpmode ∧ h.fflags = g.fflags ∧
    -- R340, R351: an event still to be met is one that was pending at a pre-emption
    h.pending = g.pending.map fun ev => { ev with report := { ev.report with wasPending := true } }) ∧
  ∀ f, g.flash = some f → g.expand = none → g.mode = .user → g.pending = none → g.wait ≠ .host → g.wait ≠ .room →
    h.pc = f.recipe + 16#57 ∧ h.recipe = true ∧ h.stack = [] ∧ h.lmask = f.lmask ∧ h.amask = f.lmask ∧
    h.fpmode = f.fpmode ∧ h.fpseed = f.fpseed ∧ h.retired = f.count ∧
    (∀ i, i < 32 → h.sreg i = if f.live.getLsbD (48 + i) then g.sreg i else (g.args[i]?).getD 0#64) ∧
    ∀ u, u < 32 → ∀ i, i < 48 → (h.thread u).reg i =
      if f.lmask.getLsbD u = true ∧ f.live.getLsbD i = true then (g.thread u).reg i
      else if g.packed then ((g.thread u).payload[i]?).getD 0#32 else 0#32

end Sys2Proof.Spec

/-- R352 to R354, R357, R359, R375, R383: pre-emption. A soft one stops placement and completes once nothing of the
context runs; a hard one stops its stints and queues, and saves it as soon as nothing stands in the way, in full or by
flashback; at its deadline groups stop at once, and an operation not complete stops the context with reason 7; a
resumed context runs again, the state of its cores back on them, once no thermal trip holds it off the module (R381)
and its park area answers (R364). A handler going on to its stint's end, when a soft pre-emption is complete, what a
resumption keeps, and RESUME waiting for a thermal trip or a die in reset are the model's (log entries 75, 76, 78 to
80, 104, 107, 118, 120, 123, 127, 136). -/
def Obligations.Preemption : Prop :=
  (∀ (s : State) (ws : List DWord) (c : Context), Spec.AdminOffers s 18 ws → Spec.word ws 2 % 4 = 0 →
    let asid := Spec.word ws 1 % 2048
    s.ctx? asid = some c → c.stopped = none → c.preempt = .none → c.preemptCmds = [] →
    ((∃ e ∈ s.groups, e.2.asid = asid) → ∃ t, exec .preemptSoft s = .next t ∧ Spec.Begun s t 64 0 ws ∧
      t.ctx? asid = some { c with preempt := .soft, preemptCmds := [(s.queue 64 0).head], autoResume := false } ∧ t.groups = s.groups) ∧
    ((∀ e ∈ s.groups, e.2.asid ≠ asid) → (∀ e ∈ s.sets, e.1 / 256 = asid → e.2.items = [] ∧ e.2.formed = []) →
      ∃ t, exec .preemptSoft s = .next t ∧ Spec.Completed s t 64 0 ws ∧
        t.ctx? asid = some { c with preempt := .saved, autoResume := false } ∧ t.groups = s.groups)) ∧
  -- one that a fence has taken off the module stays off it, with nothing placed, until its RESUME (R365)
  (∀ (s : State) (ws : List DWord) (c : Context), Spec.AdminOffers s 18 ws → Spec.word ws 2 % 4 = 0 →
    s.ctx? (Spec.word ws 1 % 2048) = some c → c.stopped = none → c.preempt = .saved →
    ∃ t, exec .preemptSoft s = .next t ∧ Spec.Completed s t 64 0 ws ∧
      t.ctx? (Spec.word ws 1 % 2048) = some { c with autoResume := false } ∧ t.groups = s.groups) ∧
  (∀ (s : State) (ws : List DWord) (c : Context), Spec.AdminOffers s 18 ws → Spec.word ws 2 % 4 = 1 →
    let asid := Spec.word ws 1 % 2048
    let d := Spec.word ws 2 / 2 ^ 32 % 2 ^ 24
    s.ctx? asid = some c → c.stopped = none → c.preempt = .none → c.preemptCmds = [] →
    (saveReady s asid = false → ∃ t, exec .preemptHard s = .next t ∧ Spec.Begun s t 64 0 ws ∧
      t.ctx? asid = some { c with
        preempt := .hard s.now (if d = 0 then 65536 else if d < 1024 then 1024 else d)
        preemptCmds := [(s.queue 64 0).head]
        autoResume := false } ∧
      t.groups = s.groups ∧
      ∀ fe q, fe < 64 → q < 8 → look (fe * 8 + q) s.queues ≠ none → (s.queue fe q).asid = asid → (s.queue fe q).stat ≠ 3 →
        (t.queue fe q).stat = 2) ∧
    (saveReady s asid = true → rising (s.sets.map (·.1)) = true →
      (∀ e ∈ s.groups, e.2.asid = asid → e.2.core < 256 ∧ e.2.core ∈ ctxCores s asid) →
      ∃ t c', exec .preemptHard s = .next t ∧ Spec.Completed s t 64 0 ws ∧ t.ctx? asid = some c' ∧ c'.preempt = .saved ∧
        (∀ e ∈ t.sets, e.1 / 256 ≠ asid) ∧
        ∀ gid g, s.group? gid = some g → ∃ h, t.group? gid = some h ∧
          if g.asid = asid then Spec.SavedGroup g h else h = g)) ∧
  (∀ (asid : Nat) (s : State) (c : Context) (t0 d : Nat), s.ctx? asid = some c → c.stopped = none →
    c.preempt = .hard t0 d → t0 + d ≤ s.now → saveReady s asid = false → (∀ e ∈ s.dies, e.2.trip = false) →
    (∀ e ∈ s.cores, e.2.fenced = false) → (∀ e ∈ s.contexts, e.2.autoResume = false) →
    ((∃ e ∈ s.ops, e.2.asid = asid) → ∃ t c', exec (.preemptDeadline asid) s = .next t ∧ t.ctx? asid = some c' ∧
      c'.stopped = some 7 ∧ ∀ e ∈ t.groups, e.2.asid ≠ asid) ∧
    ((∀ e ∈ s.ops, e.2.asid ≠ asid) → ∃ t, exec (.preemptDeadline asid) s = .next t ∧
      ∀ gid g, s.group? gid = some g → g.asid = asid → g.mode = .user →
        ∃ h, t.group? gid = some h ∧ h.sched.inStint = false)) ∧
  ∀ (s : State) (ws : List DWord) (c : Context), Spec.AdminOffers s 19 ws →
    let asid := Spec.word ws 1 % 2048
    s.ctx? asid = some c → c.stopped = none → c.preempt = .saved → c.preemptCmds = [] → s.bad = [] →
    (((∃ e ∈ s.dies, e.2.trip = true ∨ e.2.boot = .held) ∨ parkDown s asid = true) → exec .resume s = .next s) ∧
    ((∀ e ∈ s.dies, e.2.trip = false ∧ e.2.boot ≠ .held) → parkDown s asid = false →
    (c.units = [] → ∃ t, exec .resume s = .next t ∧ Spec.Completed s t 64 0 ws ∧
      t.ctx? asid = some { c with preempt := .none, autoResume := false } ∧ t.groups = s.groups) ∧
    ∀ u, c.units = [u] → u.blocks = [] → u.set.mq = [] → u.set.xwait = [] → u.core ∈ partCores (s.part c.part) → u.core < 256 →
      coreServes s u.core = true →
      received s asid u.core = false →
      ∃ t c', exec .resume s = .next t ∧ Spec.Completed s t 64 0 ws ∧ t.ctx? asid = some c' ∧ c'.preempt = .none ∧
        c'.units = [] ∧ t.set asid u.core = u.set)

namespace Sys2Proof.Spec

/-! ## The vocabulary of admission -/

/-- R68, R116: a group as it is admitted: at slot 0 of its entry's line, its existing threads active, every register
zero but those the launch gives. -/
structure Fresh (h : Group) (asid core block grid : Nat) (row : EntryRow) (threads : Nat) (args : Vector DWord 4) (seed : DWord) :
    Prop where
  place   : (h.asid, h.core, h.block, h.grid) = (asid, core, block, grid)
  pc      : h.pc = BitVec.ofNat 57 (row.line + 16)
  nregs   : h.nregs = row.nregs
  masks   : h.lmask = BitVec.ofNat 32 (2 ^ threads - 1) ∧ h.amask = h.lmask
  sregs   : ∀ i, i < 32 → h.sreg i = (args[i]?).getD 0#64
  preds   : ∀ t, t < 32 → (h.thread t).p = 0#8 ∧ (h.thread t).b0.valid = false ∧ (h.thread t).b1.valid = false
  windows : ∀ i, i < 8 → (h.win i).set = false
  modes   : h.mode = .user ∧ h.stack = [] ∧ h.wait = .none ∧ h.sched.lane = none ∧ h.sched.inStint = false
  fp      : h.fpmode = 0#3 ∧ h.fflags = 0#7 ∧ h.ftrapen = 0#7 ∧ h.fpseed = seed
  counts  : h.retired = 0 ∧ h.flash = none

/-- R93: the next block of a grid may be placed: its context runs, its barriers are bound, its queue is switched in. -/
structure MayPlace (s : State) (n : Nat) (x : Grid) (c : Context) : Prop where
  grid  : s.grid? n = some x
  ctx   : s.ctx? x.asid = some c
  runs  : c.stopped = none ∧ c.preempt = .none ∧ c.units = [] ∧ (s.part c.part).tdis = 0
  bound : x.bound = true
  more  : x.nextBlock < x.blocks
  queue : ∀ fe q k, x.source = .queue fe q k → (s.queue fe q).stat ≠ 2

/-- R92, R93: a core that can admit a block's groups. -/
def CanTake (s : State) (x : Grid) (c : Context) (row : EntryRow) (k : Nat) : Prop :=
  k ∈ partCores (s.part c.part) ∧ coreAdmits s k x.gpb row = true ∧ parkFits s x.asid c x.gpb row.nregs [k] = true

end Sys2Proof.Spec

/-! ## Placement, packing and the lanes -/

/-- R93, R92, R68, R114, R116: a front end places the next block of its first grid, whole, on the core with the most free
places among those that can admit it, the lowest number among equals; its groups start as the rules say. No core: the
block waits, as it does while its entry is homed on a die that is down (R364). A malformed entry stops the context with reason 3. -/
def Sys2Proof.Spec.BlocksArePlaced : Prop :=
  ∀ (fe n : Nat) (s : State) (x : Grid) (c : Context), (∀ e ∈ s.contexts, e.2.part = fe → e.2.units = []) →
    gridOrder s fe = [n] → Spec.MayPlace s n x c →
    (entryDown s x.asid c x.entry = true → exec (.blockPlace fe) s = .next s) ∧
    (entryDown s x.asid c x.entry = false → readEntry s x.asid c x.entry = none → ∃ t c', exec (.blockPlace fe) s = .next t ∧ t.ctx? x.asid = some c' ∧
      c'.stopped = some 3) ∧
    ∀ row, readEntry s x.asid c x.entry = some row → x.gpb ≤ 512 →
      ((∀ k, ¬Spec.CanTake s x c row k) → exec (.blockPlace fe) s = .next s) ∧
      ∀ k, Spec.CanTake s x c row k →
        (∀ j, Spec.CanTake s x c row j → j ≠ k →
          freePlaces s j < freePlaces s k ∨ freePlaces s j = freePlaces s k ∧ k < j) →
        ∃ t, exec (.blockPlace fe) s = .next t ∧ t.mem = s.mem ∧
          t.grid? n = some { x with
            nextBlock := x.nextBlock + 1
            live := x.live + x.gpb
            core := some (x.core.getD k) } ∧
          t.block? s.fresh = some
            { asid := x.asid, grid := n, index := x.nextBlock, gpb := x.gpb, cores := [k],
              live := (List.range x.gpb).map (s.fresh + 1 + ·), benchSize := row.bench, bench := [(k, [])],
              benchAt := [(k, takeUnits s k row.bench)], cbar := row.cbar, qbar := row.qbar, coreBars := [], quadBars := [],
              packed := false } ∧
          ∀ r, r < x.gpb → ∃ h, t.group? (s.fresh + 1 + r) = some h ∧
            Spec.Fresh h x.asid k s.fresh n row x.tpg x.args c.seed ∧
            (∀ u, u < 32 → ∀ i, i < 48 → (h.thread u).reg i = 0#32) ∧ h.packed = false ∧ h.cls = x.cls ∧ h.rank = r ∧
            h.gcnt = x.gpb - 1 ∧ h.bcnt = x.blocks - 1 ∧ h.bidx = x.nextBlock ∧
            h.lidx = (x.nextBlock * x.gpb + r) % 2 ^ 32

/-- R97, R100, R102, R116: when no item for an entry has come for the packing timer, whose end its last item set, the items of the
grid form a partial group; the oldest group formed is admitted as a block of one, with a private bench, where its place is free: thread t
holds item t's payload in v0 to v3; it counts towards the items' grid. Without a place it waits. -/
def Sys2Proof.Spec.PackedGroupsForm : Prop :=
  (∀ (asid core entry grid due : Nat) (s : State), look entry (s.set asid core).timers = some due →
    let x := s.set asid core
    let mine := (itemsFor x entry grid).take 32
    (s.now < due → exec (.packingTimerExpiry asid core entry grid) s = .next s) ∧
    (due ≤ s.now → mine ≠ [] → ∃ t, exec (.packingTimerExpiry asid core entry grid) s = .next t ∧
      (t.set asid core).formed = x.formed ++ [⟨mine⟩] ∧
      itemsFor (t.set asid core) entry grid = (itemsFor x entry grid).drop 32 ∧
      (∀ e k, (e, k) ≠ (entry, grid) → itemsFor (t.set asid core) e k = itemsFor x e k) ∧
      { t with sets := s.sets } = s)) ∧
  ∀ (asid core : Nat) (s : State) (c : Context) (f : Formed) (rest : List Formed) (first : Item) (more : List Item)
    (row : EntryRow), s.ctx? asid = some c → c.preempt = .none ∨ c.preempt = .soft →
    (s.set asid core).formed = f :: rest → f.items = first :: more → more.length < 32 →
    readEntry s asid c first.entry = some row →
    (packedFits s asid core c row = false → exec (.packedGroupAdmit asid core) s = .next s) ∧
    (packedFits s asid core c row = true → ∃ t h, exec (.packedGroupAdmit asid core) s = .next t ∧
      (t.set asid core).formed = rest ∧
      t.block? s.fresh = some
        { asid := asid, grid := first.grid, index := first.bidx, gpb := 1, cores := [core], live := [s.fresh + 1],
          benchSize := row.bench, bench := [(core, [])], benchAt := [(core, takeUnits s core row.bench)], cbar := row.cbar,
          qbar := row.qbar, coreBars := [], quadBars := [], packed := true } ∧
      t.group? (s.fresh + 1) = some h ∧
      Spec.Fresh h asid core s.fresh first.grid row f.items.length first.args c.seed ∧
      h.packed = true ∧ h.cls = first.cls ∧ h.lidx = first.origin.lidx ∧ h.rank = 0 ∧ h.gcnt = 0 ∧ h.bidx = first.bidx ∧
      (∀ u i, f.items[u]? = some i → ∀ r, r < 48 → (h.thread u).reg r = (i.payload[r]?).getD 0#32) ∧
      (∀ u, u < 32 → f.items.length ≤ u → ∀ r, r < 48 → (h.thread u).reg r = 0#32) ∧
      (∀ y, s.grid? first.grid = some y → t.grid? first.grid = some { y with live := y.live + 1 }) ∧ t.mem = s.mem)

/-- R92, R93, R97, R100, R102: blocks and packed groups come to their cores. The zeros of a new group's predicates, an
entry record that cannot be read, the places counted, a partition without cores, the units of the bench, the oldest
formed group tried alone, how a group waits for a die in reset and the order of the events are the model's (log
entries 4, 8, 31, 44, 46, 47, 99 to 101, 120). -/
def Obligations.WorkIsPlaced : Prop := Spec.BlocksArePlaced ∧ Spec.PackedGroupsForm

namespace Sys2Proof.Spec

/-! ## The vocabulary of lanes -/

/-- A group of the machine on a core. -/
def On (s : State) (core gid : Nat) (g : Group) : Prop := (gid, g) ∈ s.groups ∧ g.core = core

/-- R85, R352: a group that a lane or the park engine may choose. -/
def Free (s : State) (g : Group) : Prop := g.wait = .none ∧ g.sched.moving = false ∧ ctxRuns s g.asid = true

/-- R89: a parked ready group. -/
def ParkedReady (s : State) (core gid : Nat) (g : Group) : Prop := On s core gid g ∧ g.sched.lane = none ∧ Free s g

/-- R89: the first of the parked ready groups: the highest class, then the longest ready. -/
def FirstParked (s : State) (core gid : Nat) (g : Group) (among : Group → Prop) : Prop :=
  ParkedReady s core gid g ∧ among g ∧
  ∀ j k, ParkedReady s core j k → among k → j ≠ gid →
    k.cls < g.cls ∨ k.cls = g.cls ∧ g.sched.readySince < k.sched.readySince

/-- A group after a change of where it stands with the arbiter alone. -/
def Rescheduled (t : State) (gid : Nat) (g : Group) (post : Group → Prop) : Prop :=
  ∃ h, t.group? gid = some h ∧ post h ∧ { h with sched := g.sched } = g

/-- A move of the park engine has begun: its groups are marked, every other group and everything else stands. -/
def MoveBegun (s t : State) (core : Nat) (m : ParkMove) : Prop :=
  (t.core core).move = some m ∧
  (∀ j k, s.group? j = some k → ∃ h, t.group? j = some h ∧
    { h with sched := { h.sched with moving := k.sched.moving } } = k ∧
    (h.sched.moving = true ↔ k.sched.moving = true ∨ m.out = some j ∨ m.into = some j)) ∧
  { t with groups := s.groups, cores := s.cores } = s

end Sys2Proof.Spec

/-- R80, R81, R86: a free lane chooses the ready resident group of highest class whose last stint ended earliest, at a cost of 2
lane cycles unless the lane ran it last: its stint resumes with its latches, or begins with none; a stint that has waited for 960 lane cycles is broken and keeps its
latches. -/
def Sys2Proof.Spec.LanesChoose : Prop :=
  (∀ (core lane gid : Nat) (s : State) (g : Group), rising (s.groups.map (·.1)) = true → Spec.On s core gid g →
    g.sched.lane = some lane → Spec.Free s g →
    (∀ j k, Spec.On s core j k → k.sched.lane = some lane → k.sched.inStint = false) →
    (∀ j k, Spec.On s core j k → k.sched.lane = some lane → Spec.Free s k → j ≠ gid →
      k.cls < g.cls ∨ k.cls = g.cls ∧ g.sched.lastEnd < k.sched.lastEnd) →
    ∃ t h, exec (.laneSelect core lane) s = .next t ∧ t.group? gid = some h ∧ h.sched.inStint = true ∧
      (g.sched.resumeStint = true → h.threads = g.threads ∧ h.sched.stintCount = g.sched.stintCount) ∧
      (g.sched.resumeStint = false → h.sched.stintCount = 0 ∧ ∀ u, u < 32 →
        (h.thread u).b0.valid = false ∧ (h.thread u).b1.valid = false ∧
        { h.thread u with b0 := (g.thread u).b0, b1 := (g.thread u).b1 } = g.thread u) ∧
      { h with threads := g.threads, sched := g.sched } = g ∧ (∀ j, j ≠ gid → t.group? j = s.group? j) ∧
      t.now = s.now + (if look lane (s.core core).last = some gid then 0 else 2) ∧
      look lane (t.core core).last = some gid ∧ { t.core core with last := (s.core core).last } = s.core core ∧
      (∀ j, j ≠ core → t.core j = s.core j) ∧ { t with now := s.now, groups := s.groups, cores := s.cores } = s) ∧
  (∀ (core lane : Nat) (s : State), (∃ j k, Spec.On s core j k ∧ k.sched.lane = some lane ∧ k.sched.inStint = true) →
    exec (.laneSelect core lane) s = .next s) ∧
  ∀ (core lane gid : Nat) (s : State) (g : Group), rising (s.groups.map (·.1)) = true → Spec.On s core gid g →
    g.sched.lane = some lane → g.sched.inStint = true → 960 ≤ g.sched.stintWait →
    (∀ j k, Spec.On s core j k → k.sched.lane = some lane → k.sched.inStint = true → j = gid) →
    ∃ t h, exec (.stintBreak core lane) s = .next t ∧ t.group? gid = some h ∧ h.sched.inStint = false ∧
      h.sched.resumeStint = true ∧ h.wait = .stintBreak ∧ { h with sched := g.sched, wait := g.wait } = g ∧
      (∀ j, j ≠ gid → t.group? j = s.group? j) ∧ t.mem = s.mem

/-- R88 to R90, R300: the park engine serves one move at a time: an empty slot takes the first parked ready group; a resident
not ready for 4,096 lane cycles, with no scribing and no deposit under way, is parked; a parked group ready for longer than its class limit displaces the lowest
resident of no higher class that has been resident for Q; a move's end, which waits for a park area on a die that is
down (R364), changes where groups stand and no other state. -/
def Sys2Proof.Spec.ParkEngineMoves : Prop :=
  (∀ (core gid lane : Nat) (s : State) (g : Group), rising (s.groups.map (·.1)) = true → (s.core core).move = none →
    Spec.FirstParked s core gid g (fun _ => True) →
    (∀ l, l ≤ lane → ((s.groups.filter fun e => e.2.core == core && e.2.sched.lane == some l).length < 4 ↔ l = lane)) →
    lane < 128 →
    ∃ t, exec (.parkFill core) s = .next t ∧ Spec.MoveBegun s t core ⟨lane, none, some gid⟩) ∧
  (∀ (core gid lane : Nat) (s : State) (g : Group), rising (s.groups.map (·.1)) = true → (s.core core).move = none →
    Spec.On s core gid g → g.sched.lane = some lane →
    (g.wait ≠ .none → g.sched.inStint = false → g.scribe = false → g.deposit = false → g.sched.idleSince + 4096 ≤ s.now →
      ∃ t, exec (.idlePark core gid) s = .next t ∧ Spec.MoveBegun s t core ⟨lane, some gid, none⟩) ∧
    (g.wait = .none ∨ g.sched.inStint = true ∨ g.scribe = true ∨ g.deposit = true ∨ s.now < g.sched.idleSince + 4096 →
      exec (.idlePark core gid) s = .next s)) ∧
  (∀ (core gid out lane : Nat) (s : State) (g k : Group), rising (s.groups.map (·.1)) = true → (s.core core).move = none →
    Spec.FirstParked s core gid g (fun h => h.sched.readySince + 2 ^ (s.part (groupPart s h)).lclog h.cls < s.now) →
    let may (h : Group) : Prop := h.sched.lane ≠ none ∧ h.sched.moving = false ∧ h.sched.inStint = false ∧
      h.scribe = false ∧ h.deposit = false ∧ h.cls ≤ g.cls ∧
      h.sched.residentSince + 2 ^ (s.part (groupPart s g)).qlog ≤ s.now
    Spec.On s core out k → k.sched.lane = some lane → may k →
    (∀ j h, Spec.On s core j h → may h → j ≠ out →
      k.cls < h.cls ∨ h.cls = k.cls ∧ k.sched.residentSince < h.sched.residentSince) →
    ∃ t, exec (.rotation core) s = .next t ∧ Spec.MoveBegun s t core ⟨lane, some out, some gid⟩) ∧
  ∀ (core : Nat) (s : State) (m : ParkMove), (s.core core).move = some m → m.out ≠ m.into →
    (moveDown s m = true → exec (.parkMoveComplete core) s = .next s) ∧
    (moveDown s m = false →
    ∃ t, exec (.parkMoveComplete core) s = .next t ∧ (t.core core).move = none ∧ t.mem = s.mem ∧
      (∀ gid g, m.out = some gid → s.group? gid = some g →
        ∃ h, t.group? gid = some h ∧ h.sched.lane = none ∧ h.sched.moving = false ∧ h.threads = g.threads ∧ h.s = g.s ∧
          h.w = g.w ∧ h.pc = g.pc ∧ h.stack = g.stack) ∧
      ∀ gid g, m.into = some gid → s.group? gid = some g → g.wait = .none →
        Spec.Rescheduled t gid g (fun h => h.sched.lane = some m.lane ∧ h.sched.moving = false ∧
          h.sched.residentSince = s.now ∧ h.sched.held = []))

/-- R80, R81, R86 to R90: the lane arbiter and the park engine. The cost of a choice, ties between groups, the lane with
an empty slot, when a parked group's count begins and a move that waits for a die in reset are the model's (log
entries 8, 65, 83, 103, 118, 120). -/
def Obligations.LanesAndParking : Prop := Spec.LanesChoose ∧ Spec.ParkEngineMoves

/-! ## Waits, quanta, and the time limits of the caches -/

/-- A group no longer waits on a sector, and is ready; nothing else changes, but that a sector no group watches any more is not
counted any more. -/
def Sys2Proof.Spec.Woken (s t : State) (gid sector : Nat) (g : Group) : Prop :=
  ∃ h, t.group? gid = some h ∧ h.wait = .none ∧ { h with wait := g.wait, sched := g.sched } = g ∧
    (∀ j, j ≠ gid → t.group? j = s.group? j) ∧ { t with groups := s.groups, watch := s.watch } = s ∧
    (∀ k, k ≠ sector → look k t.watch = look k s.watch) ∧
    ((∃ e ∈ t.groups, ∃ n u, e.2.wait = .word sector n u) → t.watch = s.watch)

/-- R72, R110, R209, R210, R145, R148: a wait ends when a write has reached its sector, and after its 4,096 lane cycles; a
group's data arrives; a quantum's end gives the buffered contributions to the pool in issue order; the least of a
grid's contributions is applied at its location once no smaller one can come; an L1 that writes back or drops a
sector, and an RDC that drops a line, change no byte that memory's homes and the core hold; and no copy outlives the
32,768 lane cycles of R148, but dirty bytes whose home is down (R364). That a wait counts every write from its start,
that drops may come at any time before their limit, and how deterministic contributions wait are the model's (log
entries 8, 16, 18, 111, 112, 120). -/
def Obligations.WaitsAndLimitsEnd : Prop :=
  (∀ (gid sector writes until_ : Nat) (s : State) (g : Group), s.group? gid = some g →
    g.wait = .word sector writes until_ →
    (look sector s.watch ≠ some writes → ∃ t, exec (.waitWake gid) s = .next t ∧ Spec.Woken s t gid sector g) ∧
    (look sector s.watch = some writes → exec (.waitWake gid) s = .next s) ∧
    (until_ ≤ s.now → ∃ t, exec (.waitTimeout gid) s = .next t ∧ Spec.Woken s t gid sector g) ∧
    (s.now < until_ → exec (.waitTimeout gid) s = .next s)) ∧
  -- a write that reaches a watched sector is one more, whatever it writes
  (∀ (s : State) (o : Owner) (pa n : Nat) (b : Byte), look (pa / 64) s.watch = some n →
    look (pa / 64) (s.homeWrite o pa b).watch = some (n + 1)) ∧
  (∀ (gid : Nat) (s : State) (g : Group), s.group? gid = some g → (∀ m ∈ (setAt s g.asid g.core).mq, m.gid ≠ gid) →
    exec (.loadDataArrival gid) s = .next (Spec.resultHere s (s.setGroup gid { g with loads := [] }))) ∧
  (∀ (gid : Nat) (s : State) (g : Group), s.group? gid = some g → g.det.en = true →
    (2 ^ g.det.qlog ≤ g.det.run → s.tablesOk → ∃ t, exec (.quantumEnd gid) s = .next t ∧ t.pool = s.pool ++ g.det.buffer ∧
      t.group? gid = some { g with det := { g.det with buffer := [], run := 0 } } ∧ Spec.SameMemory s t g.core) ∧
    (g.det.run < 2 ^ g.det.qlog → exec (.quantumEnd gid) s = .next s)) ∧
  (∀ (asid n pa : Nat) (s : State) (x : Grid) (c : Contribution), s.grids = [(n, x)] → x.asid = asid → s.tablesOk →
    c ∈ s.pool → c.grid = n → c.loc = .home pa → pa % 4 = 0 → Spec.KeyedFor s c.core c.own pa → 11 ≤ c.op → c.op ≤ 14 →
    (∀ d ∈ s.pool, d.grid = n → d ≠ c → lexLt c.key.fields d.key.fields = true ∧ lexLt d.key.fields c.key.fields = false) →
    (∀ e ∈ s.groups, e.2.det.atom = []) → (∀ i, i < 4 → (pa + i) % 64 ∉ (look ((pa + i) / 64) s.bad).getD []) →
    (smallerMayCome s c = true ∨ isDown s pa = true → exec (.commitApply asid) s = .next s) ∧
    (smallerMayCome s c = false → isDown s pa = false → ∃ t, exec (.commitApply asid) s = .next t ∧ t.pool = s.pool.erase c ∧
      Spec.numberAt t.mem.get pa 4 = Spec.atomicValue c.op c.rnd (Spec.numberAt (Spec.latest s c.core) pa 4)
        (fun _ => c.x) ∧
      (∀ a, a < pa ∨ pa + 4 ≤ a → Spec.latest t c.core a = Spec.latest s c.core a) ∧ t.groups = s.groups)) ∧
  (∀ (core sector : Nat) (s : State) (x : L1Sector), s.tablesOk → look sector (s.core core).l1 = some x →
    s.foreign x.own sector = false →
    (isDown s (sector * 64) = false → ∃ t, exec (.l1WritebackTimeout core sector) s = .next t ∧ (∀ a, Spec.latest t core a = Spec.latest s core a) ∧
      (∀ i, i < 64 → t.mem.get (sector * 64 + i) = Spec.latest s core (sector * 64 + i)) ∧
      look sector (t.core core).l1 = some { x with dirty := Vector.replicate 64 false } ∧ t.groups = s.groups) ∧
    ((∀ i, i < 64 → x.dirty[i]? = some false) → ∃ t, exec (.l1CleanDropTimeout core sector) s = .next t ∧
      look sector (t.core core).l1 = none ∧ (∀ a, Spec.latest t core a = Spec.latest s core a) ∧ t.mem = s.mem) ∧
    ((∃ i, i < 64 ∧ x.dirty[i]? = some true) → exec (.l1CleanDropTimeout core sector) s = .next s)) ∧
  (∀ (die line : Nat) (s : State), rising ((s.die die).rdc.map (·.1)) = true →
    ∃ t, exec (.rdcDropTimeout die line) s = .next t ∧ look line (t.die die).rdc = none ∧
      (∀ k, k ≠ line → look k (t.die die).rdc = look k (s.die die).rdc) ∧ { t with dies := s.dies } = s) ∧
  ∀ (s : State), s.tablesOk →
    (∀ core sector x, look sector ((s.expire).core core).l1 = some x →
      isDown s (sector * 64) = false ∨ (∀ i, i < 64 → x.dirty[i]? = some false) →
      s.now < x.since + 32768 ∧ ((∃ i, i < 64 ∧ x.dirty[i]? = some true) → s.now < x.wrote + 32768)) ∧
    ∀ die line x, look line ((s.expire).die die).rdc = some x → s.now < x.since + 32768

/-! ## Registers written from outside, and reset -/

/-- Some allocation on a core reaches past `n` steps of 128 KiB of its bench (R144, R161). -/
def Sys2Proof.Spec.PastBench (s : State) (core n : Nat) : Prop :=
  ∃ e ∈ s.blocks, ∃ m, look core e.2.benchAt = some m ∧ ∃ i, 512 * n ≤ i ∧ m.testBit i = true

/-- A die back in its boot ROM: die 0 waits for an image, another takes that of die 0 where it accepts it (R378). -/
def Sys2Proof.Spec.Rebooted (s t : State) (d : Nat) : Prop :=
  (d = 0 → (t.die d).boot = .rom) ∧ (d ≠ 0 → (s.die 0).image = none → (t.die d).boot = .rom) ∧
  ∀ x, d ≠ 0 → (s.die 0).image = some x → (t.die d).boot = if imageAccepted d x then .loaded else .rom

/-- R337, R338, R160, R161, R307, R310, R371, R372, R382: FBTAIL takes a value up to HEAD; SIZE of a bench takes effect when
no allocation reaches past it, the L1 then empty but for dirty sectors whose die is in reset, and pends until then; the unprivileged view writes TAIL alone, once the module is up, and the
privileged view a queue's registers and the fields of a context's and a die's registers that H mode may write, and the firmware reports a write it refuses (R311). An
interface in error takes no write of a context's registers, its queues' or its fault buffers' (R333). -/
def Sys2Proof.Spec.RegisterWrites : Prop :=
  (∀ (asid v : Nat) (s : State) (c : Context), s.ctx? asid = some c → v < 2 ^ 64 →
    ((s.part c.part).tdis = 3 → exec (.fbtailWrite asid v) s = .next s) ∧
    ((s.part c.part).tdis ≠ 3 → v ≤ c.fbhead → c.waiting = [] → ∃ t, exec (.fbtailWrite asid v) s = .next t ∧
      t.ctx? asid = some { c with fbtail := v } ∧ (∀ a, a ≠ asid → t.ctx? a = s.ctx? a) ∧
      { t with contexts := s.contexts } = s) ∧
    (c.fbhead < v → exec (.fbtailWrite asid v) s = .next s)) ∧
  (∀ (core v : Nat) (s : State), core < 256 →
    let x := s.core core
    (x.pend ≠ none ∨ v % 8 = x.bench → exec (.benchszWrite core v) s = .next s) ∧
    (x.pend = none → v % 8 ≠ x.bench → ¬Spec.PastBench s core (v % 8) → s.tablesOk →
      ∃ t, exec (.benchszWrite core v) s = .next t ∧ (t.core core).bench = v % 8 ∧ (t.core core).pend = none ∧
        (∀ k x, look k (t.core core).l1 = some x → x.isDirty = true ∧ isDown s (k * 64) = true) ∧
        (∀ a, Spec.Keyed s core a → isDown s a = false → t.mem.get a = Spec.latest s core a) ∧ t.groups = s.groups) ∧
    (x.pend = none → v % 8 ≠ x.bench → Spec.PastBench s core (v % 8) →
      ∃ t, exec (.benchszWrite core v) s = .next t ∧ t.core core = { x with pend := some (v % 8) } ∧
        { t with cores := s.cores } = s)) ∧
  (∀ (fe q v : Nat) (s : State), fe < 64 → (s.part fe).tdis = 3 → ∀ view off,
    exec (.registerWrite view (.queue fe q off) v) s = .next s) ∧
  (∀ (fe q v : Nat) (s : State), v < 2 ^ 64 → frontInError s fe = false →
    let x := s.queue fe q
    (moduleUp s = true → fe < 64 → x.tail ≤ v → v ≤ x.prog + 2 ^ (x.ctl.toNat % 32) →
      ∃ t, exec (.registerWrite .unprivileged (.queue fe q 16) v) s = .next t ∧ t.queue fe q = { x with tail := v } ∧
        { t with queues := s.queues } = s) ∧
    (∀ off, off ≠ 16 ∨ moduleUp s = false → exec (.registerWrite .unprivileged (.queue fe q off) v) s = .next s) ∧
    (x.en = false → ∃ t, exec (.registerWrite .privileged (.queue fe q 0) v) s = .next t ∧
      t.queue fe q = { x with base := BitVec.ofNat 64 (v / 4096 % 2 ^ 45 * 4096) } ∧ { t with queues := s.queues } = s)) ∧
  (∀ (asid v : Nat) (s : State) (c : Context), s.ctx? asid = some c →
    (∀ n, exec (.registerWrite .unprivileged (.contextReg asid n) v) s = .next s) ∧
    ((s.part c.part).tdis = 3 → ∀ n, exec (.registerWrite .privileged (.contextReg asid n) v) s = .next s ∧
      exec (.registerWrite .firmware (.contextReg asid n) v) s = .next (s.send (.refusal n))) ∧
    ((s.part c.part).tdis ≠ 3 → ∃ t, exec (.registerWrite .privileged (.contextReg asid 0x817) v) s = .next t ∧
      t.ctx? asid = some { c with cfg := c.cfg.set 7 (BitVec.ofNat 64 v) } ∧ ∀ a, a ≠ asid → t.ctx? a = s.ctx? a) ∧
    (∃ t, exec (.registerWrite .privileged (.contextReg asid 0x811) v) s = .next t ∧ t.ctx? asid = some c) ∧
    (∃ t, exec (.registerWrite .privileged (.contextReg asid 0x880) v) s = .next t ∧ t.ctx? asid = some c) ∧
    (ctxIdle s asid = false → v / 4096 % 2 ^ 40 ≠ c.cfg[1].toNat / 4096 % 2 ^ 40 →
      exec (.registerWrite .firmware (.contextReg asid 0x811) v) s = .next (s.send (.refusal 0x811))) ∧
    ((s.part c.part).tdis ≠ 3 → ∃ t, exec (.registerWrite .firmware (.contextReg asid 0x880) v) s = .next t ∧
      t.ctx? asid = some { c with hvec := BitVec.ofNat 64 (v / 128 % 2 ^ 50 * 128) })) ∧
  ∀ (d v : Nat) (s : State), d < 4 →
    (600 ≤ v % 2 ^ 12 → v % 2 ^ 12 ≤ 2400 → ∃ t, exec (.registerWrite .privileged (.management d 0x902) v) s = .next t ∧
      (∀ e, e < 4 → (t.mgmt e 2).toNat % 2 ^ 12 = v % 2 ^ 12) ∧ { t with dies := s.dies } = s) ∧
    ((s.die d).boot = .ready ∨ (s.die d).boot = .held → exec (.registerWrite .privileged (.management d 0x90B) v) s = .next s) ∧
    (v % 2 = 1 → exec (.registerWrite .privileged (.management d 0x901) v) s = exec (.warmReset d) s)

/-- R324, R325, R329, R146, R326: the firmware loads a key slot once nothing cached is of it, but an interface locked or running whose range holds it goes
to error, and one in error refuses it (R333); a line's slice is the set bit of its partition's COLOUR that its hash picks, and a write makes its sector dirty
there; an eviction puts a sector in DRAM under its owner's key, unless its line is pinned, and notes one that is found
uncorrectable then (R363); a write of COLOUR empties the slices and
the RDC parts that the partition does not keep, and its pins go with a colour. -/
def Sys2Proof.Spec.PartitionsAndKeys : Prop :=
  (∀ (k v : Nat) (s : State), 2048 ≤ k → takeTurn (.keyLoad k v) s = .next s) ∧
  (∀ (k v : Nat) (s : State), k < 2048 →
    ((∀ e ∈ s.parts, e.2.kbase ≤ k → k ≤ e.2.klimit → e.2.tdis = 0) → s.tablesOk →
      ∃ t, takeTurn (.keyLoad k v) s = .next t ∧ t.keyValue k = v ∧ (∀ j, j ≠ k → t.keyValue j = s.keyValue j) ∧
        (∀ c x, x ∈ (t.core c).l1 → x.2.own.key = k → x.2.isDirty = true ∧ isDown s (x.1 * 64) = true) ∧
        (∀ e ∈ t.l2, e.2.own.key ≠ k) ∧
        (∀ d x, x ∈ (t.die d).rdc → x.2.own.key ≠ k) ∧ (∀ r ∈ t.replicas, r.own.key ≠ k) ∧ t.groups = s.groups) ∧
    ∀ p x, x.kbase ≤ k → k ≤ x.klimit →
      (s.parts = [(p, x)] ∨ ∃ o y, s.parts = [(o, y), (p, x)] ∧ o ≠ p ∧ y.tdis = 0) →
      (x.tdis = 1 ∨ x.tdis = 2 →
        ∃ t, takeTurn (.keyLoad k v) s = .next t ∧ (t.part p).tdis = 3 ∧ t.keyValue k = 0) ∧
      (x.tdis = 3 → takeTurn (.keyLoad k v) s = .next (s.send (.refusal 329)))) ∧
  (∀ (s : State) (o : Owner) (pa : Nat),
    let c := (s.part o.part).colour
    let set (n : Nat) : List Nat := (List.range n).filter fun i => c.testBit i
    set 64 ≠ [] → s.slotOf o pa < 64 ∧ c.testBit (s.slotOf o pa) = true ∧
      (set (s.slotOf o pa)).length = lineHash (pa / 256) % (set 64).length) ∧
  (∀ (s : State) (o : Owner) (pa : Nat) (b : Byte), pa < hostBase → look (pa / 64) s.l2 = none →
    s.sliceShort (homeDie pa) (s.slotOf o pa) 1 = false → s.foreign o (pa / 64) = false →
    ∃ x, look (pa / 64) (s.homeWrite o pa b).l2 = some x ∧ x.slice = s.slotOf o pa ∧ x.own = o ∧
      x.old = s.mem.bytes (pa / 64 * 64) 64) ∧
  (∀ (k : Nat) (s : State) (x : L2Sector), s.tablesOk → look k s.l2 = some x →
    (s.isPinned (k * 64) = true → takeTurn (.l2Evict k) s = .next s) ∧
    (s.isPinned (k * 64) = false → ∃ t, takeTurn (.l2Evict k) s = .next t ∧ look k t.l2 = none ∧
      look k t.seals = some (s.keyValue x.own.key) ∧ { t with l2 := s.l2, seals := s.seals, dead := s.dead } = s ∧
      (look k s.bad = none → t.dead = s.dead) ∧ (look k s.bad ≠ none → t.dead = s.dead ++ [k]))) ∧
  ∀ (s : State) (ws : List DWord) (p : Nat) (x : DWord), Spec.AdminOffers s 20 ws → Spec.word ws 1 % 64 = p →
    Spec.regOf ws = 0x822 → ws.getD 2 0#64 = x → (s.part p).tdis = 0 → (∀ e ∈ s.contexts, e.2.part ≠ p) → x ≠ 0#64 →
    (s.part p).cfg[2] ≠ x → (∀ e ∈ s.parts, e.1 ≠ p → e.2.tdis = 0 ∨ e.2.tdis = 3) → s.tablesOk →
    ∃ t, exec .partset s = .next t ∧ Spec.Completed s t 64 0 ws ∧ (t.part p).cfg[2] = x ∧ t.mem = s.mem ∧
      (∀ e ∈ t.l2, e.2.own.part = p → e.2.slice < 64 → x.getLsbD e.2.slice = true) ∧
      (∀ d e, e ∈ (t.die d).rdc → e.2.own.part = p → e.2.slot < 64 → x.getLsbD e.2.slot = true) ∧
      (((s.part p).cfg[2] &&& ~~~x ≠ 0#64) → (t.part p).pins = []) ∧
      ((s.part p).cfg[2] &&& ~~~x = 0#64 → (t.part p).pins = (s.part p).pins)

/-- R307, R371: registers written from outside the program, colours and keys. A write asked of a locked interface, a slice
without room, the layout of a bench, BENCHSZ on bench units, EN = 0 with commands begun, the turn `keyLoad` and its
errors, the ranges that hold keys, the place of a line by COLOUR, the errors that put an interface in error, what it
then ignores, a held die ignoring POD and what a die in reset keeps dirty are the model's (log entries 31, 48, 64, 69,
72, 85, 91, 99, 106, 117, 120). -/
def Obligations.RegistersFromOutside : Prop := Spec.QueueRegisters ∧ Spec.RegisterWrites ∧ Spec.PartitionsAndKeys

/-- R7, R378, R382, R381: a warm reset of a die stops every context with work on it, queued matrix instructions, items and
bound tile slots among it, with reason 14, puts its registers, its front ends' queues and its SRAM at their reset
values and keeps the DRAM (LIMIT being one value for all dies), and accesses to what it homes wait until it is ready
again; a context that a hard pre-emption has saved survives; the die takes the image of die 0 again, die 0 waits in
the boot ROM, and a die that a thermal trip holds stays held. A cold reset leaves the machine as it comes up, host
memory as it was. Where a reset leaves a held die, what a reset does to dirty L2 data, to the queues, to LIMIT and to
CABS, that it keeps the registers of contexts and partitions, and a die answering again at DIE_READY, are the model's
(log entries 33, 120, 128). -/
def Obligations.DiesReset : Prop :=
  (∀ (d : Nat) (s : State), d < 4 → ∃ t, exec (.warmReset d) s = .next t ∧
    ((s.die d).boot ≠ .held → Spec.Rebooted s t d) ∧ ((s.die d).boot = .held → (t.die d).boot = .held) ∧
    (t.die d).down = true ∧ (∀ n, n ≠ 0 → t.mgmt d n = mgmtReset d n) ∧
    ((t.die d).boot ≠ .loaded → t.mgmt d 0 = mgmtReset d 0) ∧ (∀ e, e < 4 → (t.mgmt e 2).toNat % 2 ^ 12 = 2400) ∧
    (∀ fe q, fe / 16 = d → q < 8 → t.queue fe q = {}) ∧ (d = 0 → ∀ q, t.queue 64 q = {}) ∧ (t.die d).rdc = [] ∧ (∀ k, dieOf k = d → t.core k = {}) ∧
    (∀ k asid, dieOf k = d → k < 256 → ∀ e ∈ t.sets, e.1 ≠ State.setKey asid k) ∧ (∀ e ∈ t.tlb, dieOf e.core ≠ d) ∧
    (∀ asid c, s.ctx? asid = some c → c.stopped = none →
      ((∃ e ∈ s.groups, e.2.asid = asid ∧ dieOf e.2.core = d) ∨ ∃ e ∈ s.sets, e.1 / 256 = asid ∧ dieOf (e.1 % 256) = d ∧
        (e.2.mq ≠ [] ∨ e.2.items ≠ [] ∨ ∃ x ∈ e.2.slots, x.2.state ≠ .unbound)) →
      ∃ c', t.ctx? asid = some c' ∧ c'.stopped = some 14) ∧
    (∀ asid c, s.contexts = [(asid, c)] → c.preempt = .saved → (∀ e ∈ s.groups, 256 ≤ e.2.core) →
      (∀ e ∈ s.blocks, ∀ k ∈ e.2.cores, 256 ≤ k) → s.ops = [] → s.sets = [] →
      t.contexts = s.contexts ∧ t.groups = s.groups ∧ t.blocks = s.blocks) ∧
    ((∀ e ∈ s.contexts, hasWork s e.1 d = false) → (s.mgmt d 10).toNat % 2 = 0 →
      t.mem = s.mem ∧ t.contexts = s.contexts ∧ t.groups = s.groups)) ∧
  (∀ (d : Nat) (s : State), 4 ≤ d → exec (.warmReset d) s = .next s) ∧
  ∀ s : State, ∃ t, exec .coldReset s = .next t ∧ (∀ a, t.mem.get a = if hostBase ≤ a then s.mem.get a else 0#8) ∧
    { t with mem := [], agenda := [], free := 0, sent := [] } = State.reset

/-! ## Power, errors and repairs -/

/-- A record has entered a die's black box, and nothing else of the machine has changed (R368). -/
def Sys2Proof.Spec.Logged (s t : State) (d cls unit : Nat) : Prop :=
  (t.die d).logged = (s.die d).logged + 1 ∧
  (∃ r, (t.die d).ring.getLast? = some r ∧ (r.cls, r.die, r.unit) = (cls, d, unit)) ∧ { t with dies := s.dies } = s

/-- A fenced core's number has gone to a spare, or the core is absent (R16, R365, R382). -/
def Sys2Proof.Spec.Replaced (s t : State) (core : Nat) : Prop :=
  let d := dieOf core
  let left := (s.mgmt d 9).toNat % 8
  (0 < left → (t.core core).absent = (s.core core).absent ∧ (t.mgmt d 9).toNat = left - 1) ∧
  (left = 0 → (t.core core).absent = true ∧ (t.mgmt d 8).getLsbD (core % 64) = true) ∧ (t.core core).fenced = false

/-- R365, R352: whether a context that is taken off a core comes back by itself: not one that the host has asked to take off the module. -/
def Sys2Proof.Spec.comesBack (s : State) (c : Context) : Bool := c.autoResume || (c.preempt == .none && !tripped s)

/-- R380: the power of the module averaged over a number of samples: the sum of its dies' averages. -/
def Sys2Proof.Spec.power (s : State) (win : Nat) : Rat :=
  ([0, 1, 2, 3].map fun d =>
    (((s.die d).samples.take win).sum : Rat) / (max ((s.die d).samples.take win).length 1 : Nat)).sum

/-- R380 to R382, R378, R367: a power sample enters its die's average, and the gate rises by a sixteenth, at most to
fifteen, while the module's power averaged over the die's WIN exceeds the limit or the die is above 100 °C, and else
is open; above 100 °C the gate rises; at 110 °C every context is pre-empted hard with D = 65,536, one that a soft
pre-emption has left on its cores too, one whose hard pre-emption would end later by then, and then every die held in
warm reset, until the junction is below 90 °C; a die whose image is accepted becomes ready, and what waited for it
goes on, unless another has rejected the image; and a staged image that it accepts runs once no firmware command is in
progress. That the gate falls to 0 at once, that no die is ready while another has rejected the image, and what a trip
does to contexts already pre-empted, are the model's (log entries 8, 17, 117, 128). -/
def Obligations.PowerAndFirmware : Prop :=
  (∀ (d w : Nat) (s : State), d < 4 → ∃ t, exec (.powerSample d w) s = .next t ∧
    let win := max ((s.mgmt d 2).toNat / 2 ^ 16 % 2 ^ 12) 1
    let kept := (w :: (s.die d).samples).take 1000
    let own := kept.take win
    (t.die d).samples = kept ∧ (t.mgmt d 3).toNat % 2 ^ 12 = own.sum / own.length % 2 ^ 12 ∧
    (t.die d).gate = (if (((s.mgmt d 2).toNat % 2 ^ 12 : Nat) : Rat) < Spec.power t win ∨ 100 < (s.mgmt d 4).toNat % 256 then
      min 15 ((s.die d).gate + 1) else 0) ∧
    (∀ e, e ≠ d → t.die e = s.die e) ∧ { t with dies := s.dies } = s) ∧
  (∀ (d tj : Nat) (s : State), d < 4 →
    (100 < tj → ∃ t, exec (.thermalGate d tj) s = .next t ∧ (t.die d).gate = min 15 ((s.die d).gate + 1) ∧
      (t.mgmt d 4).toNat % 256 = tj % 256 ∧ { t with dies := s.dies } = s) ∧
    (tj ≤ 100 → exec (.thermalGate d tj) s = .next s) ∧
    (tj < 110 → exec (.thermalTrip d tj) s = .next s) ∧
    (110 ≤ tj → (∀ e ∈ s.contexts, e.2.stopped = none → e.2.preempt = .saved ∧ ctxCores s e.1 = []) → ∃ t, exec (.thermalTrip d tj) s = .next t ∧
      ∀ e, e < 4 → (t.die e).boot = .held ∧ (t.die e).trip = false ∧ (t.die e).down = true) ∧
    (∀ asid c since limit, 110 ≤ tj → s.contexts = [(asid, c)] → c.stopped = none → c.preempt = .hard since limit →
      ∃ t, exec (.thermalTrip d tj) s = .next t ∧ t.ctx? asid = some { c with
          autoResume := false
          preempt := .hard since (min limit (s.now + 65536 - since)) } ∧
        (t.die d).trip = true ∧ (t.die d).boot = (s.die d).boot ∧ t.groups = s.groups) ∧
    (∀ asid c, 110 ≤ tj → s.contexts = [(asid, c)] → c.stopped = none →
      c.preempt = .none ∨ c.preempt = .soft ∨ (c.preempt = .saved ∧ ctxCores s asid ≠ []) → saveReady s asid = false →
      ∃ t, exec (.thermalTrip d tj) s = .next t ∧ t.ctx? asid = some { c with autoResume := false, preempt := .hard s.now 65536 } ∧
        (t.die d).trip = true ∧ (t.die d).boot = (s.die d).boot ∧ t.groups = s.groups) ∧
    (tj < 90 → (s.die d).boot = .held → ∃ t, exec (.thermalRecover d tj) s = .next t ∧
      Spec.Rebooted s t d ∧ (∀ e, e ≠ d → t.die e = s.die e) ∧ { t with dies := s.dies } = s) ∧
    (90 ≤ tj ∨ (s.die d).boot ≠ .held → exec (.thermalRecover d tj) s = .next s)) ∧
  (∀ (d : Nat) (s : State) (x : Image), d < 4 →
    let rejected : Prop := ∃ e < 4, (s.die e).boot = .rom ∧ ∃ y, (s.die 0).image = some y ∧ imageAccepted e y = false
    ((s.die d).image = some x → (s.die d).boot = .loaded → imageAccepted d x = true → ¬rejected →
      ∃ t, exec (.dieReady d) s = .next t ∧ (t.die d).boot = .ready ∧ (t.die d).down = false ∧
        (t.mgmt d 0).toNat = x.svn % 2 ^ 32 * 2 ^ 32 + d * 16 + 3 ∧
        ((s.die d).down = false → { t with dies := s.dies } = s)) ∧
    (rejected → exec (.dieReady d) s = .next s) ∧
    ((s.die d).image = some x → imageAccepted d x = false → exec (.dieReady d) s = .next s) ∧
    ((s.die d).staged = some x → (s.queue 64 0).begun = [] →
      (imageAccepted d x = false ∨ ∃ y, (s.die d).image = some y ∧ x.svn < y.svn) → ∃ t, exec (.firmwareSwitch d) s = .next t ∧
      t.die d = { s.die d with staged := none } ∧ { t with dies := s.dies } = s) ∧
    ((s.die d).staged = some x → (s.queue 64 0).begun = [] → imageAccepted d x = true →
      (∀ y, (s.die d).image = some y → y.svn ≤ x.svn) → ∃ t, exec (.firmwareSwitch d) s = .next t ∧
      (t.die d).image = some x ∧ (t.die d).staged = none ∧ (t.die d).boot = (s.die d).boot ∧
      (t.mgmt d 0).toNat / 2 ^ 32 = x.svn % 2 ^ 32 ∧ { t with dies := s.dies } = s) ∧
    ((s.die d).staged = none ∨ (s.queue 64 0).begun ≠ [] → exec (.firmwareSwitch d) s = .next s))

/-- R363 to R366, R368, R369, R333, R265, R362: a machine check in a core stops the contexts on it with reason 9, puts the
interface of a partition that holds the core in error, and the core is replaced; one in a die stops the contexts on it
and warm-resets the die; what other contexts hold there is taken off it; a planned fencing pre-empts the contexts that
hold anything on the core first, and they resume by themselves, but those that the host has pre-empted; a dirty line
that is lost stops the contexts that map it with reason 8, its page is retired and DRAM's bytes, uncorrectable ones as
such, are served again, and one found uncorrectable as it was written back does the same once every die answers; a
sparing changes nothing, a lane drop, a recalibration and the fencing of cells a record of the black box, which is
mirrored to host memory. What a fenced core keeps, who resumes its contexts, when a sector lost at its write-back
stops contexts and what a repair shows are the model's (log entries 8, 33, 73, 74, 77, 106, 120, 121, 123, 127, 128). -/
def Obligations.ErrorsAndRepairs : Prop :=
  (∀ (core syn : Nat) (s : State), core < 256 → (∀ e ∈ s.cores, e.2.fenced = false) →
    (s.contexts = [] → ∃ t, exec (.machineCheck (.core core) syn) s = .next t ∧ Spec.Replaced s t core ∧
      ∀ p, look p s.parts ≠ none → core ∈ partCores (s.part p) →
        (t.part p).tdis = 3) ∧
    (∀ asid c, s.contexts = [(asid, c)] → c.stopped = none → onCore s asid core = false → look c.part s.parts ≠ none →
      core ∈ partCores (s.part c.part) → (s.part c.part).tdis ≠ 3 →
      ∃ t c', exec (.machineCheck (.core core) syn) s = .next t ∧ t.ctx? asid = some c' ∧ c'.stopped ≠ none ∧
        (t.part c.part).tdis = 3 ∧ Spec.Replaced s t core) ∧
    (∀ asid c, s.contexts = [(asid, c)] → c.stopped = none → c.autoResume = false → onCore s asid core = true →
      ∃ t c', exec (.machineCheck (.core core) syn) s = .next t ∧ t.ctx? asid = some c' ∧ c'.stopped = some 9 ∧
        (∀ e ∈ t.groups, e.2.asid ≠ asid) ∧ Spec.Replaced s t core) ∧
    ∀ asid c, s.contexts = [(asid, c)] → c.stopped = none → c.preempt = .none ∨ c.preempt = .soft → onCore s asid core = false →
      holdsCore s asid core = true → saveReady s asid = false → (∀ e ∈ s.parts, core ∈ partCores e.2 → e.2.tdis = 3) →
      ∃ t, exec (.machineCheck (.core core) syn) s = .next t ∧ (t.core core).fenced = true ∧
        t.ctx? asid = some { c with autoResume := Spec.comesBack s c, preempt := .hard s.now 65536 } ∧ t.groups = s.groups) ∧
  (∀ (d syn asid : Nat) (s : State) (c : Context), d < 4 → s.contexts = [(asid, c)] → c.stopped = none →
    hasWork s asid d = true →
    ∃ t c', exec (.machineCheck (.die d) syn) s = .next t ∧ t.ctx? asid = some c' ∧ c'.stopped = some 9 ∧
      ((s.die d).boot ≠ .held → Spec.Rebooted s t d) ∧ ((s.die d).boot = .held → (t.die d).boot = .held) ∧
      (t.die d).down = true ∧ ∀ k, dieOf k = d → t.core k = {}) ∧
  (∀ (core : Nat) (s : State), core < 256 → (∀ e ∈ s.cores, e.2.fenced = false) → (s.core core).absent = false →
    (s.contexts = [] → ∃ t, exec (.coreFence core) s = .next t ∧ Spec.Replaced s t core) ∧
    ∀ asid c, s.contexts = [(asid, c)] → c.stopped = none → c.preempt = .none ∨ c.preempt = .soft → holdsCore s asid core = true →
      saveReady s asid = false → ∃ t, exec (.coreFence core) s = .next t ∧ (t.core core).fenced = true ∧
        t.ctx? asid = some { c with autoResume := Spec.comesBack s c, preempt := .hard s.now 65536 } ∧ t.groups = s.groups) ∧
  (∀ (core : Nat) (s : State), (s.core core).fenced = true ∨ (s.core core).absent = true ∨ 256 ≤ core →
    exec (.coreFence core) s = .next s) ∧
  (∀ (line : Nat) (s : State), ((∀ e ∈ s.l2, e.1 / 4 ≠ line) → exec (.dirtyLineError line) s = .next s) ∧
    (s.tablesOk → (∃ e ∈ s.l2, e.1 / 4 = line) → (s.mgmt (homeDie (line * 256)) 10).toNat % 2 = 0 → s.contexts = [] →
      ∃ t, exec (.dirtyLineError line) s = .next t ∧ (∀ k, k / 4 = line → look k t.l2 = none) ∧
        (∀ k, k / 4 ≠ line → look k t.l2 = look k s.l2) ∧
        (∀ k x, look k s.l2 = some x → k / 4 = line → t.mem.bytes (k * 64) 64 = x.old ∧
          (look k t.bad).getD [] = x.hurt) ∧
        Sent.retired (line * 256 / 65536) ∈ t.sent ∧ t.groups = s.groups) ∧
    ∀ asid c k, s.contexts = [(asid, c)] → c.stopped = none → look k s.l2 ≠ none → k / 4 = line →
      (s.mgmt (homeDie (line * 256)) 10).toNat % 2 = 0 → mapsSector s.awake c k = true →
      ∃ t c', exec (.dirtyLineError line) s = .next t ∧ t.ctx? asid = some c' ∧ c'.stopped = some 8) ∧
  (∀ (k asid : Nat) (s : State) (c : Context), s.dead = [k] →
    (anyDown s = true → loseDead s = s) ∧
    (anyDown s = false → s.contexts = [(asid, c)] → (s.mgmt (homeDie (k * 64)) 10).toNat % 2 = 0 →
      Sent.retired (k * 64 / 65536) ∈ (loseDead s).sent ∧
      (c.stopped = none → mapsSector s.awake c k = true → ∃ c', (loseDead s).ctx? asid = some c' ∧ c'.stopped = some 8))) ∧
  (∀ (d u : Nat) (s : State), exec (.dramRowSparing d u) s = .next s ∧
    (d < 4 → ∃ t, exec (.laneDrop d u) s = .next t ∧ Spec.Logged s t d 6 u) ∧
    (d < 4 → ∃ t, exec (.recalibration d u) s = .next t ∧ Spec.Logged s t d 7 u) ∧
    (u < 256 → ∃ t, takeTurn (.cellFence u) s = .next t ∧ Spec.Logged s t (dieOf u) 4 u)) ∧
  ∀ (d : Nat) (s : State) (r : BoxRecord), s.tablesOk →
    ((s.mgmt d 10).toNat % 2 = 0 → exec (.bboxMirror d) s = .next s) ∧
    ((s.mgmt d 10).toNat % 2 = 1 → (s.die d).ring = [r] → 0 < (s.die d).logged →
      let a := hostBase + (s.mgmt d 10).toNat / 4096 * 4096 + 16 * (((s.die d).logged - 1) % 4096)
      ∃ t, exec (.bboxMirror d) s = .next t ∧ Spec.numberAt t.mem.get a 8 = r.time % 2 ^ 64 ∧
        t.mem.get (a + 8) = BitVec.ofNat 8 r.cls ∧ t.mem.get (a + 9) = BitVec.ofNat 8 r.die ∧
        Spec.numberAt t.mem.get (a + 10) 2 = r.unit % 2 ^ 16 ∧ Spec.numberAt t.mem.get (a + 12) 4 = r.data % 2 ^ 32 ∧
        ∀ x, x < a ∨ a + 16 ≤ x → t.mem.get x = s.mem.get x)

/-! ## The host and the pod -/

/-- R164, R149, R371, R372, R5, R382: the host writes and reads its own memory; through BAR0 it reads and writes what stands there:
PF0 the administration queue, the dies' management registers and every front end's queues, a tenant's function the registers of its
own queues, once the module is up, in the unprivileged view, where BASE, EN, ASID, CLASS and SIZE read zero and TAIL alone is
written; elsewhere it reads zero and writes nothing. Measurements come into TEMP and POD. -/
def Sys2Proof.Spec.HostAccesses : Prop :=
  (∀ (a n : Nat) (bs : List Byte) (s : State), s.tablesOk →
    (∃ t, takeTurn (.hostStore a bs) s = .next t ∧ t.groups = s.groups ∧
      (∀ i, i < bs.length → t.mem.get (hostBase + a + i) = bs.getD i 0#8) ∧
      ∀ x, x < hostBase + a ∨ hostBase + a + bs.length ≤ x → t.mem.get x = s.mem.get x) ∧
    takeTurn (.hostLoad a n) s = .next (s.send (.hostValue a (s.mem.bytes (hostBase + a) n)))) ∧
  (∀ (f o v : Nat) (s : State),
    let reads (x : DWord) : Prop := takeTurn (.barRead f o) s = .next (s.send (.barValue f o x))
    (f = 0 → ∀ d n, d < 4 → n < 12 → o = 0x8000 + 0x2000 * d + 8 * n →
      reads (mgmtRead s d n) ∧ takeTurn (.barWrite f o v) s = exec (.registerWrite .privileged (.management d (0x900 + n)) v) s) ∧
    (f = 0 → ∀ fe q k, k < 8 → (fe = 64 ∧ q = 0 ∧ o = 8 * k) ∨
        (fe < 64 ∧ q < 8 ∧ o = 0x100000 + 0x1000 * fe + 0x40 * q + 8 * k) →
      reads (match k with
        | 0 => (s.queue fe q).base
        | 1 => (s.queue fe q).ctlRead
        | 2 => BitVec.ofNat 64 (s.queue fe q).tail
        | 3 => BitVec.ofNat 64 (s.queue fe q).prog
        | _ => 0#64) ∧
      takeTurn (.barWrite f o v) s = exec (.registerWrite .privileged (.queue fe q (8 * k)) v) s) ∧
    (0 < f → f ≤ 64 → moduleUp s = true → ∀ q k, q < 8 → k < 8 → o = 0x40 * q + 8 * k →
      reads (match k with
        | 1 => (s.queue (f - 1) q).ctlRead &&& 0xFF0F00000000#64
        | 2 => BitVec.ofNat 64 (s.queue (f - 1) q).tail
        | 3 => BitVec.ofNat 64 (s.queue (f - 1) q).prog
        | _ => 0#64) ∧
      (k = 2 → takeTurn (.barWrite f o v) s = exec (.registerWrite .unprivileged (.queue (f - 1) q 16) v) s) ∧
      (k ≠ 2 → takeTurn (.barWrite f o v) s = .next s)) ∧
    (64 < f ∨ (0 < f ∧ (0x200 ≤ o ∨ moduleUp s = false)) ∨ (f = 0 ∧ (0x140000 ≤ o ∨ (0x40 ≤ o ∧ o < 0x8000) ∨ (0x10000 ≤ o ∧ o < 0x100000))) →
      reads 0#64 ∧ takeTurn (.barWrite f o v) s = .next s)) ∧
  ∀ (d tj inlet flow links : Nat) (s : State), d < 4 →
    ∃ t, takeTurn (.telemetry d tj inlet flow links) s = .next t ∧ { t with dies := s.dies } = s ∧
      (∀ e, e ≠ d → t.die e = s.die e) ∧ (t.mgmt d 4).toNat % 2 ^ 8 = tj % 2 ^ 8 ∧
      (t.mgmt d 4).toNat / 2 ^ 8 % 2 ^ 8 = inlet % 2 ^ 8 ∧ (t.mgmt d 4).toNat / 2 ^ 32 = flow % 2 ^ 32 ∧
      (t.mgmt d 11).toNat / 2 ^ 48 % 2 ^ 4 = links % 2 ^ 4 ∧ (t.mgmt d 11).toNat % 2 ^ 32 = (s.mgmt d 11).toNat % 2 ^ 32

/-- R249, R321: a core's matrix queue holds an instruction, by its group and count, with a host translation captured. -/
def Sys2Proof.Spec.HoldsHost (x : CoreSet) (n : Nat × Nat) : Prop :=
  ∃ m ∈ x.mq, (m.gid, m.count) = n ∧ ∃ o ∈ m.ops, o.host ≠ []

/-- R320, R321, R331 to R333, R326, R201, R203, R377, R108: a granted translation is cached; an invalidation drops those it covers
and is answered once the operations of its PASID under way and its queued matrix instructions with host operands are over; a report has the layout of R331; a link key is kept under its
stream; an interface goes from unlocked to locked to run, and a stop discards its work and its pins; a remote part is served in the
context bound to its job, up to its first element that fails, or answered as failed, the answer to an element written telling its flags, and waits where it
meets a die in reset; a pod barrier counts an arrival of another
module and keeps its E (R210), before a grid here has bound it too. -/
def Sys2Proof.Spec.HostServices : Prop :=
  (∀ (pasid page target : Nat) (rd wr : Bool) (s : State),
    (rd = false → wr = false → exec (.atsTranslationCompletion pasid page rd wr target) s = .next s) ∧
    (rd = true ∨ wr = true → ∃ t, exec (.atsTranslationCompletion pasid page rd wr target) s = .next t ∧
      { t with atc := s.atc } = s ∧ ∀ e, e ∈ t.atc ↔ e = ⟨pasid, page, rd, wr, target⟩ ∨
        (e ∈ s.atc ∧ ¬(e.pasid = pasid ∧ e.page = page)))) ∧
  (∀ (pasid page n : Nat) (s : State), s.invals = [] → ∃ t, exec (.atsInvalidate pasid page n) s = .next t ∧
    (∀ e, e ∈ t.atc ↔ e ∈ s.atc ∧ ¬(e.pasid = pasid ∧ page ≤ e.page ∧ e.page < page + n)) ∧
    { t with atc := s.atc, sent := s.sent, invals := s.invals } = s ∧
    let of (asid : Nat) : Prop := ∃ c, s.ctx? asid = some c ∧ c.pasid = pasid
    let mine (k : Nat) : Prop := ∃ o, (k, o) ∈ s.ops ∧ of o.asid
    let queued (n : Nat × Nat) : Prop := ∃ k x, (k, x) ∈ s.sets ∧ of (k / 256) ∧ Spec.HoldsHost x n
    ((∀ k, ¬mine k) → (∀ n, ¬queued n) → t.sent = s.sent ++ [.invalidated pasid page] ∧ t.invals = []) ∧
    ((∃ k, mine k) ∨ (∃ n, queued n) → t.sent = s.sent ∧
      ∃ ks ns, t.invals = [⟨pasid, page, ks, ns⟩] ∧ (∀ k, k ∈ ks ↔ mine k) ∧ ∀ n, n ∈ ns ↔ queued n)) ∧
  (∀ (pasid page : Nat) (ks : List Nat) (ns : List (Nat × Nat)) (s : State), s.invals = [⟨pasid, page, ks, ns⟩] →
    let there (n : Nat × Nat) : Prop := ∃ k x, (k, x) ∈ s.sets ∧ Spec.HoldsHost x n
    ((∀ k ∈ ks, look k s.ops = none) → (∀ n ∈ ns, ¬there n) →
      finishInvals s = { s with invals := [], sent := s.sent ++ [.invalidated pasid page] }) ∧
    ((∃ k ∈ ks, look k s.ops ≠ none) ∨ (∃ n ∈ ns, there n) → finishInvals s = s)) ∧
  (∀ (p nonce : Nat) (s : State), firmwareRuns s = true → p < 64 ∨ p = 0xFFFFFFFF →
    ∃ t bs, exec (.attestationRequest p nonce) s = .next t ∧ t.sent = s.sent ++ [.report bs] ∧
      { t with sent := s.sent } = s ∧ bs.length = 0x16C + 3309 ∧
      let m (i : Nat) : Byte := bs.getD i 0#8
      Spec.numberAt m 0 4 = 1 ∧ Spec.numberAt m 4 4 = p ∧ Spec.numberAt m 8 32 = nonce % 2 ^ 256 ∧
      (∀ d x, d < 4 → (s.die d).image = some x → Spec.numberAt m (0xE8 + 4 * d) 4 = x.svn % 2 ^ 32 ∧
        ∀ i, i < 48 → m (0x28 + 48 * d + i) = (Digest.sha384 (measured x)).getD i 0#8) ∧
      (p < 64 → Spec.numberAt m 0x128 4 = (s.part p).tdis)) ∧
  (∀ (k v : Nat) (s : State), firmwareRuns s = true → k ≤ 64 → ∃ t, exec (.ideKeyProgram k v) s = .next t ∧
    look k t.streams = some (v % 2 ^ 256) ∧ (∀ j, j ≠ k → look j t.streams = look j s.streams) ∧
    { t with streams := s.streams } = s) ∧
  (∀ (p : Nat) (s : State), p < 64 →
    let moved (i : Instr) (v : Nat) : Prop := ∃ t, exec i s = .next t ∧ (t.part p).tdis = v ∧
      (t.part p).cbase = (s.part p).cbase ∧ (∀ j, j ≠ p → t.part j = s.part j) ∧ { t with parts := s.parts } = s
    ((s.part p).tdis = 0 → moved (.tdispLock p) 1 ∧ exec (.tdispStop p) s = .next s) ∧
    ((s.part p).tdis ≠ 0 → exec (.tdispLock p) s = .next s) ∧
    ((s.part p).tdis = 1 → moved (.tdispStart p) 2) ∧
    ((s.part p).tdis ≠ 1 → exec (.tdispStart p) s = .next s) ∧
    ((s.part p).tdis = 3 → moved (.tdispStop p) 0) ∧
    ((s.part p).tdis = 1 ∨ (s.part p).tdis = 2 → ∃ t, exec (.tdispStop p) s = .next t ∧ (t.part p).tdis = 0 ∧
      (t.part p).pins = [] ∧ ∀ asid c, s.ctx? asid = some c → c.part = p → c.stopped = none →
        ∃ c', t.ctx? asid = some c' ∧ c'.stopped ≠ none)) ∧
  (∀ (r : RemotePart) (s : State),
    ((∀ e ∈ s.contexts, e.2.job ≠ r.job) ∨ r.job = 0 →
      exec (.remoteGatherPart r) s = .next (s.send (.partAnswer r.tag codeXLATE []))) ∧
    ∀ asid c j js p pa, s.contexts = [(asid, c)] → c.job = r.job → r.job ≠ 0 → c.stopped = none → r.elems = j :: js →
      let va := r.base + j * r.esize
      (r.limit < j * r.esize + r.esize → exec (.remoteGatherPart r) s = .next (s.send (.partAnswer r.tag codePERM []))) ∧
      (js = [] → 0 < r.esize → r.esize ≤ 64 → j * r.esize + r.esize ≤ r.limit → r.esize ≤ p.reach va → s.tablesOk →
        p.fmt = .raw →
        (r.values = none → engineTranslate s asid .user .read va = .ok p → p.rawPlace s asid .read va = .ok pa →
          s.bad = [] → pa < hostBase → homeDie pa = r.die → r.die < 4 →
          exec (.remoteGatherPart r) s = .next (s.send (.partAnswer r.tag 0 [s.homeBytesAt p.own pa r.esize]))) ∧
        (∀ tr, r.values = none → engineTranslate s asid .user .read va = .ok p → p.rawPlace s asid .read va = .error tr →
          tr.code = 255 → exec (.remoteGatherPart r) s = .next { s with parked := s.parked ++ [r] }) ∧
        ∀ v, r.values = some [v] → v.length = r.esize → engineTranslate s asid .user .write va = .ok p →
          p.rawPlace s asid .write va = .ok pa →
          ∃ t, exec (.remoteGatherPart r) s = .next t ∧ t.sent = s.sent ++ [.partAnswer r.tag 0 [[0#8]]] ∧
            t.mem.bytes pa r.esize = v ∧
            ∀ a, a < pa ∨ pa + r.esize ≤ a → s.foreign p.own (a / 64) = false → t.mem.get a = s.mem.get a)) ∧
  ∀ (job n e : Nat) (s : State),
    ((∀ w ∈ s.wide, ¬(w.scope = 5 ∧ w.place = job ∧ w.number = n)) →
      (4 ≤ n → exec (.podBarrierArrival job ⟨n, e⟩) s = .next s) ∧
      (n < 4 → ∃ t, exec (.podBarrierArrival job ⟨n, e⟩) s = .next t ∧ { t with podEarly := s.podEarly } = s ∧
        look (podKey job n) t.podEarly = some ((look (podKey job n) s.podEarly).getD [] ++ [e]))) ∧
    ∀ w, s.wide = [w] → w.scope = 5 ∧ w.place = job ∧ w.number = n →
      w.bar.arrived.length + w.remote.length + 1 < barCount s (.pod job n) →
      ∃ t, exec (.podBarrierArrival job ⟨n, e⟩) s = .next t ∧ t.wide = [{ w with remote := w.remote ++ [e] }] ∧
        t.groups = s.groups

/-- R320, R321, R331 to R333, R371, R203, R377, R108: what the module answers its host and other modules. A failed remote
part, the bytes of an answer, a part that waits for a die in reset, the report's partition fields, the E that a pod
barrier's arrival carries and what a stop keeps are the model's (log entries 8, 14, 25, 38, 39, 109, 110, 120, 124). -/
def Obligations.HostAndPod : Prop := Spec.HostServices ∧ Spec.HostAccesses

/-! ## Encoding -/

/-- Words that the spec writes out, with the instructions it gives them, one or more of each part of the opcode map; and
words that it rejects (R48): a class 00 opcode that is not assigned, and a fixed field of `bar` that is not zero.
Where an example word of the spec leaves out a bit, the encoding tables are followed (log entry 41). -/
def Obligations.DecodeWords : Prop :=
  (∀ e ∈ ([(0x20810C03, .add ⟨false, 2#3, 2#6, 1#6, 3#6, true⟩), (0x0C204A07, .ffma ⟨3#6, 2#6, 1#6, 10#6, true⟩),
      (0xFF461809, .addi ⟨0x3FD#10, 6#6, 6#6, false⟩), (0x788521B9, .ld ⟨3#3, true, 4#3, 2#3, 5#6, 8#6, false⟩),
      (0x00418CB9, .gadd ⟨0#7, 4#5, 3#5, 3#5, false⟩), (0x9C4911F9, .atom ⟨4#3, 14#4, 1#3, 9#6, 4#6, false⟩),
      (0x00010C2F, .bar ⟨false, 2#3, 3#5, true⟩), (0x0470140D, .spawn ⟨4#6, 3#3, true, 5#10, false⟩),
      (0x0842043D, .xpand ⟨8#4, 1#2, 2#6, 1#6, false⟩), (0x0068047D, .copy ⟨3#6, 8#5, 0#3, 1#3, false⟩),
      (0x05410EF1, .sscan ⟨false, 0#3, 2#3, 5#3, 1#6, 3#6, false⟩), (0x01B1613D, .mload ⟨3#3, 12#5, 2#3, true, 8#4, false⟩),
      (0x0001914D, .path ⟨0#2, false, 3#10, 4#5, false⟩), (0x000017A9, .tcall ⟨5#8, false⟩),
      (0x0000023D, .rte ⟨false⟩)] : List (Nat × Instr)),
    decode (leBytes 4 e.1) = .ok (e.2, 4)) ∧
  decode (leBytes 2 0x24A2) = .ok (.add_16 ⟨9#6, 5#5⟩, 2) ∧ decode (leBytes 2 0x1C5C) = .ok (.ffmb ⟨7#6, 2#5⟩, 2) ∧
  decode (leBytes 2 0x0000) = .ok (.nop_16, 2) ∧
  decode (leBytes 4 0x000003F1) = .error .unassigned ∧ decode (leBytes 4 0x80010C2F) = .error .reservedField

/-- R28 to R63: decode and encode agree, for every encoded instruction, with every field at every value, whatever follows
it; `mov v0, v0`, whose halfword is that of `nop` (R32), apart. And a word that decodes is the one its instruction
encodes to: no word has another's meaning. -/
def Obligations.DecodeEncode : Prop :=
  (∀ (i : Instr) (bs rest : List Byte), encode i = some bs → notZeroMove i = true →
    decode (bs ++ rest) = .ok (i, bs.length)) ∧
  ∀ (bs : List Byte) (i : Instr) (n : Nat), decode bs = .ok (i, n) → encode i = some (bs.take n) ∧ n = i.size

/-! ## The machine -/

/-- A lane's turn: the machine's first turn is an issue of the lane on which the group runs its stint, and the group's line
has been fetched: a raw page translates for it, and nothing stands in its way (R29, R49, R115). -/
structure Sys2Proof.Spec.Issues (s : State) (gid : Nat) (g : Group) (rest : List Turn) (s1 : State) (line : List Byte) : Prop where
  turn    : ∃ lane, s.agenda = .issue g.core lane :: rest ∧ g.sched.lane = some lane ∧
    ∀ j k, (j, k) ∈ s.groups → k.core = g.core → k.sched.lane = some lane → k.sched.inStint = true → (j, k) = (gid, g)
  group   : (gid, g) ∈ s.groups ∧ g.sched.inStint = true ∧ g.pending = none ∧ g.sched.endDue = false
  fetch   : ∃ p pa, translate { s with agenda := rest, cur := gid } g.core g.asid g.mode .fetch (g.pc.toNat / 128 * 128) = .ok (p, s1) ∧
    p.fmt = .raw ∧ p.rawPlace s1 g.asid .fetch (g.pc.toNat / 128 * 128) = .ok pa ∧ line = s1.homeBytesAt p.own pa 128
  sound   : s1.bad = [] ∧ lineSound line = true ∧
    (g.fresh = true → headerKind (lineHeader line) = 2 ∧ slotMarked line g.pc.toNat = true)

/-- R29, R30, R35, R49, R51, R72, R177: a step runs the decoded instruction: when the bytes at the issuing group's pc
decode to an instruction, the step is `exec` of it, the group's line being the one checked and its opening acquire
done; where an interlock holds it, or the scribe or the deposit unit that its last instruction keeps at work does
(R78), the lane waits a cycle; where they decode to none, the group takes ILLOP with the cause of the rejection. An
event's turn is `exec` of the event. Before a turn come what is due: copies that are too old go (R148), waiting groups
test again, invalidations complete; with nothing due the step begins with the state as it is. The order of turns, the
cycle a held lane waits, the fetch from the home slices and what follows the last line are the model's (log entries 1,
6, 9, 129). -/
def Obligations.StepRunsInstruction : Prop :=
  (∀ (s s1 : State) (gid : Nat) (g : Group) (rest : List Turn) (line : List Byte), Spec.Issues (upkeep s) gid g rest s1 line →
    let bytes := line.drop (g.pc.toNat % 128)
    let s2 := (if g.opening = 0 then s1 else s1.acquire g.core g.opening).setGrp
      { g with line := some (BitVec.ofNat 57 (g.pc.toNat / 128 * 128)), fresh := false, opening := 0,
               pkgSeen := g.pkgSeen || decide (4 ≤ g.opening) }
    (∀ i n, decode bytes = .ok (i, n) →
      (interlocked s1 g i = false → step s = exec i s2) ∧
      (interlocked s1 g i = true → ∃ t, step s = .next t ∧ t.now = s1.now + 1 ∧ t.mem = s1.mem ∧
        t.grp = some { g with sched := { g.sched with stintWait := g.sched.stintWait + 1 } })) ∧
    ∀ r, decode bytes = .error r → step s = .next (illop s2 (if r = .reservedField then 2 else 1))) ∧
  (∀ (s : State) (gid lane : Nat) (g : Group) (rest : List Turn), (upkeep s).agenda = .issue g.core lane :: rest →
    (gid, g) ∈ (upkeep s).groups → g.sched.lane = some lane → g.sched.inStint = true → g.sched.endDue = true →
    (∀ j k, (j, k) ∈ (upkeep s).groups → k.core = g.core → k.sched.lane = some lane → k.sched.inStint = true → (j, k) = (gid, g)) →
    ∃ t, step s = .next t ∧ t.now = (upkeep s).now + 1 ∧ t.mem = (upkeep s).mem ∧
      t.group? gid = some { g with sched := { g.sched with stintWait := g.sched.stintWait + 1 } }) ∧
  (∀ (s : State) (i : Instr) (rest : List Turn), (upkeep s).agenda = .event i :: rest → isEvent i = true →
    step s = exec i { upkeep s with agenda := rest }) ∧
  (∀ (s : State) (n : Nat) (rest : List Turn), (upkeep s).agenda = .tick n :: rest →
    step s = .next { upkeep s with agenda := rest, now := s.now + n }) ∧
  (∀ s : State, (upkeep s).agenda = s.agenda ∧ (upkeep s).now = s.now) ∧
  ∀ s : State, s.expire = s → s.stir = false → s.freed = false → s.invals = [] → s.dead = [] → upkeep s = s

/-- Every step keeps memory and every bench in canonical form, and the groups and the sectors of every L1 in rising order of
their numbers, each once: equal memories are equal data (the model's own representation, docs of `State.tablesOk`). -/
def Obligations.StepKeepsTables : Prop := ∀ s t : State, s.tablesOk → step s = .next t → t.tablesOk

/-- R7, R378, R310, R312, R372, R382: right after cold reset there is no group, no context and no command, memory reads zero
everywhere (log entry 2 for host memory), every die stands in its boot ROM with its registers at their reset values, and
the queues' and the partitions' registers hold theirs; the tables are canonical. -/
def Obligations.ResetState : Prop :=
  State.reset.tablesOk ∧ (∀ a, State.reset.mem.get a = 0#8) ∧ (∀ j, State.reset.group? j = none) ∧
  (∀ a, State.reset.ctx? a = none) ∧ moduleUp State.reset = false ∧ firmwareRuns State.reset = false ∧
  (∀ d, (State.reset.die d).boot = .rom) ∧
  (∀ d, d < 4 → State.reset.mgmt d 0 = BitVec.ofNat 64 (d * 16) ∧ State.reset.mgmt d 2 = BitVec.ofNat 64 (10 * 2 ^ 16 + 2400) ∧
    State.reset.mgmt d 3 = 0#64 ∧ State.reset.mgmt d 8 = 0#64 ∧ State.reset.mgmt d 9 = 4#64) ∧
  (∀ fe q, let x := State.reset.queue fe q
    (x.base, x.tail, x.prog) = (0#64, 0, 0) ∧ x.en = false ∧ x.stat = 0) ∧
  ∀ p, (State.reset.part p).tdis = 0 ∧ (State.reset.part p).qlog = 16 ∧ (State.reset.part p).pinq = 0 ∧
    ∀ c, c < 8 → (State.reset.part p).lclog c = 14
end

