-- ==== Sys2Proof/Laws/State.lean ====
section
/-!
SUPPORT. One lemma for each field of State, Group and Thread under each of their updates, so that no proof unfolds a
record update.
-/

namespace Sys2Proof.Machine

/-! ## State.setGroup -/

@[simp] theorem State.setGroup_now (s : State) (gid : Nat) (g : Group) : (s.setGroup gid g).now = s.now := rfl
@[simp] theorem State.setGroup_agenda (s : State) (gid : Nat) (g : Group) : (s.setGroup gid g).agenda = s.agenda := rfl
@[simp] theorem State.setGroup_cur (s : State) (gid : Nat) (g : Group) : (s.setGroup gid g).cur = s.cur := rfl
@[simp] theorem State.setGroup_fresh (s : State) (gid : Nat) (g : Group) : (s.setGroup gid g).fresh = s.fresh := rfl
@[simp] theorem State.setGroup_free (s : State) (gid : Nat) (g : Group) : (s.setGroup gid g).free = s.free := rfl
@[simp] theorem State.setGroup_mem (s : State) (gid : Nat) (g : Group) : (s.setGroup gid g).mem = s.mem := rfl
@[simp] theorem State.setGroup_l2 (s : State) (gid : Nat) (g : Group) : (s.setGroup gid g).l2 = s.l2 := rfl
@[simp] theorem State.setGroup_seals (s : State) (gid : Nat) (g : Group) : (s.setGroup gid g).seals = s.seals := rfl
@[simp] theorem State.setGroup_bad (s : State) (gid : Nat) (g : Group) : (s.setGroup gid g).bad = s.bad := rfl
@[simp] theorem State.setGroup_dead (s : State) (gid : Nat) (g : Group) : (s.setGroup gid g).dead = s.dead := rfl
@[simp] theorem State.setGroup_watch (s : State) (gid : Nat) (g : Group) : (s.setGroup gid g).watch = s.watch := rfl
@[simp] theorem State.setGroup_groups (s : State) (gid : Nat) (g : Group) : (s.setGroup gid g).groups = put gid g s.groups := rfl
@[simp] theorem State.setGroup_blocks (s : State) (gid : Nat) (g : Group) : (s.setGroup gid g).blocks = s.blocks := rfl
@[simp] theorem State.setGroup_grids (s : State) (gid : Nat) (g : Group) : (s.setGroup gid g).grids = s.grids := rfl
@[simp] theorem State.setGroup_contexts (s : State) (gid : Nat) (g : Group) : (s.setGroup gid g).contexts = s.contexts := rfl
@[simp] theorem State.setGroup_sets (s : State) (gid : Nat) (g : Group) : (s.setGroup gid g).sets = s.sets := rfl
@[simp] theorem State.setGroup_cores (s : State) (gid : Nat) (g : Group) : (s.setGroup gid g).cores = s.cores := rfl
@[simp] theorem State.setGroup_dies (s : State) (gid : Nat) (g : Group) : (s.setGroup gid g).dies = s.dies := rfl
@[simp] theorem State.setGroup_parts (s : State) (gid : Nat) (g : Group) : (s.setGroup gid g).parts = s.parts := rfl
@[simp] theorem State.setGroup_queues (s : State) (gid : Nat) (g : Group) : (s.setGroup gid g).queues = s.queues := rfl
@[simp] theorem State.setGroup_feGrids (s : State) (gid : Nat) (g : Group) : (s.setGroup gid g).feGrids = s.feGrids := rfl
@[simp] theorem State.setGroup_wide (s : State) (gid : Nat) (g : Group) : (s.setGroup gid g).wide = s.wide := rfl
@[simp] theorem State.setGroup_podEarly (s : State) (gid : Nat) (g : Group) : (s.setGroup gid g).podEarly = s.podEarly := rfl
@[simp] theorem State.setGroup_ops (s : State) (gid : Nat) (g : Group) : (s.setGroup gid g).ops = s.ops := rfl
@[simp] theorem State.setGroup_tlb (s : State) (gid : Nat) (g : Group) : (s.setGroup gid g).tlb = s.tlb := rfl
@[simp] theorem State.setGroup_atc (s : State) (gid : Nat) (g : Group) : (s.setGroup gid g).atc = s.atc := rfl
@[simp] theorem State.setGroup_requests (s : State) (gid : Nat) (g : Group) : (s.setGroup gid g).requests = s.requests := rfl
@[simp] theorem State.setGroup_invals (s : State) (gid : Nat) (g : Group) : (s.setGroup gid g).invals = s.invals := rfl
@[simp] theorem State.setGroup_parked (s : State) (gid : Nat) (g : Group) : (s.setGroup gid g).parked = s.parked := rfl
@[simp] theorem State.setGroup_replicas (s : State) (gid : Nat) (g : Group) : (s.setGroup gid g).replicas = s.replicas := rfl
@[simp] theorem State.setGroup_pool (s : State) (gid : Nat) (g : Group) : (s.setGroup gid g).pool = s.pool := rfl
@[simp] theorem State.setGroup_base (s : State) (gid : Nat) (g : Group) : (s.setGroup gid g).base = s.base := rfl
@[simp] theorem State.setGroup_streams (s : State) (gid : Nat) (g : Group) : (s.setGroup gid g).streams = s.streams := rfl
@[simp] theorem State.setGroup_keys (s : State) (gid : Nat) (g : Group) : (s.setGroup gid g).keys = s.keys := rfl
@[simp] theorem State.setGroup_stir (s : State) (gid : Nat) (g : Group) : (s.setGroup gid g).stir = s.stir := rfl
@[simp] theorem State.setGroup_freed (s : State) (gid : Nat) (g : Group) : (s.setGroup gid g).freed = s.freed := rfl
@[simp] theorem State.setGroup_sent (s : State) (gid : Nat) (g : Group) : (s.setGroup gid g).sent = s.sent := rfl
@[simp] theorem State.setGroup_replies (s : State) (gid : Nat) (g : Group) : (s.setGroup gid g).replies = s.replies := rfl

/-! ## State.setGrp -/

@[simp] theorem State.setGrp_now (s : State) (g : Group) : (s.setGrp g).now = s.now := rfl
@[simp] theorem State.setGrp_agenda (s : State) (g : Group) : (s.setGrp g).agenda = s.agenda := rfl
@[simp] theorem State.setGrp_cur (s : State) (g : Group) : (s.setGrp g).cur = s.cur := rfl
@[simp] theorem State.setGrp_fresh (s : State) (g : Group) : (s.setGrp g).fresh = s.fresh := rfl
@[simp] theorem State.setGrp_free (s : State) (g : Group) : (s.setGrp g).free = s.free := rfl
@[simp] theorem State.setGrp_mem (s : State) (g : Group) : (s.setGrp g).mem = s.mem := rfl
@[simp] theorem State.setGrp_l2 (s : State) (g : Group) : (s.setGrp g).l2 = s.l2 := rfl
@[simp] theorem State.setGrp_seals (s : State) (g : Group) : (s.setGrp g).seals = s.seals := rfl
@[simp] theorem State.setGrp_bad (s : State) (g : Group) : (s.setGrp g).bad = s.bad := rfl
@[simp] theorem State.setGrp_dead (s : State) (g : Group) : (s.setGrp g).dead = s.dead := rfl
@[simp] theorem State.setGrp_watch (s : State) (g : Group) : (s.setGrp g).watch = s.watch := rfl
@[simp] theorem State.setGrp_groups (s : State) (g : Group) : (s.setGrp g).groups = put s.cur g s.groups := rfl
@[simp] theorem State.setGrp_blocks (s : State) (g : Group) : (s.setGrp g).blocks = s.blocks := rfl
@[simp] theorem State.setGrp_grids (s : State) (g : Group) : (s.setGrp g).grids = s.grids := rfl
@[simp] theorem State.setGrp_contexts (s : State) (g : Group) : (s.setGrp g).contexts = s.contexts := rfl
@[simp] theorem State.setGrp_sets (s : State) (g : Group) : (s.setGrp g).sets = s.sets := rfl
@[simp] theorem State.setGrp_cores (s : State) (g : Group) : (s.setGrp g).cores = s.cores := rfl
@[simp] theorem State.setGrp_dies (s : State) (g : Group) : (s.setGrp g).dies = s.dies := rfl
@[simp] theorem State.setGrp_parts (s : State) (g : Group) : (s.setGrp g).parts = s.parts := rfl
@[simp] theorem State.setGrp_queues (s : State) (g : Group) : (s.setGrp g).queues = s.queues := rfl
@[simp] theorem State.setGrp_feGrids (s : State) (g : Group) : (s.setGrp g).feGrids = s.feGrids := rfl
@[simp] theorem State.setGrp_wide (s : State) (g : Group) : (s.setGrp g).wide = s.wide := rfl
@[simp] theorem State.setGrp_podEarly (s : State) (g : Group) : (s.setGrp g).podEarly = s.podEarly := rfl
@[simp] theorem State.setGrp_ops (s : State) (g : Group) : (s.setGrp g).ops = s.ops := rfl
@[simp] theorem State.setGrp_tlb (s : State) (g : Group) : (s.setGrp g).tlb = s.tlb := rfl
@[simp] theorem State.setGrp_atc (s : State) (g : Group) : (s.setGrp g).atc = s.atc := rfl
@[simp] theorem State.setGrp_requests (s : State) (g : Group) : (s.setGrp g).requests = s.requests := rfl
@[simp] theorem State.setGrp_invals (s : State) (g : Group) : (s.setGrp g).invals = s.invals := rfl
@[simp] theorem State.setGrp_parked (s : State) (g : Group) : (s.setGrp g).parked = s.parked := rfl
@[simp] theorem State.setGrp_replicas (s : State) (g : Group) : (s.setGrp g).replicas = s.replicas := rfl
@[simp] theorem State.setGrp_pool (s : State) (g : Group) : (s.setGrp g).pool = s.pool := rfl
@[simp] theorem State.setGrp_base (s : State) (g : Group) : (s.setGrp g).base = s.base := rfl
@[simp] theorem State.setGrp_streams (s : State) (g : Group) : (s.setGrp g).streams = s.streams := rfl
@[simp] theorem State.setGrp_keys (s : State) (g : Group) : (s.setGrp g).keys = s.keys := rfl
@[simp] theorem State.setGrp_stir (s : State) (g : Group) : (s.setGrp g).stir = s.stir := rfl
@[simp] theorem State.setGrp_freed (s : State) (g : Group) : (s.setGrp g).freed = s.freed := rfl
@[simp] theorem State.setGrp_sent (s : State) (g : Group) : (s.setGrp g).sent = s.sent := rfl
@[simp] theorem State.setGrp_replies (s : State) (g : Group) : (s.setGrp g).replies = s.replies := rfl

/-! ## State.mapGroups -/

@[simp] theorem State.mapGroups_now (s : State) (f : Nat → Group → Group) : (s.mapGroups f).now = s.now := rfl
@[simp] theorem State.mapGroups_agenda (s : State) (f : Nat → Group → Group) : (s.mapGroups f).agenda = s.agenda := rfl
@[simp] theorem State.mapGroups_cur (s : State) (f : Nat → Group → Group) : (s.mapGroups f).cur = s.cur := rfl
@[simp] theorem State.mapGroups_fresh (s : State) (f : Nat → Group → Group) : (s.mapGroups f).fresh = s.fresh := rfl
@[simp] theorem State.mapGroups_free (s : State) (f : Nat → Group → Group) : (s.mapGroups f).free = s.free := rfl
@[simp] theorem State.mapGroups_mem (s : State) (f : Nat → Group → Group) : (s.mapGroups f).mem = s.mem := rfl
@[simp] theorem State.mapGroups_l2 (s : State) (f : Nat → Group → Group) : (s.mapGroups f).l2 = s.l2 := rfl
@[simp] theorem State.mapGroups_seals (s : State) (f : Nat → Group → Group) : (s.mapGroups f).seals = s.seals := rfl
@[simp] theorem State.mapGroups_bad (s : State) (f : Nat → Group → Group) : (s.mapGroups f).bad = s.bad := rfl
@[simp] theorem State.mapGroups_dead (s : State) (f : Nat → Group → Group) : (s.mapGroups f).dead = s.dead := rfl
@[simp] theorem State.mapGroups_watch (s : State) (f : Nat → Group → Group) : (s.mapGroups f).watch = s.watch := rfl
@[simp] theorem State.mapGroups_groups (s : State) (f : Nat → Group → Group) : (s.mapGroups f).groups = s.groups.map fun e => (e.1, f e.1 e.2) := rfl
@[simp] theorem State.mapGroups_blocks (s : State) (f : Nat → Group → Group) : (s.mapGroups f).blocks = s.blocks := rfl
@[simp] theorem State.mapGroups_grids (s : State) (f : Nat → Group → Group) : (s.mapGroups f).grids = s.grids := rfl
@[simp] theorem State.mapGroups_contexts (s : State) (f : Nat → Group → Group) : (s.mapGroups f).contexts = s.contexts := rfl
@[simp] theorem State.mapGroups_sets (s : State) (f : Nat → Group → Group) : (s.mapGroups f).sets = s.sets := rfl
@[simp] theorem State.mapGroups_cores (s : State) (f : Nat → Group → Group) : (s.mapGroups f).cores = s.cores := rfl
@[simp] theorem State.mapGroups_dies (s : State) (f : Nat → Group → Group) : (s.mapGroups f).dies = s.dies := rfl
@[simp] theorem State.mapGroups_parts (s : State) (f : Nat → Group → Group) : (s.mapGroups f).parts = s.parts := rfl
@[simp] theorem State.mapGroups_queues (s : State) (f : Nat → Group → Group) : (s.mapGroups f).queues = s.queues := rfl
@[simp] theorem State.mapGroups_feGrids (s : State) (f : Nat → Group → Group) : (s.mapGroups f).feGrids = s.feGrids := rfl
@[simp] theorem State.mapGroups_wide (s : State) (f : Nat → Group → Group) : (s.mapGroups f).wide = s.wide := rfl
@[simp] theorem State.mapGroups_podEarly (s : State) (f : Nat → Group → Group) : (s.mapGroups f).podEarly = s.podEarly := rfl
@[simp] theorem State.mapGroups_ops (s : State) (f : Nat → Group → Group) : (s.mapGroups f).ops = s.ops := rfl
@[simp] theorem State.mapGroups_tlb (s : State) (f : Nat → Group → Group) : (s.mapGroups f).tlb = s.tlb := rfl
@[simp] theorem State.mapGroups_atc (s : State) (f : Nat → Group → Group) : (s.mapGroups f).atc = s.atc := rfl
@[simp] theorem State.mapGroups_requests (s : State) (f : Nat → Group → Group) : (s.mapGroups f).requests = s.requests := rfl
@[simp] theorem State.mapGroups_invals (s : State) (f : Nat → Group → Group) : (s.mapGroups f).invals = s.invals := rfl
@[simp] theorem State.mapGroups_parked (s : State) (f : Nat → Group → Group) : (s.mapGroups f).parked = s.parked := rfl
@[simp] theorem State.mapGroups_replicas (s : State) (f : Nat → Group → Group) : (s.mapGroups f).replicas = s.replicas := rfl
@[simp] theorem State.mapGroups_pool (s : State) (f : Nat → Group → Group) : (s.mapGroups f).pool = s.pool := rfl
@[simp] theorem State.mapGroups_base (s : State) (f : Nat → Group → Group) : (s.mapGroups f).base = s.base := rfl
@[simp] theorem State.mapGroups_streams (s : State) (f : Nat → Group → Group) : (s.mapGroups f).streams = s.streams := rfl
@[simp] theorem State.mapGroups_keys (s : State) (f : Nat → Group → Group) : (s.mapGroups f).keys = s.keys := rfl
@[simp] theorem State.mapGroups_stir (s : State) (f : Nat → Group → Group) : (s.mapGroups f).stir = s.stir := rfl
@[simp] theorem State.mapGroups_freed (s : State) (f : Nat → Group → Group) : (s.mapGroups f).freed = s.freed := rfl
@[simp] theorem State.mapGroups_sent (s : State) (f : Nat → Group → Group) : (s.mapGroups f).sent = s.sent := rfl
@[simp] theorem State.mapGroups_replies (s : State) (f : Nat → Group → Group) : (s.mapGroups f).replies = s.replies := rfl

/-! ## State.setCtx -/

@[simp] theorem State.setCtx_now (s : State) (a : Nat) (c : Context) : (s.setCtx a c).now = s.now := rfl
@[simp] theorem State.setCtx_agenda (s : State) (a : Nat) (c : Context) : (s.setCtx a c).agenda = s.agenda := rfl
@[simp] theorem State.setCtx_cur (s : State) (a : Nat) (c : Context) : (s.setCtx a c).cur = s.cur := rfl
@[simp] theorem State.setCtx_fresh (s : State) (a : Nat) (c : Context) : (s.setCtx a c).fresh = s.fresh := rfl
@[simp] theorem State.setCtx_free (s : State) (a : Nat) (c : Context) : (s.setCtx a c).free = s.free := rfl
@[simp] theorem State.setCtx_mem (s : State) (a : Nat) (c : Context) : (s.setCtx a c).mem = s.mem := rfl
@[simp] theorem State.setCtx_l2 (s : State) (a : Nat) (c : Context) : (s.setCtx a c).l2 = s.l2 := rfl
@[simp] theorem State.setCtx_seals (s : State) (a : Nat) (c : Context) : (s.setCtx a c).seals = s.seals := rfl
@[simp] theorem State.setCtx_bad (s : State) (a : Nat) (c : Context) : (s.setCtx a c).bad = s.bad := rfl
@[simp] theorem State.setCtx_dead (s : State) (a : Nat) (c : Context) : (s.setCtx a c).dead = s.dead := rfl
@[simp] theorem State.setCtx_watch (s : State) (a : Nat) (c : Context) : (s.setCtx a c).watch = s.watch := rfl
@[simp] theorem State.setCtx_groups (s : State) (a : Nat) (c : Context) : (s.setCtx a c).groups = s.groups := rfl
@[simp] theorem State.setCtx_blocks (s : State) (a : Nat) (c : Context) : (s.setCtx a c).blocks = s.blocks := rfl
@[simp] theorem State.setCtx_grids (s : State) (a : Nat) (c : Context) : (s.setCtx a c).grids = s.grids := rfl
@[simp] theorem State.setCtx_contexts (s : State) (a : Nat) (c : Context) : (s.setCtx a c).contexts = put a c s.contexts := rfl
@[simp] theorem State.setCtx_sets (s : State) (a : Nat) (c : Context) : (s.setCtx a c).sets = s.sets := rfl
@[simp] theorem State.setCtx_cores (s : State) (a : Nat) (c : Context) : (s.setCtx a c).cores = s.cores := rfl
@[simp] theorem State.setCtx_dies (s : State) (a : Nat) (c : Context) : (s.setCtx a c).dies = s.dies := rfl
@[simp] theorem State.setCtx_parts (s : State) (a : Nat) (c : Context) : (s.setCtx a c).parts = s.parts := rfl
@[simp] theorem State.setCtx_queues (s : State) (a : Nat) (c : Context) : (s.setCtx a c).queues = s.queues := rfl
@[simp] theorem State.setCtx_feGrids (s : State) (a : Nat) (c : Context) : (s.setCtx a c).feGrids = s.feGrids := rfl
@[simp] theorem State.setCtx_wide (s : State) (a : Nat) (c : Context) : (s.setCtx a c).wide = s.wide := rfl
@[simp] theorem State.setCtx_podEarly (s : State) (a : Nat) (c : Context) : (s.setCtx a c).podEarly = s.podEarly := rfl
@[simp] theorem State.setCtx_ops (s : State) (a : Nat) (c : Context) : (s.setCtx a c).ops = s.ops := rfl
@[simp] theorem State.setCtx_tlb (s : State) (a : Nat) (c : Context) : (s.setCtx a c).tlb = s.tlb := rfl
@[simp] theorem State.setCtx_atc (s : State) (a : Nat) (c : Context) : (s.setCtx a c).atc = s.atc := rfl
@[simp] theorem State.setCtx_requests (s : State) (a : Nat) (c : Context) : (s.setCtx a c).requests = s.requests := rfl
@[simp] theorem State.setCtx_invals (s : State) (a : Nat) (c : Context) : (s.setCtx a c).invals = s.invals := rfl
@[simp] theorem State.setCtx_parked (s : State) (a : Nat) (c : Context) : (s.setCtx a c).parked = s.parked := rfl
@[simp] theorem State.setCtx_replicas (s : State) (a : Nat) (c : Context) : (s.setCtx a c).replicas = s.replicas := rfl
@[simp] theorem State.setCtx_pool (s : State) (a : Nat) (c : Context) : (s.setCtx a c).pool = s.pool := rfl
@[simp] theorem State.setCtx_base (s : State) (a : Nat) (c : Context) : (s.setCtx a c).base = s.base := rfl
@[simp] theorem State.setCtx_streams (s : State) (a : Nat) (c : Context) : (s.setCtx a c).streams = s.streams := rfl
@[simp] theorem State.setCtx_keys (s : State) (a : Nat) (c : Context) : (s.setCtx a c).keys = s.keys := rfl
@[simp] theorem State.setCtx_stir (s : State) (a : Nat) (c : Context) : (s.setCtx a c).stir = s.stir := rfl
@[simp] theorem State.setCtx_freed (s : State) (a : Nat) (c : Context) : (s.setCtx a c).freed = s.freed := rfl
@[simp] theorem State.setCtx_sent (s : State) (a : Nat) (c : Context) : (s.setCtx a c).sent = s.sent := rfl
@[simp] theorem State.setCtx_replies (s : State) (a : Nat) (c : Context) : (s.setCtx a c).replies = s.replies := rfl

/-! ## State.setCore -/

@[simp] theorem State.setCore_now (s : State) (k : Nat) (c : Core) : (s.setCore k c).now = s.now := rfl
@[simp] theorem State.setCore_agenda (s : State) (k : Nat) (c : Core) : (s.setCore k c).agenda = s.agenda := rfl
@[simp] theorem State.setCore_cur (s : State) (k : Nat) (c : Core) : (s.setCore k c).cur = s.cur := rfl
@[simp] theorem State.setCore_fresh (s : State) (k : Nat) (c : Core) : (s.setCore k c).fresh = s.fresh := rfl
@[simp] theorem State.setCore_free (s : State) (k : Nat) (c : Core) : (s.setCore k c).free = s.free := rfl
@[simp] theorem State.setCore_mem (s : State) (k : Nat) (c : Core) : (s.setCore k c).mem = s.mem := rfl
@[simp] theorem State.setCore_l2 (s : State) (k : Nat) (c : Core) : (s.setCore k c).l2 = s.l2 := rfl
@[simp] theorem State.setCore_seals (s : State) (k : Nat) (c : Core) : (s.setCore k c).seals = s.seals := rfl
@[simp] theorem State.setCore_bad (s : State) (k : Nat) (c : Core) : (s.setCore k c).bad = s.bad := rfl
@[simp] theorem State.setCore_dead (s : State) (k : Nat) (c : Core) : (s.setCore k c).dead = s.dead := rfl
@[simp] theorem State.setCore_watch (s : State) (k : Nat) (c : Core) : (s.setCore k c).watch = s.watch := rfl
@[simp] theorem State.setCore_groups (s : State) (k : Nat) (c : Core) : (s.setCore k c).groups = s.groups := rfl
@[simp] theorem State.setCore_blocks (s : State) (k : Nat) (c : Core) : (s.setCore k c).blocks = s.blocks := rfl
@[simp] theorem State.setCore_grids (s : State) (k : Nat) (c : Core) : (s.setCore k c).grids = s.grids := rfl
@[simp] theorem State.setCore_contexts (s : State) (k : Nat) (c : Core) : (s.setCore k c).contexts = s.contexts := rfl
@[simp] theorem State.setCore_sets (s : State) (k : Nat) (c : Core) : (s.setCore k c).sets = s.sets := rfl
@[simp] theorem State.setCore_cores (s : State) (k : Nat) (c : Core) : (s.setCore k c).cores = put k c s.cores := rfl
@[simp] theorem State.setCore_dies (s : State) (k : Nat) (c : Core) : (s.setCore k c).dies = s.dies := rfl
@[simp] theorem State.setCore_parts (s : State) (k : Nat) (c : Core) : (s.setCore k c).parts = s.parts := rfl
@[simp] theorem State.setCore_queues (s : State) (k : Nat) (c : Core) : (s.setCore k c).queues = s.queues := rfl
@[simp] theorem State.setCore_feGrids (s : State) (k : Nat) (c : Core) : (s.setCore k c).feGrids = s.feGrids := rfl
@[simp] theorem State.setCore_wide (s : State) (k : Nat) (c : Core) : (s.setCore k c).wide = s.wide := rfl
@[simp] theorem State.setCore_podEarly (s : State) (k : Nat) (c : Core) : (s.setCore k c).podEarly = s.podEarly := rfl
@[simp] theorem State.setCore_ops (s : State) (k : Nat) (c : Core) : (s.setCore k c).ops = s.ops := rfl
@[simp] theorem State.setCore_tlb (s : State) (k : Nat) (c : Core) : (s.setCore k c).tlb = s.tlb := rfl
@[simp] theorem State.setCore_atc (s : State) (k : Nat) (c : Core) : (s.setCore k c).atc = s.atc := rfl
@[simp] theorem State.setCore_requests (s : State) (k : Nat) (c : Core) : (s.setCore k c).requests = s.requests := rfl
@[simp] theorem State.setCore_invals (s : State) (k : Nat) (c : Core) : (s.setCore k c).invals = s.invals := rfl
@[simp] theorem State.setCore_parked (s : State) (k : Nat) (c : Core) : (s.setCore k c).parked = s.parked := rfl
@[simp] theorem State.setCore_replicas (s : State) (k : Nat) (c : Core) : (s.setCore k c).replicas = s.replicas := rfl
@[simp] theorem State.setCore_pool (s : State) (k : Nat) (c : Core) : (s.setCore k c).pool = s.pool := rfl
@[simp] theorem State.setCore_base (s : State) (k : Nat) (c : Core) : (s.setCore k c).base = s.base := rfl
@[simp] theorem State.setCore_streams (s : State) (k : Nat) (c : Core) : (s.setCore k c).streams = s.streams := rfl
@[simp] theorem State.setCore_keys (s : State) (k : Nat) (c : Core) : (s.setCore k c).keys = s.keys := rfl
@[simp] theorem State.setCore_stir (s : State) (k : Nat) (c : Core) : (s.setCore k c).stir = s.stir := rfl
@[simp] theorem State.setCore_freed (s : State) (k : Nat) (c : Core) : (s.setCore k c).freed = s.freed := rfl
@[simp] theorem State.setCore_sent (s : State) (k : Nat) (c : Core) : (s.setCore k c).sent = s.sent := rfl
@[simp] theorem State.setCore_replies (s : State) (k : Nat) (c : Core) : (s.setCore k c).replies = s.replies := rfl

/-! ## State.modCore -/

@[simp] theorem State.modCore_now (s : State) (k : Nat) (f : Core → Core) : (s.modCore k f).now = s.now := rfl
@[simp] theorem State.modCore_agenda (s : State) (k : Nat) (f : Core → Core) : (s.modCore k f).agenda = s.agenda := rfl
@[simp] theorem State.modCore_cur (s : State) (k : Nat) (f : Core → Core) : (s.modCore k f).cur = s.cur := rfl
@[simp] theorem State.modCore_fresh (s : State) (k : Nat) (f : Core → Core) : (s.modCore k f).fresh = s.fresh := rfl
@[simp] theorem State.modCore_free (s : State) (k : Nat) (f : Core → Core) : (s.modCore k f).free = s.free := rfl
@[simp] theorem State.modCore_mem (s : State) (k : Nat) (f : Core → Core) : (s.modCore k f).mem = s.mem := rfl
@[simp] theorem State.modCore_l2 (s : State) (k : Nat) (f : Core → Core) : (s.modCore k f).l2 = s.l2 := rfl
@[simp] theorem State.modCore_seals (s : State) (k : Nat) (f : Core → Core) : (s.modCore k f).seals = s.seals := rfl
@[simp] theorem State.modCore_bad (s : State) (k : Nat) (f : Core → Core) : (s.modCore k f).bad = s.bad := rfl
@[simp] theorem State.modCore_dead (s : State) (k : Nat) (f : Core → Core) : (s.modCore k f).dead = s.dead := rfl
@[simp] theorem State.modCore_watch (s : State) (k : Nat) (f : Core → Core) : (s.modCore k f).watch = s.watch := rfl
@[simp] theorem State.modCore_groups (s : State) (k : Nat) (f : Core → Core) : (s.modCore k f).groups = s.groups := rfl
@[simp] theorem State.modCore_blocks (s : State) (k : Nat) (f : Core → Core) : (s.modCore k f).blocks = s.blocks := rfl
@[simp] theorem State.modCore_grids (s : State) (k : Nat) (f : Core → Core) : (s.modCore k f).grids = s.grids := rfl
@[simp] theorem State.modCore_contexts (s : State) (k : Nat) (f : Core → Core) : (s.modCore k f).contexts = s.contexts := rfl
@[simp] theorem State.modCore_sets (s : State) (k : Nat) (f : Core → Core) : (s.modCore k f).sets = s.sets := rfl
@[simp] theorem State.modCore_cores (s : State) (k : Nat) (f : Core → Core) : (s.modCore k f).cores = put k (f (s.core k)) s.cores := rfl
@[simp] theorem State.modCore_dies (s : State) (k : Nat) (f : Core → Core) : (s.modCore k f).dies = s.dies := rfl
@[simp] theorem State.modCore_parts (s : State) (k : Nat) (f : Core → Core) : (s.modCore k f).parts = s.parts := rfl
@[simp] theorem State.modCore_queues (s : State) (k : Nat) (f : Core → Core) : (s.modCore k f).queues = s.queues := rfl
@[simp] theorem State.modCore_feGrids (s : State) (k : Nat) (f : Core → Core) : (s.modCore k f).feGrids = s.feGrids := rfl
@[simp] theorem State.modCore_wide (s : State) (k : Nat) (f : Core → Core) : (s.modCore k f).wide = s.wide := rfl
@[simp] theorem State.modCore_podEarly (s : State) (k : Nat) (f : Core → Core) : (s.modCore k f).podEarly = s.podEarly := rfl
@[simp] theorem State.modCore_ops (s : State) (k : Nat) (f : Core → Core) : (s.modCore k f).ops = s.ops := rfl
@[simp] theorem State.modCore_tlb (s : State) (k : Nat) (f : Core → Core) : (s.modCore k f).tlb = s.tlb := rfl
@[simp] theorem State.modCore_atc (s : State) (k : Nat) (f : Core → Core) : (s.modCore k f).atc = s.atc := rfl
@[simp] theorem State.modCore_requests (s : State) (k : Nat) (f : Core → Core) : (s.modCore k f).requests = s.requests := rfl
@[simp] theorem State.modCore_invals (s : State) (k : Nat) (f : Core → Core) : (s.modCore k f).invals = s.invals := rfl
@[simp] theorem State.modCore_parked (s : State) (k : Nat) (f : Core → Core) : (s.modCore k f).parked = s.parked := rfl
@[simp] theorem State.modCore_replicas (s : State) (k : Nat) (f : Core → Core) : (s.modCore k f).replicas = s.replicas := rfl
@[simp] theorem State.modCore_pool (s : State) (k : Nat) (f : Core → Core) : (s.modCore k f).pool = s.pool := rfl
@[simp] theorem State.modCore_base (s : State) (k : Nat) (f : Core → Core) : (s.modCore k f).base = s.base := rfl
@[simp] theorem State.modCore_streams (s : State) (k : Nat) (f : Core → Core) : (s.modCore k f).streams = s.streams := rfl
@[simp] theorem State.modCore_keys (s : State) (k : Nat) (f : Core → Core) : (s.modCore k f).keys = s.keys := rfl
@[simp] theorem State.modCore_stir (s : State) (k : Nat) (f : Core → Core) : (s.modCore k f).stir = s.stir := rfl
@[simp] theorem State.modCore_freed (s : State) (k : Nat) (f : Core → Core) : (s.modCore k f).freed = s.freed := rfl
@[simp] theorem State.modCore_sent (s : State) (k : Nat) (f : Core → Core) : (s.modCore k f).sent = s.sent := rfl
@[simp] theorem State.modCore_replies (s : State) (k : Nat) (f : Core → Core) : (s.modCore k f).replies = s.replies := rfl

/-! ## State.setDie -/

@[simp] theorem State.setDie_now (s : State) (k : Nat) (c : Die) : (s.setDie k c).now = s.now := rfl
@[simp] theorem State.setDie_agenda (s : State) (k : Nat) (c : Die) : (s.setDie k c).agenda = s.agenda := rfl
@[simp] theorem State.setDie_cur (s : State) (k : Nat) (c : Die) : (s.setDie k c).cur = s.cur := rfl
@[simp] theorem State.setDie_fresh (s : State) (k : Nat) (c : Die) : (s.setDie k c).fresh = s.fresh := rfl
@[simp] theorem State.setDie_free (s : State) (k : Nat) (c : Die) : (s.setDie k c).free = s.free := rfl
@[simp] theorem State.setDie_mem (s : State) (k : Nat) (c : Die) : (s.setDie k c).mem = s.mem := rfl
@[simp] theorem State.setDie_l2 (s : State) (k : Nat) (c : Die) : (s.setDie k c).l2 = s.l2 := rfl
@[simp] theorem State.setDie_seals (s : State) (k : Nat) (c : Die) : (s.setDie k c).seals = s.seals := rfl
@[simp] theorem State.setDie_bad (s : State) (k : Nat) (c : Die) : (s.setDie k c).bad = s.bad := rfl
@[simp] theorem State.setDie_dead (s : State) (k : Nat) (c : Die) : (s.setDie k c).dead = s.dead := rfl
@[simp] theorem State.setDie_watch (s : State) (k : Nat) (c : Die) : (s.setDie k c).watch = s.watch := rfl
@[simp] theorem State.setDie_groups (s : State) (k : Nat) (c : Die) : (s.setDie k c).groups = s.groups := rfl
@[simp] theorem State.setDie_blocks (s : State) (k : Nat) (c : Die) : (s.setDie k c).blocks = s.blocks := rfl
@[simp] theorem State.setDie_grids (s : State) (k : Nat) (c : Die) : (s.setDie k c).grids = s.grids := rfl
@[simp] theorem State.setDie_contexts (s : State) (k : Nat) (c : Die) : (s.setDie k c).contexts = s.contexts := rfl
@[simp] theorem State.setDie_sets (s : State) (k : Nat) (c : Die) : (s.setDie k c).sets = s.sets := rfl
@[simp] theorem State.setDie_cores (s : State) (k : Nat) (c : Die) : (s.setDie k c).cores = s.cores := rfl
@[simp] theorem State.setDie_dies (s : State) (k : Nat) (c : Die) : (s.setDie k c).dies = put k c s.dies := rfl
@[simp] theorem State.setDie_parts (s : State) (k : Nat) (c : Die) : (s.setDie k c).parts = s.parts := rfl
@[simp] theorem State.setDie_queues (s : State) (k : Nat) (c : Die) : (s.setDie k c).queues = s.queues := rfl
@[simp] theorem State.setDie_feGrids (s : State) (k : Nat) (c : Die) : (s.setDie k c).feGrids = s.feGrids := rfl
@[simp] theorem State.setDie_wide (s : State) (k : Nat) (c : Die) : (s.setDie k c).wide = s.wide := rfl
@[simp] theorem State.setDie_podEarly (s : State) (k : Nat) (c : Die) : (s.setDie k c).podEarly = s.podEarly := rfl
@[simp] theorem State.setDie_ops (s : State) (k : Nat) (c : Die) : (s.setDie k c).ops = s.ops := rfl
@[simp] theorem State.setDie_tlb (s : State) (k : Nat) (c : Die) : (s.setDie k c).tlb = s.tlb := rfl
@[simp] theorem State.setDie_atc (s : State) (k : Nat) (c : Die) : (s.setDie k c).atc = s.atc := rfl
@[simp] theorem State.setDie_requests (s : State) (k : Nat) (c : Die) : (s.setDie k c).requests = s.requests := rfl
@[simp] theorem State.setDie_invals (s : State) (k : Nat) (c : Die) : (s.setDie k c).invals = s.invals := rfl
@[simp] theorem State.setDie_parked (s : State) (k : Nat) (c : Die) : (s.setDie k c).parked = s.parked := rfl
@[simp] theorem State.setDie_replicas (s : State) (k : Nat) (c : Die) : (s.setDie k c).replicas = s.replicas := rfl
@[simp] theorem State.setDie_pool (s : State) (k : Nat) (c : Die) : (s.setDie k c).pool = s.pool := rfl
@[simp] theorem State.setDie_base (s : State) (k : Nat) (c : Die) : (s.setDie k c).base = s.base := rfl
@[simp] theorem State.setDie_streams (s : State) (k : Nat) (c : Die) : (s.setDie k c).streams = s.streams := rfl
@[simp] theorem State.setDie_keys (s : State) (k : Nat) (c : Die) : (s.setDie k c).keys = s.keys := rfl
@[simp] theorem State.setDie_stir (s : State) (k : Nat) (c : Die) : (s.setDie k c).stir = s.stir := rfl
@[simp] theorem State.setDie_freed (s : State) (k : Nat) (c : Die) : (s.setDie k c).freed = s.freed := rfl
@[simp] theorem State.setDie_sent (s : State) (k : Nat) (c : Die) : (s.setDie k c).sent = s.sent := rfl
@[simp] theorem State.setDie_replies (s : State) (k : Nat) (c : Die) : (s.setDie k c).replies = s.replies := rfl

/-! ## State.modDie -/

@[simp] theorem State.modDie_now (s : State) (k : Nat) (f : Die → Die) : (s.modDie k f).now = s.now := rfl
@[simp] theorem State.modDie_agenda (s : State) (k : Nat) (f : Die → Die) : (s.modDie k f).agenda = s.agenda := rfl
@[simp] theorem State.modDie_cur (s : State) (k : Nat) (f : Die → Die) : (s.modDie k f).cur = s.cur := rfl
@[simp] theorem State.modDie_fresh (s : State) (k : Nat) (f : Die → Die) : (s.modDie k f).fresh = s.fresh := rfl
@[simp] theorem State.modDie_free (s : State) (k : Nat) (f : Die → Die) : (s.modDie k f).free = s.free := rfl
@[simp] theorem State.modDie_mem (s : State) (k : Nat) (f : Die → Die) : (s.modDie k f).mem = s.mem := rfl
@[simp] theorem State.modDie_l2 (s : State) (k : Nat) (f : Die → Die) : (s.modDie k f).l2 = s.l2 := rfl
@[simp] theorem State.modDie_seals (s : State) (k : Nat) (f : Die → Die) : (s.modDie k f).seals = s.seals := rfl
@[simp] theorem State.modDie_bad (s : State) (k : Nat) (f : Die → Die) : (s.modDie k f).bad = s.bad := rfl
@[simp] theorem State.modDie_dead (s : State) (k : Nat) (f : Die → Die) : (s.modDie k f).dead = s.dead := rfl
@[simp] theorem State.modDie_watch (s : State) (k : Nat) (f : Die → Die) : (s.modDie k f).watch = s.watch := rfl
@[simp] theorem State.modDie_groups (s : State) (k : Nat) (f : Die → Die) : (s.modDie k f).groups = s.groups := rfl
@[simp] theorem State.modDie_blocks (s : State) (k : Nat) (f : Die → Die) : (s.modDie k f).blocks = s.blocks := rfl
@[simp] theorem State.modDie_grids (s : State) (k : Nat) (f : Die → Die) : (s.modDie k f).grids = s.grids := rfl
@[simp] theorem State.modDie_contexts (s : State) (k : Nat) (f : Die → Die) : (s.modDie k f).contexts = s.contexts := rfl
@[simp] theorem State.modDie_sets (s : State) (k : Nat) (f : Die → Die) : (s.modDie k f).sets = s.sets := rfl
@[simp] theorem State.modDie_cores (s : State) (k : Nat) (f : Die → Die) : (s.modDie k f).cores = s.cores := rfl
@[simp] theorem State.modDie_dies (s : State) (k : Nat) (f : Die → Die) : (s.modDie k f).dies = put k (f (s.die k)) s.dies := rfl
@[simp] theorem State.modDie_parts (s : State) (k : Nat) (f : Die → Die) : (s.modDie k f).parts = s.parts := rfl
@[simp] theorem State.modDie_queues (s : State) (k : Nat) (f : Die → Die) : (s.modDie k f).queues = s.queues := rfl
@[simp] theorem State.modDie_feGrids (s : State) (k : Nat) (f : Die → Die) : (s.modDie k f).feGrids = s.feGrids := rfl
@[simp] theorem State.modDie_wide (s : State) (k : Nat) (f : Die → Die) : (s.modDie k f).wide = s.wide := rfl
@[simp] theorem State.modDie_podEarly (s : State) (k : Nat) (f : Die → Die) : (s.modDie k f).podEarly = s.podEarly := rfl
@[simp] theorem State.modDie_ops (s : State) (k : Nat) (f : Die → Die) : (s.modDie k f).ops = s.ops := rfl
@[simp] theorem State.modDie_tlb (s : State) (k : Nat) (f : Die → Die) : (s.modDie k f).tlb = s.tlb := rfl
@[simp] theorem State.modDie_atc (s : State) (k : Nat) (f : Die → Die) : (s.modDie k f).atc = s.atc := rfl
@[simp] theorem State.modDie_requests (s : State) (k : Nat) (f : Die → Die) : (s.modDie k f).requests = s.requests := rfl
@[simp] theorem State.modDie_invals (s : State) (k : Nat) (f : Die → Die) : (s.modDie k f).invals = s.invals := rfl
@[simp] theorem State.modDie_parked (s : State) (k : Nat) (f : Die → Die) : (s.modDie k f).parked = s.parked := rfl
@[simp] theorem State.modDie_replicas (s : State) (k : Nat) (f : Die → Die) : (s.modDie k f).replicas = s.replicas := rfl
@[simp] theorem State.modDie_pool (s : State) (k : Nat) (f : Die → Die) : (s.modDie k f).pool = s.pool := rfl
@[simp] theorem State.modDie_base (s : State) (k : Nat) (f : Die → Die) : (s.modDie k f).base = s.base := rfl
@[simp] theorem State.modDie_streams (s : State) (k : Nat) (f : Die → Die) : (s.modDie k f).streams = s.streams := rfl
@[simp] theorem State.modDie_keys (s : State) (k : Nat) (f : Die → Die) : (s.modDie k f).keys = s.keys := rfl
@[simp] theorem State.modDie_stir (s : State) (k : Nat) (f : Die → Die) : (s.modDie k f).stir = s.stir := rfl
@[simp] theorem State.modDie_freed (s : State) (k : Nat) (f : Die → Die) : (s.modDie k f).freed = s.freed := rfl
@[simp] theorem State.modDie_sent (s : State) (k : Nat) (f : Die → Die) : (s.modDie k f).sent = s.sent := rfl
@[simp] theorem State.modDie_replies (s : State) (k : Nat) (f : Die → Die) : (s.modDie k f).replies = s.replies := rfl

/-! ## State.setPart -/

@[simp] theorem State.setPart_now (s : State) (k : Nat) (c : Partition) : (s.setPart k c).now = s.now := rfl
@[simp] theorem State.setPart_agenda (s : State) (k : Nat) (c : Partition) : (s.setPart k c).agenda = s.agenda := rfl
@[simp] theorem State.setPart_cur (s : State) (k : Nat) (c : Partition) : (s.setPart k c).cur = s.cur := rfl
@[simp] theorem State.setPart_fresh (s : State) (k : Nat) (c : Partition) : (s.setPart k c).fresh = s.fresh := rfl
@[simp] theorem State.setPart_free (s : State) (k : Nat) (c : Partition) : (s.setPart k c).free = s.free := rfl
@[simp] theorem State.setPart_mem (s : State) (k : Nat) (c : Partition) : (s.setPart k c).mem = s.mem := rfl
@[simp] theorem State.setPart_l2 (s : State) (k : Nat) (c : Partition) : (s.setPart k c).l2 = s.l2 := rfl
@[simp] theorem State.setPart_seals (s : State) (k : Nat) (c : Partition) : (s.setPart k c).seals = s.seals := rfl
@[simp] theorem State.setPart_bad (s : State) (k : Nat) (c : Partition) : (s.setPart k c).bad = s.bad := rfl
@[simp] theorem State.setPart_dead (s : State) (k : Nat) (c : Partition) : (s.setPart k c).dead = s.dead := rfl
@[simp] theorem State.setPart_watch (s : State) (k : Nat) (c : Partition) : (s.setPart k c).watch = s.watch := rfl
@[simp] theorem State.setPart_groups (s : State) (k : Nat) (c : Partition) : (s.setPart k c).groups = s.groups := rfl
@[simp] theorem State.setPart_blocks (s : State) (k : Nat) (c : Partition) : (s.setPart k c).blocks = s.blocks := rfl
@[simp] theorem State.setPart_grids (s : State) (k : Nat) (c : Partition) : (s.setPart k c).grids = s.grids := rfl
@[simp] theorem State.setPart_contexts (s : State) (k : Nat) (c : Partition) : (s.setPart k c).contexts = s.contexts := rfl
@[simp] theorem State.setPart_sets (s : State) (k : Nat) (c : Partition) : (s.setPart k c).sets = s.sets := rfl
@[simp] theorem State.setPart_cores (s : State) (k : Nat) (c : Partition) : (s.setPart k c).cores = s.cores := rfl
@[simp] theorem State.setPart_dies (s : State) (k : Nat) (c : Partition) : (s.setPart k c).dies = s.dies := rfl
@[simp] theorem State.setPart_parts (s : State) (k : Nat) (c : Partition) : (s.setPart k c).parts = put k c s.parts := rfl
@[simp] theorem State.setPart_queues (s : State) (k : Nat) (c : Partition) : (s.setPart k c).queues = s.queues := rfl
@[simp] theorem State.setPart_feGrids (s : State) (k : Nat) (c : Partition) : (s.setPart k c).feGrids = s.feGrids := rfl
@[simp] theorem State.setPart_wide (s : State) (k : Nat) (c : Partition) : (s.setPart k c).wide = s.wide := rfl
@[simp] theorem State.setPart_podEarly (s : State) (k : Nat) (c : Partition) : (s.setPart k c).podEarly = s.podEarly := rfl
@[simp] theorem State.setPart_ops (s : State) (k : Nat) (c : Partition) : (s.setPart k c).ops = s.ops := rfl
@[simp] theorem State.setPart_tlb (s : State) (k : Nat) (c : Partition) : (s.setPart k c).tlb = s.tlb := rfl
@[simp] theorem State.setPart_atc (s : State) (k : Nat) (c : Partition) : (s.setPart k c).atc = s.atc := rfl
@[simp] theorem State.setPart_requests (s : State) (k : Nat) (c : Partition) : (s.setPart k c).requests = s.requests := rfl
@[simp] theorem State.setPart_invals (s : State) (k : Nat) (c : Partition) : (s.setPart k c).invals = s.invals := rfl
@[simp] theorem State.setPart_parked (s : State) (k : Nat) (c : Partition) : (s.setPart k c).parked = s.parked := rfl
@[simp] theorem State.setPart_replicas (s : State) (k : Nat) (c : Partition) : (s.setPart k c).replicas = s.replicas := rfl
@[simp] theorem State.setPart_pool (s : State) (k : Nat) (c : Partition) : (s.setPart k c).pool = s.pool := rfl
@[simp] theorem State.setPart_base (s : State) (k : Nat) (c : Partition) : (s.setPart k c).base = s.base := rfl
@[simp] theorem State.setPart_streams (s : State) (k : Nat) (c : Partition) : (s.setPart k c).streams = s.streams := rfl
@[simp] theorem State.setPart_keys (s : State) (k : Nat) (c : Partition) : (s.setPart k c).keys = s.keys := rfl
@[simp] theorem State.setPart_stir (s : State) (k : Nat) (c : Partition) : (s.setPart k c).stir = s.stir := rfl
@[simp] theorem State.setPart_freed (s : State) (k : Nat) (c : Partition) : (s.setPart k c).freed = s.freed := rfl
@[simp] theorem State.setPart_sent (s : State) (k : Nat) (c : Partition) : (s.setPart k c).sent = s.sent := rfl
@[simp] theorem State.setPart_replies (s : State) (k : Nat) (c : Partition) : (s.setPart k c).replies = s.replies := rfl

/-! ## State.setSet -/

@[simp] theorem State.setSet_now (s : State) (a k : Nat) (c : CoreSet) : (s.setSet a k c).now = s.now := rfl
@[simp] theorem State.setSet_agenda (s : State) (a k : Nat) (c : CoreSet) : (s.setSet a k c).agenda = s.agenda := rfl
@[simp] theorem State.setSet_cur (s : State) (a k : Nat) (c : CoreSet) : (s.setSet a k c).cur = s.cur := rfl
@[simp] theorem State.setSet_fresh (s : State) (a k : Nat) (c : CoreSet) : (s.setSet a k c).fresh = s.fresh := rfl
@[simp] theorem State.setSet_free (s : State) (a k : Nat) (c : CoreSet) : (s.setSet a k c).free = s.free := rfl
@[simp] theorem State.setSet_mem (s : State) (a k : Nat) (c : CoreSet) : (s.setSet a k c).mem = s.mem := rfl
@[simp] theorem State.setSet_l2 (s : State) (a k : Nat) (c : CoreSet) : (s.setSet a k c).l2 = s.l2 := rfl
@[simp] theorem State.setSet_seals (s : State) (a k : Nat) (c : CoreSet) : (s.setSet a k c).seals = s.seals := rfl
@[simp] theorem State.setSet_bad (s : State) (a k : Nat) (c : CoreSet) : (s.setSet a k c).bad = s.bad := rfl
@[simp] theorem State.setSet_dead (s : State) (a k : Nat) (c : CoreSet) : (s.setSet a k c).dead = s.dead := rfl
@[simp] theorem State.setSet_watch (s : State) (a k : Nat) (c : CoreSet) : (s.setSet a k c).watch = s.watch := rfl
@[simp] theorem State.setSet_groups (s : State) (a k : Nat) (c : CoreSet) : (s.setSet a k c).groups = s.groups := rfl
@[simp] theorem State.setSet_blocks (s : State) (a k : Nat) (c : CoreSet) : (s.setSet a k c).blocks = s.blocks := rfl
@[simp] theorem State.setSet_grids (s : State) (a k : Nat) (c : CoreSet) : (s.setSet a k c).grids = s.grids := rfl
@[simp] theorem State.setSet_contexts (s : State) (a k : Nat) (c : CoreSet) : (s.setSet a k c).contexts = s.contexts := rfl
@[simp] theorem State.setSet_sets (s : State) (a k : Nat) (c : CoreSet) : (s.setSet a k c).sets = put (State.setKey a k) c s.sets := rfl
@[simp] theorem State.setSet_cores (s : State) (a k : Nat) (c : CoreSet) : (s.setSet a k c).cores = s.cores := rfl
@[simp] theorem State.setSet_dies (s : State) (a k : Nat) (c : CoreSet) : (s.setSet a k c).dies = s.dies := rfl
@[simp] theorem State.setSet_parts (s : State) (a k : Nat) (c : CoreSet) : (s.setSet a k c).parts = s.parts := rfl
@[simp] theorem State.setSet_queues (s : State) (a k : Nat) (c : CoreSet) : (s.setSet a k c).queues = s.queues := rfl
@[simp] theorem State.setSet_feGrids (s : State) (a k : Nat) (c : CoreSet) : (s.setSet a k c).feGrids = s.feGrids := rfl
@[simp] theorem State.setSet_wide (s : State) (a k : Nat) (c : CoreSet) : (s.setSet a k c).wide = s.wide := rfl
@[simp] theorem State.setSet_podEarly (s : State) (a k : Nat) (c : CoreSet) : (s.setSet a k c).podEarly = s.podEarly := rfl
@[simp] theorem State.setSet_ops (s : State) (a k : Nat) (c : CoreSet) : (s.setSet a k c).ops = s.ops := rfl
@[simp] theorem State.setSet_tlb (s : State) (a k : Nat) (c : CoreSet) : (s.setSet a k c).tlb = s.tlb := rfl
@[simp] theorem State.setSet_atc (s : State) (a k : Nat) (c : CoreSet) : (s.setSet a k c).atc = s.atc := rfl
@[simp] theorem State.setSet_requests (s : State) (a k : Nat) (c : CoreSet) : (s.setSet a k c).requests = s.requests := rfl
@[simp] theorem State.setSet_invals (s : State) (a k : Nat) (c : CoreSet) : (s.setSet a k c).invals = s.invals := rfl
@[simp] theorem State.setSet_parked (s : State) (a k : Nat) (c : CoreSet) : (s.setSet a k c).parked = s.parked := rfl
@[simp] theorem State.setSet_replicas (s : State) (a k : Nat) (c : CoreSet) : (s.setSet a k c).replicas = s.replicas := rfl
@[simp] theorem State.setSet_pool (s : State) (a k : Nat) (c : CoreSet) : (s.setSet a k c).pool = s.pool := rfl
@[simp] theorem State.setSet_base (s : State) (a k : Nat) (c : CoreSet) : (s.setSet a k c).base = s.base := rfl
@[simp] theorem State.setSet_streams (s : State) (a k : Nat) (c : CoreSet) : (s.setSet a k c).streams = s.streams := rfl
@[simp] theorem State.setSet_keys (s : State) (a k : Nat) (c : CoreSet) : (s.setSet a k c).keys = s.keys := rfl
@[simp] theorem State.setSet_stir (s : State) (a k : Nat) (c : CoreSet) : (s.setSet a k c).stir = s.stir := rfl
@[simp] theorem State.setSet_freed (s : State) (a k : Nat) (c : CoreSet) : (s.setSet a k c).freed = s.freed := rfl
@[simp] theorem State.setSet_sent (s : State) (a k : Nat) (c : CoreSet) : (s.setSet a k c).sent = s.sent := rfl
@[simp] theorem State.setSet_replies (s : State) (a k : Nat) (c : CoreSet) : (s.setSet a k c).replies = s.replies := rfl

/-! ## State.modSet -/

@[simp] theorem State.modSet_now (s : State) (a k : Nat) (f : CoreSet → CoreSet) : (s.modSet a k f).now = s.now := rfl
@[simp] theorem State.modSet_agenda (s : State) (a k : Nat) (f : CoreSet → CoreSet) : (s.modSet a k f).agenda = s.agenda := rfl
@[simp] theorem State.modSet_cur (s : State) (a k : Nat) (f : CoreSet → CoreSet) : (s.modSet a k f).cur = s.cur := rfl
@[simp] theorem State.modSet_fresh (s : State) (a k : Nat) (f : CoreSet → CoreSet) : (s.modSet a k f).fresh = s.fresh := rfl
@[simp] theorem State.modSet_free (s : State) (a k : Nat) (f : CoreSet → CoreSet) : (s.modSet a k f).free = s.free := rfl
@[simp] theorem State.modSet_mem (s : State) (a k : Nat) (f : CoreSet → CoreSet) : (s.modSet a k f).mem = s.mem := rfl
@[simp] theorem State.modSet_l2 (s : State) (a k : Nat) (f : CoreSet → CoreSet) : (s.modSet a k f).l2 = s.l2 := rfl
@[simp] theorem State.modSet_seals (s : State) (a k : Nat) (f : CoreSet → CoreSet) : (s.modSet a k f).seals = s.seals := rfl
@[simp] theorem State.modSet_bad (s : State) (a k : Nat) (f : CoreSet → CoreSet) : (s.modSet a k f).bad = s.bad := rfl
@[simp] theorem State.modSet_dead (s : State) (a k : Nat) (f : CoreSet → CoreSet) : (s.modSet a k f).dead = s.dead := rfl
@[simp] theorem State.modSet_watch (s : State) (a k : Nat) (f : CoreSet → CoreSet) : (s.modSet a k f).watch = s.watch := rfl
@[simp] theorem State.modSet_groups (s : State) (a k : Nat) (f : CoreSet → CoreSet) : (s.modSet a k f).groups = s.groups := rfl
@[simp] theorem State.modSet_blocks (s : State) (a k : Nat) (f : CoreSet → CoreSet) : (s.modSet a k f).blocks = s.blocks := rfl
@[simp] theorem State.modSet_grids (s : State) (a k : Nat) (f : CoreSet → CoreSet) : (s.modSet a k f).grids = s.grids := rfl
@[simp] theorem State.modSet_contexts (s : State) (a k : Nat) (f : CoreSet → CoreSet) : (s.modSet a k f).contexts = s.contexts := rfl
@[simp] theorem State.modSet_sets (s : State) (a k : Nat) (f : CoreSet → CoreSet) : (s.modSet a k f).sets = put (State.setKey a k) (f (s.set a k)) s.sets := rfl
@[simp] theorem State.modSet_cores (s : State) (a k : Nat) (f : CoreSet → CoreSet) : (s.modSet a k f).cores = s.cores := rfl
@[simp] theorem State.modSet_dies (s : State) (a k : Nat) (f : CoreSet → CoreSet) : (s.modSet a k f).dies = s.dies := rfl
@[simp] theorem State.modSet_parts (s : State) (a k : Nat) (f : CoreSet → CoreSet) : (s.modSet a k f).parts = s.parts := rfl
@[simp] theorem State.modSet_queues (s : State) (a k : Nat) (f : CoreSet → CoreSet) : (s.modSet a k f).queues = s.queues := rfl
@[simp] theorem State.modSet_feGrids (s : State) (a k : Nat) (f : CoreSet → CoreSet) : (s.modSet a k f).feGrids = s.feGrids := rfl
@[simp] theorem State.modSet_wide (s : State) (a k : Nat) (f : CoreSet → CoreSet) : (s.modSet a k f).wide = s.wide := rfl
@[simp] theorem State.modSet_podEarly (s : State) (a k : Nat) (f : CoreSet → CoreSet) : (s.modSet a k f).podEarly = s.podEarly := rfl
@[simp] theorem State.modSet_ops (s : State) (a k : Nat) (f : CoreSet → CoreSet) : (s.modSet a k f).ops = s.ops := rfl
@[simp] theorem State.modSet_tlb (s : State) (a k : Nat) (f : CoreSet → CoreSet) : (s.modSet a k f).tlb = s.tlb := rfl
@[simp] theorem State.modSet_atc (s : State) (a k : Nat) (f : CoreSet → CoreSet) : (s.modSet a k f).atc = s.atc := rfl
@[simp] theorem State.modSet_requests (s : State) (a k : Nat) (f : CoreSet → CoreSet) : (s.modSet a k f).requests = s.requests := rfl
@[simp] theorem State.modSet_invals (s : State) (a k : Nat) (f : CoreSet → CoreSet) : (s.modSet a k f).invals = s.invals := rfl
@[simp] theorem State.modSet_parked (s : State) (a k : Nat) (f : CoreSet → CoreSet) : (s.modSet a k f).parked = s.parked := rfl
@[simp] theorem State.modSet_replicas (s : State) (a k : Nat) (f : CoreSet → CoreSet) : (s.modSet a k f).replicas = s.replicas := rfl
@[simp] theorem State.modSet_pool (s : State) (a k : Nat) (f : CoreSet → CoreSet) : (s.modSet a k f).pool = s.pool := rfl
@[simp] theorem State.modSet_base (s : State) (a k : Nat) (f : CoreSet → CoreSet) : (s.modSet a k f).base = s.base := rfl
@[simp] theorem State.modSet_streams (s : State) (a k : Nat) (f : CoreSet → CoreSet) : (s.modSet a k f).streams = s.streams := rfl
@[simp] theorem State.modSet_keys (s : State) (a k : Nat) (f : CoreSet → CoreSet) : (s.modSet a k f).keys = s.keys := rfl
@[simp] theorem State.modSet_stir (s : State) (a k : Nat) (f : CoreSet → CoreSet) : (s.modSet a k f).stir = s.stir := rfl
@[simp] theorem State.modSet_freed (s : State) (a k : Nat) (f : CoreSet → CoreSet) : (s.modSet a k f).freed = s.freed := rfl
@[simp] theorem State.modSet_sent (s : State) (a k : Nat) (f : CoreSet → CoreSet) : (s.modSet a k f).sent = s.sent := rfl
@[simp] theorem State.modSet_replies (s : State) (a k : Nat) (f : CoreSet → CoreSet) : (s.modSet a k f).replies = s.replies := rfl

/-! ## State.setQueue -/

@[simp] theorem State.setQueue_now (s : State) (a k : Nat) (c : Queue) : (s.setQueue a k c).now = s.now := rfl
@[simp] theorem State.setQueue_agenda (s : State) (a k : Nat) (c : Queue) : (s.setQueue a k c).agenda = s.agenda := rfl
@[simp] theorem State.setQueue_cur (s : State) (a k : Nat) (c : Queue) : (s.setQueue a k c).cur = s.cur := rfl
@[simp] theorem State.setQueue_fresh (s : State) (a k : Nat) (c : Queue) : (s.setQueue a k c).fresh = s.fresh := rfl
@[simp] theorem State.setQueue_free (s : State) (a k : Nat) (c : Queue) : (s.setQueue a k c).free = s.free := rfl
@[simp] theorem State.setQueue_mem (s : State) (a k : Nat) (c : Queue) : (s.setQueue a k c).mem = s.mem := rfl
@[simp] theorem State.setQueue_l2 (s : State) (a k : Nat) (c : Queue) : (s.setQueue a k c).l2 = s.l2 := rfl
@[simp] theorem State.setQueue_seals (s : State) (a k : Nat) (c : Queue) : (s.setQueue a k c).seals = s.seals := rfl
@[simp] theorem State.setQueue_bad (s : State) (a k : Nat) (c : Queue) : (s.setQueue a k c).bad = s.bad := rfl
@[simp] theorem State.setQueue_dead (s : State) (a k : Nat) (c : Queue) : (s.setQueue a k c).dead = s.dead := rfl
@[simp] theorem State.setQueue_watch (s : State) (a k : Nat) (c : Queue) : (s.setQueue a k c).watch = s.watch := rfl
@[simp] theorem State.setQueue_groups (s : State) (a k : Nat) (c : Queue) : (s.setQueue a k c).groups = s.groups := rfl
@[simp] theorem State.setQueue_blocks (s : State) (a k : Nat) (c : Queue) : (s.setQueue a k c).blocks = s.blocks := rfl
@[simp] theorem State.setQueue_grids (s : State) (a k : Nat) (c : Queue) : (s.setQueue a k c).grids = s.grids := rfl
@[simp] theorem State.setQueue_contexts (s : State) (a k : Nat) (c : Queue) : (s.setQueue a k c).contexts = s.contexts := rfl
@[simp] theorem State.setQueue_sets (s : State) (a k : Nat) (c : Queue) : (s.setQueue a k c).sets = s.sets := rfl
@[simp] theorem State.setQueue_cores (s : State) (a k : Nat) (c : Queue) : (s.setQueue a k c).cores = s.cores := rfl
@[simp] theorem State.setQueue_dies (s : State) (a k : Nat) (c : Queue) : (s.setQueue a k c).dies = s.dies := rfl
@[simp] theorem State.setQueue_parts (s : State) (a k : Nat) (c : Queue) : (s.setQueue a k c).parts = s.parts := rfl
@[simp] theorem State.setQueue_queues (s : State) (a k : Nat) (c : Queue) : (s.setQueue a k c).queues = put (State.queueKey a k) c s.queues := rfl
@[simp] theorem State.setQueue_feGrids (s : State) (a k : Nat) (c : Queue) : (s.setQueue a k c).feGrids = s.feGrids := rfl
@[simp] theorem State.setQueue_wide (s : State) (a k : Nat) (c : Queue) : (s.setQueue a k c).wide = s.wide := rfl
@[simp] theorem State.setQueue_podEarly (s : State) (a k : Nat) (c : Queue) : (s.setQueue a k c).podEarly = s.podEarly := rfl
@[simp] theorem State.setQueue_ops (s : State) (a k : Nat) (c : Queue) : (s.setQueue a k c).ops = s.ops := rfl
@[simp] theorem State.setQueue_tlb (s : State) (a k : Nat) (c : Queue) : (s.setQueue a k c).tlb = s.tlb := rfl
@[simp] theorem State.setQueue_atc (s : State) (a k : Nat) (c : Queue) : (s.setQueue a k c).atc = s.atc := rfl
@[simp] theorem State.setQueue_requests (s : State) (a k : Nat) (c : Queue) : (s.setQueue a k c).requests = s.requests := rfl
@[simp] theorem State.setQueue_invals (s : State) (a k : Nat) (c : Queue) : (s.setQueue a k c).invals = s.invals := rfl
@[simp] theorem State.setQueue_parked (s : State) (a k : Nat) (c : Queue) : (s.setQueue a k c).parked = s.parked := rfl
@[simp] theorem State.setQueue_replicas (s : State) (a k : Nat) (c : Queue) : (s.setQueue a k c).replicas = s.replicas := rfl
@[simp] theorem State.setQueue_pool (s : State) (a k : Nat) (c : Queue) : (s.setQueue a k c).pool = s.pool := rfl
@[simp] theorem State.setQueue_base (s : State) (a k : Nat) (c : Queue) : (s.setQueue a k c).base = s.base := rfl
@[simp] theorem State.setQueue_streams (s : State) (a k : Nat) (c : Queue) : (s.setQueue a k c).streams = s.streams := rfl
@[simp] theorem State.setQueue_keys (s : State) (a k : Nat) (c : Queue) : (s.setQueue a k c).keys = s.keys := rfl
@[simp] theorem State.setQueue_stir (s : State) (a k : Nat) (c : Queue) : (s.setQueue a k c).stir = s.stir := rfl
@[simp] theorem State.setQueue_freed (s : State) (a k : Nat) (c : Queue) : (s.setQueue a k c).freed = s.freed := rfl
@[simp] theorem State.setQueue_sent (s : State) (a k : Nat) (c : Queue) : (s.setQueue a k c).sent = s.sent := rfl
@[simp] theorem State.setQueue_replies (s : State) (a k : Nat) (c : Queue) : (s.setQueue a k c).replies = s.replies := rfl

/-! ## State.modQueue -/

@[simp] theorem State.modQueue_now (s : State) (a k : Nat) (f : Queue → Queue) : (s.modQueue a k f).now = s.now := rfl
@[simp] theorem State.modQueue_agenda (s : State) (a k : Nat) (f : Queue → Queue) : (s.modQueue a k f).agenda = s.agenda := rfl
@[simp] theorem State.modQueue_cur (s : State) (a k : Nat) (f : Queue → Queue) : (s.modQueue a k f).cur = s.cur := rfl
@[simp] theorem State.modQueue_fresh (s : State) (a k : Nat) (f : Queue → Queue) : (s.modQueue a k f).fresh = s.fresh := rfl
@[simp] theorem State.modQueue_free (s : State) (a k : Nat) (f : Queue → Queue) : (s.modQueue a k f).free = s.free := rfl
@[simp] theorem State.modQueue_mem (s : State) (a k : Nat) (f : Queue → Queue) : (s.modQueue a k f).mem = s.mem := rfl
@[simp] theorem State.modQueue_l2 (s : State) (a k : Nat) (f : Queue → Queue) : (s.modQueue a k f).l2 = s.l2 := rfl
@[simp] theorem State.modQueue_seals (s : State) (a k : Nat) (f : Queue → Queue) : (s.modQueue a k f).seals = s.seals := rfl
@[simp] theorem State.modQueue_bad (s : State) (a k : Nat) (f : Queue → Queue) : (s.modQueue a k f).bad = s.bad := rfl
@[simp] theorem State.modQueue_dead (s : State) (a k : Nat) (f : Queue → Queue) : (s.modQueue a k f).dead = s.dead := rfl
@[simp] theorem State.modQueue_watch (s : State) (a k : Nat) (f : Queue → Queue) : (s.modQueue a k f).watch = s.watch := rfl
@[simp] theorem State.modQueue_groups (s : State) (a k : Nat) (f : Queue → Queue) : (s.modQueue a k f).groups = s.groups := rfl
@[simp] theorem State.modQueue_blocks (s : State) (a k : Nat) (f : Queue → Queue) : (s.modQueue a k f).blocks = s.blocks := rfl
@[simp] theorem State.modQueue_grids (s : State) (a k : Nat) (f : Queue → Queue) : (s.modQueue a k f).grids = s.grids := rfl
@[simp] theorem State.modQueue_contexts (s : State) (a k : Nat) (f : Queue → Queue) : (s.modQueue a k f).contexts = s.contexts := rfl
@[simp] theorem State.modQueue_sets (s : State) (a k : Nat) (f : Queue → Queue) : (s.modQueue a k f).sets = s.sets := rfl
@[simp] theorem State.modQueue_cores (s : State) (a k : Nat) (f : Queue → Queue) : (s.modQueue a k f).cores = s.cores := rfl
@[simp] theorem State.modQueue_dies (s : State) (a k : Nat) (f : Queue → Queue) : (s.modQueue a k f).dies = s.dies := rfl
@[simp] theorem State.modQueue_parts (s : State) (a k : Nat) (f : Queue → Queue) : (s.modQueue a k f).parts = s.parts := rfl
@[simp] theorem State.modQueue_queues (s : State) (a k : Nat) (f : Queue → Queue) : (s.modQueue a k f).queues = put (State.queueKey a k) (f (s.queue a k)) s.queues := rfl
@[simp] theorem State.modQueue_feGrids (s : State) (a k : Nat) (f : Queue → Queue) : (s.modQueue a k f).feGrids = s.feGrids := rfl
@[simp] theorem State.modQueue_wide (s : State) (a k : Nat) (f : Queue → Queue) : (s.modQueue a k f).wide = s.wide := rfl
@[simp] theorem State.modQueue_podEarly (s : State) (a k : Nat) (f : Queue → Queue) : (s.modQueue a k f).podEarly = s.podEarly := rfl
@[simp] theorem State.modQueue_ops (s : State) (a k : Nat) (f : Queue → Queue) : (s.modQueue a k f).ops = s.ops := rfl
@[simp] theorem State.modQueue_tlb (s : State) (a k : Nat) (f : Queue → Queue) : (s.modQueue a k f).tlb = s.tlb := rfl
@[simp] theorem State.modQueue_atc (s : State) (a k : Nat) (f : Queue → Queue) : (s.modQueue a k f).atc = s.atc := rfl
@[simp] theorem State.modQueue_requests (s : State) (a k : Nat) (f : Queue → Queue) : (s.modQueue a k f).requests = s.requests := rfl
@[simp] theorem State.modQueue_invals (s : State) (a k : Nat) (f : Queue → Queue) : (s.modQueue a k f).invals = s.invals := rfl
@[simp] theorem State.modQueue_parked (s : State) (a k : Nat) (f : Queue → Queue) : (s.modQueue a k f).parked = s.parked := rfl
@[simp] theorem State.modQueue_replicas (s : State) (a k : Nat) (f : Queue → Queue) : (s.modQueue a k f).replicas = s.replicas := rfl
@[simp] theorem State.modQueue_pool (s : State) (a k : Nat) (f : Queue → Queue) : (s.modQueue a k f).pool = s.pool := rfl
@[simp] theorem State.modQueue_base (s : State) (a k : Nat) (f : Queue → Queue) : (s.modQueue a k f).base = s.base := rfl
@[simp] theorem State.modQueue_streams (s : State) (a k : Nat) (f : Queue → Queue) : (s.modQueue a k f).streams = s.streams := rfl
@[simp] theorem State.modQueue_keys (s : State) (a k : Nat) (f : Queue → Queue) : (s.modQueue a k f).keys = s.keys := rfl
@[simp] theorem State.modQueue_stir (s : State) (a k : Nat) (f : Queue → Queue) : (s.modQueue a k f).stir = s.stir := rfl
@[simp] theorem State.modQueue_freed (s : State) (a k : Nat) (f : Queue → Queue) : (s.modQueue a k f).freed = s.freed := rfl
@[simp] theorem State.modQueue_sent (s : State) (a k : Nat) (f : Queue → Queue) : (s.modQueue a k f).sent = s.sent := rfl
@[simp] theorem State.modQueue_replies (s : State) (a k : Nat) (f : Queue → Queue) : (s.modQueue a k f).replies = s.replies := rfl

/-! ## State.send -/

@[simp] theorem State.send_now (s : State) (m : Sent) : (s.send m).now = s.now := rfl
@[simp] theorem State.send_agenda (s : State) (m : Sent) : (s.send m).agenda = s.agenda := rfl
@[simp] theorem State.send_cur (s : State) (m : Sent) : (s.send m).cur = s.cur := rfl
@[simp] theorem State.send_fresh (s : State) (m : Sent) : (s.send m).fresh = s.fresh := rfl
@[simp] theorem State.send_free (s : State) (m : Sent) : (s.send m).free = s.free := rfl
@[simp] theorem State.send_mem (s : State) (m : Sent) : (s.send m).mem = s.mem := rfl
@[simp] theorem State.send_l2 (s : State) (m : Sent) : (s.send m).l2 = s.l2 := rfl
@[simp] theorem State.send_seals (s : State) (m : Sent) : (s.send m).seals = s.seals := rfl
@[simp] theorem State.send_bad (s : State) (m : Sent) : (s.send m).bad = s.bad := rfl
@[simp] theorem State.send_dead (s : State) (m : Sent) : (s.send m).dead = s.dead := rfl
@[simp] theorem State.send_watch (s : State) (m : Sent) : (s.send m).watch = s.watch := rfl
@[simp] theorem State.send_groups (s : State) (m : Sent) : (s.send m).groups = s.groups := rfl
@[simp] theorem State.send_blocks (s : State) (m : Sent) : (s.send m).blocks = s.blocks := rfl
@[simp] theorem State.send_grids (s : State) (m : Sent) : (s.send m).grids = s.grids := rfl
@[simp] theorem State.send_contexts (s : State) (m : Sent) : (s.send m).contexts = s.contexts := rfl
@[simp] theorem State.send_sets (s : State) (m : Sent) : (s.send m).sets = s.sets := rfl
@[simp] theorem State.send_cores (s : State) (m : Sent) : (s.send m).cores = s.cores := rfl
@[simp] theorem State.send_dies (s : State) (m : Sent) : (s.send m).dies = s.dies := rfl
@[simp] theorem State.send_parts (s : State) (m : Sent) : (s.send m).parts = s.parts := rfl
@[simp] theorem State.send_queues (s : State) (m : Sent) : (s.send m).queues = s.queues := rfl
@[simp] theorem State.send_feGrids (s : State) (m : Sent) : (s.send m).feGrids = s.feGrids := rfl
@[simp] theorem State.send_wide (s : State) (m : Sent) : (s.send m).wide = s.wide := rfl
@[simp] theorem State.send_podEarly (s : State) (m : Sent) : (s.send m).podEarly = s.podEarly := rfl
@[simp] theorem State.send_ops (s : State) (m : Sent) : (s.send m).ops = s.ops := rfl
@[simp] theorem State.send_tlb (s : State) (m : Sent) : (s.send m).tlb = s.tlb := rfl
@[simp] theorem State.send_atc (s : State) (m : Sent) : (s.send m).atc = s.atc := rfl
@[simp] theorem State.send_requests (s : State) (m : Sent) : (s.send m).requests = s.requests := rfl
@[simp] theorem State.send_invals (s : State) (m : Sent) : (s.send m).invals = s.invals := rfl
@[simp] theorem State.send_parked (s : State) (m : Sent) : (s.send m).parked = s.parked := rfl
@[simp] theorem State.send_replicas (s : State) (m : Sent) : (s.send m).replicas = s.replicas := rfl
@[simp] theorem State.send_pool (s : State) (m : Sent) : (s.send m).pool = s.pool := rfl
@[simp] theorem State.send_base (s : State) (m : Sent) : (s.send m).base = s.base := rfl
@[simp] theorem State.send_streams (s : State) (m : Sent) : (s.send m).streams = s.streams := rfl
@[simp] theorem State.send_keys (s : State) (m : Sent) : (s.send m).keys = s.keys := rfl
@[simp] theorem State.send_stir (s : State) (m : Sent) : (s.send m).stir = s.stir := rfl
@[simp] theorem State.send_freed (s : State) (m : Sent) : (s.send m).freed = s.freed := rfl
@[simp] theorem State.send_sent (s : State) (m : Sent) : (s.send m).sent = s.sent ++ [m] := rfl
@[simp] theorem State.send_replies (s : State) (m : Sent) : (s.send m).replies = s.replies := rfl

/-! ## Group.setThread -/

@[simp] theorem Group.setThread_asid (g : Group) (t : Nat) (x : Thread) : (g.setThread t x).asid = g.asid := rfl
@[simp] theorem Group.setThread_core (g : Group) (t : Nat) (x : Thread) : (g.setThread t x).core = g.core := rfl
@[simp] theorem Group.setThread_block (g : Group) (t : Nat) (x : Thread) : (g.setThread t x).block = g.block := rfl
@[simp] theorem Group.setThread_grid (g : Group) (t : Nat) (x : Thread) : (g.setThread t x).grid = g.grid := rfl
@[simp] theorem Group.setThread_entry (g : Group) (t : Nat) (x : Thread) : (g.setThread t x).entry = g.entry := rfl
@[simp] theorem Group.setThread_nregs (g : Group) (t : Nat) (x : Thread) : (g.setThread t x).nregs = g.nregs := rfl
@[simp] theorem Group.setThread_cls (g : Group) (t : Nat) (x : Thread) : (g.setThread t x).cls = g.cls := rfl
@[simp] theorem Group.setThread_mode (g : Group) (t : Nat) (x : Thread) : (g.setThread t x).mode = g.mode := rfl
@[simp] theorem Group.setThread_pc (g : Group) (t : Nat) (x : Thread) : (g.setThread t x).pc = g.pc := rfl
@[simp] theorem Group.setThread_line (g : Group) (t : Nat) (x : Thread) : (g.setThread t x).line = g.line := rfl
@[simp] theorem Group.setThread_fresh (g : Group) (t : Nat) (x : Thread) : (g.setThread t x).fresh = g.fresh := rfl
@[simp] theorem Group.setThread_lmask (g : Group) (t : Nat) (x : Thread) : (g.setThread t x).lmask = g.lmask := rfl
@[simp] theorem Group.setThread_amask (g : Group) (t : Nat) (x : Thread) : (g.setThread t x).amask = g.amask := rfl
@[simp] theorem Group.setThread_threads (g : Group) (t : Nat) (x : Thread) : (g.setThread t x).threads = g.threads.setIfInBounds t x := rfl
@[simp] theorem Group.setThread_s (g : Group) (t : Nat) (x : Thread) : (g.setThread t x).s = g.s := rfl
@[simp] theorem Group.setThread_w (g : Group) (t : Nat) (x : Thread) : (g.setThread t x).w = g.w := rfl
@[simp] theorem Group.setThread_stack (g : Group) (t : Nat) (x : Thread) : (g.setThread t x).stack = g.stack := rfl
@[simp] theorem Group.setThread_lidx (g : Group) (t : Nat) (x : Thread) : (g.setThread t x).lidx = g.lidx := rfl
@[simp] theorem Group.setThread_packed (g : Group) (t : Nat) (x : Thread) : (g.setThread t x).packed = g.packed := rfl
@[simp] theorem Group.setThread_gcnt (g : Group) (t : Nat) (x : Thread) : (g.setThread t x).gcnt = g.gcnt := rfl
@[simp] theorem Group.setThread_rank (g : Group) (t : Nat) (x : Thread) : (g.setThread t x).rank = g.rank := rfl
@[simp] theorem Group.setThread_bcnt (g : Group) (t : Nat) (x : Thread) : (g.setThread t x).bcnt = g.bcnt := rfl
@[simp] theorem Group.setThread_bidx (g : Group) (t : Nat) (x : Thread) : (g.setThread t x).bidx = g.bidx := rfl
@[simp] theorem Group.setThread_args (g : Group) (t : Nat) (x : Thread) : (g.setThread t x).args = g.args := rfl
@[simp] theorem Group.setThread_fpmode (g : Group) (t : Nat) (x : Thread) : (g.setThread t x).fpmode = g.fpmode := rfl
@[simp] theorem Group.setThread_fpseed (g : Group) (t : Nat) (x : Thread) : (g.setThread t x).fpseed = g.fpseed := rfl
@[simp] theorem Group.setThread_fflags (g : Group) (t : Nat) (x : Thread) : (g.setThread t x).fflags = g.fflags := rfl
@[simp] theorem Group.setThread_ftrapen (g : Group) (t : Nat) (x : Thread) : (g.setThread t x).ftrapen = g.ftrapen := rfl
@[simp] theorem Group.setThread_recipe (g : Group) (t : Nat) (x : Thread) : (g.setThread t x).recipe = g.recipe := rfl
@[simp] theorem Group.setThread_retired (g : Group) (t : Nat) (x : Thread) : (g.setThread t x).retired = g.retired := rfl
@[simp] theorem Group.setThread_opening (g : Group) (t : Nat) (x : Thread) : (g.setThread t x).opening = g.opening := rfl
@[simp] theorem Group.setThread_wait (g : Group) (t : Nat) (x : Thread) : (g.setThread t x).wait = g.wait := rfl
@[simp] theorem Group.setThread_sched (g : Group) (t : Nat) (x : Thread) : (g.setThread t x).sched = g.sched := rfl
@[simp] theorem Group.setThread_flash (g : Group) (t : Nat) (x : Thread) : (g.setThread t x).flash = g.flash := rfl
@[simp] theorem Group.setThread_replay (g : Group) (t : Nat) (x : Thread) : (g.setThread t x).replay = g.replay := rfl
@[simp] theorem Group.setThread_kept (g : Group) (t : Nat) (x : Thread) : (g.setThread t x).kept = g.kept := rfl
@[simp] theorem Group.setThread_frame (g : Group) (t : Nat) (x : Thread) : (g.setThread t x).frame = g.frame := rfl
@[simp] theorem Group.setThread_frameEpc (g : Group) (t : Nat) (x : Thread) : (g.setThread t x).frameEpc = g.frameEpc := rfl
@[simp] theorem Group.setThread_frameEvent (g : Group) (t : Nat) (x : Thread) : (g.setThread t x).frameEvent = g.frameEvent := rfl
@[simp] theorem Group.setThread_pending (g : Group) (t : Nat) (x : Thread) : (g.setThread t x).pending = g.pending := rfl
@[simp] theorem Group.setThread_loads (g : Group) (t : Nat) (x : Thread) : (g.setThread t x).loads = g.loads := rfl
@[simp] theorem Group.setThread_scribe (g : Group) (t : Nat) (x : Thread) : (g.setThread t x).scribe = g.scribe := rfl
@[simp] theorem Group.setThread_deposit (g : Group) (t : Nat) (x : Thread) : (g.setThread t x).deposit = g.deposit := rfl
@[simp] theorem Group.setThread_matrix (g : Group) (t : Nat) (x : Thread) : (g.setThread t x).matrix = g.matrix := rfl
@[simp] theorem Group.setThread_bin (g : Group) (t : Nat) (x : Thread) : (g.setThread t x).bin = g.bin := rfl
@[simp] theorem Group.setThread_spawned (g : Group) (t : Nat) (x : Thread) : (g.setThread t x).spawned = g.spawned := rfl
@[simp] theorem Group.setThread_expand (g : Group) (t : Nat) (x : Thread) : (g.setThread t x).expand = g.expand := rfl
@[simp] theorem Group.setThread_det (g : Group) (t : Nat) (x : Thread) : (g.setThread t x).det = g.det := rfl
@[simp] theorem Group.setThread_relDue (g : Group) (t : Nat) (x : Thread) : (g.setThread t x).relDue = g.relDue := rfl
@[simp] theorem Group.setThread_pkgSeen (g : Group) (t : Nat) (x : Thread) : (g.setThread t x).pkgSeen = g.pkgSeen := rfl

/-! ## Group.modThread -/

@[simp] theorem Group.modThread_asid (g : Group) (t : Nat) (f : Thread → Thread) : (g.modThread t f).asid = g.asid := rfl
@[simp] theorem Group.modThread_core (g : Group) (t : Nat) (f : Thread → Thread) : (g.modThread t f).core = g.core := rfl
@[simp] theorem Group.modThread_block (g : Group) (t : Nat) (f : Thread → Thread) : (g.modThread t f).block = g.block := rfl
@[simp] theorem Group.modThread_grid (g : Group) (t : Nat) (f : Thread → Thread) : (g.modThread t f).grid = g.grid := rfl
@[simp] theorem Group.modThread_entry (g : Group) (t : Nat) (f : Thread → Thread) : (g.modThread t f).entry = g.entry := rfl
@[simp] theorem Group.modThread_nregs (g : Group) (t : Nat) (f : Thread → Thread) : (g.modThread t f).nregs = g.nregs := rfl
@[simp] theorem Group.modThread_cls (g : Group) (t : Nat) (f : Thread → Thread) : (g.modThread t f).cls = g.cls := rfl
@[simp] theorem Group.modThread_mode (g : Group) (t : Nat) (f : Thread → Thread) : (g.modThread t f).mode = g.mode := rfl
@[simp] theorem Group.modThread_pc (g : Group) (t : Nat) (f : Thread → Thread) : (g.modThread t f).pc = g.pc := rfl
@[simp] theorem Group.modThread_line (g : Group) (t : Nat) (f : Thread → Thread) : (g.modThread t f).line = g.line := rfl
@[simp] theorem Group.modThread_fresh (g : Group) (t : Nat) (f : Thread → Thread) : (g.modThread t f).fresh = g.fresh := rfl
@[simp] theorem Group.modThread_lmask (g : Group) (t : Nat) (f : Thread → Thread) : (g.modThread t f).lmask = g.lmask := rfl
@[simp] theorem Group.modThread_amask (g : Group) (t : Nat) (f : Thread → Thread) : (g.modThread t f).amask = g.amask := rfl
@[simp] theorem Group.modThread_threads (g : Group) (t : Nat) (f : Thread → Thread) : (g.modThread t f).threads = g.threads.setIfInBounds t (f (g.thread t)) := rfl
@[simp] theorem Group.modThread_s (g : Group) (t : Nat) (f : Thread → Thread) : (g.modThread t f).s = g.s := rfl
@[simp] theorem Group.modThread_w (g : Group) (t : Nat) (f : Thread → Thread) : (g.modThread t f).w = g.w := rfl
@[simp] theorem Group.modThread_stack (g : Group) (t : Nat) (f : Thread → Thread) : (g.modThread t f).stack = g.stack := rfl
@[simp] theorem Group.modThread_lidx (g : Group) (t : Nat) (f : Thread → Thread) : (g.modThread t f).lidx = g.lidx := rfl
@[simp] theorem Group.modThread_packed (g : Group) (t : Nat) (f : Thread → Thread) : (g.modThread t f).packed = g.packed := rfl
@[simp] theorem Group.modThread_gcnt (g : Group) (t : Nat) (f : Thread → Thread) : (g.modThread t f).gcnt = g.gcnt := rfl
@[simp] theorem Group.modThread_rank (g : Group) (t : Nat) (f : Thread → Thread) : (g.modThread t f).rank = g.rank := rfl
@[simp] theorem Group.modThread_bcnt (g : Group) (t : Nat) (f : Thread → Thread) : (g.modThread t f).bcnt = g.bcnt := rfl
@[simp] theorem Group.modThread_bidx (g : Group) (t : Nat) (f : Thread → Thread) : (g.modThread t f).bidx = g.bidx := rfl
@[simp] theorem Group.modThread_args (g : Group) (t : Nat) (f : Thread → Thread) : (g.modThread t f).args = g.args := rfl
@[simp] theorem Group.modThread_fpmode (g : Group) (t : Nat) (f : Thread → Thread) : (g.modThread t f).fpmode = g.fpmode := rfl
@[simp] theorem Group.modThread_fpseed (g : Group) (t : Nat) (f : Thread → Thread) : (g.modThread t f).fpseed = g.fpseed := rfl
@[simp] theorem Group.modThread_fflags (g : Group) (t : Nat) (f : Thread → Thread) : (g.modThread t f).fflags = g.fflags := rfl
@[simp] theorem Group.modThread_ftrapen (g : Group) (t : Nat) (f : Thread → Thread) : (g.modThread t f).ftrapen = g.ftrapen := rfl
@[simp] theorem Group.modThread_recipe (g : Group) (t : Nat) (f : Thread → Thread) : (g.modThread t f).recipe = g.recipe := rfl
@[simp] theorem Group.modThread_retired (g : Group) (t : Nat) (f : Thread → Thread) : (g.modThread t f).retired = g.retired := rfl
@[simp] theorem Group.modThread_opening (g : Group) (t : Nat) (f : Thread → Thread) : (g.modThread t f).opening = g.opening := rfl
@[simp] theorem Group.modThread_wait (g : Group) (t : Nat) (f : Thread → Thread) : (g.modThread t f).wait = g.wait := rfl
@[simp] theorem Group.modThread_sched (g : Group) (t : Nat) (f : Thread → Thread) : (g.modThread t f).sched = g.sched := rfl
@[simp] theorem Group.modThread_flash (g : Group) (t : Nat) (f : Thread → Thread) : (g.modThread t f).flash = g.flash := rfl
@[simp] theorem Group.modThread_replay (g : Group) (t : Nat) (f : Thread → Thread) : (g.modThread t f).replay = g.replay := rfl
@[simp] theorem Group.modThread_kept (g : Group) (t : Nat) (f : Thread → Thread) : (g.modThread t f).kept = g.kept := rfl
@[simp] theorem Group.modThread_frame (g : Group) (t : Nat) (f : Thread → Thread) : (g.modThread t f).frame = g.frame := rfl
@[simp] theorem Group.modThread_frameEpc (g : Group) (t : Nat) (f : Thread → Thread) : (g.modThread t f).frameEpc = g.frameEpc := rfl
@[simp] theorem Group.modThread_frameEvent (g : Group) (t : Nat) (f : Thread → Thread) : (g.modThread t f).frameEvent = g.frameEvent := rfl
@[simp] theorem Group.modThread_pending (g : Group) (t : Nat) (f : Thread → Thread) : (g.modThread t f).pending = g.pending := rfl
@[simp] theorem Group.modThread_loads (g : Group) (t : Nat) (f : Thread → Thread) : (g.modThread t f).loads = g.loads := rfl
@[simp] theorem Group.modThread_scribe (g : Group) (t : Nat) (f : Thread → Thread) : (g.modThread t f).scribe = g.scribe := rfl
@[simp] theorem Group.modThread_deposit (g : Group) (t : Nat) (f : Thread → Thread) : (g.modThread t f).deposit = g.deposit := rfl
@[simp] theorem Group.modThread_matrix (g : Group) (t : Nat) (f : Thread → Thread) : (g.modThread t f).matrix = g.matrix := rfl
@[simp] theorem Group.modThread_bin (g : Group) (t : Nat) (f : Thread → Thread) : (g.modThread t f).bin = g.bin := rfl
@[simp] theorem Group.modThread_spawned (g : Group) (t : Nat) (f : Thread → Thread) : (g.modThread t f).spawned = g.spawned := rfl
@[simp] theorem Group.modThread_expand (g : Group) (t : Nat) (f : Thread → Thread) : (g.modThread t f).expand = g.expand := rfl
@[simp] theorem Group.modThread_det (g : Group) (t : Nat) (f : Thread → Thread) : (g.modThread t f).det = g.det := rfl
@[simp] theorem Group.modThread_relDue (g : Group) (t : Nat) (f : Thread → Thread) : (g.modThread t f).relDue = g.relDue := rfl
@[simp] theorem Group.modThread_pkgSeen (g : Group) (t : Nat) (f : Thread → Thread) : (g.modThread t f).pkgSeen = g.pkgSeen := rfl

/-! ## Group.setSreg -/

@[simp] theorem Group.setSreg_asid (g : Group) (n : Nat) (x : DWord) : (g.setSreg n x).asid = g.asid := rfl
@[simp] theorem Group.setSreg_core (g : Group) (n : Nat) (x : DWord) : (g.setSreg n x).core = g.core := rfl
@[simp] theorem Group.setSreg_block (g : Group) (n : Nat) (x : DWord) : (g.setSreg n x).block = g.block := rfl
@[simp] theorem Group.setSreg_grid (g : Group) (n : Nat) (x : DWord) : (g.setSreg n x).grid = g.grid := rfl
@[simp] theorem Group.setSreg_entry (g : Group) (n : Nat) (x : DWord) : (g.setSreg n x).entry = g.entry := rfl
@[simp] theorem Group.setSreg_nregs (g : Group) (n : Nat) (x : DWord) : (g.setSreg n x).nregs = g.nregs := rfl
@[simp] theorem Group.setSreg_cls (g : Group) (n : Nat) (x : DWord) : (g.setSreg n x).cls = g.cls := rfl
@[simp] theorem Group.setSreg_mode (g : Group) (n : Nat) (x : DWord) : (g.setSreg n x).mode = g.mode := rfl
@[simp] theorem Group.setSreg_pc (g : Group) (n : Nat) (x : DWord) : (g.setSreg n x).pc = g.pc := rfl
@[simp] theorem Group.setSreg_line (g : Group) (n : Nat) (x : DWord) : (g.setSreg n x).line = g.line := rfl
@[simp] theorem Group.setSreg_fresh (g : Group) (n : Nat) (x : DWord) : (g.setSreg n x).fresh = g.fresh := rfl
@[simp] theorem Group.setSreg_lmask (g : Group) (n : Nat) (x : DWord) : (g.setSreg n x).lmask = g.lmask := rfl
@[simp] theorem Group.setSreg_amask (g : Group) (n : Nat) (x : DWord) : (g.setSreg n x).amask = g.amask := rfl
@[simp] theorem Group.setSreg_threads (g : Group) (n : Nat) (x : DWord) : (g.setSreg n x).threads = g.threads := rfl
@[simp] theorem Group.setSreg_s (g : Group) (n : Nat) (x : DWord) : (g.setSreg n x).s = g.s.setIfInBounds n x := rfl
@[simp] theorem Group.setSreg_w (g : Group) (n : Nat) (x : DWord) : (g.setSreg n x).w = g.w := rfl
@[simp] theorem Group.setSreg_stack (g : Group) (n : Nat) (x : DWord) : (g.setSreg n x).stack = g.stack := rfl
@[simp] theorem Group.setSreg_lidx (g : Group) (n : Nat) (x : DWord) : (g.setSreg n x).lidx = g.lidx := rfl
@[simp] theorem Group.setSreg_packed (g : Group) (n : Nat) (x : DWord) : (g.setSreg n x).packed = g.packed := rfl
@[simp] theorem Group.setSreg_gcnt (g : Group) (n : Nat) (x : DWord) : (g.setSreg n x).gcnt = g.gcnt := rfl
@[simp] theorem Group.setSreg_rank (g : Group) (n : Nat) (x : DWord) : (g.setSreg n x).rank = g.rank := rfl
@[simp] theorem Group.setSreg_bcnt (g : Group) (n : Nat) (x : DWord) : (g.setSreg n x).bcnt = g.bcnt := rfl
@[simp] theorem Group.setSreg_bidx (g : Group) (n : Nat) (x : DWord) : (g.setSreg n x).bidx = g.bidx := rfl
@[simp] theorem Group.setSreg_args (g : Group) (n : Nat) (x : DWord) : (g.setSreg n x).args = g.args := rfl
@[simp] theorem Group.setSreg_fpmode (g : Group) (n : Nat) (x : DWord) : (g.setSreg n x).fpmode = g.fpmode := rfl
@[simp] theorem Group.setSreg_fpseed (g : Group) (n : Nat) (x : DWord) : (g.setSreg n x).fpseed = g.fpseed := rfl
@[simp] theorem Group.setSreg_fflags (g : Group) (n : Nat) (x : DWord) : (g.setSreg n x).fflags = g.fflags := rfl
@[simp] theorem Group.setSreg_ftrapen (g : Group) (n : Nat) (x : DWord) : (g.setSreg n x).ftrapen = g.ftrapen := rfl
@[simp] theorem Group.setSreg_recipe (g : Group) (n : Nat) (x : DWord) : (g.setSreg n x).recipe = g.recipe := rfl
@[simp] theorem Group.setSreg_retired (g : Group) (n : Nat) (x : DWord) : (g.setSreg n x).retired = g.retired := rfl
@[simp] theorem Group.setSreg_opening (g : Group) (n : Nat) (x : DWord) : (g.setSreg n x).opening = g.opening := rfl
@[simp] theorem Group.setSreg_wait (g : Group) (n : Nat) (x : DWord) : (g.setSreg n x).wait = g.wait := rfl
@[simp] theorem Group.setSreg_sched (g : Group) (n : Nat) (x : DWord) : (g.setSreg n x).sched = g.sched := rfl
@[simp] theorem Group.setSreg_flash (g : Group) (n : Nat) (x : DWord) : (g.setSreg n x).flash = g.flash := rfl
@[simp] theorem Group.setSreg_replay (g : Group) (n : Nat) (x : DWord) : (g.setSreg n x).replay = g.replay := rfl
@[simp] theorem Group.setSreg_kept (g : Group) (n : Nat) (x : DWord) : (g.setSreg n x).kept = g.kept := rfl
@[simp] theorem Group.setSreg_frame (g : Group) (n : Nat) (x : DWord) : (g.setSreg n x).frame = g.frame := rfl
@[simp] theorem Group.setSreg_frameEpc (g : Group) (n : Nat) (x : DWord) : (g.setSreg n x).frameEpc = g.frameEpc := rfl
@[simp] theorem Group.setSreg_frameEvent (g : Group) (n : Nat) (x : DWord) : (g.setSreg n x).frameEvent = g.frameEvent := rfl
@[simp] theorem Group.setSreg_pending (g : Group) (n : Nat) (x : DWord) : (g.setSreg n x).pending = g.pending := rfl
@[simp] theorem Group.setSreg_loads (g : Group) (n : Nat) (x : DWord) : (g.setSreg n x).loads = g.loads := rfl
@[simp] theorem Group.setSreg_scribe (g : Group) (n : Nat) (x : DWord) : (g.setSreg n x).scribe = g.scribe := rfl
@[simp] theorem Group.setSreg_deposit (g : Group) (n : Nat) (x : DWord) : (g.setSreg n x).deposit = g.deposit := rfl
@[simp] theorem Group.setSreg_matrix (g : Group) (n : Nat) (x : DWord) : (g.setSreg n x).matrix = g.matrix := rfl
@[simp] theorem Group.setSreg_bin (g : Group) (n : Nat) (x : DWord) : (g.setSreg n x).bin = g.bin := rfl
@[simp] theorem Group.setSreg_spawned (g : Group) (n : Nat) (x : DWord) : (g.setSreg n x).spawned = g.spawned := rfl
@[simp] theorem Group.setSreg_expand (g : Group) (n : Nat) (x : DWord) : (g.setSreg n x).expand = g.expand := rfl
@[simp] theorem Group.setSreg_det (g : Group) (n : Nat) (x : DWord) : (g.setSreg n x).det = g.det := rfl
@[simp] theorem Group.setSreg_relDue (g : Group) (n : Nat) (x : DWord) : (g.setSreg n x).relDue = g.relDue := rfl
@[simp] theorem Group.setSreg_pkgSeen (g : Group) (n : Nat) (x : DWord) : (g.setSreg n x).pkgSeen = g.pkgSeen := rfl

/-! ## Group.setWin -/

@[simp] theorem Group.setWin_asid (g : Group) (n : Nat) (x : Window) : (g.setWin n x).asid = g.asid := rfl
@[simp] theorem Group.setWin_core (g : Group) (n : Nat) (x : Window) : (g.setWin n x).core = g.core := rfl
@[simp] theorem Group.setWin_block (g : Group) (n : Nat) (x : Window) : (g.setWin n x).block = g.block := rfl
@[simp] theorem Group.setWin_grid (g : Group) (n : Nat) (x : Window) : (g.setWin n x).grid = g.grid := rfl
@[simp] theorem Group.setWin_entry (g : Group) (n : Nat) (x : Window) : (g.setWin n x).entry = g.entry := rfl
@[simp] theorem Group.setWin_nregs (g : Group) (n : Nat) (x : Window) : (g.setWin n x).nregs = g.nregs := rfl
@[simp] theorem Group.setWin_cls (g : Group) (n : Nat) (x : Window) : (g.setWin n x).cls = g.cls := rfl
@[simp] theorem Group.setWin_mode (g : Group) (n : Nat) (x : Window) : (g.setWin n x).mode = g.mode := rfl
@[simp] theorem Group.setWin_pc (g : Group) (n : Nat) (x : Window) : (g.setWin n x).pc = g.pc := rfl
@[simp] theorem Group.setWin_line (g : Group) (n : Nat) (x : Window) : (g.setWin n x).line = g.line := rfl
@[simp] theorem Group.setWin_fresh (g : Group) (n : Nat) (x : Window) : (g.setWin n x).fresh = g.fresh := rfl
@[simp] theorem Group.setWin_lmask (g : Group) (n : Nat) (x : Window) : (g.setWin n x).lmask = g.lmask := rfl
@[simp] theorem Group.setWin_amask (g : Group) (n : Nat) (x : Window) : (g.setWin n x).amask = g.amask := rfl
@[simp] theorem Group.setWin_threads (g : Group) (n : Nat) (x : Window) : (g.setWin n x).threads = g.threads := rfl
@[simp] theorem Group.setWin_s (g : Group) (n : Nat) (x : Window) : (g.setWin n x).s = g.s := rfl
@[simp] theorem Group.setWin_w (g : Group) (n : Nat) (x : Window) : (g.setWin n x).w = g.w.setIfInBounds n x := rfl
@[simp] theorem Group.setWin_stack (g : Group) (n : Nat) (x : Window) : (g.setWin n x).stack = g.stack := rfl
@[simp] theorem Group.setWin_lidx (g : Group) (n : Nat) (x : Window) : (g.setWin n x).lidx = g.lidx := rfl
@[simp] theorem Group.setWin_packed (g : Group) (n : Nat) (x : Window) : (g.setWin n x).packed = g.packed := rfl
@[simp] theorem Group.setWin_gcnt (g : Group) (n : Nat) (x : Window) : (g.setWin n x).gcnt = g.gcnt := rfl
@[simp] theorem Group.setWin_rank (g : Group) (n : Nat) (x : Window) : (g.setWin n x).rank = g.rank := rfl
@[simp] theorem Group.setWin_bcnt (g : Group) (n : Nat) (x : Window) : (g.setWin n x).bcnt = g.bcnt := rfl
@[simp] theorem Group.setWin_bidx (g : Group) (n : Nat) (x : Window) : (g.setWin n x).bidx = g.bidx := rfl
@[simp] theorem Group.setWin_args (g : Group) (n : Nat) (x : Window) : (g.setWin n x).args = g.args := rfl
@[simp] theorem Group.setWin_fpmode (g : Group) (n : Nat) (x : Window) : (g.setWin n x).fpmode = g.fpmode := rfl
@[simp] theorem Group.setWin_fpseed (g : Group) (n : Nat) (x : Window) : (g.setWin n x).fpseed = g.fpseed := rfl
@[simp] theorem Group.setWin_fflags (g : Group) (n : Nat) (x : Window) : (g.setWin n x).fflags = g.fflags := rfl
@[simp] theorem Group.setWin_ftrapen (g : Group) (n : Nat) (x : Window) : (g.setWin n x).ftrapen = g.ftrapen := rfl
@[simp] theorem Group.setWin_recipe (g : Group) (n : Nat) (x : Window) : (g.setWin n x).recipe = g.recipe := rfl
@[simp] theorem Group.setWin_retired (g : Group) (n : Nat) (x : Window) : (g.setWin n x).retired = g.retired := rfl
@[simp] theorem Group.setWin_opening (g : Group) (n : Nat) (x : Window) : (g.setWin n x).opening = g.opening := rfl
@[simp] theorem Group.setWin_wait (g : Group) (n : Nat) (x : Window) : (g.setWin n x).wait = g.wait := rfl
@[simp] theorem Group.setWin_sched (g : Group) (n : Nat) (x : Window) : (g.setWin n x).sched = g.sched := rfl
@[simp] theorem Group.setWin_flash (g : Group) (n : Nat) (x : Window) : (g.setWin n x).flash = g.flash := rfl
@[simp] theorem Group.setWin_replay (g : Group) (n : Nat) (x : Window) : (g.setWin n x).replay = g.replay := rfl
@[simp] theorem Group.setWin_kept (g : Group) (n : Nat) (x : Window) : (g.setWin n x).kept = g.kept := rfl
@[simp] theorem Group.setWin_frame (g : Group) (n : Nat) (x : Window) : (g.setWin n x).frame = g.frame := rfl
@[simp] theorem Group.setWin_frameEpc (g : Group) (n : Nat) (x : Window) : (g.setWin n x).frameEpc = g.frameEpc := rfl
@[simp] theorem Group.setWin_frameEvent (g : Group) (n : Nat) (x : Window) : (g.setWin n x).frameEvent = g.frameEvent := rfl
@[simp] theorem Group.setWin_pending (g : Group) (n : Nat) (x : Window) : (g.setWin n x).pending = g.pending := rfl
@[simp] theorem Group.setWin_loads (g : Group) (n : Nat) (x : Window) : (g.setWin n x).loads = g.loads := rfl
@[simp] theorem Group.setWin_scribe (g : Group) (n : Nat) (x : Window) : (g.setWin n x).scribe = g.scribe := rfl
@[simp] theorem Group.setWin_deposit (g : Group) (n : Nat) (x : Window) : (g.setWin n x).deposit = g.deposit := rfl
@[simp] theorem Group.setWin_matrix (g : Group) (n : Nat) (x : Window) : (g.setWin n x).matrix = g.matrix := rfl
@[simp] theorem Group.setWin_bin (g : Group) (n : Nat) (x : Window) : (g.setWin n x).bin = g.bin := rfl
@[simp] theorem Group.setWin_spawned (g : Group) (n : Nat) (x : Window) : (g.setWin n x).spawned = g.spawned := rfl
@[simp] theorem Group.setWin_expand (g : Group) (n : Nat) (x : Window) : (g.setWin n x).expand = g.expand := rfl
@[simp] theorem Group.setWin_det (g : Group) (n : Nat) (x : Window) : (g.setWin n x).det = g.det := rfl
@[simp] theorem Group.setWin_relDue (g : Group) (n : Nat) (x : Window) : (g.setWin n x).relDue = g.relDue := rfl
@[simp] theorem Group.setWin_pkgSeen (g : Group) (n : Nat) (x : Window) : (g.setWin n x).pkgSeen = g.pkgSeen := rfl

/-! ## Group.orFlags -/

@[simp] theorem Group.orFlags_asid (g : Group) (f : Flags) : (g.orFlags f).asid = g.asid := rfl
@[simp] theorem Group.orFlags_core (g : Group) (f : Flags) : (g.orFlags f).core = g.core := rfl
@[simp] theorem Group.orFlags_block (g : Group) (f : Flags) : (g.orFlags f).block = g.block := rfl
@[simp] theorem Group.orFlags_grid (g : Group) (f : Flags) : (g.orFlags f).grid = g.grid := rfl
@[simp] theorem Group.orFlags_entry (g : Group) (f : Flags) : (g.orFlags f).entry = g.entry := rfl
@[simp] theorem Group.orFlags_nregs (g : Group) (f : Flags) : (g.orFlags f).nregs = g.nregs := rfl
@[simp] theorem Group.orFlags_cls (g : Group) (f : Flags) : (g.orFlags f).cls = g.cls := rfl
@[simp] theorem Group.orFlags_mode (g : Group) (f : Flags) : (g.orFlags f).mode = g.mode := rfl
@[simp] theorem Group.orFlags_pc (g : Group) (f : Flags) : (g.orFlags f).pc = g.pc := rfl
@[simp] theorem Group.orFlags_line (g : Group) (f : Flags) : (g.orFlags f).line = g.line := rfl
@[simp] theorem Group.orFlags_fresh (g : Group) (f : Flags) : (g.orFlags f).fresh = g.fresh := rfl
@[simp] theorem Group.orFlags_lmask (g : Group) (f : Flags) : (g.orFlags f).lmask = g.lmask := rfl
@[simp] theorem Group.orFlags_amask (g : Group) (f : Flags) : (g.orFlags f).amask = g.amask := rfl
@[simp] theorem Group.orFlags_threads (g : Group) (f : Flags) : (g.orFlags f).threads = g.threads := rfl
@[simp] theorem Group.orFlags_s (g : Group) (f : Flags) : (g.orFlags f).s = g.s := rfl
@[simp] theorem Group.orFlags_w (g : Group) (f : Flags) : (g.orFlags f).w = g.w := rfl
@[simp] theorem Group.orFlags_stack (g : Group) (f : Flags) : (g.orFlags f).stack = g.stack := rfl
@[simp] theorem Group.orFlags_lidx (g : Group) (f : Flags) : (g.orFlags f).lidx = g.lidx := rfl
@[simp] theorem Group.orFlags_packed (g : Group) (f : Flags) : (g.orFlags f).packed = g.packed := rfl
@[simp] theorem Group.orFlags_gcnt (g : Group) (f : Flags) : (g.orFlags f).gcnt = g.gcnt := rfl
@[simp] theorem Group.orFlags_rank (g : Group) (f : Flags) : (g.orFlags f).rank = g.rank := rfl
@[simp] theorem Group.orFlags_bcnt (g : Group) (f : Flags) : (g.orFlags f).bcnt = g.bcnt := rfl
@[simp] theorem Group.orFlags_bidx (g : Group) (f : Flags) : (g.orFlags f).bidx = g.bidx := rfl
@[simp] theorem Group.orFlags_args (g : Group) (f : Flags) : (g.orFlags f).args = g.args := rfl
@[simp] theorem Group.orFlags_fpmode (g : Group) (f : Flags) : (g.orFlags f).fpmode = g.fpmode := rfl
@[simp] theorem Group.orFlags_fpseed (g : Group) (f : Flags) : (g.orFlags f).fpseed = g.fpseed := rfl
@[simp] theorem Group.orFlags_fflags (g : Group) (f : Flags) : (g.orFlags f).fflags = g.fflags ||| f := rfl
@[simp] theorem Group.orFlags_ftrapen (g : Group) (f : Flags) : (g.orFlags f).ftrapen = g.ftrapen := rfl
@[simp] theorem Group.orFlags_recipe (g : Group) (f : Flags) : (g.orFlags f).recipe = g.recipe := rfl
@[simp] theorem Group.orFlags_retired (g : Group) (f : Flags) : (g.orFlags f).retired = g.retired := rfl
@[simp] theorem Group.orFlags_opening (g : Group) (f : Flags) : (g.orFlags f).opening = g.opening := rfl
@[simp] theorem Group.orFlags_wait (g : Group) (f : Flags) : (g.orFlags f).wait = g.wait := rfl
@[simp] theorem Group.orFlags_sched (g : Group) (f : Flags) : (g.orFlags f).sched = g.sched := rfl
@[simp] theorem Group.orFlags_flash (g : Group) (f : Flags) : (g.orFlags f).flash = g.flash := rfl
@[simp] theorem Group.orFlags_replay (g : Group) (f : Flags) : (g.orFlags f).replay = g.replay := rfl
@[simp] theorem Group.orFlags_kept (g : Group) (f : Flags) : (g.orFlags f).kept = g.kept := rfl
@[simp] theorem Group.orFlags_frame (g : Group) (f : Flags) : (g.orFlags f).frame = g.frame := rfl
@[simp] theorem Group.orFlags_frameEpc (g : Group) (f : Flags) : (g.orFlags f).frameEpc = g.frameEpc := rfl
@[simp] theorem Group.orFlags_frameEvent (g : Group) (f : Flags) : (g.orFlags f).frameEvent = g.frameEvent := rfl
@[simp] theorem Group.orFlags_pending (g : Group) (f : Flags) : (g.orFlags f).pending = g.pending := rfl
@[simp] theorem Group.orFlags_loads (g : Group) (f : Flags) : (g.orFlags f).loads = g.loads := rfl
@[simp] theorem Group.orFlags_scribe (g : Group) (f : Flags) : (g.orFlags f).scribe = g.scribe := rfl
@[simp] theorem Group.orFlags_deposit (g : Group) (f : Flags) : (g.orFlags f).deposit = g.deposit := rfl
@[simp] theorem Group.orFlags_matrix (g : Group) (f : Flags) : (g.orFlags f).matrix = g.matrix := rfl
@[simp] theorem Group.orFlags_bin (g : Group) (f : Flags) : (g.orFlags f).bin = g.bin := rfl
@[simp] theorem Group.orFlags_spawned (g : Group) (f : Flags) : (g.orFlags f).spawned = g.spawned := rfl
@[simp] theorem Group.orFlags_expand (g : Group) (f : Flags) : (g.orFlags f).expand = g.expand := rfl
@[simp] theorem Group.orFlags_det (g : Group) (f : Flags) : (g.orFlags f).det = g.det := rfl
@[simp] theorem Group.orFlags_relDue (g : Group) (f : Flags) : (g.orFlags f).relDue = g.relDue := rfl
@[simp] theorem Group.orFlags_pkgSeen (g : Group) (f : Flags) : (g.orFlags f).pkgSeen = g.pkgSeen := rfl

/-! ## Group.voidFlash -/

@[simp] theorem Group.voidFlash_asid (g : Group) : (g.voidFlash).asid = g.asid := rfl
@[simp] theorem Group.voidFlash_core (g : Group) : (g.voidFlash).core = g.core := rfl
@[simp] theorem Group.voidFlash_block (g : Group) : (g.voidFlash).block = g.block := rfl
@[simp] theorem Group.voidFlash_grid (g : Group) : (g.voidFlash).grid = g.grid := rfl
@[simp] theorem Group.voidFlash_entry (g : Group) : (g.voidFlash).entry = g.entry := rfl
@[simp] theorem Group.voidFlash_nregs (g : Group) : (g.voidFlash).nregs = g.nregs := rfl
@[simp] theorem Group.voidFlash_cls (g : Group) : (g.voidFlash).cls = g.cls := rfl
@[simp] theorem Group.voidFlash_mode (g : Group) : (g.voidFlash).mode = g.mode := rfl
@[simp] theorem Group.voidFlash_pc (g : Group) : (g.voidFlash).pc = g.pc := rfl
@[simp] theorem Group.voidFlash_line (g : Group) : (g.voidFlash).line = g.line := rfl
@[simp] theorem Group.voidFlash_fresh (g : Group) : (g.voidFlash).fresh = g.fresh := rfl
@[simp] theorem Group.voidFlash_lmask (g : Group) : (g.voidFlash).lmask = g.lmask := rfl
@[simp] theorem Group.voidFlash_amask (g : Group) : (g.voidFlash).amask = g.amask := rfl
@[simp] theorem Group.voidFlash_threads (g : Group) : (g.voidFlash).threads = g.threads := rfl
@[simp] theorem Group.voidFlash_s (g : Group) : (g.voidFlash).s = g.s := rfl
@[simp] theorem Group.voidFlash_w (g : Group) : (g.voidFlash).w = g.w := rfl
@[simp] theorem Group.voidFlash_stack (g : Group) : (g.voidFlash).stack = g.stack := rfl
@[simp] theorem Group.voidFlash_lidx (g : Group) : (g.voidFlash).lidx = g.lidx := rfl
@[simp] theorem Group.voidFlash_packed (g : Group) : (g.voidFlash).packed = g.packed := rfl
@[simp] theorem Group.voidFlash_gcnt (g : Group) : (g.voidFlash).gcnt = g.gcnt := rfl
@[simp] theorem Group.voidFlash_rank (g : Group) : (g.voidFlash).rank = g.rank := rfl
@[simp] theorem Group.voidFlash_bcnt (g : Group) : (g.voidFlash).bcnt = g.bcnt := rfl
@[simp] theorem Group.voidFlash_bidx (g : Group) : (g.voidFlash).bidx = g.bidx := rfl
@[simp] theorem Group.voidFlash_args (g : Group) : (g.voidFlash).args = g.args := rfl
@[simp] theorem Group.voidFlash_fpmode (g : Group) : (g.voidFlash).fpmode = g.fpmode := rfl
@[simp] theorem Group.voidFlash_fpseed (g : Group) : (g.voidFlash).fpseed = g.fpseed := rfl
@[simp] theorem Group.voidFlash_fflags (g : Group) : (g.voidFlash).fflags = g.fflags := rfl
@[simp] theorem Group.voidFlash_ftrapen (g : Group) : (g.voidFlash).ftrapen = g.ftrapen := rfl
@[simp] theorem Group.voidFlash_recipe (g : Group) : (g.voidFlash).recipe = g.recipe := rfl
@[simp] theorem Group.voidFlash_retired (g : Group) : (g.voidFlash).retired = g.retired := rfl
@[simp] theorem Group.voidFlash_opening (g : Group) : (g.voidFlash).opening = g.opening := rfl
@[simp] theorem Group.voidFlash_wait (g : Group) : (g.voidFlash).wait = g.wait := rfl
@[simp] theorem Group.voidFlash_sched (g : Group) : (g.voidFlash).sched = g.sched := rfl
@[simp] theorem Group.voidFlash_flash (g : Group) : (g.voidFlash).flash = none := rfl
@[simp] theorem Group.voidFlash_replay (g : Group) : (g.voidFlash).replay = g.replay := rfl
@[simp] theorem Group.voidFlash_kept (g : Group) : (g.voidFlash).kept = g.kept := rfl
@[simp] theorem Group.voidFlash_frame (g : Group) : (g.voidFlash).frame = g.frame := rfl
@[simp] theorem Group.voidFlash_frameEpc (g : Group) : (g.voidFlash).frameEpc = g.frameEpc := rfl
@[simp] theorem Group.voidFlash_frameEvent (g : Group) : (g.voidFlash).frameEvent = g.frameEvent := rfl
@[simp] theorem Group.voidFlash_pending (g : Group) : (g.voidFlash).pending = g.pending := rfl
@[simp] theorem Group.voidFlash_loads (g : Group) : (g.voidFlash).loads = g.loads := rfl
@[simp] theorem Group.voidFlash_scribe (g : Group) : (g.voidFlash).scribe = g.scribe := rfl
@[simp] theorem Group.voidFlash_deposit (g : Group) : (g.voidFlash).deposit = g.deposit := rfl
@[simp] theorem Group.voidFlash_matrix (g : Group) : (g.voidFlash).matrix = g.matrix := rfl
@[simp] theorem Group.voidFlash_bin (g : Group) : (g.voidFlash).bin = g.bin := rfl
@[simp] theorem Group.voidFlash_spawned (g : Group) : (g.voidFlash).spawned = g.spawned := rfl
@[simp] theorem Group.voidFlash_expand (g : Group) : (g.voidFlash).expand = g.expand := rfl
@[simp] theorem Group.voidFlash_det (g : Group) : (g.voidFlash).det = g.det := rfl
@[simp] theorem Group.voidFlash_relDue (g : Group) : (g.voidFlash).relDue = g.relDue := rfl
@[simp] theorem Group.voidFlash_pkgSeen (g : Group) : (g.voidFlash).pkgSeen = g.pkgSeen := rfl

/-! ## Group.enterLatch -/

@[simp] theorem Group.enterLatch_asid (g : Group) (t : Nat) (x : Word) : (g.enterLatch t x).asid = g.asid := rfl
@[simp] theorem Group.enterLatch_core (g : Group) (t : Nat) (x : Word) : (g.enterLatch t x).core = g.core := rfl
@[simp] theorem Group.enterLatch_block (g : Group) (t : Nat) (x : Word) : (g.enterLatch t x).block = g.block := rfl
@[simp] theorem Group.enterLatch_grid (g : Group) (t : Nat) (x : Word) : (g.enterLatch t x).grid = g.grid := rfl
@[simp] theorem Group.enterLatch_entry (g : Group) (t : Nat) (x : Word) : (g.enterLatch t x).entry = g.entry := rfl
@[simp] theorem Group.enterLatch_nregs (g : Group) (t : Nat) (x : Word) : (g.enterLatch t x).nregs = g.nregs := rfl
@[simp] theorem Group.enterLatch_cls (g : Group) (t : Nat) (x : Word) : (g.enterLatch t x).cls = g.cls := rfl
@[simp] theorem Group.enterLatch_mode (g : Group) (t : Nat) (x : Word) : (g.enterLatch t x).mode = g.mode := rfl
@[simp] theorem Group.enterLatch_pc (g : Group) (t : Nat) (x : Word) : (g.enterLatch t x).pc = g.pc := rfl
@[simp] theorem Group.enterLatch_line (g : Group) (t : Nat) (x : Word) : (g.enterLatch t x).line = g.line := rfl
@[simp] theorem Group.enterLatch_fresh (g : Group) (t : Nat) (x : Word) : (g.enterLatch t x).fresh = g.fresh := rfl
@[simp] theorem Group.enterLatch_lmask (g : Group) (t : Nat) (x : Word) : (g.enterLatch t x).lmask = g.lmask := rfl
@[simp] theorem Group.enterLatch_amask (g : Group) (t : Nat) (x : Word) : (g.enterLatch t x).amask = g.amask := rfl
@[simp] theorem Group.enterLatch_threads (g : Group) (t : Nat) (x : Word) : (g.enterLatch t x).threads = g.threads.setIfInBounds t { g.thread t with b1 := (g.thread t).b0, b0 := ⟨x, true⟩ } := rfl
@[simp] theorem Group.enterLatch_s (g : Group) (t : Nat) (x : Word) : (g.enterLatch t x).s = g.s := rfl
@[simp] theorem Group.enterLatch_w (g : Group) (t : Nat) (x : Word) : (g.enterLatch t x).w = g.w := rfl
@[simp] theorem Group.enterLatch_stack (g : Group) (t : Nat) (x : Word) : (g.enterLatch t x).stack = g.stack := rfl
@[simp] theorem Group.enterLatch_lidx (g : Group) (t : Nat) (x : Word) : (g.enterLatch t x).lidx = g.lidx := rfl
@[simp] theorem Group.enterLatch_packed (g : Group) (t : Nat) (x : Word) : (g.enterLatch t x).packed = g.packed := rfl
@[simp] theorem Group.enterLatch_gcnt (g : Group) (t : Nat) (x : Word) : (g.enterLatch t x).gcnt = g.gcnt := rfl
@[simp] theorem Group.enterLatch_rank (g : Group) (t : Nat) (x : Word) : (g.enterLatch t x).rank = g.rank := rfl
@[simp] theorem Group.enterLatch_bcnt (g : Group) (t : Nat) (x : Word) : (g.enterLatch t x).bcnt = g.bcnt := rfl
@[simp] theorem Group.enterLatch_bidx (g : Group) (t : Nat) (x : Word) : (g.enterLatch t x).bidx = g.bidx := rfl
@[simp] theorem Group.enterLatch_args (g : Group) (t : Nat) (x : Word) : (g.enterLatch t x).args = g.args := rfl
@[simp] theorem Group.enterLatch_fpmode (g : Group) (t : Nat) (x : Word) : (g.enterLatch t x).fpmode = g.fpmode := rfl
@[simp] theorem Group.enterLatch_fpseed (g : Group) (t : Nat) (x : Word) : (g.enterLatch t x).fpseed = g.fpseed := rfl
@[simp] theorem Group.enterLatch_fflags (g : Group) (t : Nat) (x : Word) : (g.enterLatch t x).fflags = g.fflags := rfl
@[simp] theorem Group.enterLatch_ftrapen (g : Group) (t : Nat) (x : Word) : (g.enterLatch t x).ftrapen = g.ftrapen := rfl
@[simp] theorem Group.enterLatch_recipe (g : Group) (t : Nat) (x : Word) : (g.enterLatch t x).recipe = g.recipe := rfl
@[simp] theorem Group.enterLatch_retired (g : Group) (t : Nat) (x : Word) : (g.enterLatch t x).retired = g.retired := rfl
@[simp] theorem Group.enterLatch_opening (g : Group) (t : Nat) (x : Word) : (g.enterLatch t x).opening = g.opening := rfl
@[simp] theorem Group.enterLatch_wait (g : Group) (t : Nat) (x : Word) : (g.enterLatch t x).wait = g.wait := rfl
@[simp] theorem Group.enterLatch_sched (g : Group) (t : Nat) (x : Word) : (g.enterLatch t x).sched = g.sched := rfl
@[simp] theorem Group.enterLatch_flash (g : Group) (t : Nat) (x : Word) : (g.enterLatch t x).flash = g.flash := rfl
@[simp] theorem Group.enterLatch_replay (g : Group) (t : Nat) (x : Word) : (g.enterLatch t x).replay = g.replay := rfl
@[simp] theorem Group.enterLatch_kept (g : Group) (t : Nat) (x : Word) : (g.enterLatch t x).kept = g.kept := rfl
@[simp] theorem Group.enterLatch_frame (g : Group) (t : Nat) (x : Word) : (g.enterLatch t x).frame = g.frame := rfl
@[simp] theorem Group.enterLatch_frameEpc (g : Group) (t : Nat) (x : Word) : (g.enterLatch t x).frameEpc = g.frameEpc := rfl
@[simp] theorem Group.enterLatch_frameEvent (g : Group) (t : Nat) (x : Word) : (g.enterLatch t x).frameEvent = g.frameEvent := rfl
@[simp] theorem Group.enterLatch_pending (g : Group) (t : Nat) (x : Word) : (g.enterLatch t x).pending = g.pending := rfl
@[simp] theorem Group.enterLatch_loads (g : Group) (t : Nat) (x : Word) : (g.enterLatch t x).loads = g.loads := rfl
@[simp] theorem Group.enterLatch_scribe (g : Group) (t : Nat) (x : Word) : (g.enterLatch t x).scribe = g.scribe := rfl
@[simp] theorem Group.enterLatch_deposit (g : Group) (t : Nat) (x : Word) : (g.enterLatch t x).deposit = g.deposit := rfl
@[simp] theorem Group.enterLatch_matrix (g : Group) (t : Nat) (x : Word) : (g.enterLatch t x).matrix = g.matrix := rfl
@[simp] theorem Group.enterLatch_bin (g : Group) (t : Nat) (x : Word) : (g.enterLatch t x).bin = g.bin := rfl
@[simp] theorem Group.enterLatch_spawned (g : Group) (t : Nat) (x : Word) : (g.enterLatch t x).spawned = g.spawned := rfl
@[simp] theorem Group.enterLatch_expand (g : Group) (t : Nat) (x : Word) : (g.enterLatch t x).expand = g.expand := rfl
@[simp] theorem Group.enterLatch_det (g : Group) (t : Nat) (x : Word) : (g.enterLatch t x).det = g.det := rfl
@[simp] theorem Group.enterLatch_relDue (g : Group) (t : Nat) (x : Word) : (g.enterLatch t x).relDue = g.relDue := rfl
@[simp] theorem Group.enterLatch_pkgSeen (g : Group) (t : Nat) (x : Word) : (g.enterLatch t x).pkgSeen = g.pkgSeen := rfl

/-! ## Thread.setReg -/

@[simp] theorem Thread.setReg_v (x : Thread) (n : Nat) (w : Word) : (x.setReg n w).v = x.v.setIfInBounds n w := rfl
@[simp] theorem Thread.setReg_p (x : Thread) (n : Nat) (w : Word) : (x.setReg n w).p = x.p := rfl
@[simp] theorem Thread.setReg_b0 (x : Thread) (n : Nat) (w : Word) : (x.setReg n w).b0 = x.b0 := rfl
@[simp] theorem Thread.setReg_b1 (x : Thread) (n : Nat) (w : Word) : (x.setReg n w).b1 = x.b1 := rfl
@[simp] theorem Thread.setReg_ox (x : Thread) (n : Nat) (w : Word) : (x.setReg n w).ox = x.ox := rfl
@[simp] theorem Thread.setReg_current (x : Thread) (n : Nat) (w : Word) : (x.setReg n w).current = x.current := rfl
@[simp] theorem Thread.setReg_ticket (x : Thread) (n : Nat) (w : Word) : (x.setReg n w).ticket = x.ticket := rfl
@[simp] theorem Thread.setReg_origin (x : Thread) (n : Nat) (w : Word) : (x.setReg n w).origin = x.origin := rfl
@[simp] theorem Thread.setReg_payload (x : Thread) (n : Nat) (w : Word) : (x.setReg n w).payload = x.payload := rfl
@[simp] theorem Thread.setReg_prefixKey (x : Thread) (n : Nat) (w : Word) : (x.setReg n w).prefixKey = x.prefixKey := rfl
@[simp] theorem Thread.setReg_own (x : Thread) (n : Nat) (w : Word) : (x.setReg n w).own = x.own := rfl

/-! ## Thread.setPred -/

@[simp] theorem Thread.setPred_v (x : Thread) (k : Nat) (b : Bool) : (x.setPred k b).v = x.v := rfl
@[simp] theorem Thread.setPred_p (x : Thread) (k : Nat) (b : Bool) : (x.setPred k b).p = if b then x.p ||| (1#8 <<< k) else x.p &&& ~~~(1#8 <<< k) := rfl
@[simp] theorem Thread.setPred_b0 (x : Thread) (k : Nat) (b : Bool) : (x.setPred k b).b0 = x.b0 := rfl
@[simp] theorem Thread.setPred_b1 (x : Thread) (k : Nat) (b : Bool) : (x.setPred k b).b1 = x.b1 := rfl
@[simp] theorem Thread.setPred_ox (x : Thread) (k : Nat) (b : Bool) : (x.setPred k b).ox = x.ox := rfl
@[simp] theorem Thread.setPred_current (x : Thread) (k : Nat) (b : Bool) : (x.setPred k b).current = x.current := rfl
@[simp] theorem Thread.setPred_ticket (x : Thread) (k : Nat) (b : Bool) : (x.setPred k b).ticket = x.ticket := rfl
@[simp] theorem Thread.setPred_origin (x : Thread) (k : Nat) (b : Bool) : (x.setPred k b).origin = x.origin := rfl
@[simp] theorem Thread.setPred_payload (x : Thread) (k : Nat) (b : Bool) : (x.setPred k b).payload = x.payload := rfl
@[simp] theorem Thread.setPred_prefixKey (x : Thread) (k : Nat) (b : Bool) : (x.setPred k b).prefixKey = x.prefixKey := rfl
@[simp] theorem Thread.setPred_own (x : Thread) (k : Nat) (b : Bool) : (x.setPred k b).own = x.own := rfl

/-! ## Group.touchV -/

@[simp] theorem Group.touchV_asid (g : Group) (n : Nat) : (g.touchV n).asid = g.asid := by
  unfold Group.touchV; split <;> (try split) <;> rfl
@[simp] theorem Group.touchV_core (g : Group) (n : Nat) : (g.touchV n).core = g.core := by
  unfold Group.touchV; split <;> (try split) <;> rfl
@[simp] theorem Group.touchV_block (g : Group) (n : Nat) : (g.touchV n).block = g.block := by
  unfold Group.touchV; split <;> (try split) <;> rfl
@[simp] theorem Group.touchV_grid (g : Group) (n : Nat) : (g.touchV n).grid = g.grid := by
  unfold Group.touchV; split <;> (try split) <;> rfl
@[simp] theorem Group.touchV_entry (g : Group) (n : Nat) : (g.touchV n).entry = g.entry := by
  unfold Group.touchV; split <;> (try split) <;> rfl
@[simp] theorem Group.touchV_nregs (g : Group) (n : Nat) : (g.touchV n).nregs = g.nregs := by
  unfold Group.touchV; split <;> (try split) <;> rfl
@[simp] theorem Group.touchV_cls (g : Group) (n : Nat) : (g.touchV n).cls = g.cls := by
  unfold Group.touchV; split <;> (try split) <;> rfl
@[simp] theorem Group.touchV_mode (g : Group) (n : Nat) : (g.touchV n).mode = g.mode := by
  unfold Group.touchV; split <;> (try split) <;> rfl
@[simp] theorem Group.touchV_pc (g : Group) (n : Nat) : (g.touchV n).pc = g.pc := by
  unfold Group.touchV; split <;> (try split) <;> rfl
@[simp] theorem Group.touchV_line (g : Group) (n : Nat) : (g.touchV n).line = g.line := by
  unfold Group.touchV; split <;> (try split) <;> rfl
@[simp] theorem Group.touchV_fresh (g : Group) (n : Nat) : (g.touchV n).fresh = g.fresh := by
  unfold Group.touchV; split <;> (try split) <;> rfl
@[simp] theorem Group.touchV_lmask (g : Group) (n : Nat) : (g.touchV n).lmask = g.lmask := by
  unfold Group.touchV; split <;> (try split) <;> rfl
@[simp] theorem Group.touchV_amask (g : Group) (n : Nat) : (g.touchV n).amask = g.amask := by
  unfold Group.touchV; split <;> (try split) <;> rfl
@[simp] theorem Group.touchV_threads (g : Group) (n : Nat) : (g.touchV n).threads = g.threads := by
  unfold Group.touchV; split <;> (try split) <;> rfl
@[simp] theorem Group.touchV_s (g : Group) (n : Nat) : (g.touchV n).s = g.s := by
  unfold Group.touchV; split <;> (try split) <;> rfl
@[simp] theorem Group.touchV_w (g : Group) (n : Nat) : (g.touchV n).w = g.w := by
  unfold Group.touchV; split <;> (try split) <;> rfl
@[simp] theorem Group.touchV_stack (g : Group) (n : Nat) : (g.touchV n).stack = g.stack := by
  unfold Group.touchV; split <;> (try split) <;> rfl
@[simp] theorem Group.touchV_lidx (g : Group) (n : Nat) : (g.touchV n).lidx = g.lidx := by
  unfold Group.touchV; split <;> (try split) <;> rfl
@[simp] theorem Group.touchV_packed (g : Group) (n : Nat) : (g.touchV n).packed = g.packed := by
  unfold Group.touchV; split <;> (try split) <;> rfl
@[simp] theorem Group.touchV_gcnt (g : Group) (n : Nat) : (g.touchV n).gcnt = g.gcnt := by
  unfold Group.touchV; split <;> (try split) <;> rfl
@[simp] theorem Group.touchV_rank (g : Group) (n : Nat) : (g.touchV n).rank = g.rank := by
  unfold Group.touchV; split <;> (try split) <;> rfl
@[simp] theorem Group.touchV_bcnt (g : Group) (n : Nat) : (g.touchV n).bcnt = g.bcnt := by
  unfold Group.touchV; split <;> (try split) <;> rfl
@[simp] theorem Group.touchV_bidx (g : Group) (n : Nat) : (g.touchV n).bidx = g.bidx := by
  unfold Group.touchV; split <;> (try split) <;> rfl
@[simp] theorem Group.touchV_args (g : Group) (n : Nat) : (g.touchV n).args = g.args := by
  unfold Group.touchV; split <;> (try split) <;> rfl
@[simp] theorem Group.touchV_fpmode (g : Group) (n : Nat) : (g.touchV n).fpmode = g.fpmode := by
  unfold Group.touchV; split <;> (try split) <;> rfl
@[simp] theorem Group.touchV_fpseed (g : Group) (n : Nat) : (g.touchV n).fpseed = g.fpseed := by
  unfold Group.touchV; split <;> (try split) <;> rfl
@[simp] theorem Group.touchV_fflags (g : Group) (n : Nat) : (g.touchV n).fflags = g.fflags := by
  unfold Group.touchV; split <;> (try split) <;> rfl
@[simp] theorem Group.touchV_ftrapen (g : Group) (n : Nat) : (g.touchV n).ftrapen = g.ftrapen := by
  unfold Group.touchV; split <;> (try split) <;> rfl
@[simp] theorem Group.touchV_recipe (g : Group) (n : Nat) : (g.touchV n).recipe = g.recipe := by
  unfold Group.touchV; split <;> (try split) <;> rfl
@[simp] theorem Group.touchV_retired (g : Group) (n : Nat) : (g.touchV n).retired = g.retired := by
  unfold Group.touchV; split <;> (try split) <;> rfl
@[simp] theorem Group.touchV_opening (g : Group) (n : Nat) : (g.touchV n).opening = g.opening := by
  unfold Group.touchV; split <;> (try split) <;> rfl
@[simp] theorem Group.touchV_wait (g : Group) (n : Nat) : (g.touchV n).wait = g.wait := by
  unfold Group.touchV; split <;> (try split) <;> rfl
@[simp] theorem Group.touchV_sched (g : Group) (n : Nat) : (g.touchV n).sched = g.sched := by
  unfold Group.touchV; split <;> (try split) <;> rfl
@[simp] theorem Group.touchV_replay (g : Group) (n : Nat) : (g.touchV n).replay = g.replay := by
  unfold Group.touchV; split <;> (try split) <;> rfl
@[simp] theorem Group.touchV_kept (g : Group) (n : Nat) : (g.touchV n).kept = g.kept := by
  unfold Group.touchV; split <;> (try split) <;> rfl
@[simp] theorem Group.touchV_frame (g : Group) (n : Nat) : (g.touchV n).frame = g.frame := by
  unfold Group.touchV; split <;> (try split) <;> rfl
@[simp] theorem Group.touchV_frameEpc (g : Group) (n : Nat) : (g.touchV n).frameEpc = g.frameEpc := by
  unfold Group.touchV; split <;> (try split) <;> rfl
@[simp] theorem Group.touchV_frameEvent (g : Group) (n : Nat) : (g.touchV n).frameEvent = g.frameEvent := by
  unfold Group.touchV; split <;> (try split) <;> rfl
@[simp] theorem Group.touchV_pending (g : Group) (n : Nat) : (g.touchV n).pending = g.pending := by
  unfold Group.touchV; split <;> (try split) <;> rfl
@[simp] theorem Group.touchV_loads (g : Group) (n : Nat) : (g.touchV n).loads = g.loads := by
  unfold Group.touchV; split <;> (try split) <;> rfl
@[simp] theorem Group.touchV_scribe (g : Group) (n : Nat) : (g.touchV n).scribe = g.scribe := by
  unfold Group.touchV; split <;> (try split) <;> rfl
@[simp] theorem Group.touchV_deposit (g : Group) (n : Nat) : (g.touchV n).deposit = g.deposit := by
  unfold Group.touchV; split <;> (try split) <;> rfl
@[simp] theorem Group.touchV_matrix (g : Group) (n : Nat) : (g.touchV n).matrix = g.matrix := by
  unfold Group.touchV; split <;> (try split) <;> rfl
@[simp] theorem Group.touchV_bin (g : Group) (n : Nat) : (g.touchV n).bin = g.bin := by
  unfold Group.touchV; split <;> (try split) <;> rfl
@[simp] theorem Group.touchV_spawned (g : Group) (n : Nat) : (g.touchV n).spawned = g.spawned := by
  unfold Group.touchV; split <;> (try split) <;> rfl
@[simp] theorem Group.touchV_expand (g : Group) (n : Nat) : (g.touchV n).expand = g.expand := by
  unfold Group.touchV; split <;> (try split) <;> rfl
@[simp] theorem Group.touchV_det (g : Group) (n : Nat) : (g.touchV n).det = g.det := by
  unfold Group.touchV; split <;> (try split) <;> rfl
@[simp] theorem Group.touchV_relDue (g : Group) (n : Nat) : (g.touchV n).relDue = g.relDue := by
  unfold Group.touchV; split <;> (try split) <;> rfl
@[simp] theorem Group.touchV_pkgSeen (g : Group) (n : Nat) : (g.touchV n).pkgSeen = g.pkgSeen := by
  unfold Group.touchV; split <;> (try split) <;> rfl

/-! ## Group.touchS -/

@[simp] theorem Group.touchS_asid (g : Group) (n : Nat) : (g.touchS n).asid = g.asid := by
  unfold Group.touchS; split <;> (try split) <;> rfl
@[simp] theorem Group.touchS_core (g : Group) (n : Nat) : (g.touchS n).core = g.core := by
  unfold Group.touchS; split <;> (try split) <;> rfl
@[simp] theorem Group.touchS_block (g : Group) (n : Nat) : (g.touchS n).block = g.block := by
  unfold Group.touchS; split <;> (try split) <;> rfl
@[simp] theorem Group.touchS_grid (g : Group) (n : Nat) : (g.touchS n).grid = g.grid := by
  unfold Group.touchS; split <;> (try split) <;> rfl
@[simp] theorem Group.touchS_entry (g : Group) (n : Nat) : (g.touchS n).entry = g.entry := by
  unfold Group.touchS; split <;> (try split) <;> rfl
@[simp] theorem Group.touchS_nregs (g : Group) (n : Nat) : (g.touchS n).nregs = g.nregs := by
  unfold Group.touchS; split <;> (try split) <;> rfl
@[simp] theorem Group.touchS_cls (g : Group) (n : Nat) : (g.touchS n).cls = g.cls := by
  unfold Group.touchS; split <;> (try split) <;> rfl
@[simp] theorem Group.touchS_mode (g : Group) (n : Nat) : (g.touchS n).mode = g.mode := by
  unfold Group.touchS; split <;> (try split) <;> rfl
@[simp] theorem Group.touchS_pc (g : Group) (n : Nat) : (g.touchS n).pc = g.pc := by
  unfold Group.touchS; split <;> (try split) <;> rfl
@[simp] theorem Group.touchS_line (g : Group) (n : Nat) : (g.touchS n).line = g.line := by
  unfold Group.touchS; split <;> (try split) <;> rfl
@[simp] theorem Group.touchS_fresh (g : Group) (n : Nat) : (g.touchS n).fresh = g.fresh := by
  unfold Group.touchS; split <;> (try split) <;> rfl
@[simp] theorem Group.touchS_lmask (g : Group) (n : Nat) : (g.touchS n).lmask = g.lmask := by
  unfold Group.touchS; split <;> (try split) <;> rfl
@[simp] theorem Group.touchS_amask (g : Group) (n : Nat) : (g.touchS n).amask = g.amask := by
  unfold Group.touchS; split <;> (try split) <;> rfl
@[simp] theorem Group.touchS_threads (g : Group) (n : Nat) : (g.touchS n).threads = g.threads := by
  unfold Group.touchS; split <;> (try split) <;> rfl
@[simp] theorem Group.touchS_s (g : Group) (n : Nat) : (g.touchS n).s = g.s := by
  unfold Group.touchS; split <;> (try split) <;> rfl
@[simp] theorem Group.touchS_w (g : Group) (n : Nat) : (g.touchS n).w = g.w := by
  unfold Group.touchS; split <;> (try split) <;> rfl
@[simp] theorem Group.touchS_stack (g : Group) (n : Nat) : (g.touchS n).stack = g.stack := by
  unfold Group.touchS; split <;> (try split) <;> rfl
@[simp] theorem Group.touchS_lidx (g : Group) (n : Nat) : (g.touchS n).lidx = g.lidx := by
  unfold Group.touchS; split <;> (try split) <;> rfl
@[simp] theorem Group.touchS_packed (g : Group) (n : Nat) : (g.touchS n).packed = g.packed := by
  unfold Group.touchS; split <;> (try split) <;> rfl
@[simp] theorem Group.touchS_gcnt (g : Group) (n : Nat) : (g.touchS n).gcnt = g.gcnt := by
  unfold Group.touchS; split <;> (try split) <;> rfl
@[simp] theorem Group.touchS_rank (g : Group) (n : Nat) : (g.touchS n).rank = g.rank := by
  unfold Group.touchS; split <;> (try split) <;> rfl
@[simp] theorem Group.touchS_bcnt (g : Group) (n : Nat) : (g.touchS n).bcnt = g.bcnt := by
  unfold Group.touchS; split <;> (try split) <;> rfl
@[simp] theorem Group.touchS_bidx (g : Group) (n : Nat) : (g.touchS n).bidx = g.bidx := by
  unfold Group.touchS; split <;> (try split) <;> rfl
@[simp] theorem Group.touchS_args (g : Group) (n : Nat) : (g.touchS n).args = g.args := by
  unfold Group.touchS; split <;> (try split) <;> rfl
@[simp] theorem Group.touchS_fpmode (g : Group) (n : Nat) : (g.touchS n).fpmode = g.fpmode := by
  unfold Group.touchS; split <;> (try split) <;> rfl
@[simp] theorem Group.touchS_fpseed (g : Group) (n : Nat) : (g.touchS n).fpseed = g.fpseed := by
  unfold Group.touchS; split <;> (try split) <;> rfl
@[simp] theorem Group.touchS_fflags (g : Group) (n : Nat) : (g.touchS n).fflags = g.fflags := by
  unfold Group.touchS; split <;> (try split) <;> rfl
@[simp] theorem Group.touchS_ftrapen (g : Group) (n : Nat) : (g.touchS n).ftrapen = g.ftrapen := by
  unfold Group.touchS; split <;> (try split) <;> rfl
@[simp] theorem Group.touchS_recipe (g : Group) (n : Nat) : (g.touchS n).recipe = g.recipe := by
  unfold Group.touchS; split <;> (try split) <;> rfl
@[simp] theorem Group.touchS_retired (g : Group) (n : Nat) : (g.touchS n).retired = g.retired := by
  unfold Group.touchS; split <;> (try split) <;> rfl
@[simp] theorem Group.touchS_opening (g : Group) (n : Nat) : (g.touchS n).opening = g.opening := by
  unfold Group.touchS; split <;> (try split) <;> rfl
@[simp] theorem Group.touchS_wait (g : Group) (n : Nat) : (g.touchS n).wait = g.wait := by
  unfold Group.touchS; split <;> (try split) <;> rfl
@[simp] theorem Group.touchS_sched (g : Group) (n : Nat) : (g.touchS n).sched = g.sched := by
  unfold Group.touchS; split <;> (try split) <;> rfl
@[simp] theorem Group.touchS_replay (g : Group) (n : Nat) : (g.touchS n).replay = g.replay := by
  unfold Group.touchS; split <;> (try split) <;> rfl
@[simp] theorem Group.touchS_kept (g : Group) (n : Nat) : (g.touchS n).kept = g.kept := by
  unfold Group.touchS; split <;> (try split) <;> rfl
@[simp] theorem Group.touchS_frame (g : Group) (n : Nat) : (g.touchS n).frame = g.frame := by
  unfold Group.touchS; split <;> (try split) <;> rfl
@[simp] theorem Group.touchS_frameEpc (g : Group) (n : Nat) : (g.touchS n).frameEpc = g.frameEpc := by
  unfold Group.touchS; split <;> (try split) <;> rfl
@[simp] theorem Group.touchS_frameEvent (g : Group) (n : Nat) : (g.touchS n).frameEvent = g.frameEvent := by
  unfold Group.touchS; split <;> (try split) <;> rfl
@[simp] theorem Group.touchS_pending (g : Group) (n : Nat) : (g.touchS n).pending = g.pending := by
  unfold Group.touchS; split <;> (try split) <;> rfl
@[simp] theorem Group.touchS_loads (g : Group) (n : Nat) : (g.touchS n).loads = g.loads := by
  unfold Group.touchS; split <;> (try split) <;> rfl
@[simp] theorem Group.touchS_scribe (g : Group) (n : Nat) : (g.touchS n).scribe = g.scribe := by
  unfold Group.touchS; split <;> (try split) <;> rfl
@[simp] theorem Group.touchS_deposit (g : Group) (n : Nat) : (g.touchS n).deposit = g.deposit := by
  unfold Group.touchS; split <;> (try split) <;> rfl
@[simp] theorem Group.touchS_matrix (g : Group) (n : Nat) : (g.touchS n).matrix = g.matrix := by
  unfold Group.touchS; split <;> (try split) <;> rfl
@[simp] theorem Group.touchS_bin (g : Group) (n : Nat) : (g.touchS n).bin = g.bin := by
  unfold Group.touchS; split <;> (try split) <;> rfl
@[simp] theorem Group.touchS_spawned (g : Group) (n : Nat) : (g.touchS n).spawned = g.spawned := by
  unfold Group.touchS; split <;> (try split) <;> rfl
@[simp] theorem Group.touchS_expand (g : Group) (n : Nat) : (g.touchS n).expand = g.expand := by
  unfold Group.touchS; split <;> (try split) <;> rfl
@[simp] theorem Group.touchS_det (g : Group) (n : Nat) : (g.touchS n).det = g.det := by
  unfold Group.touchS; split <;> (try split) <;> rfl
@[simp] theorem Group.touchS_relDue (g : Group) (n : Nat) : (g.touchS n).relDue = g.relDue := by
  unfold Group.touchS; split <;> (try split) <;> rfl
@[simp] theorem Group.touchS_pkgSeen (g : Group) (n : Nat) : (g.touchS n).pkgSeen = g.pkgSeen := by
  unfold Group.touchS; split <;> (try split) <;> rfl

/-! ## Group.writeV -/

@[simp] theorem Group.writeV_asid (g : Group) (t n : Nat) (x : Word) : (g.writeV t n x).asid = g.asid := by
  unfold Group.writeV; simp
@[simp] theorem Group.writeV_core (g : Group) (t n : Nat) (x : Word) : (g.writeV t n x).core = g.core := by
  unfold Group.writeV; simp
@[simp] theorem Group.writeV_block (g : Group) (t n : Nat) (x : Word) : (g.writeV t n x).block = g.block := by
  unfold Group.writeV; simp
@[simp] theorem Group.writeV_grid (g : Group) (t n : Nat) (x : Word) : (g.writeV t n x).grid = g.grid := by
  unfold Group.writeV; simp
@[simp] theorem Group.writeV_entry (g : Group) (t n : Nat) (x : Word) : (g.writeV t n x).entry = g.entry := by
  unfold Group.writeV; simp
@[simp] theorem Group.writeV_nregs (g : Group) (t n : Nat) (x : Word) : (g.writeV t n x).nregs = g.nregs := by
  unfold Group.writeV; simp
@[simp] theorem Group.writeV_cls (g : Group) (t n : Nat) (x : Word) : (g.writeV t n x).cls = g.cls := by
  unfold Group.writeV; simp
@[simp] theorem Group.writeV_mode (g : Group) (t n : Nat) (x : Word) : (g.writeV t n x).mode = g.mode := by
  unfold Group.writeV; simp
@[simp] theorem Group.writeV_pc (g : Group) (t n : Nat) (x : Word) : (g.writeV t n x).pc = g.pc := by
  unfold Group.writeV; simp
@[simp] theorem Group.writeV_line (g : Group) (t n : Nat) (x : Word) : (g.writeV t n x).line = g.line := by
  unfold Group.writeV; simp
@[simp] theorem Group.writeV_fresh (g : Group) (t n : Nat) (x : Word) : (g.writeV t n x).fresh = g.fresh := by
  unfold Group.writeV; simp
@[simp] theorem Group.writeV_lmask (g : Group) (t n : Nat) (x : Word) : (g.writeV t n x).lmask = g.lmask := by
  unfold Group.writeV; simp
@[simp] theorem Group.writeV_amask (g : Group) (t n : Nat) (x : Word) : (g.writeV t n x).amask = g.amask := by
  unfold Group.writeV; simp
@[simp] theorem Group.writeV_threads (g : Group) (t n : Nat) (x : Word) :
    (g.writeV t n x).threads = g.threads.setIfInBounds t ((g.thread t).setReg n x) := by
  unfold Group.writeV; simp [Group.thread]
@[simp] theorem Group.writeV_s (g : Group) (t n : Nat) (x : Word) : (g.writeV t n x).s = g.s := by
  unfold Group.writeV; simp
@[simp] theorem Group.writeV_w (g : Group) (t n : Nat) (x : Word) : (g.writeV t n x).w = g.w := by
  unfold Group.writeV; simp
@[simp] theorem Group.writeV_stack (g : Group) (t n : Nat) (x : Word) : (g.writeV t n x).stack = g.stack := by
  unfold Group.writeV; simp
@[simp] theorem Group.writeV_lidx (g : Group) (t n : Nat) (x : Word) : (g.writeV t n x).lidx = g.lidx := by
  unfold Group.writeV; simp
@[simp] theorem Group.writeV_packed (g : Group) (t n : Nat) (x : Word) : (g.writeV t n x).packed = g.packed := by
  unfold Group.writeV; simp
@[simp] theorem Group.writeV_gcnt (g : Group) (t n : Nat) (x : Word) : (g.writeV t n x).gcnt = g.gcnt := by
  unfold Group.writeV; simp
@[simp] theorem Group.writeV_rank (g : Group) (t n : Nat) (x : Word) : (g.writeV t n x).rank = g.rank := by
  unfold Group.writeV; simp
@[simp] theorem Group.writeV_bcnt (g : Group) (t n : Nat) (x : Word) : (g.writeV t n x).bcnt = g.bcnt := by
  unfold Group.writeV; simp
@[simp] theorem Group.writeV_bidx (g : Group) (t n : Nat) (x : Word) : (g.writeV t n x).bidx = g.bidx := by
  unfold Group.writeV; simp
@[simp] theorem Group.writeV_args (g : Group) (t n : Nat) (x : Word) : (g.writeV t n x).args = g.args := by
  unfold Group.writeV; simp
@[simp] theorem Group.writeV_fpmode (g : Group) (t n : Nat) (x : Word) : (g.writeV t n x).fpmode = g.fpmode := by
  unfold Group.writeV; simp
@[simp] theorem Group.writeV_fpseed (g : Group) (t n : Nat) (x : Word) : (g.writeV t n x).fpseed = g.fpseed := by
  unfold Group.writeV; simp
@[simp] theorem Group.writeV_fflags (g : Group) (t n : Nat) (x : Word) : (g.writeV t n x).fflags = g.fflags := by
  unfold Group.writeV; simp
@[simp] theorem Group.writeV_ftrapen (g : Group) (t n : Nat) (x : Word) : (g.writeV t n x).ftrapen = g.ftrapen := by
  unfold Group.writeV; simp
@[simp] theorem Group.writeV_recipe (g : Group) (t n : Nat) (x : Word) : (g.writeV t n x).recipe = g.recipe := by
  unfold Group.writeV; simp
@[simp] theorem Group.writeV_retired (g : Group) (t n : Nat) (x : Word) : (g.writeV t n x).retired = g.retired := by
  unfold Group.writeV; simp
@[simp] theorem Group.writeV_opening (g : Group) (t n : Nat) (x : Word) : (g.writeV t n x).opening = g.opening := by
  unfold Group.writeV; simp
@[simp] theorem Group.writeV_wait (g : Group) (t n : Nat) (x : Word) : (g.writeV t n x).wait = g.wait := by
  unfold Group.writeV; simp
@[simp] theorem Group.writeV_sched (g : Group) (t n : Nat) (x : Word) : (g.writeV t n x).sched = g.sched := by
  unfold Group.writeV; simp
@[simp] theorem Group.writeV_replay (g : Group) (t n : Nat) (x : Word) : (g.writeV t n x).replay = g.replay := by
  unfold Group.writeV; simp
@[simp] theorem Group.writeV_kept (g : Group) (t n : Nat) (x : Word) : (g.writeV t n x).kept = g.kept := by
  unfold Group.writeV; simp
@[simp] theorem Group.writeV_frame (g : Group) (t n : Nat) (x : Word) : (g.writeV t n x).frame = g.frame := by
  unfold Group.writeV; simp
@[simp] theorem Group.writeV_frameEpc (g : Group) (t n : Nat) (x : Word) : (g.writeV t n x).frameEpc = g.frameEpc := by
  unfold Group.writeV; simp
@[simp] theorem Group.writeV_frameEvent (g : Group) (t n : Nat) (x : Word) : (g.writeV t n x).frameEvent = g.frameEvent := by
  unfold Group.writeV; simp
@[simp] theorem Group.writeV_pending (g : Group) (t n : Nat) (x : Word) : (g.writeV t n x).pending = g.pending := by
  unfold Group.writeV; simp
@[simp] theorem Group.writeV_loads (g : Group) (t n : Nat) (x : Word) : (g.writeV t n x).loads = g.loads := by
  unfold Group.writeV; simp
@[simp] theorem Group.writeV_scribe (g : Group) (t n : Nat) (x : Word) : (g.writeV t n x).scribe = g.scribe := by
  unfold Group.writeV; simp
@[simp] theorem Group.writeV_deposit (g : Group) (t n : Nat) (x : Word) : (g.writeV t n x).deposit = g.deposit := by
  unfold Group.writeV; simp
@[simp] theorem Group.writeV_matrix (g : Group) (t n : Nat) (x : Word) : (g.writeV t n x).matrix = g.matrix := by
  unfold Group.writeV; simp
@[simp] theorem Group.writeV_bin (g : Group) (t n : Nat) (x : Word) : (g.writeV t n x).bin = g.bin := by
  unfold Group.writeV; simp
@[simp] theorem Group.writeV_spawned (g : Group) (t n : Nat) (x : Word) : (g.writeV t n x).spawned = g.spawned := by
  unfold Group.writeV; simp
@[simp] theorem Group.writeV_expand (g : Group) (t n : Nat) (x : Word) : (g.writeV t n x).expand = g.expand := by
  unfold Group.writeV; simp
@[simp] theorem Group.writeV_det (g : Group) (t n : Nat) (x : Word) : (g.writeV t n x).det = g.det := by
  unfold Group.writeV; simp
@[simp] theorem Group.writeV_relDue (g : Group) (t n : Nat) (x : Word) : (g.writeV t n x).relDue = g.relDue := by
  unfold Group.writeV; simp
@[simp] theorem Group.writeV_pkgSeen (g : Group) (t n : Nat) (x : Word) : (g.writeV t n x).pkgSeen = g.pkgSeen := by
  unfold Group.writeV; simp

end Sys2Proof.Machine
end

