-- ==== Sys2Proof/Laws/Lane.lean ====
section
/-!
SUPPORT. What the shared operations of the lane instructions can do: the issue check, and a per-thread form over
distinct threads, each of which sees the group as it stood before the instruction.
-/

namespace Sys2Proof.Machine

/-! ## The issue check -/

/-- An instruction with no ILLOP cause has its effect. -/
theorem issueChecked_next {i : Instr} {s : State} {g : Group} {readers : Group → List Nat} {bad2 badLatch : Group → Bool}
    {effect : Group → State} (hg : s.grp = some g)
    (hi : illopCause i g (readers g) (bad2 g) (badLatch g) = none) :
    issueChecked i s readers bad2 badLatch effect = .next (effect g) := by
  simp only [issueChecked, hg, hi]

/-- The same for an instruction with no condition on machine state. -/
theorem issuePlain_next {i : Instr} {s : State} {g : Group} {effect : Group → State} (hg : s.grp = some g)
    (hi : illopCause i g g.active false false = none) : issuePlain i s effect = .next (effect g) :=
  issueChecked_next hg hi

/-- An instruction with an ILLOP cause raises it. -/
theorem issueChecked_illop {i : Instr} {s : State} {g : Group} {readers : Group → List Nat} {bad2 badLatch : Group → Bool}
    {effect : Group → State} {c : Nat} (hg : s.grp = some g)
    (hi : illopCause i g (readers g) (bad2 g) (badLatch g) = some c) :
    issueChecked i s readers bad2 badLatch effect = .next (illop s c) := by
  simp only [issueChecked, hg, hi]

/-! ## Threads of a mask -/

theorem mem_threadsOf {m : Word} {t : Nat} : t ∈ threadsOf m ↔ t < 32 ∧ m.getLsbD t = true := by
  simp [threadsOf]

theorem threadsOf_nodup (m : Word) : (threadsOf m).Nodup := List.nodup_range.filter _

theorem active_lt {g : Group} {t : Nat} (h : t ∈ g.active) : t < 32 := (mem_threadsOf.1 h).1

theorem active_nodup (g : Group) : g.active.Nodup := threadsOf_nodup _

theorem participants_lt {g : Group} {c : BitVec 3} {t : Nat} (h : t ∈ g.participants c) : t < 32 :=
  active_lt (List.mem_filter.1 h).1

theorem participants_nodup (g : Group) (c : BitVec 3) : (g.participants c).Nodup := (active_nodup g).filter _

theorem participants_zero (g : Group) : g.participants 0#3 = g.active := by simp [Group.participants]

/-! ## A thread's own place -/

theorem thread_setThread_same (g : Group) {t : Nat} (x : Thread) (h : t < 32) : (g.setThread t x).thread t = x := by
  simp [Group.thread, Group.setThread, h]

theorem thread_setThread_other (g : Group) {t u : Nat} (x : Thread) (h : u ≠ t) :
    (g.setThread t x).thread u = g.thread u := by
  simp [Group.thread, Group.setThread, Ne.symm h]

/-! ## A form over several threads -/

/-- A group that differs from another in threads, flashback state and flags alone. -/
def Group.Near (g h : Group) : Prop := { h with threads := g.threads, flash := g.flash, fflags := g.fflags } = g

theorem Group.Near.rfl' (g : Group) : g.Near g := rfl

/-- What one thread's part of an instruction does to a group near the one before it. -/
structure Group.Part (g : Group) (f : Group → Nat → Group) (after : Nat → Thread) (fl : Nat → Flags)
    (touch : Option Flash → Option Flash) (t : Nat) : Prop where
  near  : ∀ h, g.Near h → g.Near (f h t)
  own   : ∀ h, g.Near h → h.thread t = g.thread t → (f h t).thread t = after t
  other : ∀ h u, u ≠ t → (f h t).thread u = h.thread u
  flash : ∀ h, g.Near h → (f h t).flash = touch h.flash
  flags : ∀ h, g.Near h → h.thread t = g.thread t → (f h t).fflags = h.fflags ||| fl t

/-- Parts over distinct threads: each thread ends as its own part makes it, every other stands; the flags join. -/
theorem eachThread_parts {g : Group} {f : Group → Nat → Group} {after : Nat → Thread} {fl : Nat → Flags}
    {touch : Option Flash → Option Flash} (hidem : ∀ x, touch (touch x) = touch x) (ts : List Nat) (hd : ts.Nodup)
    (hp : ∀ t ∈ ts, g.Part f after fl touch t) (h : Group) (hn : g.Near h) (hs : ∀ t ∈ ts, h.thread t = g.thread t) :
    let k := h.eachThread ts f
    g.Near k ∧ (∀ t, k.thread t = if t ∈ ts then after t else h.thread t) ∧
    k.flash = (if ts.isEmpty then h.flash else touch h.flash) ∧
    k.fflags = ts.foldl (fun a t => a ||| fl t) h.fflags := by
  induction ts generalizing h with
  | nil => simp [Group.eachThread, hn]
  | cons t ts ih =>
    have hp' := hp t (by simp)
    have ht := hs t (by simp)
    obtain ⟨hnt, hd⟩ := List.nodup_cons.1 hd
    have := ih hd (fun u hu => hp u (by simp [hu])) (f h t) (hp'.near h hn) (fun u hu => by
      rw [hp'.other h u (fun e => hnt (e ▸ hu))]; exact hs u (by simp [hu]))
    obtain ⟨h1, h2, h3, h4⟩ := this
    refine ⟨h1, fun u => ?_, ?_, ?_⟩
    · show ((f h t).eachThread ts f).thread u = _
      rw [h2 u]
      by_cases e : u = t
      · subst e; simp [hnt, hp'.own h hn ht]
      · simp [e, hp'.other h u e]
    · show ((f h t).eachThread ts f).flash = _
      rw [h3, hp'.flash h hn]
      cases ts <;> simp [hidem]
    · show ((f h t).eachThread ts f).fflags = _
      rw [h4, hp'.flags h hn ht]; rfl

/-- Flags joined from a start are the start joined with them. -/
theorem foldl_flags (ts : List Nat) (fl : Nat → Flags) (a : Flags) :
    ts.foldl (fun a t => a ||| fl t) a = a ||| ts.foldl (fun a t => a ||| fl t) 0#7 := by
  induction ts generalizing a with
  | nil => simp
  | cons t ts ih => simp only [List.foldl_cons]; rw [ih (a ||| fl t), ih (0#7 ||| fl t)]; simp [BitVec.or_assoc]

/-- No flags joined are none. -/
theorem foldl_noFlags (ts : List Nat) (a : Flags) : ts.foldl (fun a _ => a ||| 0#7) a = a := by
  induction ts generalizing a with
  | nil => rfl
  | cons t ts ih => simp only [List.foldl_cons]; rw [ih]; simp

/-- The flashback state after registers are written (R355). -/
def touchAll (ds : List Nat) (x : Option Flash) : Option Flash :=
  match x with
  | some f => if ds.any f.live.getLsbD then none else some f
  | none => none

theorem touchAll_idem (ds : List Nat) (x : Option Flash) : touchAll ds (touchAll ds x) = touchAll ds x := by
  cases x with
  | none => rfl
  | some f => by_cases h : ds.any f.live.getLsbD <;> simp [touchAll, h]

theorem touchV_flash (g : Group) (n : Nat) : (g.touchV n).flash = touchAll [n] g.flash := by
  unfold Group.touchV touchAll
  cases h : g.flash with
  | none => simp [h]
  | some f => by_cases k : f.live.getLsbD n <;> simp [k, h, Group.voidFlash]

theorem touchV_threads (g : Group) (n : Nat) : (g.touchV n).threads = g.threads := by
  unfold Group.touchV
  cases h : g.flash with
  | none => rfl
  | some f => dsimp only; split <;> rfl

theorem touchV_fflags (g : Group) (n : Nat) : (g.touchV n).fflags = g.fflags := by
  unfold Group.touchV
  cases h : g.flash with
  | none => rfl
  | some f => dsimp only; split <;> rfl

theorem Group.Near.touchV {g h : Group} (hn : g.Near h) (n : Nat) : g.Near (h.touchV n) := by
  unfold Group.touchV
  cases hf : h.flash with
  | none => exact hn
  | some f => dsimp only; split <;> exact hn

theorem Group.Near.setThread {g h : Group} (hn : g.Near h) (t : Nat) (x : Thread) : g.Near (h.setThread t x) := hn

theorem Group.Near.orFlags {g h : Group} (hn : g.Near h) (f : Flags) : g.Near (h.orFlags f) := hn

theorem thread_of_threads {g h : Group} (e : g.threads = h.threads) (t : Nat) : g.thread t = h.thread t := by
  simp [Group.thread, e]

theorem Group.Near.sreg {g h : Group} (hn : g.Near h) (n : Nat) : h.sreg n = g.sreg n := by
  have : h.s = g.s := by rw [← hn]
  simp [Group.sreg, this]

/-- A source reads its thread and what no lane instruction changes. -/
theorem Group.Near.src {g h : Group} (hn : g.Near h) {t : Nat} (ht : h.thread t = g.thread t) (c : BitVec 6) :
    h.src c t = g.src c t := by
  simp only [Group.src, ht, hn.sreg]

/-- The part of a thread with one result. -/
theorem laneResult_part (g : Group) (w : Bool) (d t : Nat) (ht : t < 32) (op : Group → Nat → Word × Flags)
    (hop : ∀ h, g.Near h → h.thread t = g.thread t → op h t = op g t) :
    g.Part (fun h t => h.laneResult w d t (op h t))
      (fun t => { (if w then g.thread t else (g.thread t).setReg d (op g t).1) with
        b1 := (g.thread t).b0, b0 := ⟨(op g t).1, true⟩ })
      (fun t => (op g t).2) (touchAll (if w then [] else [d])) t where
  near h hn := by
    cases w
    · exact (((hn.touchV d).setThread t _).setThread t _).orFlags _
    · exact (hn.setThread t _).orFlags _
  own h hn e := by
    cases w
    · simp only [Group.laneResult, Group.writeV, Group.enterLatch, Group.orFlags, Group.modThread, Bool.false_eq_true, if_false]
      show (Group.setThread _ t _).thread t = _
      rw [thread_setThread_same _ _ ht, thread_setThread_same _ _ ht, thread_of_threads (touchV_threads h d), e, hop h hn e]
      rfl
    · simp only [Group.laneResult, Group.enterLatch, Group.orFlags, Group.modThread, if_true]
      show (Group.setThread _ t _).thread t = _
      rw [thread_setThread_same _ _ ht, e, hop h hn e]
  other h u hu := by
    cases w
    · simp only [Group.laneResult, Group.writeV, Group.enterLatch, Group.orFlags, Group.modThread, Bool.false_eq_true, if_false]
      show (Group.setThread _ t _).thread u = _
      rw [thread_setThread_other _ _ hu, thread_setThread_other _ _ hu, thread_of_threads (touchV_threads h d)]
    · simp only [Group.laneResult, Group.enterLatch, Group.orFlags, Group.modThread, if_true]
      show (Group.setThread _ t _).thread u = _
      rw [thread_setThread_other _ _ hu]
  flash h _ := by
    cases w
    · exact touchV_flash h d
    · show h.flash = touchAll [] h.flash
      cases h.flash <;> simp [touchAll]
  flags h hn e := by
    rw [← hop h hn e]
    cases w
    · show (h.touchV d).fflags ||| _ = _
      rw [touchV_fflags]
    · rfl

/-- The part of a thread that writes its register alone. -/
theorem writeV_part (g : Group) (d t : Nat) (ht : t < 32) (op : Group → Nat → Word)
    (hop : ∀ h, g.Near h → h.thread t = g.thread t → op h t = op g t) :
    g.Part (fun h t => h.writeV t d (op h t)) (fun t => (g.thread t).setReg d (op g t)) (fun _ => 0#7) (touchAll [d]) t where
  near h hn := hn.touchV d
  own h hn e := by
    show ((h.touchV d).setThread t _).thread t = _
    rw [thread_setThread_same _ _ ht, thread_of_threads (touchV_threads h d), e, hop h hn e]
  other h u hu := by
    show ((h.touchV d).setThread t _).thread u = _
    rw [thread_setThread_other _ _ hu, thread_of_threads (touchV_threads h d)]
  flash h _ := touchV_flash h d
  flags h _ _ := by
    show (h.touchV d).fflags = _
    rw [touchV_fflags]; simp

/-- The part of a thread that writes a predicate and sets flags. -/
theorem writeP_part (g : Group) (p t : Nat) (ht : t < 32) (op : Group → Nat → Bool × Flags)
    (hop : ∀ h, g.Near h → h.thread t = g.thread t → op h t = op g t) :
    g.Part (fun h t => (h.writeP t p (op h t).1).orFlags (op h t).2) (fun t => (g.thread t).setPred p (op g t).1)
      (fun t => (op g t).2) (touchAll []) t where
  near h hn := hn
  own h hn e := by
    show (h.setThread t _).thread t = _
    rw [thread_setThread_same _ _ ht, e, hop h hn e]
  other h u hu := by
    show (h.setThread t _).thread u = _
    rw [thread_setThread_other _ _ hu]
  flash h _ := by
    show h.flash = _
    cases h.flash <;> simp [touchAll]
  flags h hn e := by rw [← hop h hn e]; rfl

end Sys2Proof.Machine
end

