-- ==== Sys2Proof/Laws/Tables.lean ====
section
/-!
SUPPORT. The laws of sparse tables and of memory: reading what was written, leaving other places alone, and keeping the
canonical forms.
-/

namespace Sys2Proof.Machine

/-! ## Lookup -/

@[simp] theorem look_put_same {α : Type} (k : Nat) (x : α) (m : NMap α) : look k (put k x m) = some x := by
  induction m with
  | nil => simp [put, look]
  | cons e m ih =>
    obtain ⟨j, y⟩ := e
    unfold put
    split
    · simp [look]
    · split
      · simp [look]
      · rename_i h; simp [look, h, ih]

theorem look_put_other {α : Type} {k j : Nat} (h : j ≠ k) (x : α) (m : NMap α) : look j (put k x m) = look j m := by
  induction m with
  | nil => simp [put, look, h]
  | cons e m ih =>
    obtain ⟨i, y⟩ := e
    unfold put
    split
    · simp [look, h]
    · split
      · rename_i hk; subst hk; simp [look, h]
      · simp only [look]; split
        · rfl
        · exact ih

theorem look_put {α : Type} (j k : Nat) (x : α) (m : NMap α) : look j (put k x m) = if j = k then some x else look j m := by
  split
  · rename_i h; subst h; simp
  · rename_i h; exact look_put_other h x m

theorem look_drop_other {α : Type} {k j : Nat} (h : j ≠ k) (m : NMap α) : look j (drop k m) = look j m := by
  induction m with
  | nil => simp [drop]
  | cons e m ih =>
    obtain ⟨i, y⟩ := e
    unfold drop
    split
    · rename_i hk; subst hk; simp [look, h]
    · simp only [look]; split
      · rfl
      · exact ih

/-! ## Rising tables -/

/-- Every number of a table is greater than a bound. -/
def above {α : Type} (a : Nat) (m : NMap α) : Prop := ∀ e ∈ m, a < e.1

/-- The numbers rise strictly, in a form for induction. -/
def Rising {α : Type} : NMap α → Prop
  | [] => True
  | e :: m => above e.1 m ∧ Rising m

theorem rising_iff {α : Type} (m : NMap α) : rising (m.map (·.1)) = true ↔ Rising m := by
  induction m with
  | nil => simp [rising, Rising]
  | cons e m ih =>
    cases m with
    | nil => simp [rising, Rising, above]
    | cons e' m =>
      simp only [List.map_cons, rising, Bool.and_eq_true, decide_eq_true_eq]
      rw [show e'.1 :: m.map (·.1) = (e' :: m).map (·.1) from rfl, ih]
      constructor
      · rintro ⟨h, h'⟩
        refine ⟨?_, h'⟩
        intro x hx
        rcases List.mem_cons.1 hx with rfl | hx
        · exact h
        · exact Nat.lt_trans h (h'.1 x hx)
      · rintro ⟨h, h'⟩
        exact ⟨h e' (by simp), h'⟩

theorem above_put {α : Type} {a k : Nat} (x : α) {m : NMap α} (h : above a m) (hk : a < k) : above a (put k x m) := by
  induction m with
  | nil => simpa [put, above] using hk
  | cons e m ih =>
    obtain ⟨j, y⟩ := e
    have hj : a < j := h (j, y) (by simp)
    have hm : above a m := fun e he => h e (by simp [he])
    unfold put
    split
    · intro e he
      rcases List.mem_cons.1 he with rfl | he
      · exact hk
      · exact h e he
    · split
      · intro e he
        rcases List.mem_cons.1 he with rfl | he
        · exact hk
        · exact hm e he
      · intro e he
        rcases List.mem_cons.1 he with rfl | he
        · exact hj
        · exact ih hm e he

theorem Rising_put {α : Type} (k : Nat) (x : α) {m : NMap α} (h : Rising m) : Rising (put k x m) := by
  induction m with
  | nil => simp [put, Rising, above]
  | cons e m ih =>
    obtain ⟨j, y⟩ := e
    unfold put
    split
    · rename_i hk
      refine ⟨?_, h⟩
      intro e he
      rcases List.mem_cons.1 he with rfl | he
      · exact hk
      · exact Nat.lt_trans hk (h.1 e he)
    · split
      · rename_i hk; subst hk; exact h
      · exact ⟨above_put x h.1 (by omega), ih h.2⟩

theorem above_drop {α : Type} {a : Nat} (k : Nat) {m : NMap α} (h : above a m) : above a (drop k m) := by
  induction m with
  | nil => exact h
  | cons e m ih =>
    obtain ⟨j, y⟩ := e
    have hm : above a m := fun e he => h e (by simp [he])
    unfold drop
    split
    · exact hm
    · intro e he
      rcases List.mem_cons.1 he with rfl | he
      · exact h (j, y) (by simp)
      · exact ih hm e he

theorem Rising_drop {α : Type} (k : Nat) {m : NMap α} (h : Rising m) : Rising (drop k m) := by
  induction m with
  | nil => trivial
  | cons e m ih =>
    obtain ⟨j, y⟩ := e
    unfold drop
    split
    · exact h.2
    · exact ⟨above_drop k h.1, ih h.2⟩

theorem Rising_filter {α : Type} (p : Nat × α → Bool) {m : NMap α} (h : Rising m) : Rising (m.filter p) := by
  induction m with
  | nil => trivial
  | cons e m ih =>
    by_cases hp : p e = true
    · rw [List.filter_cons_of_pos hp]
      exact ⟨fun x hx => h.1 x (List.mem_filter.1 hx).1, ih h.2⟩
    · rw [List.filter_cons_of_neg hp]; exact ih h.2

theorem mem_drop {α : Type} {k : Nat} {m : NMap α} {e : Nat × α} (h : e ∈ drop k m) : e ∈ m := by
  induction m with
  | nil => exact h
  | cons c m ih =>
    obtain ⟨j, y⟩ := c
    unfold drop at h
    split at h
    · simp [h]
    · rcases List.mem_cons.1 h with rfl | h
      · simp
      · simp [ih h]

theorem mem_put {α : Type} {k : Nat} {x : α} {m : NMap α} {e : Nat × α} (h : e ∈ put k x m) : e = (k, x) ∨ e ∈ m := by
  induction m with
  | nil => simpa [put] using h
  | cons c m ih =>
    obtain ⟨j, y⟩ := c
    unfold put at h
    split at h
    · simpa using h
    · split at h
      · rcases List.mem_cons.1 h with rfl | h
        · simp
        · simp [h]
      · rcases List.mem_cons.1 h with rfl | h
        · simp
        · rcases ih h with rfl | h
          · simp
          · simp [h]

theorem look_none_of_above {α : Type} {k : Nat} {m : NMap α} (h : above k m) : look k m = none := by
  induction m with
  | nil => rfl
  | cons e m ih =>
    obtain ⟨j, y⟩ := e
    have hj : k < j := h (j, y) (by simp)
    simp only [look, if_neg (Nat.ne_of_lt hj)]
    exact ih fun e he => h e (by simp [he])

theorem look_drop_same {α : Type} (k : Nat) {m : NMap α} (h : Rising m) : look k (drop k m) = none := by
  induction m with
  | nil => rfl
  | cons e m ih =>
    obtain ⟨j, y⟩ := e
    unfold drop
    split
    · rename_i hk; subst hk; exact look_none_of_above h.1
    · rename_i hk; simp only [look, if_neg hk]; exact ih h.2

/-! ## Memory -/

theorem Memory.wf_iff (m : Memory) : m.wf = true ↔ Rising m ∧ ∀ c ∈ m, c.2 ≠ 0#8 := by
  unfold Memory.wf
  rw [Bool.and_eq_true, rising_iff, List.all_eq_true]
  simp

/-- Every write of a byte keeps the canonical form. -/
theorem Memory.wf_set {m : Memory} (h : m.wf = true) (a : Nat) (b : Byte) : (m.set a b).wf = true := by
  rw [Memory.wf_iff] at h ⊢
  unfold Memory.set
  split
  · exact ⟨Rising_drop a h.1, fun c hc => h.2 c (mem_drop hc)⟩
  · rename_i hb
    refine ⟨Rising_put a b h.1, fun c hc => ?_⟩
    rcases mem_put hc with rfl | hc
    · exact hb
    · exact h.2 c hc

theorem Memory.wf_write {m : Memory} (h : m.wf = true) (a : Nat) (bs : List Byte) : (m.write a bs).wf = true := by
  induction bs generalizing m a with
  | nil => exact h
  | cons b bs ih => exact ih (Memory.wf_set h a b) (a + 1)

theorem Memory.wf_filter {m : Memory} (h : m.wf = true) (p : Nat × Byte → Bool) : Memory.wf (m.filter p) = true := by
  rw [Memory.wf_iff] at h ⊢
  exact ⟨Rising_filter p h.1, fun c hc => h.2 c (List.mem_filter.1 hc).1⟩

/-- The byte written is the byte read. -/
theorem Memory.get_set_same {m : Memory} (h : m.wf = true) (a : Nat) (b : Byte) : (m.set a b).get a = b := by
  rw [Memory.wf_iff] at h
  unfold Memory.get Memory.set
  split
  · rename_i hb; simp [look_drop_same a h.1, hb]
  · simp

/-- A write leaves every other byte alone. -/
theorem Memory.get_set_other {a c : Nat} (h : c ≠ a) (m : Memory) (b : Byte) : (m.set a b).get c = m.get c := by
  unfold Memory.get Memory.set
  split
  · rw [look_drop_other h]
  · rw [look_put_other h]

theorem Memory.get_write_other {a c : Nat} (bs : List Byte) (h : c < a ∨ a + bs.length ≤ c) (m : Memory) :
    (m.write a bs).get c = m.get c := by
  induction bs generalizing m a with
  | nil => rfl
  | cons b bs ih =>
    simp only [List.length_cons] at h
    show (Memory.write (m.set a b) (a + 1) bs).get c = _
    rw [ih (by omega), Memory.get_set_other (by omega)]

theorem Memory.bytes_congr {m m' : Memory} {a : Nat} {n : Nat} (h : ∀ i, i < n → m'.get (a + i) = m.get (a + i)) :
    m'.bytes a n = m.bytes a n := by
  induction n generalizing a with
  | zero => rfl
  | succ n ih =>
    simp only [Memory.bytes]
    rw [show m'.get a = m.get a from by simpa using h 0 (by omega), ih fun i hi => by
      have := h (i + 1) (by omega); rwa [show a + (i + 1) = a + 1 + i by omega] at this]

/-- Bytes written are the bytes read. -/
theorem Memory.bytes_write {m : Memory} (h : m.wf = true) (a : Nat) (bs : List Byte) :
    (m.write a bs).bytes a bs.length = bs := by
  induction bs generalizing m a with
  | nil => rfl
  | cons b bs ih =>
    simp only [List.length_cons, Memory.bytes]
    show (Memory.write (m.set a b) (a + 1) bs).get a :: _ = _
    rw [Memory.get_write_other bs (by omega), Memory.get_set_same h]
    congr 1
    exact ih (Memory.wf_set h a b) (a + 1)

end Sys2Proof.Machine
end

