-- ==== Sys2Proof/Laws/Levels.lean ====
section
/-!
SUPPORT. What the operations of the memory levels can do: they keep memory in its canonical form, a write gives the byte
written and leaves every other alone where no other key stands in the way, and nothing but memory and its caches changes.
-/

namespace Sys2Proof.Machine

/-- Everything but memory, its caches and the lines lost as they were written back. -/
def State.beside (s : State) : State :=
  { s with mem := [], l2 := [], seals := [], bad := [], watch := [], dead := [], dies := [], cores := [] }

/-! ## The home slices -/

theorem foldl_keeps {α β γ : Type} (f : β → α → β) (p : β → γ) (h : ∀ b a, p (f b a) = p b) (l : List α) (b : β) :
    p (l.foldl f b) = p b := by
  induction l generalizing b with
  | nil => rfl
  | cons a l ih => rw [List.foldl_cons, ih, h]

theorem foldl_wf {α : Type} (f : State → α → State) (h : ∀ s a, s.mem.wf = true → (f s a).mem.wf = true) (l : List α)
    (s : State) (hs : s.mem.wf = true) : (l.foldl f s).mem.wf = true := by
  induction l generalizing s with
  | nil => exact hs
  | cons a l ih => exact ih _ (h s a hs)

theorem State.l2Clean_mem (s : State) (k : Nat) : (s.l2Clean k).mem = s.mem := by
  unfold State.l2Clean; split <;> rfl

theorem State.l2Clean_beside (s : State) (k : Nat) : (s.l2Clean k).beside = s.beside := by
  unfold State.l2Clean; split <;> rfl

theorem State.l2Discard_beside (s : State) (k : Nat) : (s.l2Discard k).beside = s.beside := by
  unfold State.l2Discard; split <;> rfl

theorem State.takeSector_beside (s : State) (o : Owner) (k : Nat) : (s.takeSector o k).beside = s.beside := rfl

theorem State.touchSector_beside (s : State) (o : Owner) (pa : Nat) : (s.touchSector o pa).beside = s.beside := by
  unfold State.touchSector; split
  · rfl
  · dsimp only; split
    · rw [State.takeSector_beside, State.l2Clean_beside]
    · split <;> rfl

theorem State.l2Discard_wf {s : State} (h : s.mem.wf = true) (k : Nat) : (s.l2Discard k).mem.wf = true := by
  unfold State.l2Discard; split
  · exact Memory.wf_write h _ _
  · exact h

theorem State.takeSector_wf {s : State} (h : s.mem.wf = true) (o : Owner) (k : Nat) : (s.takeSector o k).mem.wf = true := by
  unfold State.takeSector; dsimp only; split
  · exact Memory.wf_write h _ _
  · exact h

theorem State.touchSector_wf {s : State} (h : s.mem.wf = true) (o : Owner) (pa : Nat) : (s.touchSector o pa).mem.wf = true := by
  unfold State.touchSector; split
  · exact h
  · dsimp only; split
    · exact State.takeSector_wf (by rw [State.l2Clean_mem]; exact h) o _
    · split
      · exact h
      · exact State.takeSector_wf h o _

theorem State.homeBytesAt_length (s : State) (o : Owner) (pa n : Nat) : (s.homeBytesAt o pa n).length = n := by
  simp [State.homeBytesAt]

/-- Taking a sector into its owner's slice changes a byte only where the sector is foreign to the owner. -/
theorem State.takeSector_get (s : State) (o : Owner) (k c : Nat) (h : c / 64 ≠ k ∨ s.foreign o k = false) :
    (s.takeSector o k).mem.get c = s.mem.get c := by
  unfold State.takeSector; dsimp only; split
  · rename_i hf
    rcases h with h | h
    · exact Memory.get_write_other _ (by rw [State.homeBytesAt_length]; omega) _
    · rw [h] at hf; exact absurd hf (by decide)
  · rfl

/-- A write's taking of its sector changes a byte only where the sector is dirty in another slice, or DRAM has it under another key. -/
theorem State.touchSector_get (s : State) (o : Owner) (pa c : Nat)
    (h : c / 64 ≠ pa / 64 ∨ s.foreign o (pa / 64) = false) : (s.touchSector o pa).mem.get c = s.mem.get c := by
  unfold State.touchSector; split
  · rfl
  · dsimp only; split
    · rename_i he
      rcases h with h | h
      · rw [State.takeSector_get _ o _ c (.inl h), State.l2Clean_mem]
      · rw [State.foreign, he, Bool.true_or] at h; exact absurd h (by decide)
    · split
      · rfl
      · exact State.takeSector_get s o _ c h

theorem State.homeWrite_mem (s : State) (o : Owner) (pa : Nat) (b : Byte) :
    (s.homeWrite o pa b).mem = (s.touchSector o pa).mem.set pa b := by
  unfold State.homeWrite; dsimp only; split
  · rw [State.l2Clean_mem]
  · rfl

theorem State.homeWrite_beside (s : State) (o : Owner) (pa : Nat) (b : Byte) : (s.homeWrite o pa b).beside = s.beside := by
  have h := State.touchSector_beside s o pa
  unfold State.homeWrite; dsimp only; split
  · rw [State.l2Clean_beside]; exact h
  · exact h

theorem State.homeWrite_wf {s : State} (h : s.mem.wf = true) (o : Owner) (pa : Nat) (b : Byte) :
    (s.homeWrite o pa b).mem.wf = true := by
  rw [State.homeWrite_mem]; exact Memory.wf_set (State.touchSector_wf h o pa) pa b

/-- The byte written at its home is the byte there. -/
theorem State.homeWrite_get_same {s : State} (h : s.mem.wf = true) (o : Owner) (pa : Nat) (b : Byte) :
    (s.homeWrite o pa b).mem.get pa = b := by
  rw [State.homeWrite_mem]; exact Memory.get_set_same (State.touchSector_wf h o pa) pa b

/-- Every other byte stands, but those of a sector that is foreign to the writer. -/
theorem State.homeWrite_get_other (s : State) (o : Owner) {pa c : Nat} (b : Byte) (hc : c ≠ pa)
    (h : c / 64 ≠ pa / 64 ∨ s.foreign o (pa / 64) = false) : (s.homeWrite o pa b).mem.get c = s.mem.get c := by
  rw [State.homeWrite_mem, Memory.get_set_other hc, State.touchSector_get s o pa c h]

/-! ## Past L1 and in L1 -/

theorem State.rdcUpdate_beside (s : State) (d : Nat) (o : Owner) (pa : Nat) (b : Byte) : (s.rdcUpdate d o pa b).beside = s.beside := by
  unfold State.rdcUpdate; split <;> rfl

theorem State.rdcUpdate_mem (s : State) (d : Nat) (o : Owner) (pa : Nat) (b : Byte) : (s.rdcUpdate d o pa b).mem = s.mem := by
  unfold State.rdcUpdate; split <;> rfl

theorem State.pastL1Write_beside (s : State) (core : Nat) (o : Owner) (pa : Nat) (b : Byte) :
    (s.pastL1Write core o pa b).beside = s.beside := by
  unfold State.pastL1Write
  rw [State.homeWrite_beside]
  split
  · rfl
  · exact State.rdcUpdate_beside s _ _ _ _

theorem State.pastL1Write_wf {s : State} (h : s.mem.wf = true) (core : Nat) (o : Owner) (pa : Nat) (b : Byte) :
    (s.pastL1Write core o pa b).mem.wf = true := by
  unfold State.pastL1Write
  apply State.homeWrite_wf
  split
  · exact h
  · rw [State.rdcUpdate_mem]; exact h

theorem State.coreWrite_beside (s : State) (core : Nat) (o : Owner) (pa : Nat) (b : Byte) :
    (s.coreWrite core o pa b).beside = s.beside := by
  unfold State.coreWrite; split
  · rfl
  · exact State.pastL1Write_beside s core o pa b

theorem State.coreWrite_wf {s : State} (h : s.mem.wf = true) (core : Nat) (o : Owner) (pa : Nat) (b : Byte) :
    (s.coreWrite core o pa b).mem.wf = true := by
  unfold State.coreWrite; split
  · exact h
  · exact State.pastL1Write_wf h core o pa b

theorem State.flushBytes_beside (s : State) (core k : Nat) (x : L1Sector) : (s.flushBytes core k x).beside = s.beside := by
  unfold State.flushBytes
  apply foldl_keeps
  intro t i
  split
  · exact State.pastL1Write_beside t _ _ _ _
  · rfl

theorem State.flushBytes_wf {s : State} (h : s.mem.wf = true) (core k : Nat) (x : L1Sector) :
    (s.flushBytes core k x).mem.wf = true := by
  unfold State.flushBytes
  refine foldl_wf _ (fun t i ht => ?_) _ s h
  split
  · exact State.pastL1Write_wf ht _ _ _ _
  · exact ht

theorem State.cleanSector_beside (s : State) (core k : Nat) : (s.cleanSector core k).beside = s.beside := by
  unfold State.cleanSector; split
  · split
    · rfl
    · exact State.flushBytes_beside s core k _
  · rfl

theorem State.cleanSector_wf {s : State} (h : s.mem.wf = true) (core k : Nat) : (s.cleanSector core k).mem.wf = true := by
  unfold State.cleanSector; split
  · split
    · exact h
    · exact State.flushBytes_wf h core k _
  · exact h

theorem State.dropSector_beside (s : State) (core k : Nat) : (s.dropSector core k).beside = s.beside := by
  unfold State.dropSector; split
  · split
    · rfl
    · exact State.flushBytes_beside s core k _
  · rfl

theorem State.dropSector_wf {s : State} (h : s.mem.wf = true) (core k : Nat) : (s.dropSector core k).mem.wf = true := by
  unfold State.dropSector; split
  · split
    · exact h
    · exact State.flushBytes_wf h core k _
  · exact h

theorem State.sweepL1_beside (s : State) (core : Nat) (inv : Bool) : (s.sweepL1 core inv).beside = s.beside := by
  unfold State.sweepL1
  apply foldl_keeps
  intro t k
  split
  · exact State.dropSector_beside t core k
  · exact State.cleanSector_beside t core k

theorem State.sweepL1_wf {s : State} (h : s.mem.wf = true) (core : Nat) (inv : Bool) : (s.sweepL1 core inv).mem.wf = true := by
  unfold State.sweepL1
  refine foldl_wf _ (fun t k ht => ?_) _ s h
  split
  · exact State.dropSector_wf ht core k
  · exact State.cleanSector_wf ht core k

/-! ## Acquire and release -/

theorem State.acquire_beside (s : State) (core scope : Nat) : (s.acquire core scope).beside = s.beside := by
  unfold State.acquire; dsimp only
  split <;> split
  · exact State.sweepL1_beside s core true
  · rfl
  · exact State.sweepL1_beside s core true
  · rfl

theorem State.acquire_wf {s : State} (h : s.mem.wf = true) (core scope : Nat) : (s.acquire core scope).mem.wf = true := by
  unfold State.acquire; dsimp only
  split <;> split
  · exact State.sweepL1_wf h core true
  · exact h
  · exact State.sweepL1_wf h core true
  · exact h

theorem State.release_beside (s : State) (core scope : Nat) : (s.release core scope).beside = s.beside := by
  unfold State.release; split
  · exact State.sweepL1_beside s core false
  · rfl

theorem State.release_wf {s : State} (h : s.mem.wf = true) (core scope : Nat) : (s.release core scope).mem.wf = true := by
  unfold State.release; split
  · exact State.sweepL1_wf h core false
  · exact h

theorem State.expire_beside (s : State) : s.expire.beside = s.beside := by
  have key (l : List (Nat × Nat × Bool)) :
      (l.foldl (fun (s : State) k => if k.2.2 then s.dropSector k.1 k.2.1 else s.cleanSector k.1 k.2.1) s).beside = s.beside := by
    apply foldl_keeps
    intro t k
    split
    · exact State.dropSector_beside t _ _
    · exact State.cleanSector_beside t _ _
  unfold State.expire; dsimp only; split
  · exact key _
  · exact key _

/-! ## Reads at the home -/

theorem dropRdcLine_beside (s : State) (d : Nat) (o : Owner) (pa : Nat) : (dropRdcLine s d o pa).beside = s.beside := by
  unfold dropRdcLine; split <;> rfl

theorem dropRdcLine_mem (s : State) (d : Nat) (o : Owner) (pa : Nat) : (dropRdcLine s d o pa).mem = s.mem := by
  unfold dropRdcLine; split <;> rfl

theorem settleRead_beside (s : State) (core : Nat) (route : Route) (pa : Nat) : (settleRead s core route pa).beside = s.beside := by
  unfold settleRead; split
  · exact State.dropSector_beside s _ _
  · split
    · exact State.cleanSector_beside s _ _
    · rfl

theorem settleRead_wf {s : State} (h : s.mem.wf = true) (core : Nat) (route : Route) (pa : Nat) :
    (settleRead s core route pa).mem.wf = true := by
  unfold settleRead; split
  · exact State.dropSector_wf h _ _
  · split
    · exact State.cleanSector_wf h _ _
    · exact h

theorem settleSectors_beside (s : State) (core : Nat) (seen : Bool) (ks : List (Nat × Bool × Owner)) :
    (settleSectors s core seen ks).beside = s.beside := by
  unfold settleSectors
  apply foldl_keeps
  intro t k
  split
  · split
    · exact State.cleanSector_beside t _ _
    · rfl
  · rw [dropRdcLine_beside, State.dropSector_beside]

theorem settleSectors_wf {s : State} (h : s.mem.wf = true) (core : Nat) (seen : Bool) (ks : List (Nat × Bool × Owner)) :
    (settleSectors s core seen ks).mem.wf = true := by
  unfold settleSectors
  refine foldl_wf _ (fun t k ht => ?_) _ _ h
  split
  · split
    · exact State.cleanSector_wf ht _ _
    · exact ht
  · rw [dropRdcLine_mem]
    exact State.dropSector_wf ht _ _

/-- R259, R173: what a read of an `msp` at its issue can do: it writes its core's dirty bytes back, and nothing else. -/
theorem SparseScan.read_only {a b : SparseScan} {off n : Nat} {bs : List Byte} (h : a.read off n = .ok (bs, b)) :
    b = { a with s := b.s } ∧ b.s.beside = a.s.beside ∧ (a.s.mem.wf = true → b.s.mem.wf = true) := by
  unfold SparseScan.read at h
  split at h
  · cases h; exact ⟨rfl, rfl, id⟩
  · dsimp only at h
    revert h
    generalize refBytes _ a.ref off n = r
    cases r with
    | error t => intro h; cases h
    | ok x => intro h; cases h; exact ⟨rfl, settleSectors_beside _ _ _ _, fun w => settleSectors_wf w _ _ _⟩

/-- R178, R209: a contribution that its group's buffer has room for stays there, and the quantum goes on. -/
theorem buffered_room {s : State} {c : Contribution} {g : Group} (hg : s.group? c.gid = some g) (h : g.det.buffer.length < 255) :
    buffered s c = s.setGroup c.gid { g with det := { g.det with buffer := g.det.buffer ++ [c] } } := by
  unfold buffered
  rw [hg]
  dsimp only
  rw [if_neg (by rw [List.length_append, List.length_singleton]; omega)]

/-- R364: what a group keeps while its instruction waits for a die that is down. -/
theorem holdBusy_rest (s : State) (gid : Nat) (g : Group) (ev : Event) : ∃ h, holdBusy s gid g ev = { s with now := s.now + 1 }.setGroup gid h ∧
    { h with amask := g.amask, replay := g.replay, sched := g.sched } = g := ⟨_, rfl, rfl⟩

end Sys2Proof.Machine
end

