-- ==== Sys2Proof/Laws/PerInstr.lean ====
section
/-!
SUPPORT. Laws stated of every instruction, one lemma for each constructor.
-/

namespace Sys2Proof.Laws.Encodes

/-- An instruction with a word is encoded in as many bytes as its size says (R27); an event has no word. -/
def Statement (i : Instr) : Prop := (encode i).map List.length = if i.size = 0 then none else some i.size

theorem mov (f : H16) : Statement (.mov f) := rfl
theorem add_16 (f : H16) : Statement (.add_16 f) := rfl
theorem sub_16 (f : H16) : Statement (.sub_16 f) := rfl
theorem mul_16 (f : H16) : Statement (.mul_16 f) := rfl
theorem and_16 (f : H16) : Statement (.and_16 f) := rfl
theorem or_16 (f : H16) : Statement (.or_16 f) := rfl
theorem xor_16 (f : H16) : Statement (.xor_16 f) := rfl
theorem shl_16 (f : H16) : Statement (.shl_16 f) := rfl
theorem shr_16 (f : H16) : Statement (.shr_16 f) := rfl
theorem fadd_16 (f : H16) : Statement (.fadd_16 f) := rfl
theorem fsub_16 (f : H16) : Statement (.fsub_16 f) := rfl
theorem fmul_16 (f : H16) : Statement (.fmul_16 f) := rfl
theorem fmin_16 (f : H16) : Statement (.fmin_16 f) := rfl
theorem fmax_16 (f : H16) : Statement (.fmax_16 f) := rfl
theorem ffmb (f : H16) : Statement (.ffmb f) := rfl
theorem fadd2F16_16 (f : H16) : Statement (.fadd2F16_16 f) := rfl
theorem nop_16 : Statement .nop_16 := rfl
theorem add (f : T3) : Statement (.add f) := rfl
theorem sub (f : T3) : Statement (.sub f) := rfl
theorem mul (f : T3) : Statement (.mul f) := rfl
theorem mulhS (f : T3) : Statement (.mulhS f) := rfl
theorem mulhN (f : T3) : Statement (.mulhN f) := rfl
theorem minS (f : T3) : Statement (.minS f) := rfl
theorem minN (f : T3) : Statement (.minN f) := rfl
theorem maxS (f : T3) : Statement (.maxS f) := rfl
theorem maxN (f : T3) : Statement (.maxN f) := rfl
theorem and (f : T3) : Statement (.and f) := rfl
theorem or (f : T3) : Statement (.or f) := rfl
theorem xor (f : T3) : Statement (.xor f) := rfl
theorem andn (f : T3) : Statement (.andn f) := rfl
theorem shl (f : T3) : Statement (.shl f) := rfl
theorem shr (f : T3) : Statement (.shr f) := rfl
theorem sar (f : T3) : Statement (.sar f) := rfl
theorem rotl (f : T3) : Statement (.rotl f) := rfl
theorem bfeS (f : T3) : Statement (.bfeS f) := rfl
theorem bfeN (f : T3) : Statement (.bfeN f) := rfl
theorem abs (f : T2) : Statement (.abs f) := rfl
theorem neg (f : T2) : Statement (.neg f) := rfl
theorem clz (f : T2) : Statement (.clz f) := rfl
theorem popc (f : T2) : Statement (.popc f) := rfl
theorem brev (f : T2) : Statement (.brev f) := rfl
theorem cmp (f : CmpF) : Statement (.cmp f) := rfl
theorem fadd (f : T3) : Statement (.fadd f) := rfl
theorem fsub (f : T3) : Statement (.fsub f) := rfl
theorem fmul (f : T3) : Statement (.fmul f) := rfl
theorem fmin (f : T3) : Statement (.fmin f) := rfl
theorem fmax (f : T3) : Statement (.fmax f) := rfl
theorem fdiv (f : T3) : Statement (.fdiv f) := rfl
theorem fsqrt (f : T2) : Statement (.fsqrt f) := rfl
theorem frcp (f : T2) : Statement (.frcp f) := rfl
theorem frsq (f : T2) : Statement (.frsq f) := rfl
theorem fexp2 (f : T2) : Statement (.fexp2 f) := rfl
theorem flog2 (f : T2) : Statement (.flog2 f) := rfl
theorem fsin (f : T2) : Statement (.fsin f) := rfl
theorem fcos (f : T2) : Statement (.fcos f) := rfl
theorem frnd (f : T2) : Statement (.frnd f) := rfl
theorem fcmp (f : CmpF) : Statement (.fcmp f) := rfl
theorem fclass (f : T2) : Statement (.fclass f) := rfl
theorem cvt (f : CvtF) : Statement (.cvt f) := rfl
theorem fadd2F16 (f : T3) : Statement (.fadd2F16 f) := rfl
theorem fmul2F16 (f : T3) : Statement (.fmul2F16 f) := rfl
theorem fadd2Bf16 (f : T3) : Statement (.fadd2Bf16 f) := rfl
theorem fmul2Bf16 (f : T3) : Statement (.fmul2Bf16 f) := rfl
theorem scan (f : ScanF) : Statement (.scan f) := rfl
theorem sscan (f : SscanF) : Statement (.sscan f) := rfl
theorem prev (f : T3) : Statement (.prev f) := rfl
theorem next (f : T3) : Statement (.next f) := rfl
theorem bcast (f : T3) : Statement (.bcast f) := rfl
theorem perm (f : T3) : Statement (.perm f) := rfl
theorem rdx (f : RdxF) : Statement (.rdx f) := rfl
theorem vote (f : VoteF) : Statement (.vote f) := rfl
theorem rank (f : T2) : Statement (.rank f) := rfl
theorem ffma (f : Q4) : Statement (.ffma f) := rfl
theorem mad (f : Q4) : Statement (.mad f) := rfl
theorem ffma2F16 (f : Q4) : Statement (.ffma2F16 f) := rfl
theorem ffma2Bf16 (f : Q4) : Statement (.ffma2Bf16 f) := rfl
theorem fdot2F16 (f : Q4) : Statement (.fdot2F16 f) := rfl
theorem dp4S8 (f : Q4) : Statement (.dp4S8 f) := rfl
theorem dp4N8 (f : Q4) : Statement (.dp4N8 f) := rfl
theorem sel (f : SelF) : Statement (.sel f) := rfl
theorem bfi (f : Q4) : Statement (.bfi f) := rfl
theorem shf (f : Q4) : Statement (.shf f) := rfl
theorem mulwS (f : Q4) : Statement (.mulwS f) := rfl
theorem mulwN (f : Q4) : Statement (.mulwN f) := rfl
theorem addi (f : LaneImm) : Statement (.addi f) := rfl
theorem muli (f : LaneImm) : Statement (.muli f) := rfl
theorem andi (f : LaneImm) : Statement (.andi f) := rfl
theorem ori (f : LaneImm) : Statement (.ori f) := rfl
theorem xori (f : LaneImm) : Statement (.xori f) := rfl
theorem shli (f : LaneSh) : Statement (.shli f) := rfl
theorem shri (f : LaneSh) : Statement (.shri f) := rfl
theorem sari (f : LaneSh) : Statement (.sari f) := rfl
theorem cmpi (f : CmpImm) : Statement (.cmpi f) := rfl
theorem movi (f : LaneMov) : Statement (.movi f) := rfl
theorem movhi (f : LaneMov) : Statement (.movhi f) := rfl
theorem gadd (f : UniF) : Statement (.gadd f) := rfl
theorem gsub (f : UniF) : Statement (.gsub f) := rfl
theorem gmul (f : UniF) : Statement (.gmul f) := rfl
theorem gand (f : UniF) : Statement (.gand f) := rfl
theorem gor (f : UniF) : Statement (.gor f) := rfl
theorem gxor (f : UniF) : Statement (.gxor f) := rfl
theorem gshl (f : UniF) : Statement (.gshl f) := rfl
theorem gshr (f : UniF) : Statement (.gshr f) := rfl
theorem gmin (f : UniF) : Statement (.gmin f) := rfl
theorem gmax (f : UniF) : Statement (.gmax f) := rfl
theorem gcmp (f : UniCmp) : Statement (.gcmp f) := rfl
theorem gmovi (f : UniMov17) : Statement (.gmovi f) := rfl
theorem gmovhi (f : UniMov16) : Statement (.gmovhi f) := rfl
theorem gtake (f : TakeF) : Statement (.gtake f) := rfl
theorem gput (f : PutF) : Statement (.gput f) := rfl
theorem gballot (f : BallotF) : Statement (.gballot f) := rfl
theorem ld (f : LaneMem) : Statement (.ld f) := rfl
theorem st (f : LaneMem) : Statement (.st f) := rfl
theorem ldi (f : LaneMemImm) : Statement (.ldi f) := rfl
theorem sti (f : LaneMemImm) : Statement (.sti f) := rfl
theorem atom (f : AtomF) : Statement (.atom f) := rfl
theorem red (f : AtomF) : Statement (.red f) := rfl
theorem lda (f : LdaF) : Statement (.lda f) := rfl
theorem sta (f : StaF) : Statement (.sta f) := rfl
theorem gld (f : UniMem) : Statement (.gld f) := rfl
theorem gst (f : UniMem) : Statement (.gst f) := rfl
theorem wopen (f : WopenF) : Statement (.wopen f) := rfl
theorem bld (f : BenchF) : Statement (.bld f) := rfl
theorem bst (f : BenchF) : Statement (.bst f) := rfl
theorem batom (f : BatomF) : Statement (.batom f) := rfl
theorem fence (f : FenceF) : Statement (.fence f) := rfl
theorem cache (f : CacheF) : Statement (.cache f) := rfl
theorem br (f : BrF) : Statement (.br f) := rfl
theorem jmp (f : JmpF) : Statement (.jmp f) := rfl
theorem join (f : JmpF) : Statement (.join f) := rfl
theorem meet (f : JmpF) : Statement (.meet f) := rfl
theorem brx (f : RegF) : Statement (.brx f) := rfl
theorem call (f : JmpF) : Statement (.call f) := rfl
theorem calli (f : RegF) : Statement (.calli f) := rfl
theorem ret (f : PlainF) : Statement (.ret f) := rfl
theorem switch (f : SwitchF) : Statement (.switch f) := rfl
theorem exit (f : ExitF) : Statement (.exit f) := rfl
theorem nop (f : PlainF) : Statement (.nop f) := rfl
theorem yield (f : PlainF) : Statement (.yield f) := rfl
theorem wait (f : WaitF) : Statement (.wait f) := rfl
theorem mark (f : MarkF) : Statement (.mark f) := rfl
theorem tfence (f : PlainF) : Statement (.tfence f) := rfl
theorem tcall (f : TcallF) : Statement (.tcall f) := rfl
theorem brk (f : BrkF) : Statement (.brk f) := rfl
theorem spawn (f : SpawnF) : Statement (.spawn f) := rfl
theorem launch (f : LaunchF) : Statement (.launch f) := rfl
theorem bar (f : BarF) : Statement (.bar f) := rfl
theorem xpand (f : XpandF) : Statement (.xpand f) := rfl
theorem xnext (f : XnextF) : Statement (.xnext f) := rfl
theorem sred (f : SredF) : Statement (.sred f) := rfl
theorem xend (f : XendF) : Statement (.xend f) := rfl
theorem copy (f : CopyF) : Statement (.copy f) := rfl
theorem gather (f : GatherF) : Statement (.gather f) := rfl
theorem scatter (f : GatherF) : Statement (.scatter f) := rfl
theorem cwait (f : CwaitF) : Statement (.cwait f) := rfl
theorem cpoll (f : CpollF) : Statement (.cpoll f) := rfl
theorem carm (f : CwaitF) : Statement (.carm f) := rfl
theorem mma (f : MmaF) : Statement (.mma f) := rfl
theorem mmat (f : MmatF) : Statement (.mmat f) := rfl
theorem mlut (f : MlutF) : Statement (.mlut f) := rfl
theorem msp (f : MmatF) : Statement (.msp f) := rfl
theorem mzero (f : MzeroF) : Statement (.mzero f) := rfl
theorem mdrainReg (f : MdrainRegF) : Statement (.mdrainReg f) := rfl
theorem mdrainMem (f : MdrainMemF) : Statement (.mdrainMem f) := rfl
theorem mload (f : MloadF) : Statement (.mload f) := rfl
theorem path (f : PathF) : Statement (.path f) := rfl
theorem seg (f : SegF) : Statement (.seg f) := rfl
theorem pend (f : PlainF) : Statement (.pend f) := rfl
theorem tbind (f : TbindF) : Statement (.tbind f) := rfl
theorem cdep (f : CdepF) : Statement (.cdep f) := rfl
theorem cscan (f : SlotF) : Statement (.cscan f) := rfl
theorem clpush (f : SlotF) : Statement (.clpush f) := rfl
theorem clpop (f : SlotF) : Statement (.clpop f) := rfl
theorem cspan (f : SlotF) : Statement (.cspan f) := rfl
theorem tblend (f : TblendF) : Statement (.tblend f) := rfl
theorem tload (f : TloadF) : Statement (.tload f) := rfl
theorem tflush (f : SlotF) : Statement (.tflush f) := rfl
theorem covget (f : CovgetF) : Statement (.covget f) := rfl
theorem cget (f : CgetF) : Statement (.cget f) := rfl
theorem cput (f : CputF) : Statement (.cput f) := rfl
theorem rte (f : PlainF) : Statement (.rte f) := rfl
theorem tlbinv (f : TlbinvF) : Statement (.tlbinv f) := rfl
theorem park (f : PlainF) : Statement (.park f) := rfl
theorem launchCommand (fe : Nat) (q : Nat) : Statement (.launchCommand fe q) := rfl
theorem copyCommand (fe : Nat) (q : Nat) : Statement (.copyCommand fe q) := rfl
theorem signal (fe : Nat) (q : Nat) : Statement (.signal fe q) := rfl
theorem waitCommand (fe : Nat) (q : Nat) : Statement (.waitCommand fe q) := rfl
theorem fenceCommand (fe : Nat) (q : Nat) : Statement (.fenceCommand fe q) := rfl
theorem contextCreate : Statement .contextCreate := rfl
theorem contextWrite : Statement .contextWrite := rfl
theorem contextDestroy : Statement .contextDestroy := rfl
theorem answerRetry : Statement .answerRetry := rfl
theorem answerDeliver : Statement .answerDeliver := rfl
theorem answerRefuse : Statement .answerRefuse := rfl
theorem answerStop : Statement .answerStop := rfl
theorem preemptSoft : Statement .preemptSoft := rfl
theorem preemptHard : Statement .preemptHard := rfl
theorem resume : Statement .resume := rfl
theorem partset : Statement .partset := rfl
theorem fwload : Statement .fwload := rfl
theorem qtailWrite (fe : Nat) (q : Nat) (value : Nat) : Statement (.qtailWrite fe q value) := rfl
theorem queueEnable (fe : Nat) (q : Nat) : Statement (.queueEnable fe q) := rfl
theorem queueDisable (fe : Nat) (q : Nat) : Statement (.queueDisable fe q) := rfl
theorem fbtailWrite (asid : Nat) (value : Nat) : Statement (.fbtailWrite asid value) := rfl
theorem warmReset (die : Nat) : Statement (.warmReset die) := rfl
theorem benchszWrite (core : Nat) (value : Nat) : Statement (.benchszWrite core value) := rfl
theorem amaskWrite (value : Nat) : Statement (.amaskWrite value) := rfl
theorem registerWrite (view : RegView) (r : RegName) (value : Nat) : Statement (.registerWrite view r value) := rfl
theorem coldReset : Statement .coldReset := rfl
theorem packingTimerExpiry (asid : Nat) (core : Nat) (entry : Nat) (grid : Nat) : Statement (.packingTimerExpiry asid core entry grid) := rfl
theorem packedGroupAdmit (asid : Nat) (core : Nat) : Statement (.packedGroupAdmit asid core) := rfl
theorem blockPlace (fe : Nat) : Statement (.blockPlace fe) := rfl
theorem laneSelect (core : Nat) (lane : Nat) : Statement (.laneSelect core lane) := rfl
theorem stintBreak (core : Nat) (lane : Nat) : Statement (.stintBreak core lane) := rfl
theorem parkFill (core : Nat) : Statement (.parkFill core) := rfl
theorem idlePark (core : Nat) (gid : Nat) : Statement (.idlePark core gid) := rfl
theorem rotation (core : Nat) : Statement (.rotation core) := rfl
theorem parkMoveComplete (core : Nat) : Statement (.parkMoveComplete core) := rfl
theorem waitWake (gid : Nat) : Statement (.waitWake gid) := rfl
theorem waitTimeout (gid : Nat) : Statement (.waitTimeout gid) := rfl
theorem loadDataArrival (gid : Nat) : Statement (.loadDataArrival gid) := rfl
theorem enginePageFault (op : Nat) : Statement (.enginePageFault op) := rfl
theorem engineFailure (op : Nat) : Statement (.engineFailure op) := rfl
theorem engineOpComplete (op : Nat) : Statement (.engineOpComplete op) := rfl
theorem matrixStepDone (core : Nat) : Statement (.matrixStepDone core) := rfl
theorem matrixInstrDone (core : Nat) : Statement (.matrixInstrDone core) := rfl
theorem accumulatorSwap (core : Nat) : Statement (.accumulatorSwap core) := rfl
theorem tileStoreSwap (core : Nat) (asid : Nat) : Statement (.tileStoreSwap core asid) := rfl
theorem scribeDone (gid : Nat) : Statement (.scribeDone gid) := rfl
theorem depositDone (gid : Nat) : Statement (.depositDone gid) := rfl
theorem blendApply (asid : Nat) (core : Nat) (slot : Nat) (cell : Nat) : Statement (.blendApply asid core slot cell) := rfl
theorem contributionApply (asid : Nat) (core : Nat) (slot : Nat) : Statement (.contributionApply asid core slot) := rfl
theorem quantumEnd (gid : Nat) : Statement (.quantumEnd gid) := rfl
theorem commitApply (asid : Nat) : Statement (.commitApply asid) := rfl
theorem l1WritebackTimeout (core : Nat) (sector : Nat) : Statement (.l1WritebackTimeout core sector) := rfl
theorem l1CleanDropTimeout (core : Nat) (sector : Nat) : Statement (.l1CleanDropTimeout core sector) := rfl
theorem rdcDropTimeout (die : Nat) (line : Nat) : Statement (.rdcDropTimeout die line) := rfl
theorem tlbinvDone (gid : Nat) : Statement (.tlbinvDone gid) := rfl
theorem preemptDeadline (asid : Nat) : Statement (.preemptDeadline asid) := rfl
theorem bboxMirror (die : Nat) : Statement (.bboxMirror die) := rfl
theorem powerSample (die : Nat) (watts : Nat) : Statement (.powerSample die watts) := rfl
theorem thermalGate (die : Nat) (tj : Nat) : Statement (.thermalGate die tj) := rfl
theorem thermalTrip (die : Nat) (tj : Nat) : Statement (.thermalTrip die tj) := rfl
theorem thermalRecover (die : Nat) (tj : Nat) : Statement (.thermalRecover die tj) := rfl
theorem machineCheck (unit : CheckUnit) (syndrome : Nat) : Statement (.machineCheck unit syndrome) := rfl
theorem coreFence (core : Nat) : Statement (.coreFence core) := rfl
theorem dramRowSparing (die : Nat) (channel : Nat) : Statement (.dramRowSparing die channel) := rfl
theorem laneDrop (die : Nat) (link : Nat) : Statement (.laneDrop die link) := rfl
theorem recalibration (die : Nat) (unit : Nat) : Statement (.recalibration die unit) := rfl
theorem dirtyLineError (line : Nat) : Statement (.dirtyLineError line) := rfl
theorem firmwareSwitch (die : Nat) : Statement (.firmwareSwitch die) := rfl
theorem atsInvalidate (pasid : Nat) (page : Nat) (pages : Nat) : Statement (.atsInvalidate pasid page pages) := rfl
theorem atsTranslationCompletion (pasid : Nat) (page : Nat) (readable : Bool) (writable : Bool) (target : Nat) : Statement (.atsTranslationCompletion pasid page readable writable target) := rfl
theorem priResponse (request : Nat) (response : PriResponse) : Statement (.priResponse request response) := rfl
theorem attestationRequest (partition : Nat) (nonce : Nat) : Statement (.attestationRequest partition nonce) := rfl
theorem ideKeyProgram (stream : Nat) (key : Nat) : Statement (.ideKeyProgram stream key) := rfl
theorem tdispLock (partition : Nat) : Statement (.tdispLock partition) := rfl
theorem tdispStart (partition : Nat) : Statement (.tdispStart partition) := rfl
theorem tdispStop (partition : Nat) : Statement (.tdispStop partition) := rfl
theorem queueWaitPoll (fe : Nat) (q : Nat) : Statement (.queueWaitPoll fe q) := rfl
theorem queueSwitch (fe : Nat) (q : Nat) : Statement (.queueSwitch fe q) := rfl
theorem dieReady (die : Nat) : Statement (.dieReady die) := rfl
theorem remoteGatherPart (part : RemotePart) : Statement (.remoteGatherPart part) := rfl
theorem podBarrierArrival (job : Nat) (a : BarArrival) : Statement (.podBarrierArrival job a) := rfl

end Sys2Proof.Laws.Encodes
end

