-- ==== Sys2Proof/Tests/Slice0.lean ====
section
/-!
SUPPORT. Small tests: words of the spec and what they decode to, ill-formed instructions that the checks refuse, the
spec's worked examples, and for every statement states and operands that meet its hypotheses.
-/

open Sys2Proof Sys2Proof.Machine

namespace Sys2Proof.Tests

set_option Elab.async false

/-! ## Decoding -/

/-- The words of R33 and of `nop` (R32): operation in bits 4:1, d in bits 9:5, s in bits 15:10. -/
theorem test_decode_halfwords : ∀ e ∈ ([
    (0x9740, .mov ⟨37#6, 26#5⟩),
    (0xA3A2, .add_16 ⟨40#6, 29#5⟩),
    (0xAC24, .sub_16 ⟨43#6, 1#5⟩),
    (0xB866, .mul_16 ⟨46#6, 3#5⟩),
    (0xC4C8, .and_16 ⟨49#6, 6#5⟩),
    (0xD12A, .or_16 ⟨52#6, 9#5⟩),
    (0xDD8C, .xor_16 ⟨55#6, 12#5⟩),
    (0xE9EE, .shl_16 ⟨58#6, 15#5⟩),
    (0xF650, .shr_16 ⟨61#6, 18#5⟩),
    (0x06B2, .fadd_16 ⟨1#6, 21#5⟩),
    (0x0F14, .fsub_16 ⟨3#6, 24#5⟩),
    (0x1B76, .fmul_16 ⟨6#6, 27#5⟩),
    (0x27D8, .fmin_16 ⟨9#6, 30#5⟩),
    (0x303A, .fmax_16 ⟨12#6, 1#5⟩),
    (0x3C9C, .ffmb ⟨15#6, 4#5⟩),
    (0x48FE, .fadd2F16_16 ⟨18#6, 7#5⟩),
    (0x0000, .nop_16)] : List (Nat × Instr)),
    decodeTableWord 16 e.1 = some e.2 := by decide +kernel

/-- R36: `add v5, v5, v9` is 0x24A2. -/
theorem test_decode_halfword_examples : ∀ e ∈ ([
    (0x24A2, .add_16 ⟨9#6, 5#5⟩)] : List (Nat × Instr)),
    decodeTableWord 16 e.1 = some e.2 := by decide +kernel

/-- Words that the spec writes out, with their assembly. -/
theorem test_decode_examples_1 : ∀ e ∈ ([
    (0x20810C03, .add ⟨false, 2#3, 2#6, 1#6, 3#6, true⟩),  -- ?p2 add v3, v1, v2 !
    (0x8E040001, .add ⟨true, 0#3, 56#6, 4#6, 0#6, false⟩),  -- add -, v4, b0
    (0x00814E71, .fcmp ⟨0#3, 2#6, 1#6, 2#3, 3#3, false⟩),  -- fcmp.lt p3, v1, v2
    (0x04C10A91, .cvt ⟨false, 0#3, 2#3, 3#3, 1#6, 2#6, false⟩),  -- cvt.f16.f32 v2, v1
    (0x14010AE1, .scan ⟨false, 1#3, true, 0#4, 1#6, 2#6, false⟩),  -- ?p1 scan.add.x v2, v1
    (0x05410EF1, .sscan ⟨false, 0#3, 2#3, 5#3, 1#6, 3#6, false⟩),  -- sscan.fadd v3, v1, p2
    (0x0F021311, .next ⟨false, 0#3, 60#6, 2#6, 4#6, false⟩),  -- next v4, v2, z
    (0x10010F41, .rdx ⟨false, 1#3, 0#4, 1#6, 3#6, false⟩),  -- ?p1 rdx.add v3, v1
    (0x0C204A07, .ffma ⟨3#6, 2#6, 1#6, 10#6, true⟩),  -- ffma v10, v1, v2, v3 !
    (0x08510255, .dp4S8 ⟨2#6, 5#6, 4#6, 2#6, false⟩),  -- dp4.s8 v2, v4, v5, v2
    (0xFF461809, .addi ⟨1021#10, 6#6, 6#6, false⟩),  -- addi v6, v6, #-3
    (0x007B0409, .addi ⟨1#10, 59#6, 1#6, false⟩),  -- addi v1, tix, #1
    (0x00BB2489, .cmpi ⟨2#10, 59#6, 1#3, 1#3, false⟩),  -- cmpi.ne p1, tix, #2
    (0x00418CB9, .gadd ⟨0#7, 4#5, 3#5, 3#5, false⟩),  -- gadd s3, s3, s4
    (0x04418959, .gcmp ⟨2#3, 4#5, 3#5, 2#5, false⟩),  -- gcmp.lt.s s2, s3, s4
    (0x00819589, .gtake ⟨false, 4#5, 3#6, 5#5, false⟩),  -- gtake s5, v3, #4
    (0x788521B9, .ld ⟨3#3, true, 4#3, 2#3, 5#6, 8#6, false⟩),  -- ld.b32.acq.die v8, [w2 + v5]
    (0x58BC05C9, .st ⟨2#3, true, 4#3, 2#3, 60#6, 1#6, false⟩),  -- st.b32.rel.quad v1, [w2]
    (0x016B19D9, .ldi ⟨5#10, 5#3, 3#3, 6#6, false⟩),  -- ldi.b64 v6, [w3 + #40]
    (0x9C4911F9, .atom ⟨4#3, 14#4, 1#3, 9#6, 4#6, false⟩)] : List (Nat × Instr)),  -- atom.famax.pkg v4, [w1 + v9]
    decodeTableWord 32 e.1 = some e.2 := by decide +kernel

/-- Words that the spec writes out, with their assembly. -/
theorem test_decode_examples_2 : ∀ e ∈ ([
    (0x76021609, .red ⟨3#3, 11#4, 0#3, 2#6, 5#6, false⟩),  -- red.fadd.die v5, [w0 + v2]
    (0x1C422219, .lda ⟨true, 6#3, 1#3, 2#6, 8#6, false⟩),  -- lda.b128.rep v8, [w1 + v2]
    (0x26A49239, .gld ⟨4#3, true, 5#3, 2#3, 9#5, 4#5, false⟩),  -- gld.b64.acq.pkg s4, [w2 + s9]
    (0x01AD4A59, .wopen ⟨false, true, true, 11#5, 10#5, 2#3, false⟩),  -- wopen.rd.wr w2, s10, s11
    (0x06090E69, .bld ⟨3#3, 9#6, 3#6, false⟩),  -- bld.n16 v3, [bench + v9]
    (0x00040A89, .batom ⟨0#4, 4#6, 2#6, false⟩),  -- batom.add v2, [bench + v4]
    (0x00003699, .fence ⟨3#3, 1#2, false⟩),  -- fence.rel.die
    (0x018C52A9, .cache ⟨3#4, 3#5, 2#5, 4#3, false⟩),  -- cache.pin [w4 + s2], s3
    (0xFFFECEBB, .br ⟨524278#19, 3#3, true⟩),  -- ?p3 br loop !
    (0x000016F9, .brx ⟨5#5, false⟩),  -- brx s5
    (0x00001B19, .calli ⟨6#5, false⟩),  -- calli s6
    (0x0000032B, .ret ⟨true⟩),  -- ret !
    (0x00440B39, .switch ⟨68#16, 2#6, false⟩),  -- switch v2, cases
    (0x00000B4B, .exit ⟨2#3, true⟩),  -- exit p2 !
    (0x0E0C4779, .wait ⟨3#3, 4#3, 3#5, 2#5, 1#3, false⟩),  -- wait.b32.die [w1 + s2], s3
    (0x00211389, .mark ⟨1#11, 68#11, false⟩),  -- mark lv, rec
    (0x00000399, .tfence ⟨false⟩),  -- tfence
    (0x000017A9, .tcall ⟨5#8, false⟩),  -- tcall #5
    (0x000007B9, .brk ⟨1#16, false⟩),  -- brk #1
    (0x0470140D, .spawn ⟨4#6, 3#3, true, 5#10, false⟩)] : List (Nat × Instr)),  -- spawn.try child, v4, p3
    decodeTableWord 32 e.1 = some e.2 := by decide +kernel

/-- Words that the spec writes out, with their assembly. -/
theorem test_decode_examples_3 : ∀ e ∈ ([
    (0x0001901D, .launch ⟨3#3, 4#5, false⟩),  -- launch [w3 + s4]
    (0x00010C2F, .bar ⟨false, 2#3, 3#5, true⟩),  -- bar.quad #3 !
    (0x0842043D, .xpand ⟨8#4, 1#2, 2#6, 1#6, false⟩),  -- xpand.set2.fadd v1, v2
    (0x0001144D, .xnext ⟨1#3, 5#6, false⟩),  -- xnext v5, p1
    (0x00001C5D, .sred ⟨7#6, false⟩),  -- sred v7
    (0x0000186F, .xend ⟨6#6, true⟩),  -- xend v6 !
    (0x0068047D, .copy ⟨3#6, 8#5, 0#3, 1#3, false⟩),  -- copy k3, w1, w0, s8
    (0x02650C8D, .gather ⟨0#2, 2#6, 12#5, 5#3, 0#3, 3#3, false⟩),  -- gather.e4 k2, w3, w0, w5, s12
    (0x000614AD, .cwait ⟨6#5, 5#6, false⟩),  -- cwait k5, s6
    (0x00029CBD, .cpoll ⟨5#6, 7#5, false⟩),  -- cpoll s7, k5
    (0x000014CD, .carm ⟨0#5, 5#6, false⟩),  -- carm k5, s0
    (0x088484DD, .mma ⟨2#4, 0#2, 2#2, false, 1#3, 4#5, 1#3, false⟩),  -- mma.f16.n32k32 a2, v8, [w1 + s4]
    (0x166040DD, .mma ⟨5#4, 2#2, 1#2, true, 0#3, 2#5, 0#3, false⟩),  -- mma.g8.n16k32 a5, v0, [bench + s2]
    (0x166690ED, .mmat ⟨2#3, 3#2, 6#5, 3#3, 2#3, 4#4, false⟩),  -- mmat.g8.s256k128 a4:4, w2, w3, s6
    (0x0E444CFD, .mlut ⟨1#2, true, true, 4#5, 2#3, 1#3, 3#4, false⟩),  -- mlut.w2.g5.s128 a3, w1, w2, s4
    (0x0C2B010D, .msp ⟨1#3, 2#2, 2#5, 5#3, 4#3, 0#4, false⟩),  -- msp.g5.s256 a0:4, w4, w5, s2
    (0x0000411D, .mzero ⟨true, 0#4, false⟩),  -- mzero a0:4
    (0x1010052D, .mdrainReg ⟨true, 0#3, 16#6, 1#4, false⟩),  -- mdrain.f32.relu a1, v16
    (0x9945C12D, .mdrainMem ⟨4#3, true, true, 1#3, 8#5, 5#3, true, 0#4, false⟩),  -- mdrain.f16.bias.relu.amax.pkg a0:4, w5, s8
    (0x01B1613D, .mload ⟨3#3, 12#5, 2#3, true, 8#4, false⟩)] : List (Nat × Instr)),  -- mload.g8 a8:4, w2, s12
    decodeTableWord 32 e.1 = some e.2 := by decide +kernel

/-- Words that the spec writes out, with their assembly. -/
theorem test_decode_examples_4 : ∀ e ∈ ([
    (0x0001914D, .path ⟨0#2, false, 3#10, 4#5, false⟩),  -- path.paint #3, s4 by R289
    (0x0009215D, .seg ⟨2#3, 1#2, 8#6, false⟩),  -- seg.quad v8, p2
    (0x0000016D, .pend ⟨false⟩),  -- pend
    (0x000CC97D, .tbind ⟨0#2, 6#5, 3#3, 2#4, false⟩),  -- tbind.clear #2, w3, s6
    (0x0002098D, .cdep ⟨8#5, 2#4, false⟩),  -- cdep #2, s8
    (0x0000099D, .cscan ⟨2#4, false⟩),  -- cscan #2
    (0x000009AD, .clpush ⟨2#4, false⟩),  -- clpush #2
    (0x000009BD, .clpop ⟨2#4, false⟩),  -- clpop #2
    (0x000009CD, .cspan ⟨2#4, false⟩),  -- cspan #2
    (0x000011DD, .tblend ⟨0#2, 4#6, false⟩),  -- tblend.over v4
    (0x000CC9ED, .tload ⟨6#5, 3#3, 2#4, false⟩),  -- tload #2, w3, s6
    (0x000009FD, .tflush ⟨2#4, false⟩),  -- tflush #2
    (0x004B160D, .covget ⟨1#6, 2#4, 3#2, 5#6, false⟩),  -- covget.cov v5, #2, v1
    (0x04110E1D, .cget ⟨2082#12, 3#5, false⟩),  -- cget s3, PARTCFG2, with the opcode of R63 (log entry 41)
    (0x040B0A2D, .cput ⟨2070#12, 2#5, false⟩),  -- cput CTXCFG6, s2
    (0x0000023D, .rte ⟨false⟩),  -- rte
    (0x0000164D, .tlbinv ⟨0#3, 5#5, false⟩),  -- tlbinv.page s5
    (0x0001824D, .tlbinv ⟨3#3, 0#5, false⟩),  -- tlbinv.all
    (0x0000025D, .park ⟨false⟩)] : List (Nat × Instr)),  -- park
    decodeTableWord 32 e.1 = some e.2 := by decide +kernel

/-- Words put together from the encodings of R229, R230: the row's fixed bits,
and in each field a number of its own. -/
theorem test_decode_rows_1 : ∀ e ∈ ([
    (0xC96ABC11, .sub ⟨true, 4#3, 37#6, 42#6, 47#6, false⟩),
    (0x7A2DC823, .mul ⟨false, 7#3, 40#6, 45#6, 50#6, true⟩),
    (0xAAF0D431, .mulhS ⟨true, 2#3, 43#6, 48#6, 53#6, false⟩),
    (0x5BB3E043, .mulhN ⟨false, 5#3, 46#6, 51#6, 56#6, true⟩),
    (0x9C76EC51, .minS ⟨true, 1#3, 49#6, 54#6, 59#6, false⟩),
    (0x3D39F863, .minN ⟨false, 3#3, 52#6, 57#6, 62#6, true⟩),
    (0xEDFC0471, .maxS ⟨true, 6#3, 55#6, 60#6, 1#6, false⟩),
    (0x1EBF1083, .maxN ⟨false, 1#3, 58#6, 63#6, 4#6, true⟩),
    (0xCF421C91, .and ⟨true, 4#3, 61#6, 2#6, 7#6, false⟩),
    (0x704528A3, .or ⟨false, 7#3, 1#6, 5#6, 10#6, true⟩),
    (0xA0C834B1, .xor ⟨true, 2#3, 3#6, 8#6, 13#6, false⟩),
    (0x518B40C3, .andn ⟨false, 5#3, 6#6, 11#6, 16#6, true⟩),
    (0x924E4CD1, .shl ⟨true, 1#3, 9#6, 14#6, 19#6, false⟩),
    (0x331158E3, .shr ⟨false, 3#3, 12#6, 17#6, 22#6, true⟩),
    (0xE3D464F1, .sar ⟨true, 6#3, 15#6, 20#6, 25#6, false⟩),
    (0x14977103, .rotl ⟨false, 1#3, 18#6, 23#6, 28#6, true⟩),
    (0xC55A7D11, .bfeS ⟨true, 4#3, 21#6, 26#6, 31#6, false⟩),
    (0x761D8923, .bfeN ⟨false, 7#3, 24#6, 29#6, 34#6, true⟩),
    (0xAF1B8133, .abs ⟨true, 2#3, 27#6, 32#6, true⟩),
    (0x5F1E8D41, .neg ⟨false, 5#3, 30#6, 35#6, false⟩)] : List (Nat × Instr)),
    decodeTableWord 32 e.1 = some e.2 := by decide +kernel

/-- Words put together from the encodings of R229, R231, R234, R236, R239: the row's fixed bits,
and in each field a number of its own. -/
theorem test_decode_rows_2 : ∀ e ∈ ([
    (0x9F219953, .clz ⟨true, 1#3, 33#6, 38#6, true⟩),
    (0x3F24A561, .popc ⟨false, 3#3, 36#6, 41#6, false⟩),
    (0xEF27B173, .brev ⟨true, 6#3, 39#6, 44#6, true⟩),
    (0x496A6583, .cmp ⟨4#3, 37#6, 42#6, 3#3, 1#3, true⟩),
    (0xCB72DD91, .fadd ⟨true, 4#3, 45#6, 50#6, 55#6, false⟩),
    (0x7C35E9A3, .fsub ⟨false, 7#3, 48#6, 53#6, 58#6, true⟩),
    (0xACF8F5B1, .fmul ⟨true, 2#3, 51#6, 56#6, 61#6, false⟩),
    (0x5DBB05C3, .fmin ⟨false, 5#3, 54#6, 59#6, 1#6, true⟩),
    (0x9E7E0DD1, .fmax ⟨true, 1#3, 57#6, 62#6, 3#6, false⟩),
    (0x3F0119E3, .fdiv ⟨false, 3#3, 60#6, 1#6, 6#6, true⟩),
    (0xEF3F11F3, .fsqrt ⟨true, 6#3, 63#6, 4#6, true⟩),
    (0x1F021E01, .frcp ⟨false, 1#3, 2#6, 7#6, false⟩),
    (0xCF052A13, .frsq ⟨true, 4#3, 5#6, 10#6, true⟩),
    (0x7F083621, .fexp2 ⟨false, 7#3, 8#6, 13#6, false⟩),
    (0xAF0B4233, .flog2 ⟨true, 2#3, 11#6, 16#6, true⟩),
    (0x5F0E4E41, .fsin ⟨false, 5#3, 14#6, 19#6, false⟩),
    (0x9F115A53, .fcos ⟨true, 1#3, 17#6, 22#6, true⟩),
    (0x3F146661, .frnd ⟨false, 3#3, 20#6, 25#6, false⟩),
    (0x1F1A7E81, .fclass ⟨false, 1#3, 26#6, 31#6, false⟩),
    (0x7825AAA3, .fadd2F16 ⟨false, 7#3, 32#6, 37#6, 42#6, true⟩)] : List (Nat × Instr)),
    decodeTableWord 32 e.1 = some e.2 := by decide +kernel

/-- Words put together from the encodings of R232, R233, R239, R242, R243: the row's fixed bits,
and in each field a number of its own. -/
theorem test_decode_rows_3 : ∀ e ∈ ([
    (0xA8E8B6B1, .fmul2F16 ⟨true, 2#3, 35#6, 40#6, 45#6, false⟩),
    (0x59ABC2C3, .fadd2Bf16 ⟨false, 5#3, 38#6, 43#6, 48#6, true⟩),
    (0x9A6ECED1, .fmul2Bf16 ⟨true, 1#3, 41#6, 46#6, 51#6, false⟩),
    (0x1CB7F303, .prev ⟨false, 1#3, 50#6, 55#6, 60#6, true⟩),
    (0x7E3D0B23, .bcast ⟨false, 7#3, 56#6, 61#6, 2#6, true⟩),
    (0xAEC11731, .perm ⟨true, 2#3, 59#6, 1#6, 5#6, false⟩),
    (0x90462F51, .vote ⟨true, 1#3, 1#6, 6#6, 11#6, false⟩),
    (0x3F042761, .rank ⟨false, 3#3, 4#6, 9#6, false⟩),
    (0x04528F15, .mad ⟨1#6, 5#6, 10#6, 15#6, false⟩),
    (0x0C835227, .ffma2F16 ⟨3#6, 8#6, 13#6, 18#6, true⟩),
    (0x18B41535, .ffma2Bf16 ⟨6#6, 11#6, 16#6, 21#6, false⟩),
    (0x24E4D847, .fdot2F16 ⟨9#6, 14#6, 19#6, 24#6, true⟩),
    (0x3D465E67, .dp4N8 ⟨15#6, 20#6, 25#6, 30#6, true⟩),
    (0x49772175, .sel ⟨18#6, 23#6, 28#6, 33#6, false⟩),
    (0x55A7E487, .bfi ⟨21#6, 26#6, 31#6, 36#6, true⟩),
    (0x61D8A795, .shf ⟨24#6, 29#6, 34#6, 39#6, false⟩),
    (0x6E096AA7, .mulwS ⟨27#6, 32#6, 37#6, 42#6, true⟩),
    (0x7A3A2DB5, .mulwN ⟨30#6, 35#6, 40#6, 45#6, false⟩),
    (0xC129B81B, .muli ⟨772#10, 41#6, 46#6, true⟩),
    (0xC1ECC429, .andi ⟨775#10, 44#6, 49#6, false⟩)] : List (Nat × Instr)),
    decodeTableWord 32 e.1 = some e.2 := by decide +kernel

/-- Words put together from the encodings of R59, R233, R244, R245: the row's fixed bits,
and in each field a number of its own. -/
theorem test_decode_rows_4 : ∀ e ∈ ([
    (0xC2AFD03B, .ori ⟨778#10, 47#6, 52#6, true⟩),
    (0xC372DC49, .xori ⟨781#10, 50#6, 55#6, false⟩),
    (0x0075E85B, .shli ⟨1#5, 53#6, 58#6, true⟩),
    (0x00F8F469, .shri ⟨3#5, 56#6, 61#6, false⟩),
    (0x01BB047B, .sari ⟨6#5, 59#6, 1#6, true⟩),
    (0x811C0499, .movi ⟨33052#16, 1#6, false⟩),
    (0x811F10AB, .movhi ⟨33055#16, 4#6, true⟩),
    (0xCBAF90CB, .gsub ⟨101#7, 26#5, 31#5, 4#5, true⟩),
    (0xD1D11CD9, .gmul ⟨104#7, 29#5, 2#5, 7#5, false⟩),
    (0xD612A8EB, .gand ⟨107#7, 1#5, 5#5, 10#5, true⟩),
    (0xDC3434F9, .gor ⟨110#7, 3#5, 8#5, 13#5, false⟩),
    (0xE265C10B, .gxor ⟨113#7, 6#5, 11#5, 16#5, true⟩),
    (0xE8974D19, .gshl ⟨116#7, 9#5, 14#5, 19#5, false⟩),
    (0xEEC8D92B, .gshr ⟨119#7, 12#5, 17#5, 22#5, true⟩),
    (0xF4FA6539, .gmin ⟨122#7, 15#5, 20#5, 25#5, false⟩),
    (0xFB2BF14B, .gmax ⟨125#7, 18#5, 23#5, 28#5, true⟩),
    (0x80A1E16B, .gmovi ⟨65859#17, 24#5, true⟩),
    (0x81466D79, .gmovhi ⟨33094#16, 27#5, false⟩),
    (0x001CC599, .gput ⟨28#5, 49#6, false⟩),
    (0x000191AB, .gballot ⟨3#3, 4#5, true⟩)] : List (Nat × Instr)),
    decodeTableWord 32 e.1 = some e.2 := by decide +kernel

/-- Words put together from the encodings of R117, R120, R125, R188, R192, R193, R195, R203: the row's fixed bits,
and in each field a number of its own. -/
theorem test_decode_rows_5 : ∀ e ∈ ([
    (0xD6E129EB, .sti ⟨859#10, 4#3, 1#3, 10#6, true⟩),
    (0x06515A2B, .sta ⟨3#3, 1#3, 17#6, 22#6, true⟩),
    (0x0998DA4B, .gst ⟨1#3, false, 3#3, 1#3, 17#5, 22#5, true⟩),
    (0x041B827B, .bst ⟨2#3, 27#6, 32#6, true⟩),
    (0x800616C9, .jmp ⟨2097541#22, false⟩),
    (0x800622DB, .join ⟨2097544#22, true⟩),
    (0x80062EE9, .meet ⟨2097547#22, false⟩),
    (0x80064709, .call ⟨2097553#22, false⟩),
    (0x00000359, .nop ⟨false⟩),
    (0x0000036B, .yield ⟨true⟩),
    (0xB553349D, .scatter ⟨2#2, 53#6, 10#5, 3#3, 1#3, 5#3, false⟩)] : List (Nat × Instr)),
    decodeTableWord 32 e.1 = some e.2 := by decide +kernel

/-- R48: an opcode that its class does not assign, and fixed fields that are not zero. -/
theorem test_decode_rejects : decodeTableWord 32 0x000003F1 = none ∧ decodeTableWord 32 0x000003C9 = none ∧
    decode (leBytes 4 0x000003F1) = .error .unassigned ∧ decode (leBytes 4 0x80010C2F) = .error .reservedField :=
  ⟨by decide +kernel, by decide +kernel, rfl, rfl⟩
/-! ## Well-formedness: an ill-formed instruction for each check (R51) -/

/-- Cause 2: `ld` of size code 7. -/
theorem test_illFormed_selector : (Instr.ld ⟨0#3, false, 7#3, 0#3, 0#6, 0#6, false⟩).needs.selOk = false ∧
    (Instr.ld ⟨0#3, false, 7#3, 0#3, 0#6, 0#6, false⟩).wellFormed = false := by decide

/-- Cause 3: source code 61, and destination code 48. -/
theorem test_illFormed_codes : (Instr.add ⟨false, 0#3, 61#6, 0#6, 0#6, false⟩).needs.codesOk = false ∧
    (Instr.add ⟨false, 0#3, 0#6, 0#6, 48#6, false⟩).wellFormed = false := by decide

/-- Cause 6: a pair of thread registers that begins at an odd one. -/
theorem test_illFormed_threadRun : (Instr.ld ⟨0#3, false, 5#3, 0#3, 0#6, 1#6, false⟩).needs.threadRunsOk = false ∧
    (Instr.ld ⟨0#3, false, 5#3, 0#3, 0#6, 1#6, false⟩).wellFormed = false := by decide

/-- Cause 6: the five uniform registers of `cdep` past s31. -/
theorem test_illFormed_uniformRun : ∃ d : BitVec 5, (Instr.cdep ⟨d, 0#4, false⟩).needs.uniformRunsOk = false ∧
    (Instr.cdep ⟨d, 0#4, false⟩).wellFormed = false := ⟨31#5, by decide⟩

/-- Cause 6: a quad of tiles that begins at tile 2. -/
theorem test_illFormed_tile : (Instr.mzero ⟨true, 2#4, false⟩).needs.tileOk = false ∧
    (Instr.mzero ⟨true, 2#4, false⟩).wellFormed = false := by decide

/-- R32: the halfword of `mov v0, v0` is that of `nop`. -/
theorem test_illFormed_zeroMove : notZeroMove (.mov ⟨0#6, 0#5⟩) = false ∧ (Instr.mov ⟨0#6, 0#5⟩).wellFormed = false := by
  decide

/-- Each of the neighbours passes. -/
theorem test_wellFormed : (Instr.ld ⟨0#3, false, 6#3, 0#3, 60#6, 44#6, false⟩).wellFormed = true ∧
    (Instr.add ⟨false, 0#3, 60#6, 0#6, 47#6, false⟩).wellFormed = true ∧ (Instr.mzero ⟨true, 4#4, false⟩).wellFormed = true ∧
    (Instr.mov ⟨0#6, 1#5⟩).wellFormed = true := by decide

/-! ## The states of the witnesses -/

/-- A raw page of module memory with every right, the identity. -/
def page : Page :=
  { vbase := 0x10000, span := 0x10000, frame := 0x10000, fmt := .raw, key := 0, part := 0, rd1 := true, wr1 := true, ex1 := true,
    rd2 := true, wr2 := true, ex2 := true, ho := false, level1 := 0, level2 := 0 }

/-- A window over it. -/
def win : Window :=
  { set := true, base := 0x10000#57, limit := 0x1000#33, rd := true, wr := true, pin := false, stale := false, page := page }

/-- A window of a format over the page. -/
def winOf (fmt : PageFmt) : Window := { win with limit := 0x100000000#33, page := { page with fmt := fmt, span := 0x100000 } }

/-- Thread t: every register holds 16 t. -/
def thr (t : Nat) : Thread :=
  { Thread.init with
    v := Vector.replicate 48 (BitVec.ofNat 32 (16 * t))
    p := BitVec.ofNat 8 (if t % 2 = 0 then 255 else 1)
    b0 := ⟨BitVec.ofNat 32 t, true⟩
    b1 := ⟨3#32, true⟩ }

/-- A group of four threads in its stint, its windows over the page, s0 to s31 holding 64. -/
def grp : Group :=
  { Group.init with
    block := 1
    grid := 1
    nregs := 48
    pc := 0x10010#57
    lmask := 15#32
    amask := 15#32
    threads := Vector.ofFn fun t => thr t
    w := Vector.replicate 8 win
    s := Vector.replicate 32 64#64
    sched := { lane := some 0, inStint := true } }

def block : Block :=
  { asid := 0, grid := 1, index := 0, gpb := 1, cores := [0], live := [1], benchSize := 4096, bench := [], benchAt := [(0, 0xFFFF)], cbar := 4,
    qbar := 4, coreBars := [], quadBars := [], packed := false }

def grid : Grid :=
  { asid := 0, source := .queue 0 0 0, entry := 3, tpg := 4, gpb := 1, blocks := 1, args := Vector.replicate 4 0#64,
    cls := 0, k := 0, ken := false, bars := [], bound := false, nextBlock := 1, live := 1, core := none }

/-- Bytes from an address on, as memory lists them. -/
def bytesAt (a : Nat) (bs : List Nat) : Memory :=
  (bs.zipIdx.filter fun e => e.1 != 0).map fun e => (a + e.2, BitVec.ofNat 8 e.1)

/-- Identity tables: the first gibibyte, at both stages, as one leaf with every right (R315). -/
def tables : Memory :=
  bytesAt 0x100000 [0x01, 0x10, 0x10] ++ bytesAt 0x101000 [0x01, 0x20, 0x10] ++ bytesAt 0x102000 [0x1F] ++
    bytesAt 0x103000 [0x01, 0x40, 0x10] ++ bytesAt 0x104000 [0x01, 0x50, 0x10] ++ bytesAt 0x105000 [0x1F]

/-- Context 0: 8 entries at 0x20000, the park, overflow and bin areas, a handler and a fault buffer (R310, R337). -/
def ctx : Context :=
  { Context.init 0 0 with
    cfg := #v[0#64, 0x103000#64, 0x20008#64, 0x60001#64, 0x70001#64, 0x80001#64, 0xFF00000000#64, 5#64]
    hvec := 0x10000#64
    hctl := 0x3D8#64
    fbuf := 0x40000#64 }

/-- Partition 0: contexts 0 to 7, cores 0 to 3, every colour, its tables, 1,024 pinned lines (R312). -/
def part : Partition :=
  { Partition.init with
    cfg := #v[0x700000300#64, 0x1000000000#64, 0xFFFFFFFFFFFFFFFF#64, 0x100000#64, 1024#64, Partition.init.cfg[5]]
    made := true }

/-- One group on core 0, in context 0 of partition 0. -/
def world : State :=
  { State.reset with
    cur := 1
    fresh := 2
    mem := tables
    groups := [(1, grp)]
    blocks := [(1, block)]
    grids := [(1, grid)]
    contexts := [(0, ctx)]
    parts := [(0, part)]
    tlb := [⟨0, 0, 0, page⟩] }

theorem tables_wf : tables.wf = true := by decide +kernel

theorem tablesOk_of {s : State} {m : Memory} (hm : s.mem = m) (hw : m.wf = true) (hb : ∀ b ∈ s.blocks, b.2.bench = [])
    (hg : rising (s.groups.map (·.1)) = true) (hc : s.cores = []) (hl : (s.l2, s.bad) = ([], [])) : s.tablesOk := by
  obtain ⟨h1, h2⟩ := Prod.mk.inj hl
  exact ⟨by rw [hm]; exact hw, fun b h m hm => (by rw [hb b h] at hm; cases hm), hg, by rw [hc]; nofun, by rw [h1]; exact ⟨rfl, nofun⟩,
    by rw [h2]; rfl⟩

theorem block_bench : ∀ b ∈ [(1, block)], b.2.bench = [] := by decide

theorem world_tablesOk : world.tablesOk := tablesOk_of rfl tables_wf block_bench rfl rfl rfl

/-- An instruction of the group has no ILLOP cause. -/
def goes (i : Instr) (g : Group) (ts : List Nat) : Bool := (illopCause i g ts false false).isNone

theorem ready {i : Instr} {g : Group} {s : State} {ts : List Nat} (hs : s.grp = some g) (h : goes i g ts = true) :
    Spec.Ready i s g ts := ⟨hs, by simpa [goes] using h⟩

theorem ready_world {i : Instr} {ts : List Nat} (h : goes i grp ts = true) : Spec.Ready i world grp ts := ready rfl h

/-! ## Witnesses: lane and uniform instructions -/

/-- The greatest operand codes, W and E set, guard p7. -/
def t3 : T3 := ⟨true, 7#3, 60#6, 47#6, 47#6, true⟩
def t2 : T2 := ⟨true, 7#3, 60#6, 47#6, true⟩

theorem witness_IntegerLaneResults :
    (∀ e ∈ Spec.intTable, Spec.Ready (e.1 t3) world grp (grp.participants 7#3)) ∧
    ∀ e ∈ Spec.intTable1, Spec.Ready (e.1 t2) world grp (grp.participants 7#3) := by
  refine ⟨fun e h => ready_world ?_, fun e h => ready_world ?_⟩ <;> revert e <;> decide +kernel

theorem witness_FloatLaneResults :
    (∀ e ∈ Spec.floatTable, Spec.Ready (e.1 t3) world grp (grp.participants 7#3)) ∧
    (∀ e ∈ Spec.floatTable1, Spec.Ready (e.1 t2) world grp (grp.participants 7#3)) ∧
    Spec.Ready (.cvt ⟨true, 7#3, 6#3, 5#3, 60#6, 47#6, true⟩) world grp (grp.participants 7#3) := by
  refine ⟨fun e h => ready_world ?_, fun e h => ready_world ?_, ready_world (by decide +kernel)⟩ <;>
    revert e <;> decide +kernel

theorem witness_FourOperandResults :
    (∀ e ∈ Spec.intTable3, Spec.Ready (e.1 ⟨60#6, 57#6, 47#6, 47#6, true⟩) world grp grp.active) ∧
    (∀ e ∈ Spec.floatTable3, Spec.Ready (e.1 ⟨60#6, 57#6, 47#6, 47#6, true⟩) world grp grp.active) ∧
    Spec.Ready (.sel ⟨7#6, 60#6, 47#6, 47#6, true⟩) world grp grp.active ∧
    ∀ e ∈ ([.mulwS, .mulwN] : List (Q4 → Instr)), Spec.Ready (e ⟨60#6, 57#6, 47#6, 46#6, true⟩) world grp grp.active := by
  refine ⟨fun e h => ready_world ?_, fun e h => ready_world ?_, ready_world (by decide +kernel), fun e h => ready_world ?_⟩ <;>
    revert e <;> decide +kernel

theorem witness_HalfwordFormsMatch :
    ∀ e ∈ Spec.halfTable, Spec.Ready (e.1 ⟨60#6, 31#5⟩) world grp grp.active ∧ Spec.Ready (e.1 ⟨0#6, 0#5⟩) world grp grp.active := by
  intro e h
  exact ⟨ready_world (by revert e; decide +kernel), ready_world (by revert e; decide +kernel)⟩

theorem witness_ImmediatesAndComparisons :
    (∀ e ∈ ([.addi, .muli, .andi, .ori, .xori] : List (LaneImm → Instr)),
      Spec.Ready (e ⟨0x200#10, 60#6, 47#6, true⟩) world grp grp.active) ∧
    (∀ e ∈ ([.shli, .shri, .sari] : List (LaneSh → Instr)), Spec.Ready (e ⟨31#5, 60#6, 47#6, true⟩) world grp grp.active) ∧
    (∀ e ∈ ([.movi, .movhi] : List (LaneMov → Instr)), Spec.Ready (e ⟨0x8000#16, 47#6, true⟩) world grp grp.active) ∧
    (∀ e ∈ ([.cmp, .fcmp] : List (CmpF → Instr)),
      Spec.Ready (e ⟨7#3, 60#6, 47#6, 5#3, 7#3, true⟩) world grp (grp.participants 7#3)) ∧
    Spec.Ready (.cmpi ⟨0x200#10, 60#6, 7#3, 7#3, true⟩) world grp grp.active := by
  refine ⟨fun e h => ready_world ?_, fun e h => ready_world ?_, fun e h => ready_world ?_, fun e h => ready_world ?_,
    ready_world (by decide +kernel)⟩ <;> revert e <;> decide +kernel

theorem witness_ValuesMoveThroughTime :
    ∀ e ∈ ([(.prev, prevBadLatch grp t3), (.next, nextBadLatch grp t3), (.bcast, bcastBadLatch grp t3),
        (.perm, permBadLatch grp t3)] : List ((T3 → Instr) × Bool)),
      Spec.Ready (e.1 t3) world grp [] ∧ e.2 = false := by
  refine fun e h => ⟨ready_world ?_, ?_⟩ <;> revert e <;> decide +kernel

theorem witness_FoldsVotesAndRanks :
    Spec.Ready (.scan ⟨true, 7#3, true, 9#4, 60#6, 47#6, true⟩) world grp (grp.participants 7#3) ∧
    Spec.Ready (.sscan ⟨true, 7#3, 7#3, 7#3, 60#6, 47#6, true⟩) world grp (grp.participants 7#3) ∧
    Spec.Ready (.rdx ⟨true, 7#3, 9#4, 60#6, 47#6, true⟩) world grp (grp.participants 7#3) ∧
    (∀ m ∈ [0#6, 1#6, 2#6, 3#6], Spec.Ready (.vote ⟨true, 7#3, m, 60#6, 47#6, true⟩) world grp (grp.participants 7#3)) ∧
    Spec.Ready (.rank t2) world grp (grp.participants 7#3) :=
  ⟨ready_world (by decide +kernel), ready_world (by decide +kernel), ready_world (by decide +kernel),
    fun m h => ready_world (by revert m; decide +kernel), ready_world (by decide +kernel)⟩

theorem witness_UniformArithmetic :
    (∀ e ∈ Spec.uniTable, Spec.Ready (e.1 ⟨0#7, 31#5, 31#5, 31#5, true⟩) world grp grp.active ∧
      Spec.Ready (e.1 ⟨64#7, 0#5, 31#5, 31#5, true⟩) world grp grp.active) ∧
    Spec.Ready (.gcmp ⟨7#3, 31#5, 31#5, 31#5, true⟩) world grp grp.active ∧
    Spec.Ready (.gmovi ⟨0x10000#17, 31#5, true⟩) world grp grp.active ∧
    Spec.Ready (.gmovhi ⟨0xFFFF#16, 31#5, true⟩) world grp grp.active := by
  refine ⟨fun e h => ⟨ready_world ?_, ready_world ?_⟩, ready_world (by decide +kernel), ready_world (by decide +kernel),
    ready_world (by decide +kernel)⟩ <;> revert e <;> decide +kernel

theorem witness_ThreadsAndGroup :
    (∀ f ∈ ([⟨true, 0#5, 60#6, 31#5, true⟩, ⟨false, 31#5, 47#6, 31#5, true⟩] : List TakeF),
      Spec.Ready (.gtake f) world grp [] ∧ takesBadLatch grp f.a [takeThread grp f] = false) ∧
    Spec.Ready (.gput ⟨31#5, 47#6, true⟩) world grp grp.active ∧
    Spec.Ready (.gballot ⟨7#3, 31#5, true⟩) world grp grp.active := by
  refine ⟨fun f h => ⟨ready_world ?_, ?_⟩, ready_world (by decide +kernel), ready_world (by decide +kernel)⟩ <;>
    revert f <;> decide +kernel

/-! ## Witnesses: memory instructions -/

def okThen {ε α : Type} (x : Except ε α) (p : α → Bool) : Bool :=
  match x with
  | .ok a => p a
  | .error _ => false

theorem of_okThen {ε α : Type} {x : Except ε α} {p : α → Bool} (h : okThen x p = true) : ∃ a, x = .ok a ∧ p a = true := by
  cases x with
  | ok a => exact ⟨a, rfl, h⟩
  | error e => cases h

theorem opened {g : Group} (hg : g.w = grp.w) (w : Nat) (h : w < 8) :
    Spec.OpenRaw g w true true := by
  have hw : ∀ w, w < 8 → grp.win w = win := by decide +kernel
  have e : g.win w = win := by rw [← hw w h]; simp only [Group.win, hg]
  constructor <;> rw [e] <;> first | decide | (intro h; exact absurd h.2 (by decide))

theorem opened_rd {g : Group} (hg : g.w = grp.w) (w : Nat) (h : w < 8) : Spec.OpenRaw g w true false :=
  have o := opened hg w h
  ⟨o.1, ⟨o.2.1, nofun⟩, o.3, ⟨o.4.1, nofun⟩, o.5, o.6⟩

theorem opened_wr {g : Group} (hg : g.w = grp.w) (w : Nat) (h : w < 8) : Spec.OpenRaw g w false true :=
  have o := opened hg w h
  ⟨o.1, ⟨nofun, o.2.2⟩, o.3, ⟨nofun, o.4.2⟩, o.5, o.6⟩

/-- An offset of a thread is inside the window, aligned, and on memory of the module whose die answers. -/
def reaches (s : State) (g : Group) (w : Nat) (o : Int) (n : Nat) : Bool :=
  decide (0 ≤ o ∧ o + n ≤ (g.win w).limit.toNat ∧ o + n ≤ (g.win w).span) && (g.win w).va o % n == 0 &&
    decide ((g.win w).page.frame + ((g.win w).va o - (g.win w).page.vbase) < hostBase) && !isDown s (Spec.addr g w o)

theorem reaches_of {s : State} {g : Group} {w : Nat} {o : Int} {n : Nat} (h : reaches s g w o n = true) : Spec.Reaches s g w o n := by
  simp only [reaches, Bool.and_eq_true, decide_eq_true_eq, beq_iff_eq, Bool.not_eq_true'] at h
  exact ⟨h.1.1.1, h.1.1.2, h.1.2, h.2⟩

/-- The same on sound memory. -/
theorem reads_of {s : State} {g : Group} {w : Nat} {o : Int} {n : Nat} (hb : s.bad = []) (h : reaches s g w o n = true) :
    Spec.Reads s g w o n := ⟨reaches_of h, by simp [hb, look]⟩

/-- Where no L1 holds a sector and nothing is sealed, no other key stands in the way. -/
theorem keyedFor {s : State} {core a : Nat} {o : Owner} (h : (s.cores, s.seals, s.l2) = ([], [], [])) : Spec.KeyedFor s core o a := by
  obtain ⟨hc, h⟩ := Prod.mk.inj h
  obtain ⟨hs, hl⟩ := Prod.mk.inj h
  have e : look (a / 64) (s.core core).l1 = none := by simp only [State.core, hc]; rfl
  exact ⟨fun x hx => by simp [e] at hx, by simp [State.foreign, State.elsewhere, State.resealed, hs, hl, look], fun x hx => by simp [e] at hx⟩

/-- Each size of a lane load or store, at the last place the window has for it: the offset is in v0, or scaled. -/
def last (z : BitVec 3) : Nat := 4096 - sizeBytes z

/-- The witness group with an offset in every register of its threads and in its uniform registers. -/
def grpAt (o : Nat) : Group :=
  { grp with
    threads := Vector.ofFn fun t => { thr t with v := Vector.replicate 48 (BitVec.ofNat 32 o) }
    s := Vector.replicate 32 (BitVec.ofNat 64 o) }

def worldAt (o : Nat) : State := { world with groups := [(1, grpAt o)] }

theorem grpAt_w (o : Nat) : (grpAt o).w = grp.w := rfl

theorem ready_worldAt {i : Instr} {o : Nat} {ts : List Nat} (h : goes i (grpAt o) ts = true) :
    Spec.Ready i (worldAt o) (grpAt o) ts := ready rfl h

def sizes : List (BitVec 3) := [0#3, 1#3, 2#3, 3#3, 4#3, 5#3, 6#3]

theorem witness_LaneLoads :
    (∀ z ∈ sizes, Spec.Ready (.ld ⟨4#3, true, z, 7#3, 47#6, 44#6, true⟩) (worldAt (last z)) (grpAt (last z)) grp.active ∧
      Spec.Ready (.lda ⟨false, z, 7#3, 47#6, 44#6, true⟩) (worldAt (last z)) (grpAt (last z)) grp.active ∧
      Spec.Ready (.lda ⟨true, z, 7#3, 47#6, 44#6, true⟩) (worldAt (last z)) (grpAt (last z)) grp.active ∧
      ∀ t ∈ grp.active, Spec.Reads (worldAt (last z)) (grpAt (last z)) 7 (Spec.codeOffset (grpAt (last z)) 47#6 t) (sizeBytes z)) ∧
    (∀ z ∈ sizes, Spec.Ready (.ldi ⟨255#10, z, 0#3, 44#6, true⟩) world grp grp.active ∧
      Spec.Reads world grp 0 ((255#10 : BitVec 10).toInt * sizeBytes z) (sizeBytes z)) ∧
    world.tablesOk ∧ (∀ o, Spec.OpenRaw (grpAt o) 7 true false) ∧ Spec.OpenRaw grp 0 true false ∧ world.replicas = [] ∧
    (∀ o, ((grpAt o).win 7).pin = false) := by
  refine ⟨fun z h => ⟨ready_worldAt ?_, ready_worldAt ?_, ready_worldAt ?_, fun t ht => reads_of rfl ?_⟩,
    fun z h => ⟨ready_world ?_, reads_of rfl ?_⟩, world_tablesOk, fun o => opened_rd (grpAt_w o) 7 (by decide), opened_rd rfl 0 (by decide), rfl, fun _ => rfl⟩
  · revert z; decide +kernel
  · revert z; decide +kernel
  · revert z; decide +kernel
  · revert z t; decide +kernel
  · revert z; decide +kernel
  · revert z; decide +kernel

/-- One thread past the first page of its window, at a later page. -/
def lone : Group := { grpAt 0x100000 with amask := 1#32, w := Vector.replicate 8 (winOf .raw) }
def loneWorld : State := { world with groups := [(1, lone)] }

theorem witness_LoadsAnywhere : Spec.Ready (.ld ⟨4#3, true, 6#3, 7#3, 47#6, 44#6, true⟩) loneWorld lone lone.active ∧ lone.active = [0] ∧
    loneWorld.tablesOk ∧ lone.relDue = false ∧ ∃ r,
      windowAccess loneWorld 0 0 .user (lone.win 7) (Spec.codeOffset lone 47#6 0) 16 true false = .ok r ∧
      (r.1.page.fmt == .raw && !loneWorld.lost r.1.pa 16 && !r.2.1.pin) = true := by
  refine ⟨ready rfl (by decide +kernel), by decide +kernel, tablesOk_of rfl tables_wf block_bench rfl rfl rfl, rfl, of_okThen ?_⟩
  decide +kernel

/-- Four threads over the four quarters of a block of a grain page. -/
def grainGrp : Group := { grp with w := Vector.replicate 8 (winOf .g5) }
def grainWorld : State := { world with groups := [(1, grainGrp)] }

theorem opened_grain (w : Nat) (h : w < 8) : Spec.OpenGrain grainGrp w true true := by
  have e : ∀ w, w < 8 → grainGrp.win w = winOf .g5 := by decide +kernel
  constructor <;> rw [e w h] <;> decide

def reachesGrain (s : State) (g : Group) (w : Nat) (o : Int) (n : Nat) : Bool :=
  decide (0 ≤ o ∧ o + n ≤ (g.win w).limit.toNat ∧ o + n ≤ (g.win w).span) && (g.win w).va o % n == 0 &&
    (Spec.blockBytes (g.win w).page (Spec.pageOff g w o / 64)).all fun a => !isDown s a

theorem reachesGrain_of {s : State} {g : Group} {w : Nat} {o : Int} {n : Nat} (hs : (s.cores, s.seals, s.l2) = ([], [], []))
    (h : reachesGrain s g w o n = true) : Spec.ReachesGrain s g w o n := by
  simp only [reachesGrain, Bool.and_eq_true, decide_eq_true_eq, beq_iff_eq, List.all_eq_true, Bool.not_eq_true'] at h
  exact ⟨h.1.1, h.1.2, h.2, fun _ _ => keyedFor hs⟩

theorem witness_Grain :
    (∀ z ∈ [4#3, 5#3, 6#3], Spec.Ready (.ld ⟨4#3, true, z, 7#3, 47#6, 44#6, true⟩) grainWorld grainGrp grainGrp.active ∧
      Spec.Ready (.lda ⟨true, z, 7#3, 47#6, 44#6, true⟩) grainWorld grainGrp grainGrp.active ∧
      Spec.Ready (.ldi ⟨255#10, z, 7#3, 44#6, true⟩) grainWorld grainGrp grainGrp.active ∧
      (∀ t ∈ grainGrp.active, Spec.ReachesGrain grainWorld grainGrp 7 (Spec.codeOffset grainGrp 47#6 t) (sizeBytes z)) ∧
      Spec.ReachesGrain grainWorld grainGrp 7 ((255#10 : BitVec 10).toInt * sizeBytes z) (sizeBytes z)) ∧
    (Spec.Ready (.st ⟨4#3, true, 6#3, 7#3, 47#6, 44#6, true⟩) grainWorld grainGrp grainGrp.active ∧
      Spec.Ready (.sta ⟨6#3, 7#3, 47#6, 44#6, true⟩) grainWorld grainGrp grainGrp.active ∧
      grainGrp.active.length * sizeBytes 6#3 = 64 ∧ (∀ u ∈ grainGrp.active, Spec.pageOff grainGrp 7 (Spec.codeOffset grainGrp 47#6 u) / 64 = 0) ∧
      (∀ m, m < 16 → m / 4 ∈ grainGrp.active ∧ Spec.pageOff grainGrp 7 (Spec.codeOffset grainGrp 47#6 (m / 4)) % 64 ≤ 4 * m ∧
        4 * m < Spec.pageOff grainGrp 7 (Spec.codeOffset grainGrp 47#6 (m / 4)) % 64 + 16) ∧
      (Spec.blockBytes (grainGrp.win 7).page 0).Nodup) ∧
    grainWorld.tablesOk ∧ Spec.OpenGrain grainGrp 7 true true ∧ grainWorld.bad = [] := by
  refine ⟨fun z h => ⟨ready rfl ?_, ready rfl ?_, ready rfl ?_, fun t ht => reachesGrain_of rfl ?_, reachesGrain_of rfl ?_⟩,
    ⟨ready rfl (by decide +kernel), ready rfl (by decide +kernel), by decide +kernel, by decide +kernel, by decide +kernel,
      by decide +kernel⟩, tablesOk_of rfl tables_wf block_bench rfl rfl rfl, opened_grain 7 (by decide), rfl⟩
  · revert z; decide +kernel
  · revert z; decide +kernel
  · revert z; decide +kernel
  · revert z t; decide +kernel
  · revert z; decide +kernel

theorem witness_StoresWriteMemory :
    (∀ z ∈ sizes, Spec.Ready (.st ⟨4#3, true, z, 7#3, 0#6, 44#6, true⟩) (worldAt (last z)) (grpAt (last z)) grp.active ∧
      Spec.Ready (.sta ⟨z, 7#3, 0#6, 44#6, true⟩) (worldAt (last z)) (grpAt (last z)) grp.active ∧
      ∀ t ∈ grp.active, Spec.Reaches (worldAt (last z)) (grpAt (last z)) 7 (Spec.codeOffset (grpAt (last z)) 0#6 t)
        (sizeBytes z)) ∧
    (∀ z ∈ sizes, Spec.Ready (.sti ⟨255#10, z, 0#3, 44#6, true⟩) world grp grp.active ∧
      Spec.Reaches world grp 0 ((255#10 : BitVec 10).toInt * sizeBytes z) (sizeBytes z)) ∧
    world.tablesOk ∧ (∀ o, Spec.OpenRaw (grpAt o) 7 false true) ∧ Spec.OpenRaw grp 0 false true := by
  refine ⟨fun z h => ⟨ready_worldAt ?_, ready_worldAt ?_, fun t ht => reaches_of ?_⟩,
    fun z h => ⟨ready_world ?_, reaches_of ?_⟩, world_tablesOk, fun o => opened_wr (grpAt_w o) 7 (by decide), opened_wr rfl 0 (by decide)⟩
  · revert z; decide +kernel
  · revert z; decide +kernel
  · revert z t; decide +kernel
  · revert z; decide +kernel
  · revert z; decide +kernel

theorem witness_LoadsWriteNothing :
    Spec.Ready (.ld ⟨0#3, false, 4#3, 7#3, 47#6, 44#6, false⟩) world grp grp.active ∧ world.tablesOk ∧
    (visit (loadThread 7 (fun g t => (g.src 47#6 t).toNat) 4#3 44#6 (.near)) world grp.active).2 = none :=
  ⟨ready_world (by decide +kernel), world_tablesOk, by decide +kernel⟩

theorem witness_BenchAccess :
    (∀ z ∈ sizes, Spec.Ready (.bld ⟨z, 47#6, 44#6, true⟩) (worldAt (last z)) (grpAt (last z)) grp.active ∧
      Spec.Ready (.bst ⟨z, 0#6, 44#6, true⟩) (worldAt (last z)) (grpAt (last z)) grp.active ∧
      ∀ t ∈ grp.active, Spec.BenchReaches (worldAt (last z)) (grpAt (last z)) ((grpAt (last z)).src 47#6 t).toNat (sizeBytes z)) ∧
    world.tablesOk := by
  refine ⟨fun z h => ⟨ready_worldAt ?_, ready_worldAt ?_, fun t ht => ⟨block, rfl, ?_, ?_⟩⟩, world_tablesOk⟩
  · revert z; decide +kernel
  · revert z; decide +kernel
  · revert z t; decide +kernel
  · revert z t; decide +kernel

/-- Each atomic op, at the last place that the window, or the bench, has for it. -/
theorem witness_AtomicsUpdateInOrder :
    (∀ o ∈ List.range 16, let a := 4096 - atomicSize o
      Spec.Ready (.atom ⟨4#3, BitVec.ofNat 4 o, 7#3, 47#6, 44#6, true⟩) (worldAt a) (grpAt a) grp.active ∧
      Spec.Ready (.batom ⟨BitVec.ofNat 4 o, 47#6, 44#6, true⟩) (worldAt a) (grpAt a) grp.active ∧
      (∀ t ∈ grp.active, Spec.Reads (worldAt a) (grpAt a) 7 (Spec.codeOffset (grpAt a) 47#6 t) (atomicSize o) ∧
        Spec.KeyedFor (worldAt a) 0 ⟨0, 0⟩ (Spec.addr (grpAt a) 7 (Spec.codeOffset (grpAt a) 47#6 t))) ∧
      ∀ t ∈ grp.active, Spec.BenchReaches (worldAt a) (grpAt a) ((grpAt a).src 47#6 t).toNat (atomicSize o)) ∧
    (∀ o ∈ [0, 1, 2, 3, 4, 5, 6, 7, 10, 11, 12, 13, 14], let a := 4096 - atomicSize o
      Spec.Ready (.red ⟨4#3, BitVec.ofNat 4 o, 7#3, 47#6, 44#6, true⟩) (worldAt a) (grpAt a) grp.active) ∧
    world.tablesOk ∧ (∀ o, Spec.OpenRaw (grpAt o) 7 true true ∧ (grpAt o).det.atom = [] ∧ (grpAt o).det.en = false) := by
  refine ⟨fun o h => ⟨ready_worldAt ?_, ready_worldAt ?_, fun t ht => ⟨reads_of rfl ?_, keyedFor rfl⟩,
      fun t ht => ⟨block, rfl, ?_, ?_⟩⟩,
    fun o h => ready_worldAt ?_, world_tablesOk, fun o => ⟨opened (grpAt_w o) 7 (by decide), rfl, rfl⟩⟩
  · revert o; decide +kernel
  · revert o; decide +kernel
  · revert o t; decide +kernel
  · revert o t; decide +kernel
  · revert o t; decide +kernel
  · revert o; decide +kernel

/-- A group in deterministic mode. -/
def detAt (o : Nat) : Group := { grpAt o with det := { grp.det with en := true } }
def detWorld (o : Nat) : State := { world with groups := [(1, detAt o)] }

theorem witness_AtomicsHeldBack :
    (∀ o ∈ [11, 12, 13, 14], Spec.Ready (.atom ⟨4#3, BitVec.ofNat 4 o, 7#3, 47#6, 44#6, true⟩) (detWorld 4092) (detAt 4092) grp.active ∧
      Spec.Ready (.red ⟨4#3, BitVec.ofNat 4 o, 7#3, 47#6, 44#6, true⟩) (detWorld 4092) (detAt 4092) grp.active ∧
      Spec.Ready (.batom ⟨BitVec.ofNat 4 o, 47#6, 44#6, true⟩) (detWorld 4092) (detAt 4092) grp.active ∧ isFloatOp o = true) ∧
    (∀ t ∈ grp.active, Spec.Reads (detWorld 4092) (detAt 4092) 7 (Spec.codeOffset (detAt 4092) 47#6 t) 4 ∧
      Spec.BenchReaches (detWorld 4092) (detAt 4092) ((detAt 4092).src 47#6 t).toNat 4) ∧
    (detWorld 4092).tablesOk ∧ Spec.OpenRaw (detAt 4092) 7 true true ∧ (detAt 4092).det.en = true ∧ (detAt 4092).det.atom = [] ∧
    (detAt 4092).active ≠ [] ∧ ((detAt 4092).det.buffer ++
      Spec.heldBack 1 (detAt 4092) 11 4 44#6 (fun _ => .home 0) (fun _ => 0) ⟨0, 0⟩ 0 (detAt 4092).active).length < 256 := by
  refine ⟨fun o h => ⟨ready rfl ?_, ready rfl ?_, ready rfl ?_, ?_⟩, fun t ht => ⟨reads_of rfl ?_, block, rfl, ?_, ?_⟩,
    tablesOk_of rfl tables_wf block_bench rfl rfl rfl, opened (g := detAt 4092) rfl 7 (by decide), rfl, rfl, by decide +kernel,
    by decide +kernel⟩
  · revert o; decide +kernel
  · revert o; decide +kernel
  · revert o; decide +kernel
  · revert o; decide +kernel
  · revert t; decide +kernel
  · revert t; decide +kernel
  · revert t; decide +kernel

theorem witness_UniformMemory :
    (∀ z ∈ [4#3, 5#3], let n := if z = 4#3 then 4 else 8
      Spec.Ready (.gld ⟨4#3, true, z, 7#3, 31#5, 31#5, true⟩) (worldAt (4096 - n)) (grpAt (4096 - n)) grp.active ∧
      Spec.Ready (.gst ⟨4#3, true, z, 7#3, 31#5, 31#5, true⟩) (worldAt (4096 - n)) (grpAt (4096 - n)) grp.active ∧
      Spec.Reads (worldAt (4096 - n)) (grpAt (4096 - n)) 7 ((grpAt (4096 - n)).sreg 31).toNat n) ∧
    world.tablesOk ∧ ∀ o, Spec.OpenRaw (grpAt o) 7 true false ∧ Spec.OpenRaw (grpAt o) 7 false true := by
  refine ⟨fun z h => ⟨ready_worldAt ?_, ready_worldAt ?_, reads_of rfl ?_⟩, world_tablesOk,
    fun o => ⟨opened_rd (grpAt_w o) 7 (by decide), opened_wr (grpAt_w o) 7 (by decide)⟩⟩ <;> revert z <;> decide +kernel

/-! ## Witnesses: control -/

/-- The header of a line whose 56 halfwords are `nop`s, zeros, with a kind and marked slots (R29). -/
def header (kind targets : Nat) : List Nat := List.replicate 7 0xFF ++ [targets, 0, 0, 0, 0, 0, 0, kind, 0]

/-- At 0x10000 an entry line, at 0x10080 a line with slots 0 and 1 marked, at 0x10100 a table: 0 and 16 to those slots. -/
def code : Memory :=
  bytesAt 0x10000 (header 2 1) ++ bytesAt 0x10080 (header 0 3) ++ bytesAt 0x1010E [1] ++
    bytesAt 0x10110 [2, 0, 0, 0, 0, 0, 0, 0, 0xC0, 0xFF, 0xFF, 0xFF, 16, 0, 0, 0, 0xC1, 0xFF, 0xFF, 0xFF] ++ tables

/-- A group over that code. -/
def onCode (g : Group) : State := { world with mem := code, groups := [(1, g)] }

theorem code_wf : code.wf = true := by decide +kernel

theorem onCode_tablesOk (g : Group) : (onCode g).tablesOk := tablesOk_of rfl code_wf block_bench rfl rfl rfl

theorem ready_onCode {i : Instr} {g : Group} {ts : List Nat} (h : goes i g ts = true) : Spec.Ready i (onCode g) g ts :=
  ready rfl h

/-- The target's checks pass. -/
def targetOk (s : State) (g : Group) (va : Nat) : Bool := okThen (checkTarget s g va) fun _ => true

theorem targetOk_of {s : State} {g : Group} {va : Nat} (h : targetOk s g va = true) : Spec.TargetOk s g va :=
  have ⟨a, ha, _⟩ := of_okThen h
  ⟨a, ha⟩

/-- The group with a stack. -/
def split (st : List StackEntry) (lmask amask : Word) : Group := { grp with stack := st, lmask := lmask, amask := amask }

def deep : Group := split [.join 15#32 0x10012#57] 15#32 15#32

/-- The group with its predicates p1 all set, or all clear. -/
def preds (p : BitVec 8) : Group := { grp with threads := Vector.ofFn fun t => { thr t with p := p } }

theorem witness_BranchSplits :
    (Spec.Ready (.br ⟨64#19, 0#3, true⟩) (onCode grp) grp grp.active ∧
      (∀ t, t < 32 → grp.amask.getLsbD t = true → t < 32 ∧ grp.amask.getLsbD t = true ∧
        ((0#3 : BitVec 3) = 0#3 ∨ (grp.thread t).p.getLsbD 0 = true)) ∧
      Spec.TargetOk (onCode grp) grp (Spec.target grp (64#19 : BitVec 19))) ∧
    (Spec.Ready (.br ⟨64#19, 7#3, true⟩) (onCode (preds 0#8)) (preds 0#8) grp.active ∧ (preds 0#8).amask ≠ 0#32 ∧
      ∀ t, t < 32 → ¬((7#3 : BitVec 3) = 0#3 ∨ ((preds 0#8).thread t).p.getLsbD 7 = true)) ∧
    (Spec.Ready (.br ⟨64#19, 7#3, true⟩) (onCode deep) deep grp.active ∧
      (∀ t, t < 32 → ((5#32 : Word).getLsbD t = true ↔ deep.amask.getLsbD t = true ∧ (deep.thread t).p.getLsbD 7 = true)) ∧
      (5#32 : Word) ≠ deep.amask ∧ Spec.topAddr deep.stack = some 0x10012#57 ∧ deep.stack.length < 256 ∧
      Spec.TargetOk (onCode deep) deep (Spec.target deep (64#19 : BitVec 19))) ∧
    (Spec.Ready (.br ⟨64#19, 7#3, true⟩) (onCode grp) grp grp.active ∧ Spec.topAddr grp.stack = none) :=
  ⟨⟨ready_onCode (by decide +kernel), fun t h h' => ⟨h, h', .inl rfl⟩, targetOk_of (by decide +kernel)⟩,
    ⟨ready_onCode (by decide +kernel), by decide +kernel, by decide +kernel⟩,
    ⟨ready_onCode (by decide +kernel), by decide +kernel, by decide +kernel, rfl, by decide, targetOk_of (by decide +kernel)⟩,
    ⟨ready_onCode (by decide +kernel), rfl⟩⟩

def deeper : Group := split [.path 0x10090#57 8#32 0x10012#57, .join 15#32 0x10012#57] 7#32 3#32

theorem witness_JoinAndMeet :
    (Spec.Ready (.join ⟨1#22, true⟩) (onCode grp) grp grp.active ∧ grp.stack.length < 256) ∧
    (Spec.Ready (.meet ⟨1#22, true⟩) (onCode deep) deep grp.active ∧
      Spec.topAddr deep.stack = some (BitVec.ofNat 57 (Spec.target deep (1#22 : BitVec 22))) ∧
      Spec.Leads deep.lmask deep.stack [] (.join 15#32 0x10012#57) []) ∧
    Spec.Ready (.meet ⟨1#22, true⟩) (onCode deeper) deeper deeper.active ∧
    Spec.topAddr deeper.stack = some (BitVec.ofNat 57 (Spec.target deeper (1#22 : BitVec 22))) ∧
    Spec.Leads deeper.lmask deeper.stack [.path 0x10090#57 8#32 0x10012#57] (.join 15#32 0x10012#57) [] :=
  ⟨⟨ready_onCode (by decide +kernel), by decide⟩,
    ⟨ready_onCode (by decide +kernel), by decide +kernel, rfl, nofun, by decide +kernel⟩,
    ready_onCode (by decide +kernel), by decide +kernel, rfl, by decide +kernel, by decide +kernel⟩

/-- A group with an address in every uniform register. -/
def aims (a : Nat) : Group := { grp with s := Vector.replicate 32 (BitVec.ofNat 64 a) }

theorem witness_TransfersAndCalls :
    (Spec.Ready (.jmp ⟨64#22, true⟩) (onCode grp) grp grp.active ∧ grp.mode = .user ∧ grp.wait = .none ∧
      Spec.Ready (.call ⟨64#22, true⟩) (onCode grp) grp grp.active ∧
      Spec.TargetOk (onCode grp) grp (Spec.target grp (64#22 : BitVec 22))) ∧
    Spec.Ready (.calli ⟨31#5, true⟩) (onCode (aims 0x10090)) (aims 0x10090) grp.active ∧
    Spec.Ready (.brx ⟨31#5, true⟩) (onCode (aims 0x10090)) (aims 0x10090) grp.active ∧
    Spec.Ready (.ret ⟨true⟩) (onCode (aims 0x10090)) (aims 0x10090) grp.active ∧
    Spec.TargetOk (onCode (aims 0x10090)) (aims 0x10090) (((aims 0x10090).sreg 31).toNat % 2 ^ 57) :=
  ⟨⟨ready_onCode (by decide +kernel), rfl, rfl, ready_onCode (by decide +kernel), targetOk_of (by decide +kernel)⟩,
    ready_onCode (by decide +kernel), ready_onCode (by decide +kernel), ready_onCode (by decide +kernel),
    targetOk_of (by decide +kernel)⟩

/-- The target's checks fail, as LINE. -/
def targetBad (s : State) (g : Group) (va : Nat) : Bool :=
  match checkTarget s g va with
  | .ok _ => false
  | .error t => t.code == codeLINE

theorem targetBad_of {s : State} {g : Group} {va : Nat} (h : targetBad s g va = true) : ∃ tr, checkTarget s g va = .error tr := by
  unfold targetBad at h
  split at h
  · cases h
  · exact ⟨_, ‹_›⟩

theorem witness_TransferTargetChecked :
    Spec.Ready (.brx ⟨0#5, true⟩) (onCode (aims 0x10094)) (aims 0x10094) grp.active ∧
    Spec.Ready (.ret ⟨true⟩) (onCode (aims 0x10094)) (aims 0x10094) grp.active ∧
    Spec.Ready (.calli ⟨0#5, true⟩) (onCode (aims 0x10094)) (aims 0x10094) grp.active ∧
    (∃ tr, checkTarget (onCode (aims 0x10094)) (aims 0x10094) (((aims 0x10094).sreg 0).toNat % 2 ^ 57) = .error tr) ∧
    Spec.Ready (.call ⟨66#22, true⟩) (onCode grp) grp grp.active ∧
    ∃ tr, checkTarget (onCode grp) grp (Spec.target grp (66#22 : BitVec 22)) = .error tr :=
  ⟨ready_onCode (by decide +kernel), ready_onCode (by decide +kernel), ready_onCode (by decide +kernel),
    targetBad_of (by decide +kernel), ready_onCode (by decide +kernel), targetBad_of (by decide +kernel)⟩

def pairs : List Nat := [0, 2 ^ 32 - 64, 16, 2 ^ 32 - 63]

def sw : SwitchF := ⟨128#16, 47#6, true⟩

theorem witness_SwitchSplits :
    (Spec.Ready (.switch sw) (onCode (grpAt 5)) (grpAt 5) grp.active ∧ (onCode (grpAt 5)).tablesOk ∧
      Spec.target (grpAt 5) (128#16 : BitVec 16) % 4 = 0 ∧
      (∃ s1, readTable (onCode (grpAt 5)) (grpAt 5) 0x10110 = .ok (some pairs, s1)) ∧
      ∀ t ∈ grp.active, ∀ i, i < 2 → pairs.getD (2 * i) 0 ≠ ((grpAt 5).src 47#6 t).toNat) ∧
    (Spec.Ready (.switch sw) (onCode (grpAt 16)) (grpAt 16) grp.active ∧
      (∃ s1, readTable (onCode (grpAt 16)) (grpAt 16) 0x10110 = .ok (some pairs, s1) ∧ Spec.TargetOk s1 (grpAt 16) 0x10092) ∧
      ∀ t ∈ grp.active, pairs.getD 2 0 = ((grpAt 16).src 47#6 t).toNat ∧ pairs.getD 0 0 ≠ ((grpAt 16).src 47#6 t).toNat) ∧
    Spec.Ready (.switch sw) (onCode deep) deep grp.active ∧ Spec.target deep (128#16 : BitVec 16) = 0x10110 ∧
    (∃ s1 s2, readTable (onCode deep) deep 0x10110 = .ok (some pairs, s1) ∧
      checkTargets s1 deep [0x10090, 0x10092] = .ok s2) ∧
    let mask (j : Nat) : Word := if j = 0 then 1#32 else if j = 1 then 2#32 else 0#32
    (∀ j, j < 2 → ∀ t, t < 32 → ((mask j).getLsbD t = true ↔ t ∈ grp.active ∧ pairs.getD (2 * j) 0 = (deep.src 47#6 t).toNat)) ∧
    (∀ t, t < 32 → ((12#32 : Word).getLsbD t = true ↔ t ∈ grp.active ∧ ∀ j, j < 2 → pairs.getD (2 * j) 0 ≠ (deep.src 47#6 t).toNat)) ∧
    (List.range 2).filter (fun j => mask j != 0#32) = [0, 1] ∧ Spec.topAddr deep.stack = some 0x10012#57 := by
  refine ⟨⟨ready_onCode (by decide +kernel), onCode_tablesOk _, by decide +kernel, ?_, by decide +kernel⟩,
    ⟨ready_onCode (by decide +kernel), ?_, by decide +kernel⟩, ready_onCode (by decide +kernel), by decide +kernel, ?_,
    by decide +kernel, by decide +kernel, by decide +kernel, rfl⟩
  · have ⟨⟨a, b⟩, h1, h2⟩ := of_okThen (x := readTable (onCode (grpAt 5)) (grpAt 5) 0x10110) (p := fun r => r.1 == some pairs)
      (by decide +kernel)
    exact ⟨b, by rw [h1, show a = some pairs from by simpa using h2]⟩
  · have ⟨⟨a, b⟩, h1, h2⟩ := of_okThen (x := readTable (onCode (grpAt 16)) (grpAt 16) 0x10110)
      (p := fun r => r.1 == some pairs && targetOk r.2 (grpAt 16) 0x10092) (by decide +kernel)
    simp only [Bool.and_eq_true, beq_iff_eq] at h2
    exact ⟨b, by rw [h1, h2.1], targetOk_of h2.2⟩
  · have ⟨⟨a, b⟩, h1, h2⟩ := of_okThen (x := readTable (onCode deep) deep 0x10110)
      (p := fun r => r.1 == some pairs && okThen (checkTargets r.2 deep [0x10090, 0x10092]) fun _ => true) (by decide +kernel)
    simp only [Bool.and_eq_true, beq_iff_eq] at h2
    have ⟨c, h3, _⟩ := of_okThen h2.2
    exact ⟨b, c, by rw [h1, h2.1], h3⟩

def late : Group := split [.path 0x10090#57 1#32 0x10012#57, .path 0x10092#57 12#32 0x10012#57] 15#32 3#32

theorem witness_ExitRemovesThreads :
    (Spec.Ready (.exit ⟨7#3, true⟩) (onCode grp) grp grp.active ∧ grp.det.en = false ∧
      (∀ t, t < 32 → ((5#32 : Word).getLsbD t = true ↔ t ∈ grp.participants 7#3)) ∧ removesReceiver (onCode grp) grp 5#32 = false ∧
      (∀ t, t < 32 → (grp.thread t).ticket = none) ∧ (onCode grp).tablesOk ∧ grp.lmask &&& ~~~5#32 ≠ 0#32 ∧
      grp.amask &&& ~~~5#32 ≠ 0#32) ∧
    (Spec.Ready (.exit ⟨0#3, true⟩) (onCode late) late late.active ∧
      (∀ t, t < 32 → ((3#32 : Word).getLsbD t = true ↔ t ∈ late.participants 0#3)) ∧
      removesReceiver (onCode late) late 3#32 = false ∧ late.amask &&& ~~~3#32 = 0#32 ∧
      Spec.Leads (late.lmask &&& ~~~3#32) [.path 0x10090#57 0#32 0x10012#57, .path 0x10092#57 12#32 0x10012#57]
        [.path 0x10090#57 0#32 0x10012#57] (.path 0x10092#57 12#32 0x10012#57) []) ∧
    (Spec.Ready (.exit ⟨0#3, true⟩) (onCode grp) grp grp.active ∧
      (∀ t, t < 32 → ((15#32 : Word).getLsbD t = true ↔ t ∈ grp.participants 0#3)) ∧
      removesReceiver (onCode grp) grp 15#32 = false ∧ grp.lmask &&& ~~~15#32 = 0#32) :=
  ⟨⟨ready_onCode (by decide +kernel), rfl, by decide +kernel, by decide +kernel, by decide +kernel, onCode_tablesOk _,
      by decide, by decide⟩,
    ⟨ready_onCode (by decide +kernel), by decide +kernel, by decide +kernel, by decide, rfl, by decide, by decide⟩,
    ⟨ready_onCode (by decide +kernel), by decide +kernel, by decide +kernel, by decide⟩⟩

def spawner : Group := { grp with spawned := [3] }

theorem witness_NopYieldAndWait :
    (Spec.Ready .nop_16 world grp grp.active ∧ Spec.Ready (.nop ⟨true⟩) world grp grp.active ∧
      Spec.Ready (.yield ⟨false⟩) world grp grp.active ∧ grp.spawned = []) ∧
    (Spec.Ready (.yield ⟨true⟩) { world with groups := [(1, spawner)] } spawner grp.active ∧
      (itemsFor (world.set 0 0) 3 1).length ≤ 32) ∧
    (∀ o ∈ [0, 64], ∀ z ∈ [4#3, 5#3], let n := if z = 4#3 then 4 else 8
      Spec.Ready (.wait ⟨4#3, z, 31#5, 31#5, 7#3, true⟩) (worldAt o) (grpAt o) grp.active ∧
      Spec.Reads (worldAt o) (grpAt o) 7 ((grpAt o).sreg 31).toNat n ∧ Spec.OpenRaw (grpAt o) 7 true false ∧
      Spec.KeyedFor (worldAt o) 0 ⟨0, 0⟩ (Spec.addr (grpAt o) 7 ((grpAt o).sreg 31).toNat) ∧
      (Spec.numberAt (Spec.latest (worldAt o) 0) (Spec.addr (grpAt o) 7 ((grpAt o).sreg 31).toNat) n =
        ((grpAt o).sreg 31).toNat % 2 ^ (8 * n) ↔ o = 0)) ∧ world.tablesOk := by
  refine ⟨⟨ready_world (by decide +kernel), ready_world (by decide +kernel), ready_world (by decide +kernel), rfl⟩,
    ⟨ready rfl (by decide +kernel), by decide +kernel⟩,
    fun o ho z h => ⟨ready_worldAt ?_, reads_of rfl ?_, opened_rd (grpAt_w o) 7 (by decide), keyedFor rfl, ?_⟩, world_tablesOk⟩ <;>
    revert o z <;> decide +kernel

/-- The group with pinning windows. -/
def pinner (a b : Nat) : Group :=
  { grp with
    w := Vector.replicate 8 { win with pin := true }
    s := (Vector.replicate 32 (BitVec.ofNat 64 a)).setIfInBounds 1 (BitVec.ofNat 64 b) }

theorem witness_WindowsFencesAndCaches :
    (∀ r ∈ [true, false], ∀ x ∈ [true, false], r = true ∨ x = true →
      Spec.Ready (.wopen ⟨true, x, r, 31#5, 31#5, 7#3, true⟩) (onCode (aims 0x10000)) (aims 0x10000) grp.active ∧
      ∃ p s1, translate (onCode (aims 0x10000)) 0 0 .user (accessOf r x) 0x10000 = .ok (p, s1) ∧ isHost p.frame = false ∧
        p.fmt = .raw) ∧
    (∀ k ∈ [0#2, 1#2, 2#2], ∀ x ∈ [1#3, 2#3, 3#3, 4#3, 5#3], Spec.Ready (.fence ⟨x, k, true⟩) world grp grp.active) ∧
    (∀ o ∈ [0#4, 1#4, 2#4, 3#4, 4#4], ∀ b ∈ [0, 4096],
      Spec.Ready (.cache ⟨o, 1#5, 0#5, 7#3, true⟩) (onCode (pinner 0 b)) (pinner 0 b) grp.active ∧
      ((pinner 0 b).win 7).pin = true ∧ (b ≠ 0 → cacheCheck ((pinner 0 b).win 7) o.toNat 0 b = none ∧
        (cachePages (pinner 0 b) 0 o.toNat (if o.toNat = 2 then .write else .read) (b / 65536 + 2) (onCode (pinner 0 b))
          (((pinner 0 b).win 7).va 0) (((pinner 0 b).win 7).va 0 + b - 1)).2 = none)) ∧
    ∀ g, (onCode g).tablesOk := by
  refine ⟨fun r hr x hx hrx => ⟨ready_onCode ?_, ?_⟩, fun k hk x hx => ready_world ?_,
    fun o ho b hb => ⟨ready_onCode ?_, ?_, ?_⟩, onCode_tablesOk⟩
  · revert r x; decide +kernel
  · have ⟨⟨p, s1⟩, h1, h2⟩ := of_okThen (x := translate (onCode (aims 0x10000)) 0 0 .user (accessOf r x) 0x10000)
      (p := fun q => !isHost q.1.frame && q.1.fmt == .raw) (by revert r x; decide +kernel)
    simp only [Bool.and_eq_true, Bool.not_eq_true', beq_iff_eq] at h2
    exact ⟨p, s1, h1, h2.1, h2.2⟩
  · revert k x; decide +kernel
  · revert o b; decide +kernel
  · revert o b; decide +kernel
  · revert o b; decide +kernel

/-! ## Witnesses: traps -/

/-- The group in its handler: the marker on its stack. -/
def inHandler : Group := { grp with mode := .handler, stack := [.marker], frameEpc := 0x10090#57 }

theorem witness_IllopOrder :
    illopCause (.ld ⟨0#3, false, 7#3, 0#3, 61#6, 48#6, false⟩) grp grp.active false false = some 2 ∧
    illopCause (.add ⟨false, 0#3, 0#6, 61#6, 47#6, false⟩) grp grp.active false false = some 3 ∧
    illopCause (.add ⟨false, 0#3, 0#6, 8#6, 0#6, false⟩) { grp with nregs := 8 } grp.active false false = some 4 ∧
    illopCause (.park ⟨false⟩) grp grp.active false false = some 5 ∧
    illopCause (.ld ⟨0#3, false, 5#3, 0#3, 0#6, 1#6, false⟩) grp grp.active false false = some 6 ∧
    illopCause (.add ⟨false, 0#3, 56#6, 0#6, 0#6, false⟩) { grp with threads := Vector.replicate 32 Thread.init } [0] false false =
      some 7 ∧
    illopCause (.fadd ⟨false, 0#3, 0#6, 0#6, 0#6, false⟩) { grp with fpmode := 5#3 } grp.active false false = some 8 ∧
    illopCause (.ld ⟨0#3, false, 4#3, 0#3, 0#6, 0#6, false⟩) { grp with w := Vector.replicate 8 Window.init } grp.active false false =
      some 9 ∧
    illopCause (.add ⟨false, 0#3, 0#6, 0#6, 47#6, false⟩) grp grp.active false false = none := by decide +kernel

/-- An event with a code. -/
def event (code : Nat) : Event := { code := code, epc := 0x10014#57, replay := 0#32, info := 0#64, instr := 0x10010#57, shown := 15#32 }

theorem witness_EventsGoWhereTheySay :
    world.ctx? grp.asid = some ctx ∧ ctx.stopping = false ∧ inHandler.mode = .handler ∧ grp.mode = .user ∧
    (∀ k ∈ [3, 4, 6, 7, 8, 9], ctx.hctl.getLsbD k = true ∧ ({ ctx with hctl := 0#64 } : Context).hctl.getLsbD k = false) ∧
    ctx.hctl.getLsbD 16 = false ∧ ({ ctx with hctl := 0x10000#64 } : Context).hctl.getLsbD 16 = true ∧
    DWord.f ctx.hvec 56 7 ≠ 0 ∧ DWord.f ({ ctx with hvec := 0#64 } : Context).hvec 56 7 = 0 := by decide +kernel

/-- What lies where the walk leads is that address. -/
def frameOkAt (s : State) (g : Group) (c : Context) (pa : Nat) : Bool :=
  pa % 64 == 0 && okThen (translate s g.core g.asid .handler .update (frameAddr c g)) fun r =>
    okThen (r.1.rawPlace r.2 g.asid .write (frameAddr c g)) fun a => a == pa

theorem frameAt_of {s : State} {g : Group} {c : Context} {pa : Nat} (h : frameOkAt s g c pa = true) : Spec.FrameAt s g c pa := by
  simp only [frameOkAt, Bool.and_eq_true, beq_iff_eq] at h
  obtain ⟨⟨p, s1⟩, h1, h2⟩ := of_okThen h.2
  obtain ⟨a, h3, h4⟩ := of_okThen h2
  exact ⟨h.1, p, s1, h1, by rw [h3, show a = pa from by simpa using h4]⟩

theorem frame_world (g : Group) (h : (g.core, g.asid, g.frame) = (0, 0, 0)) : Spec.FrameAt world g ctx 0x60000 := by
  simp only [Prod.mk.injEq] at h
  have w := frameAt_of (s := world) (g := grp) (c := ctx) (pa := 0x60000) (by decide +kernel)
  have e : frameAddr ctx g = frameAddr ctx grp := by simp only [frameAddr, h.2.2]; rfl
  obtain ⟨h0, p, s1, h1, h2⟩ := w
  exact ⟨h0, p, s1, by rw [h.1, h.2.1, e]; exact h1, by rw [h.2.1, e]; exact h2⟩

theorem witness_HandlerEntry :
    world.ctx? grp.asid = some ctx ∧ world.tablesOk ∧ (event 255).code < 256 ∧ (event 255).cause < 256 ∧
    256 ≤ (split (List.replicate 256 .marker) 15#32 15#32).stack.length ∧
    (split (List.replicate 255 .marker) 15#32 15#32).stack.length < 256 ∧
    Spec.FrameAt world (split (List.replicate 255 .marker) 15#32 15#32) ctx 0x60000 :=
  ⟨rfl, world_tablesOk, by decide, by decide, by decide +kernel, by decide +kernel, frame_world _ rfl⟩

/-- The fault buffer of a context has room at a place. -/
def fits (s : State) (asid : Nat) (c : Context) (pa : Nat) : Bool :=
  let va := c.fbase + 64 * (c.seq % c.fslots)
  c.waiting.isEmpty && decide (c.seq - c.fbtail < c.fslots) &&
    okThen (walk s asid va) fun p => p.wr1 && p.wr2 && okThen (p.rawPlace s asid .write va) fun a => a == pa

theorem fits_of {s : State} {asid : Nat} {c : Context} {pa : Nat} (h : fits s asid c pa = true) : Spec.RecordFits s asid c pa := by
  simp only [fits, Bool.and_eq_true, List.isEmpty_iff, decide_eq_true_eq] at h
  obtain ⟨⟨h1, h2⟩, h3⟩ := h
  obtain ⟨p, h4, h5⟩ := of_okThen h3
  simp only [Bool.and_eq_true] at h5
  obtain ⟨a, h6, h7⟩ := of_okThen h5.2
  exact ⟨h1, h2, p, h4, h5.1.1, h5.1.2, by rw [h6, show a = pa from by simpa using h7]⟩

/-- The world with a group and a context. -/
def with_ (g : Group) (c : Context) : State := { world with groups := [(1, g)], contexts := [(0, c)] }

theorem with_tablesOk (g : Group) (c : Context) : (with_ g c).tablesOk := tablesOk_of rfl tables_wf block_bench rfl rfl rfl

/-- The context with all but one place of its buffer taken, and the last place next. -/
def ctxFull : Context := { ctx with seq := 63, fbhead := 63 }

def worldFull : State := with_ grp ctxFull

theorem witness_RecordsReachTheHost :
    worldFull.ctx? grp.asid = some ctxFull ∧ worldFull.tablesOk ∧ (event 255).code < 256 ∧ (event 255).report.host = false ∧
    (∀ w, (event 255).report.walk = some w → w.1 ≤ 1 ∧ w.2 ≤ 4) ∧ Spec.RecordFits worldFull 0 ctxFull 0x40FC0 ∧
    0x40FC0 % 64 = 0 :=
  ⟨rfl, with_tablesOk _ _, by decide, rfl, nofun, fits_of (by decide +kernel), by decide⟩

/-- The group with flags and traps enabled. -/
def flagged : Group := { grp with fflags := 0x7F#7, ftrapen := 0x40#7 }

def hostbrk : Context := { ctx with hctl := 0x10000#64 }

theorem witness_TrapsByInstruction :
    (world.ctx? grp.asid = some ctx ∧ world.tablesOk ∧ ctx.stopping = false ∧ grp.mode = .user ∧
      Spec.Ready (.tcall ⟨255#8, true⟩) world grp grp.active ∧ Spec.Ready (.brk ⟨0xFFFF#16, true⟩) world grp grp.active ∧
      Spec.Ready (.tfence ⟨true⟩) world grp grp.active ∧ grp.fflags &&& grp.ftrapen = 0#7 ∧
      ctx.hostbrk = false ∧ ctx.hline ≠ 0 ∧ grp.stack.length < 256 ∧ Spec.FrameAt world grp ctx 0x60000) ∧
    (Spec.Ready (.brk ⟨0xFFFF#16, true⟩) (with_ grp hostbrk) grp grp.active ∧ hostbrk.hostbrk = true ∧ hostbrk.stopping = false ∧
      (with_ grp hostbrk).tablesOk ∧ Spec.RecordFits (with_ grp hostbrk) 0 hostbrk 0x40000) ∧
    (Spec.Ready (.tfence ⟨true⟩) (with_ flagged ctx) flagged grp.active ∧ flagged.fflags &&& flagged.ftrapen ≠ 0#7 ∧
      (with_ flagged ctx).tablesOk ∧ Spec.FrameAt (with_ flagged ctx) flagged ctx 0x60000) ∧
    Spec.Ready (.park ⟨true⟩) (with_ inHandler ctx) inHandler grp.active ∧ Spec.RecordFits (with_ inHandler ctx) 0 ctx 0x40000 :=
  ⟨⟨rfl, world_tablesOk, rfl, rfl, ready_world (by decide +kernel), ready_world (by decide +kernel),
      ready_world (by decide +kernel), by decide +kernel, by decide +kernel, by decide +kernel, by decide, frame_world _ rfl⟩,
    ⟨ready rfl (by decide +kernel), by decide +kernel, rfl, with_tablesOk _ _, fits_of (by decide +kernel)⟩,
    ⟨ready rfl (by decide +kernel), by decide +kernel, with_tablesOk _ _, frameAt_of (by decide +kernel)⟩,
    ready rfl (by decide +kernel), fits_of (by decide +kernel)⟩

/-- A frame of a `tcall` at 0x60000 that resumes at 0x10090 with threads 0 to 3, threads 0 and 1 running it again; that line's marked
slots. -/
def framedOn (marks : Nat) (g : Group) : State :=
  { with_ g ctx with
    mem := bytesAt 0x10000 (header 2 1) ++ bytesAt 0x10080 (header 0 marks) ++ bytesAt 0x60000 [16] ++
      bytesAt 0x60040 [0x90, 0, 1, 0, 0, 0, 0, 0, 15, 0, 0, 0, 3] ++ bytesAt 0x60300 [77] ++ tables }

def framed : Group → State := framedOn 3

theorem witness_ReturnFromHandler :
    Spec.Ready (.rte ⟨true⟩) (framed inHandler) inHandler grp.active ∧ (framed inHandler).ctx? inHandler.asid = some ctx ∧
    ∃ fr p s1, readVirtual (framed inHandler) 0 0 .handler .read (frameAddr ctx inHandler) 1024 = .ok (fr, p, s1) ∧
      frameOk inHandler fr = true ∧ Spec.numberAt (fun i => fr.getD i 0#8) 0x40 8 = 0x10090 ∧
      BitVec.ofNat 57 0x10090 = inHandler.frameEpc ∧ ∃ line s2, enterLine s1 0 0 .user 0x10090 = .ok (line, s2) := by
  refine ⟨ready rfl (by decide +kernel), rfl, ?_⟩
  have ⟨⟨fr, p, s1⟩, h1, h2⟩ := of_okThen (x := readVirtual (framed inHandler) 0 0 .handler .read (frameAddr ctx inHandler) 1024)
    (p := fun r => frameOk inHandler r.1 && Spec.numberAt (fun i => r.1.getD i 0#8) 0x40 8 == 0x10090 &&
      okThen (enterLine r.2.2 0 0 .user 0x10090) fun _ => true) (by decide +kernel)
  simp only [Bool.and_eq_true, beq_iff_eq] at h2
  obtain ⟨⟨h3, h4⟩, h5⟩ := h2
  obtain ⟨⟨line, s2⟩, h6, -⟩ := of_okThen h5
  exact ⟨fr, p, s1, h1, h3, h4, by decide +kernel, line, s2, h6⟩

/-- A live descriptor at 0x10110 that names v0 and v47, and at 0x10080 a recipe's line. -/
def marked : State :=
  { with_ grp ctx with
    mem := bytesAt 0x10000 (header 2 1) ++ bytesAt 0x10080 (header 0 1) ++ bytesAt 0x1010E [1] ++
      bytesAt 0x10110 [1, 0, 0, 0, 0, 0x80] ++ tables }

theorem witness_MarkKeepsRecipe :
    ∃ (f : MarkF) (live recipe : Nat) (s1 s2 s3 : State),
      Spec.Ready (.mark f) marked grp grp.active ∧ marked.tablesOk ∧ grp.mode = .user ∧ grp.stack = [] ∧
      (((0x10000 : Int) + 4 * f.l.toInt) % 2 ^ 57).toNat = live ∧ (((0x10000 : Int) + 128 * f.c.toInt) % 2 ^ 57).toNat = recipe ∧
      dataLineKind marked grp live = .ok (1, s1) ∧ readWords s1 grp live 4 = .ok ([1, 0x8000, 0, 0], s2) ∧
      liveFault (1 + 0x8000 * 2 ^ 32) grp.nregs = none ∧ checkRecipe s2 grp recipe = .ok s3 := by
  have ⟨⟨k, s1⟩, h1, h2⟩ := of_okThen (x := dataLineKind marked grp 0x10110)
    (p := fun r => r.1 == 1 && okThen (readWords r.2 grp 0x10110 4) fun q => q.1 == [1, 0x8000, 0, 0] &&
      okThen (checkRecipe q.2 grp 0x10080) fun _ => true) (by decide +kernel)
  simp only [Bool.and_eq_true, beq_iff_eq] at h2
  obtain ⟨⟨ws, s2⟩, h3, h4⟩ := of_okThen h2.2
  simp only [Bool.and_eq_true, beq_iff_eq] at h4
  obtain ⟨s3, h5, -⟩ := of_okThen h4.2
  have hk : k = 1 := h2.1
  have hw : ws = [1, 0x8000, 0, 0] := h4.1
  exact ⟨⟨1#11, 68#11, true⟩, 0x10110, 0x10080, s1, s2, s3, ready rfl (by decide +kernel),
    tablesOk_of (m := marked.mem) rfl (by decide +kernel) block_bench rfl rfl rfl, rfl, rfl, by decide +kernel, by decide +kernel,
    by rw [h1, hk], by rw [h3, hw], by decide +kernel, h5⟩

/-! ## Witnesses: work -/

/-- The world with a group, a context and the set of core 0. -/
def holding (g : Group) (c : Context) (x : CoreSet) : State := { with_ g c with sets := [(0, x)] }

theorem holding_tablesOk (g : Group) (c : Context) (x : CoreSet) : (holding g c x).tablesOk :=
  tablesOk_of rfl tables_wf block_bench rfl rfl rfl

def item : Item :=
  { entry := 7, grid := 1, payload := Vector.replicate 4 0#32, origin := ⟨0, 0, 0⟩, ticket := none, cls := 0, bcnt := 0,
    bidx := 0, args := Vector.replicate 4 0#64, prefixKey := [], block := 1, spot := 0 }

/-- The context without an overflow area. -/
def noOverflow : Context := { ctx with cfg := ctx.cfg.setIfInBounds 4 0x70000#64 }

def packedGrp : Group := { grp with packed := true }

def full : CoreSet := { items := List.replicate 2048 item }

theorem witness_SpawnMakesItems :
    (Spec.Ready (.spawn ⟨44#6, 7#3, true, 7#10, true⟩) (holding grp ctx {}) grp grp.active ∧
      (holding grp ctx {}).ctx? grp.asid = some ctx ∧ 7 < ctx.ecnt ∧ chipUsed (holding grp ctx {}) 0 + grp.active.length ≤ 2048 ∧
      (itemsFor {} 7 1).length + grp.active.length < 32) ∧
    (Spec.Ready (.spawn ⟨44#6, 7#3, true, 7#10, true⟩) (holding grp ctx { items := List.replicate 31 item }) grp grp.active ∧
      chipUsed (holding grp ctx { items := List.replicate 31 item }) 0 + grp.active.length ≤ 2048 ∧
      (itemsFor { items := List.replicate 31 item } 7 1).length < 32 ∧
      32 ≤ (itemsFor { items := List.replicate 31 item } 7 1).length + grp.active.length) ∧
    ∀ g ∈ [grp, packedGrp], ∀ t ∈ [true, false],
      Spec.Ready (.spawn ⟨44#6, if t then 7#3 else 0#3, t, 7#10, true⟩) (holding g noOverflow full) g g.active ∧
      (holding g noOverflow full).ctx? g.asid = some noOverflow ∧ 7 < noOverflow.ecnt ∧ g.amask ≠ 0#32 ∧
      2048 ≤ chipUsed (holding g noOverflow full) 0 ∧
      noOverflow.ovfn * 896 ≤ overflowUsed (holding g noOverflow full) 0 1 ∧
      noOverflow.ovfn * 128 ≤ overflowUsed (holding g noOverflow full) 0 2 := by
  have h0 : noOverflow.ovfn = 0 := by decide +kernel
  have hu : ∀ g ∈ [grp, packedGrp], 2048 ≤ chipUsed (holding g noOverflow full) 0 := by decide +kernel
  refine ⟨⟨ready rfl (by decide +kernel), rfl, by decide +kernel, by decide +kernel, by decide +kernel⟩,
    ⟨ready rfl (by decide +kernel), by decide +kernel, by decide +kernel, by decide +kernel⟩,
    fun g hg t ht => ⟨ready rfl ?_, ?_, by decide +kernel, ?_, hu g hg, by simp [h0], by simp [h0]⟩⟩ <;>
    revert g <;> revert t <;> simp only [List.mem_cons, List.not_mem_nil, or_false, forall_eq_or_imp, forall_eq] <;>
    decide +kernel

/-- 64 grids made by `launch`, none of whose blocks has been placed. -/
def crowded : State :=
  { world with
    grids := (List.range 64).map fun i => (i, { grid with source := .device 0 0, nextBlock := 0 })
    feGrids := [(0, List.range 64)] }

/-- A reserved bit of the descriptor set. -/
def badDescriptor : State := { world with mem := bytesAt 0x10041 [4] ++ tables }

/-- What the descriptor's bytes are to the group's core. -/
def described (s : State) (i : Nat) : Byte := s.coreByte 0 ⟨0, 0⟩ (Spec.addr grp 7 ((grp.sreg 31).toNat : Int) + i)

theorem witness_LaunchCreatesGrid :
    (∀ s ∈ [world, crowded], Spec.Ready (.launch ⟨7#3, 31#5, true⟩) s grp grp.active ∧ s.ctx? grp.asid = some ctx ∧ s.tablesOk ∧
      (unplacedDevice s ctx.part < 64 ↔ s = world) ∧ (grp.sreg 31).toNat % 64 = 0 ∧ Spec.OpenRaw grp 7 true false ∧
      Spec.Reads s grp 7 ((grp.sreg 31).toNat : Int) 64 ∧ ∀ i, i < 64 → described s i = 0#8) ∧
    Spec.Ready (.launch ⟨7#3, 31#5, true⟩) badDescriptor grp grp.active ∧ badDescriptor.tablesOk ∧
    Spec.Reads badDescriptor grp 7 ((grp.sreg 31).toNat : Int) 64 ∧ Spec.numberAt (described badDescriptor) 0 8 / 2 ^ 10 % 2 ^ 6 = 1 := by
  refine ⟨fun s h => ?_, ready rfl (by decide +kernel), tablesOk_of (m := badDescriptor.mem) rfl (by decide +kernel) block_bench rfl rfl rfl,
    reads_of rfl (by decide +kernel), by decide +kernel⟩
  simp only [List.mem_cons, List.not_mem_nil, or_false] at h
  obtain rfl | rfl := h
  · exact ⟨ready_world (by decide +kernel), rfl, world_tablesOk, by decide +kernel, by decide +kernel, opened_rd rfl 7 (by decide),
      reads_of rfl (by decide +kernel), by decide +kernel⟩
  · exact ⟨ready rfl (by decide +kernel), rfl, tablesOk_of rfl tables_wf block_bench rfl rfl rfl, by decide +kernel, by decide +kernel,
      opened_rd rfl 7 (by decide), reads_of rfl (by decide +kernel), by decide +kernel⟩

/-- Two groups of a block, the second waiting. -/
def pairOf (b : Block) (g h : Group) : State := { world with groups := [(1, g), (2, h)], blocks := [(1, b)] }

def block2 : Block := { block with gpb := 2, live := [1, 2] }

theorem pairOf_tablesOk (b : Block) (g h : Group) (hb : b.bench = []) : (pairOf b g h).tablesOk :=
  tablesOk_of rfl tables_wf (by simpa [pairOf] using hb) rfl rfl rfl

theorem witness_BarriersComplete :
    ∀ sc ∈ [1#3, 2#3],
      (Spec.Ready (.bar ⟨false, sc, 4#5, true⟩) world grp grp.active ∧ world.block? grp.block = some block ∧ world.tablesOk ∧
        grp.det.en = false ∧ grp.wait = .none ∧ block.cbar ≤ 4 ∧ block.qbar ≤ 4) ∧
      (∀ x ∈ [true, false], Spec.Ready (.bar ⟨x, sc, 3#5, true⟩) world grp grp.active ∧ 3 < block.cbar ∧ 3 < block.qbar ∧
        (block.live.filter fun j => decide (sc = 2#3) || (world.group? j).any fun h => decide (h.core = grp.core)).length = 1 ∧
        ∀ e ∈ world.groups, e.2.wait = .none) ∧
      (∀ x ∈ [true, false], Spec.Ready (.bar ⟨x, sc, 3#5, true⟩) (pairOf block2 grp grp) grp grp.active ∧
        1 < (block2.live.filter fun j => decide (sc = 2#3) || ((pairOf block2 grp grp).group? j).any fun h => decide (h.core = grp.core)).length) ∧
      ∀ x ∈ [true, false],
        let b := { block2 with coreBars := [(3, ⟨0, [1], 0⟩)], quadBars := [(3, ⟨0, [1], 0⟩)] }
        Spec.Ready (.bar ⟨x, sc, 3#5, true⟩) (pairOf b grp grp) grp grp.active ∧
        (pairOf b grp grp).cur ∈ ((if sc = 1#3 then look (0 * 32 + 3) b.coreBars else look 3 b.quadBars).getD {}).arrived := by
  intro sc h
  refine ⟨⟨ready_world ?_, rfl, world_tablesOk, rfl, rfl, by decide, by decide⟩,
    fun x hx => ⟨ready_world ?_, by decide, by decide, ?_, by decide +kernel⟩, fun x hx => ⟨ready rfl ?_, ?_⟩,
    fun x hx => ⟨ready rfl ?_, ?_⟩⟩
  · revert sc; decide +kernel
  · revert sc x; decide +kernel
  · revert sc; decide +kernel
  · revert sc x; decide +kernel
  · revert sc; decide +kernel
  · revert sc x; decide +kernel
  · revert sc; decide +kernel

def second : Group := { grp with rank := 1, wait := .xpand }

/-- The arrival of the second group. -/
def arrival : XArrival := { gid := 2, block := 1, rank := 1, size := 2, op := 8, mask := 3#32, starts := [5#32, 6#32], lens := [1#32, 0#32] }

/-- The first group's. -/
def mine : XArrival :=
  { gid := 1, block := 1, rank := 0, size := 2, op := 8, mask := grp.amask, starts := grp.active.map (grp.src 0#6),
    lens := grp.active.map (grp.src 0#6) }

def meeting (x : CoreSet) : State := { pairOf block2 grp second with sets := [(0, x)] }

def openExpansion : Expansion :=
  { size := 1, op := 8, gids := [1], masks := [15#32], waves := [0], ends := [none], starts := [10#32, 20#32, 30#32, 40#32],
    lens := [2#32, 0#32, 1#32, 3#32], partials := [0#32, 0#32, 0#32, 0#32], applied := [0, 0, 0, 0], held := [] }

/-- The arrival of the second group with another op. -/
def otherOp : XArrival := { arrival with op := 9 }

theorem setOf (a : XArrival) (h : (a.block, a.size, a.rank) = (1, 2, 1)) :
    Spec.SetOf [mine, a] (((meeting { xwait := [a] }).set 0 0).xwait ++ [mine]) grp 2 := by
  have e : ((meeting { xwait := [a] }).set 0 0).xwait = [a] := rfl
  simp only [Prod.mk.injEq] at h
  refine ⟨⟨rfl, rfl⟩, fun c => by simp [e, or_comm], fun i c hc => ?_⟩
  match i, hc with
  | 0, hc => cases hc; decide
  | 1, hc => cases hc; exact ⟨h.1, h.2.1, h.2.2⟩
  | n + 2, hc => simp at hc

theorem witness_ExpansionOpens :
    (Spec.Ready (.xpand ⟨9#4, 1#2, 60#6, 47#6, true⟩) world grp grp.active ∧ world.block? grp.block = some block ∧
      grp.wait = .none ∧ block.gpb < 0 + 2) ∧
    (Spec.Ready (.xpand ⟨8#4, 1#2, 0#6, 0#6, true⟩) (meeting {}) grp grp.active ∧ (meeting {}).block? grp.block = some block2 ∧
      grp.expand = none ∧ grp.packed = false ∧ 0 + 2 ≤ block2.gpb ∧ ((meeting {}).set 0 0).xwait.length + 1 < 2 ∧
      ∀ a ∈ ((meeting {}).set 0 0).xwait, a.size = 2) ∧
    (∀ a ∈ [arrival, otherOp], Spec.Ready (.xpand ⟨8#4, 1#2, 0#6, 0#6, true⟩) (meeting { xwait := [a] }) grp grp.active ∧
      Spec.arrival (meeting { xwait := [a] }) grp ⟨8#4, 1#2, 0#6, 0#6, true⟩ = mine ∧
      Spec.SetOf [mine, a] (((meeting { xwait := [a] }).set 0 0).xwait ++ [mine]) grp 2 ∧
      (meeting { xwait := [a] }).group? a.gid = some second ∧ second.wait = .xpand ∧ a.gid ≠ 1 ∧
      ([mine, a].map (·.gid)).Nodup ∧ 0 ∉ slotsUsed (meeting { xwait := [a] }) 0) ∧
    ((∀ a ∈ [mine, arrival], a.op = 8) ∧ ∃ a ∈ [mine, otherOp], a.op ≠ 8) ∧
    (Spec.Ready (.xpand ⟨8#4, 0#2, 0#6, 0#6, true⟩) (holding grp ctx { expands := (List.range 16).map fun i => (i, openExpansion) }) grp
        grp.active ∧
      ∀ slot, slot < 16 → slot ∈ slotsUsed (holding grp ctx { expands := (List.range 16).map fun i => (i, openExpansion) }) 0) := by
  refine ⟨⟨ready_world (by decide +kernel), rfl, rfl, by decide⟩,
    ⟨ready rfl (by decide +kernel), rfl, rfl, rfl, by decide, by decide +kernel, nofun⟩, fun a h => ?_, by decide,
    ⟨ready rfl (by decide +kernel), by decide +kernel⟩⟩
  simp only [List.mem_cons, List.not_mem_nil, or_false] at h
  obtain rfl | rfl := h <;>
    exact ⟨ready rfl (by decide +kernel), rfl, setOf _ rfl, rfl, rfl, by decide, by decide, by decide +kernel⟩

def member : Group := { grp with expand := some (15, 0) }

def contribution : XContribution := { k := 0, owner := 0, value := 7#32, rnd := grp.laneRnd 0 0, gid := 1, empty := false }

/-- The expansion with its member's first wave dealt, one of its iterations let by, and n contributions held. -/
def midway (n : Nat) : Expansion :=
  { openExpansion with waves := [1], applied := [1, 0, 0, 0], held := List.replicate n { contribution with k := 9 } }

def expanding (x : Expansion) : State := holding member ctx { expands := [(15, x)] }

/-- What the member's first wave leaves: its iterations 1, 2 and 3, owner 0's second and owners 2's and 3's first. -/
def leavings : List XContribution :=
  [(1, 0), (2, 2), (3, 3)].map fun c => { k := c.1, owner := c.2, value := 0#32, rnd := ⟨.rne, 0⟩, gid := 1, empty := true }

theorem leaves_none : Spec.Leaves openExpansion 0 1 [] :=
  { each := nofun, all := fun k => ⟨fun h => (by obtain ⟨_, h, _⟩ := h; cases h), fun h => absurd h.1 (by decide)⟩ }

theorem witness_ExpansionRuns :
    (∀ x ∈ [openExpansion, midway 0], ∀ i ∈ [Instr.xnext ⟨7#3, 47#6, true⟩, .sred ⟨47#6, true⟩, .xend ⟨47#6, true⟩],
      Spec.Ready i (expanding x) member member.active ∧ member.expand = some (15, 0) ∧ member.wait = .none ∧
      look 15 ((expanding x).set 0 0).expands = some x ∧ x.starts.length = x.lens.length ∧ x.ends.length = x.masks.length ∧
      x.gids.length = x.masks.length ∧ x.gids[0]? = some 1 ∧ x.held.length + 4 ≤ 64 ∧
      rising (((expanding x).set 0 0).expands.map (·.1)) = true) ∧
    (Spec.Owns openExpansion 3 5 ∧ Spec.Owns openExpansion 0 0) ∧ Spec.Leaves openExpansion 0 1 [] ∧
    (∀ i ∈ [Instr.xnext ⟨7#3, 47#6, true⟩, .sred ⟨47#6, true⟩, .xend ⟨47#6, true⟩],
      Spec.Ready i (expanding (midway (65 + Config.spillRoom))) member member.active ∧
      64 + Config.spillRoom < (midway (65 + Config.spillRoom)).held.length) ∧
    (∀ c ∈ [contribution, { contribution with empty := true }],
      ({ openExpansion with held := [c] } : Expansion).nextApply = some c ∧
      (∃ e ∈ ({ openExpansion with held := [c] } : Expansion).ends, e = none) ∧
      openExpansion.ranks.length = openExpansion.starts.length) ∧
    ((∀ e ∈ openExpansion.ends.set 0 (some 47), e ≠ none) ∧ openExpansion.held ++ [] = [] ∧ openExpansion.gids.Nodup ∧
      (∀ j ∈ openExpansion.gids, j ≠ 1 → False) ∧ (∀ e ∈ (expanding openExpansion).sets, e.2.xwait = []) ∧
      openExpansion.starts.length = (openExpansion.masks.map fun a => (threadsOf a).length).sum ∧
      openExpansion.partials.length = openExpansion.starts.length) := by
  refine ⟨fun x hx i hi => ⟨ready rfl ?_, rfl, rfl, rfl, ?_⟩, ⟨⟨by decide, by decide, by decide⟩, by decide, by decide, by decide⟩,
    leaves_none, fun i hi => ⟨ready rfl ?_, ?_⟩, by decide +kernel, by decide, rfl, by decide, by decide, by decide, by decide +kernel, rfl⟩
  · clear hx; revert i; decide +kernel
  · revert x; decide +kernel
  · revert i; decide +kernel
  · simp only [midway, List.length_replicate]; omega

/-- R139: what the first wave leaves, none of its iterations but the first having contributed. -/
theorem test_empty_contributions : (midway 0).empties 0 1 = leavings := by decide +kernel

/-! ## Witnesses: engines -/

/-- The group with its offsets and length in s29, s30 and s31. -/
def sender (a b n : Nat) : Group :=
  { grp with s := ((Vector.replicate 32 (BitVec.ofNat 64 a)).setIfInBounds 30 (BitVec.ofNat 64 b)).setIfInBounds 31 (BitVec.ofNat 64 n) }

def engineOp : EngineOp :=
  { Spec.captured world grp .copy 63 win win with dstOff := 0x800, srcOff := 0, len := 64 }

/-- 16 operations of the partition, which has no more room. -/
def busy (g : Group) : State := { with_ g ctx with ops := (List.range 16).map fun i => (i, engineOp) }

/-- The group with a window it may not write. -/
def readOnly : Group := { sender 0 0x800 64 with w := Vector.replicate 8 { win with wr := false } }

theorem witness_EngineOperationsFork :
    (∀ n ∈ [0, 0x800], Spec.Ready (.copy ⟨63#6, 29#5, 0#3, 7#3, true⟩) (with_ (sender 0 0x800 n) ctx) (sender 0 0x800 n) grp.active ∧
      (with_ (sender 0 0x800 n) ctx).ctx? 0 = some ctx ∧ win.wr = true ∧ win.rd = true ∧ 0 + n ≤ win.limit.toNat ∧
      0x800 + n ≤ win.limit.toNat ∧ engineRoom (with_ (sender 0 0x800 n) ctx) 0 0 = true ∧
      engineRoom (busy (sender 0 0x800 n)) 0 0 = false) ∧
    (∀ z ∈ [0#2, 1#2, 2#2, 3#2],
      Spec.Ready (.gather ⟨z, 63#6, 29#5, 5#3, 0#3, 7#3, true⟩) (with_ (sender 0 0x800 64) ctx) (sender 0 0x800 64) grp.active ∧
      Spec.Ready (.scatter ⟨z, 63#6, 29#5, 5#3, 0#3, 7#3, true⟩) (with_ (sender 0 0x800 64) ctx) (sender 0 0x800 64) grp.active ∧
      0 + 64 * [4, 8, 16, 64].getD z.toNat 0 ≤ win.limit.toNat ∧ 0x800 + 8 * 64 ≤ win.limit.toNat ∧ 0x800 % 8 = 0) ∧
    (Spec.Ready (.copy ⟨63#6, 29#5, 0#3, 7#3, true⟩) (with_ readOnly ctx) readOnly grp.active ∧ (readOnly.win 7).wr ≠ true ∧
      (with_ readOnly ctx).tablesOk) ∧
    ∀ g, (with_ g ctx).tablesOk := by
  refine ⟨fun n h => ⟨ready rfl ?_, rfl, rfl, rfl, ?_, ?_, ?_, ?_⟩, fun z h => ⟨ready rfl ?_, ready rfl ?_, ?_, by decide, by decide⟩,
    ⟨ready rfl (by decide +kernel), by decide +kernel, with_tablesOk _ _⟩, fun g => with_tablesOk g ctx⟩
  · revert n; decide +kernel
  · revert n; decide +kernel
  · revert n; decide +kernel
  · revert n; decide +kernel
  · revert n; decide +kernel
  · revert z; decide +kernel
  · revert z; decide +kernel
  · revert z; decide +kernel

/-- An operation of the machine. -/
def running (o : EngineOp) (m : Memory) : State := { with_ grp ctx with ops := [(5, o)], mem := m }

theorem running_tablesOk (o : EngineOp) : (running o tables).tablesOk := tablesOk_of rfl tables_wf block_bench rfl rfl rfl

theorem copies (o : EngineOp) (m : Memory) (h : (o.kind, o.held, decide (o.done < o.len)) = (.copy, none, true)) :
    Spec.Copies (running o m) 5 o := by
  simp only [Prod.mk.injEq, decide_eq_true_eq] at h
  exact ⟨rfl, rfl, h.1, h.2.1, h.2.2⟩

/-- An engine's translation of an address, with a place, and what is asked of the page. -/
def placed (o : EngineOp) (m : Memory) (acc : Access) (va pa : Nat) (ask : Page → Bool) : Bool :=
  okThen (engineTranslate (running o m) o.asid o.mode acc va) fun p =>
    ask p && okThen (p.rawPlace (running o m) o.asid acc va) fun a => a == pa

theorem placed_of {o : EngineOp} {m : Memory} {acc : Access} {va pa : Nat} {ask : Page → Bool} (h : placed o m acc va pa ask = true) :
    ∃ p, engineTranslate (running o m) o.asid o.mode acc va = .ok p ∧ ask p = true ∧ p.rawPlace (running o m) o.asid acc va = .ok pa := by
  obtain ⟨p, h1, h2⟩ := of_okThen h
  simp only [Bool.and_eq_true] at h2
  obtain ⟨a, h3, h4⟩ := of_okThen h2.2
  exact ⟨p, h1, h2.1, by rw [h3, show a = pa from by simpa using h4]⟩

/-- The second gibibyte of the first stage a grain page. -/
def grainTables : Memory := tables ++ bytesAt 0x105008 [0x1F, 3, 1]

/-- An operation that writes past the first gibibyte, and one that writes a part of a block. -/
def lostOp : EngineOp := { engineOp with dst := { win with base := 0x40000000#57 } }
def partOp : EngineOp := { lostOp with len := 63 }

theorem witness_EngineOperationsRun :
    (Spec.Copies (running engineOp tables) 5 engineOp ∧ (running engineOp tables).tablesOk ∧ engineOp.source = .group 1 0 63 ∧
      engineOp.len - engineOp.done ≤ 64 ∧
      (∃ p, engineTranslate (running engineOp tables) 0 .user .write (Spec.dstVa engineOp) = .ok p ∧
        (p.fmt == .raw && decide (Spec.dstVa engineOp + 64 ≤ p.vbase + p.span)) = true ∧
        p.rawPlace (running engineOp tables) 0 .write (Spec.dstVa engineOp) = .ok 0x10800) ∧
      ∃ p, engineTranslate (running engineOp tables) 0 .user .read (Spec.srcVa engineOp) = .ok p ∧
        (p.fmt == .raw && decide (Spec.srcVa engineOp + 64 ≤ p.vbase + p.span)) = true ∧
        p.rawPlace (running engineOp tables) 0 .read (Spec.srcVa engineOp) = .ok 0x10000) ∧
    (Spec.Copies (running lostOp tables) 5 lostOp ∧ Spec.RecordFits (running lostOp tables) 0 ctx 0x40000 ∧
      ∃ tr, engineTranslate (running lostOp tables) 0 .user .write (Spec.dstVa lostOp) = .error tr ∧ tr.code = 1) ∧
    Spec.Copies (running partOp grainTables) 5 partOp ∧ (running partOp grainTables).tablesOk ∧ partOp.source = .group 1 0 63 ∧
    (∃ p, engineTranslate (running partOp grainTables) 0 .user .write (Spec.dstVa partOp) = .ok p ∧ p.fmt ≠ .raw) ∧
    partOp.len - partOp.done < 64 ∧ Spec.RecordFits (running partOp grainTables) 0 ctx 0x40000 := by
  refine ⟨⟨copies _ _ (by decide +kernel), running_tablesOk _, rfl, by decide, placed_of (by decide +kernel), placed_of (by decide +kernel)⟩,
    ⟨copies _ _ (by decide +kernel), fits_of (by decide +kernel), ?_⟩, copies _ _ (by decide +kernel),
    tablesOk_of (m := grainTables) rfl (by decide +kernel) block_bench rfl rfl rfl, rfl, ?_, by decide, fits_of (by decide +kernel)⟩
  · have h : (match engineTranslate (running lostOp tables) 0 .user .write (Spec.dstVa lostOp) with
      | .ok _ => false
      | .error t => t.code == 1) = true := by decide +kernel
    split at h
    · cases h
    · exact ⟨_, ‹_›, by simpa using h⟩
  · obtain ⟨p, h1, h2⟩ := of_okThen (x := engineTranslate (running partOp grainTables) 0 .user .write (Spec.dstVa partOp))
      (p := fun p => p.fmt != .raw) (by decide +kernel)
    exact ⟨p, h1, by simpa using h2⟩

/-! ## Witnesses: counters and the matrix engine -/

def counting (c : Counter) : State := holding (grpAt 64) ctx { counters := [(63, c)] }

theorem witness_CountersCount :
    (∀ v ∈ [64, 65, 63, 64 + 2 ^ 63], Spec.Ready (.cwait ⟨31#5, 63#6, true⟩) (counting ⟨BitVec.ofNat 64 v, none, 0#7⟩) (grpAt 64) grp.active ∧
      (((Spec.counter (counting ⟨BitVec.ofNat 64 v, none, 0#7⟩) 0 0 63).value - (grpAt 64).sreg 31).toNat < 2 ^ 63 ↔ v ∈ [64, 65])) ∧
    (Spec.Ready (.cwait ⟨31#5, 63#6, true⟩) (counting ⟨64#64, some 9, 0x7F#7⟩) (grpAt 64) grp.active ∧
      (Spec.counter (counting ⟨64#64, some 9, 0x7F#7⟩) 0 0 63).err = some 9 ∧
      ((Spec.counter (counting ⟨64#64, some 9, 0x7F#7⟩) 0 0 63).value - (grpAt 64).sreg 31).toNat < 2 ^ 63) ∧
    (∀ c, (counting c).tablesOk) ∧ (grpAt 64).det.en = false ∧
    Spec.Ready (.cpoll ⟨63#6, 31#5, true⟩) (counting {}) (grpAt 64) grp.active ∧
    Spec.Ready (.carm ⟨31#5, 63#6, true⟩) (counting {}) (grpAt 64) grp.active :=
  ⟨fun v h => ⟨ready rfl (by revert v; decide +kernel), by revert v; decide +kernel⟩,
    ⟨ready rfl (by decide +kernel), rfl, by decide +kernel⟩, fun c => tablesOk_of rfl tables_wf block_bench rfl rfl rfl, rfl,
    ready rfl (by decide +kernel), ready rfl (by decide +kernel)⟩

/-- A group for the matrix engine: windows 0 raw, 1 G3, 2 G5, 3 G8; its offsets are 0. -/
def matGrp : Group :=
  { grpAt 0 with w := #v[winOf .raw, winOf .g3, winOf .g5, winOf .g8, winOf .raw, winOf .raw, winOf .raw, winOf .raw] }

/-- The same with threads masked. -/
def maskedGrp : Group := { matGrp with amask := 7#32 }

/-- A directory of 64 rows at 0x10000, each at offset 256. -/
def directory : Memory :=
  [(0x10001, 1#8), (0x10005, 1#8), (0x10009, 1#8), (0x1000D, 1#8), (0x10011, 1#8), (0x10015, 1#8), (0x10019, 1#8), (0x1001D, 1#8),
   (0x10021, 1#8), (0x10025, 1#8), (0x10029, 1#8), (0x1002D, 1#8), (0x10031, 1#8), (0x10035, 1#8), (0x10039, 1#8), (0x1003D, 1#8),
   (0x10041, 1#8), (0x10045, 1#8), (0x10049, 1#8), (0x1004D, 1#8), (0x10051, 1#8), (0x10055, 1#8), (0x10059, 1#8), (0x1005D, 1#8),
   (0x10061, 1#8), (0x10065, 1#8), (0x10069, 1#8), (0x1006D, 1#8), (0x10071, 1#8), (0x10075, 1#8), (0x10079, 1#8), (0x1007D, 1#8),
   (0x10081, 1#8), (0x10085, 1#8), (0x10089, 1#8), (0x1008D, 1#8), (0x10091, 1#8), (0x10095, 1#8), (0x10099, 1#8), (0x1009D, 1#8),
   (0x100A1, 1#8), (0x100A5, 1#8), (0x100A9, 1#8), (0x100AD, 1#8), (0x100B1, 1#8), (0x100B5, 1#8), (0x100B9, 1#8), (0x100BD, 1#8),
   (0x100C1, 1#8), (0x100C5, 1#8), (0x100C9, 1#8), (0x100CD, 1#8), (0x100D1, 1#8), (0x100D5, 1#8), (0x100D9, 1#8), (0x100DD, 1#8),
   (0x100E1, 1#8), (0x100E5, 1#8), (0x100E9, 1#8), (0x100ED, 1#8), (0x100F1, 1#8), (0x100F5, 1#8), (0x100F9, 1#8), (0x100FD, 1#8)]

def matWorld (g : Group) : State := { with_ g ctx with mem := directory }

def ok {ε α : Type} (x : Except ε α) : Bool := okThen x fun _ => true

theorem of_ok {ε α : Type} {x : Except ε α} (h : ok x = true) : ∃ a, x = .ok a :=
  have ⟨a, h, _⟩ := of_okThen h
  ⟨a, h⟩

/-- The window whose pages have a type's format. -/
def winFor (y : Nat) : BitVec 3 := if y = 0 then 1#3 else if y = 1 then 2#3 else if y = 2 then 3#3 else 0#3

def mmatOf (y : Nat) (h : BitVec 2) : MmatF := ⟨BitVec.ofNat 3 y, h, 30#5, winFor y, winFor y, 12#4, true⟩

def shapes : List (BitVec 2) := [0#2, 1#2, 2#2, 3#2]

theorem witness_mmat : ∀ y ∈ [0, 1, 2, 3, 4], ∀ h ∈ shapes,
    Spec.Ready (.mmat (mmatOf y h)) (matWorld matGrp) matGrp matGrp.active ∧
    Spec.Ready (.mmat (mmatOf y h)) (matWorld maskedGrp) maskedGrp maskedGrp.active ∧
    ∃ c, Spec.memoryOperands (matWorld matGrp)
      [(Spec.source (Spec.formatOf y), (winFor y).toNat, 0, Spec.operandBytes y (shapeM h) (shapeK h)),
       (Spec.source (Spec.formatOf y), (winFor y).toNat, 0, Spec.operandBytes y (shapeM h) (shapeK h))] = .ok c := by
  refine fun y hy h hh => ⟨ready rfl ?_, ready rfl ?_, of_ok ?_⟩ <;> revert y h <;> decide +kernel

theorem witness_mma : ∀ y ∈ [0#2, 1#2, 2#2], ∀ h ∈ shapes,
    Spec.Ready (.mma ⟨15#4, y, h, true, 0#3, 31#5, 1#3, true⟩) (matWorld matGrp) matGrp matGrp.active ∧
    (if y = 2#2 then mmaN h * mmaK h / 16 * 18 else 2 * (mmaN h * mmaK h)) ≤ block.benchSize ∧
    Spec.Ready (.mma ⟨15#4, y, h, false, if y = 2#2 then 3#3 else 0#3, 31#5, 1#3, true⟩) (matWorld matGrp) matGrp matGrp.active ∧
    ∃ c, Spec.memoryOperands (matWorld matGrp) [(Spec.source (if y = 2#2 then .g8 else .raw), if y = 2#2 then 3 else 0, 0,
      if y = 2#2 then 4 * (mmaN h * mmaK h) else 2 * (mmaN h * mmaK h))] = .ok c := by
  refine fun y hy h hh => ⟨ready rfl ?_, ?_, ready rfl ?_, of_ok ?_⟩ <;> revert y h <;> decide +kernel

theorem witness_mlut : ∀ y ∈ [true, false], ∀ x ∈ [true, false], ∀ h ∈ shapes,
    Spec.Ready (.mlut ⟨h, y, x, 30#5, if y then 2#3 else 3#3, 0#3, 12#4, true⟩) (matWorld matGrp) matGrp matGrp.active ∧
    ∃ c, Spec.memoryOperands (matWorld matGrp)
      [(Spec.source .raw, 0, 0, shapeM h * shapeK h / (if x then 4 else 8)),
       (Spec.source (if y then .g5 else .g8), if y then 2 else 3, 0, 4 * (shapeM h * shapeK h))] = .ok c := by
  refine fun y hy x hx h hh => ⟨ready rfl ?_, of_ok ?_⟩ <;> revert y x h <;> decide +kernel

theorem witness_msp : Spec.Ready (.msp ⟨3#3, 0#2, 30#5, 0#3, 0#3, 15#4, true⟩) (matWorld matGrp) matGrp matGrp.active ∧
    ∃ r s1 rows a c, checkOperand (Spec.source .raw) (matWorld matGrp) 0 0 256 = .ok (r, s1) ∧
      sparseRows 3 64 0 0 4 64 ⟨s1, r, 256⟩ = .ok (rows, a) ∧
      checkOperand (Spec.source .raw) a.s 0 0 (Spec.operandBytes 3 64 64) = .ok c := by
  refine ⟨ready rfl (by decide +kernel), ?_⟩
  obtain ⟨⟨r, s1⟩, h1, h2⟩ := of_okThen (x := checkOperand (Spec.source .raw) (matWorld matGrp) 0 0 256)
    (p := fun x => okThen (sparseRows 3 64 0 0 4 64 ⟨x.2, x.1, 256⟩) fun y =>
      ok (checkOperand (Spec.source .raw) y.2.s 0 0 (Spec.operandBytes 3 64 64))) (by decide +kernel)
  obtain ⟨⟨rows, a⟩, h3, h4⟩ := of_okThen h2
  obtain ⟨c, h5⟩ := of_ok h4
  exact ⟨r, s1, rows, a, c, h1, h3, h5⟩

theorem witness_MatrixInstructionsQueue :
    matGrp.amask = matGrp.lmask ∧ maskedGrp.amask ≠ maskedGrp.lmask ∧ matGrp.det.en = false ∧
    Spec.Ready (.mzero ⟨true, 12#4, true⟩) (matWorld matGrp) matGrp matGrp.active ∧
    Spec.Ready (.mdrainReg ⟨true, 0#3, 16#6, 15#4, true⟩) (matWorld matGrp) matGrp matGrp.active ∧
    (∀ y ∈ [0#3, 1#3, 2#3, 3#3, 4#3, 5#3], let w := [0#3, 0#3, 0#3, 3#3, 2#3, 1#3].getD y.toNat 0#3
      let f := [PageFmt.raw, .raw, .raw, .g8, .g5, .g3].getD y.toNat .raw
      Spec.Ready (.mload ⟨y, 31#5, w, true, 12#4, true⟩) (matWorld matGrp) matGrp matGrp.active ∧
      Spec.Ready (.mdrainMem ⟨if y = 0#3 then 4#3 else 0#3, true, true, y, 29#5, w, true, 12#4, true⟩) (matWorld matGrp) matGrp
        matGrp.active ∧
      ∃ c, Spec.memoryOperands (matWorld matGrp) [(Spec.source f, w.toNat, 0, 256 * 256 * (if y = 1#3 ∨ y = 2#3 then 2 else 4))] =
        .ok c) ∧
    ∃ c, Spec.memoryOperands (matWorld matGrp)
      [({ Spec.source .raw with rd := false, wr := true, acc := .write }, 0, 0, 256 * 256 * 4),
       ({ align := 4, rd := true, wr := false, acc := .read, noHost := false, fmt := none }, 0, 0, 1024),
       ({ align := 4, rd := true, wr := false, acc := .update, noHost := true, fmt := some .raw }, 0, 0, 4)] = .ok c := by
  refine ⟨rfl, by decide, rfl, ready rfl (by decide +kernel), ready rfl (by decide +kernel),
    fun y h => ⟨ready rfl ?_, ready rfl ?_, of_ok ?_⟩, of_ok (by decide +kernel)⟩ <;> revert y <;> decide +kernel

/-- The accumulator holder's queue on core 0: a matrix instruction of group 1, and behind it another. -/
def record (i : Instr) (step : Nat) (ops : List MemRef) : MatInstr :=
  { Spec.queuedRecord world i grp ops [] with step := step }

def behind : MatInstr := record (.mzero ⟨false, 0#4, false⟩) 0 []

def queueOf (m : MatInstr) : State :=
  { holding grp ctx { mq := [m, behind] } with cores := [(0, { accHolder := some 0 })], mem := [] }

theorem head_queueOf (m : MatInstr) (h : m.stopped = false) : Spec.Head (queueOf m) 0 0 m [behind] :=
  ⟨rfl, rfl, h, ⟨ctx, rfl, rfl⟩, rfl⟩

def refOf (fmt : PageFmt) : MemRef := { va := 0x10000, pages := [{ page with fmt := fmt, span := 0x100000 }] }

/-- What the head's step reads through. -/
def stepAt (m : MatInstr) : Fetch := Spec.stepFetch (queueOf m) 0 0 m

def mmatAt : MatInstr := record (.mmat ⟨3#3, 0#2, 30#5, 0#3, 0#3, 15#4, false⟩) 3 [refOf .raw, refOf .raw]

theorem witness_mmat_step : Spec.Head (queueOf mmatAt) 0 0 mmatAt [behind] ∧ mmatAt.fault = none ∧ 3 < shapeK 0#2 / 16 ∧
    ∃ rows, fetchBlocks (stepAt mmatAt) (typeKind 3) (refOf .raw) ((List.range 64).map fun i => i * 4 + 3) = .ok rows :=
  ⟨head_queueOf _ rfl, rfl, by decide, of_ok (by decide +kernel)⟩

def mloadAt (step : Nat) : MatInstr := record (.mload ⟨0#3, 31#5, 0#3, false, 15#4, false⟩) step [refOf .raw]

theorem witness_mload_step : Spec.Head (queueOf (mloadAt 7)) 0 0 (mloadAt 7) [behind] ∧ (mloadAt 7).fault = none ∧ 16 * 7 < 128 ∧
    ∃ bs, fetchBlocks (stepAt (mloadAt 7)) (loadKind 0) (refOf .raw) ((List.range 128).map fun i => 7 * 128 + i) = .ok bs ∧
      ∀ b ∈ bs, b.length = 16 := by
  refine ⟨head_queueOf _ rfl, rfl, by decide, ?_⟩
  obtain ⟨bs, h1, h2⟩ := of_okThen (x := fetchBlocks (stepAt (mloadAt 7)) (loadKind 0) (refOf .raw)
    ((List.range 128).map fun i => 7 * 128 + i)) (p := fun bs => bs.all fun b => b.length == 16) (by decide +kernel)
  exact ⟨bs, h1, by simpa using h2⟩

/-- A queue over a sector whose data is damaged, and an instruction whose operand lost its translation. -/
def hurtQueue : State := { queueOf (mloadAt 0) with bad := [(0x400, [0])] }
def lostAt : MatInstr := record (.mload ⟨0#3, 31#5, 0#3, false, 15#4, false⟩) 0 [{ refOf .raw with fault := some (1, 0x10000, {}) }]

def zeroAt : MatInstr := record (.mzero ⟨true, 12#4, true⟩) 0 []
def drainAt (step : Nat) : MatInstr := record (.mdrainReg ⟨true, 0#3, 16#6, 15#4, true⟩) step []

theorem witness_MatrixEngineAdvances :
    (Spec.Head (queueOf zeroAt) 0 0 zeroAt [behind] ∧ zeroAt.fault = none) ∧
    (Spec.Head (queueOf (drainAt 1)) 0 0 (drainAt 1) [behind] ∧ (drainAt 1).fault = none ∧ (16#6 : BitVec 6).toNat + 32 ≤ 48 ∧
      (queueOf (drainAt 1)).group? 1 = some grp) ∧
    (Spec.Head (queueOf (drainAt 8)) 0 0 (drainAt 8) [behind] ∧ matSteps (drainAt 8).instr ≤ 8 ∧
      (queueOf (drainAt 8)).grid? 1 = some grid ∧ grid.live ≠ 0) ∧
    (Spec.Head hurtQueue 0 0 (mloadAt 0) [behind] ∧ 0 < matSteps (mloadAt 0).instr ∧ (mloadAt 0).fault = none ∧
      (∃ tr, matStep (Spec.stepFetch hurtQueue 0 0 (mloadAt 0)) (mloadAt 0) = .error tr ∧ tr.code ≠ 255) ∧ grp.pending = none) ∧
    (Spec.Head (queueOf lostAt) 0 0 lostAt [behind] ∧ 0 < matSteps lostAt.instr ∧ ∃ tr, lostAt.fault = some tr ∧ tr.code ≠ 255) ∧
    (∀ h ∈ [none, some 1], let s : State := { queueOf behind with cores := [(0, { accHolder := h, accWant := some 2 })] }
      (s.core 0).accWant = some 2 ∧ (s.set 1 0).mq = [] ∧ (s.core 0).accHolder = h) ∧
    let s : State := { queueOf behind with cores := [(0, { accHolder := some 0, accWant := some 2 })] }
    (s.core 0).accWant = some 2 ∧ (s.core 0).accHolder = some 0 ∧ (s.set 0 0).mq = behind :: [behind] := by
  refine ⟨⟨head_queueOf _ rfl, rfl⟩, ⟨head_queueOf _ rfl, rfl, by decide, rfl⟩, ⟨head_queueOf _ rfl, by decide, rfl, by decide⟩,
    ⟨⟨rfl, rfl, rfl, ⟨ctx, rfl, rfl⟩, rfl⟩, by decide, rfl, ?_, rfl⟩, ⟨head_queueOf _ rfl, by decide, _, rfl, by decide⟩, ?_, rfl, rfl, rfl⟩
  · have h : (match matStep (Spec.stepFetch hurtQueue 0 0 (mloadAt 0)) (mloadAt 0) with
      | .ok _ => false
      | .error tr => tr.code != 255) = true := by decide +kernel
    split at h
    · cases h
    · rename_i tr e
      exact ⟨tr, e, by simpa using h⟩
  · intro h hh
    simp only [List.mem_cons, List.not_mem_nil, or_false] at hh
    rcases hh with rfl | rfl <;> exact ⟨rfl, rfl, rfl⟩

/-! ## Witnesses: coverage -/

def openPath (role : Nat) : OpenPath :=
  { index := 9, role := role, evenOdd := false, entry := 7, paint := 3#32, tol := 64, pieces := [(0, [⟨0, 65536, 32768⟩])],
    carry := [(0, List.replicate 16 0)], carryL := [] }

/-- The group with an open path of a role. -/
def binning (p : Option OpenPath) (boxes : List (Option Box)) : Group := { grp with bin := { open_ := p, boxes := boxes } }

/-- The context without a bin area, what the open path takes being charged. -/
def noBins : Context := { ctx with cfg := ctx.cfg.setIfInBounds 5 0x80000#64, binUsed := (openPath 0).charge }

/-- The pieces that the group's `seg` of a kind gives. -/
def segPieces (g : Group) (p : OpenPath) (a k : Nat) : List CellPiece :=
  g.active.flatMap fun t => segmentPieces p.tol ((List.range (k + 2)).map fun i =>
    ⟨((g.thread t).reg (a + 2 * i)).toInt, ((g.thread t).reg (a + 2 * i + 1)).toInt⟩)

/-- What the open path is charged after it. -/
def binned (k : Nat) : Nat :=
  (binPieces (binWindow ctx.gw ctx.gh []) (openPath 0) (segPieces grp (openPath 0) 40 k)).1.charge

theorem witness_PathsAreBinned :
    (Spec.Ready (.path ⟨0#2, true, 7#10, 29#5, true⟩) world grp grp.active ∧ world.ctx? grp.asid = some ctx ∧
      (grp.sreg 29).toNat < 2 ^ 32 ∧ 1 ≤ (grp.sreg 31).toNat % 512 ∧ (grp.sreg 31).toNat % 512 ≤ 256 ∧ 7 < ctx.ecnt ∧
      grp.bin.open_ = none ∧ grp.bin.boxes = [] ∧ grp.bin.closed = none) ∧
    (∀ o ∈ [1#2, 2#2], Spec.Ready (.path ⟨o, false, 0#10, 29#5, true⟩) (with_ (binning none [none]) ctx) (binning none [none]) grp.active) ∧
    (Spec.Ready (.path ⟨0#2, false, 7#10, 29#5, true⟩) (with_ (binning (some (openPath 0)) []) ctx) (binning (some (openPath 0)) [])
        grp.active ∧ (binning (some (openPath 0)) []).bin.open_ ≠ none ∧ (29#5 : BitVec 5).toNat ≤ 29) ∧
    (∀ k ∈ [0#2, 1#2, 2#2], Spec.Ready (.seg ⟨7#3, k, 40#6, true⟩) (with_ (binning (some (openPath 0)) []) ctx) (binning (some (openPath 0)) [])
        grp.active ∧ ctx.binUsed - (openPath 0).charge + binned k.toNat ≤ ctx.binn * 65536 ∧
        binAnswers (with_ (binning (some (openPath 0)) []) ctx) 0 (ctx.binUsed - (openPath 0).charge + binned k.toNat) = true ∧
        noBins.binn * 65536 < noBins.binUsed - (openPath 0).charge + binned k.toNat) ∧
    (Spec.Ready (.seg ⟨7#3, 2#2, 40#6, true⟩) (with_ (binning (some (openPath 0)) []) noBins) (binning (some (openPath 0)) []) grp.active ∧
      (with_ (binning (some (openPath 0)) []) noBins).ctx? 0 = some noBins ∧ (openPath 0).role ≠ 2) ∧
    ((with_ { grp with scribe := true } ctx).group? 1 = some { grp with scribe := true } ∧ grp.wait ≠ .stintBreak) ∧
    (Spec.Ready (.pend ⟨true⟩) (with_ (binning (some (openPath 0)) []) ctx) (binning (some (openPath 0)) []) grp.active ∧
      binAnswers (with_ (binning (some (openPath 0)) []) ctx) 0 ctx.binUsed = true ∧
      binWindow ctx.gw ctx.gh [] = some ⟨0, 0, 0, 0⟩ ∧ look 0 (openPath 0).pieces = some [⟨0, 65536, 32768⟩]) ∧
    (Spec.Ready (.pend ⟨true⟩) (with_ (binning (some (openPath 2)) [some ⟨0, 0, 0, 0⟩]) ctx) (binning (some (openPath 2)) [some ⟨0, 0, 0, 0⟩])
        grp.active ∧ binAnswers (with_ (binning (some (openPath 2)) [some ⟨0, 0, 0, 0⟩]) ctx) 0 ctx.binUsed = true) := by
  refine ⟨⟨ready_world ?_, rfl, ?_, ?_, ?_, ?_, rfl, rfl, rfl⟩, fun o h => ready rfl ?_, ⟨ready rfl ?_, nofun, ?_⟩,
    fun k h => ⟨ready rfl ?_, ?_⟩, ⟨ready rfl ?_, rfl, ?_⟩, ⟨rfl, nofun⟩, ⟨ready rfl ?_, ?_, ?_, rfl⟩, ready rfl ?_, ?_⟩
  all_goals first | decide +kernel | (revert o; decide +kernel) | (revert k; decide +kernel)

/-- A group whose offsets are 0, with a raw window that reaches all of a target. -/
def tiler : Group := { grpAt 0 with w := Vector.replicate 8 (winOf .raw) }

/-- Its world, with slot 15 of core 0 and empty memory. -/
def slots (g : Group) (x : Slot) : State := { holding g ctx { slots := [(15, x)] } with mem := [] }

theorem bindable (x : Slot) (h : x.state = .unbound ∨ x.state = .idle) (hc : x.cells = []) : ∀ a ∈ [30#5, 31#5],
    Spec.Bindable (slots tiler x) tiler ctx a 15 := by
  have ht : ∀ a ∈ [30#5, 31#5], Spec.tileX tiler a < ctx.gw ∧ Spec.tileY tiler a < ctx.gh := by decide +kernel
  refine fun a ha => ⟨(ht a ha).1, (ht a ha).2, ?_, ?_⟩
  · exact h
  · show ∀ e ∈ x.cells, _
    rw [hc]
    nofun

/-- Empty memory, no cache filled, nothing damaged. -/
structure Empty (s : State) : Prop where
  mem  : s.mem = []
  bad  : s.bad = []
  seals : s.seals = []
  l2 : s.l2 = []
  cores : s.cores = []
  dies : s.dies = []

/-- A context's reads over a state, none done before. -/
def fetchOf (s : State) : Fetch := ⟨s, 0, 0, []⟩

def wide : MemRef := { va := 0x10000, pages := (winOf .raw).page :: List.replicate 16 (winOf .raw).page }

theorem wide_page (off : Nat) (h : off < 0x100000) : wide.page (0x10000 + off) = some (winOf .raw).page := by
  have h1 : decide ((winOf .raw).page.vbase ≤ 0x10000 + off) = true := decide_eq_true (Nat.le_add_right _ _)
  have h2 : decide (0x10000 + off < (winOf .raw).page.vbase + (winOf .raw).page.span) = true :=
    decide_eq_true (Nat.add_lt_add_left h _)
  simp only [MemRef.page, wide, List.find?_cons, h1, h2, Bool.and_self]

theorem refByte_at {s : State} {r : MemRef} {off va : Nat} {p : Page} (hr : r.bench = none) (ho : r.host = []) (hv : r.va + off = va)
    (hp : r.page va = some p) (hf : p.frame = p.vbase) (hl : p.vbase ≤ va) (hh : isHost va = false) (hb : s.bad = [])
    (hu : ∀ a, isDown s a = false) (hz : ∀ k a, s.coreByte 0 k a = 0#8) : refByte (fetchOf s) r off = .ok 0#8 := by
  have hpl : r.place s 0 va = .ok (p, foldAlias va) := by
    simp only [MemRef.place, hp, ho, look, Page.rawPlace, hf, Nat.add_sub_cancel' hl, hh, hu]
    rfl
  simp only [refByte, fetchOf, hr, hv, hpl, Fetch.lost, Fetch.byte, hb, hz, List.isEmpty_nil, Bool.not_true, Bool.false_and, Bool.false_eq_true,
    if_false, if_true, look]

theorem refByte_empty {s : State} (e : Empty s) (off : Nat) (h : off < 0x100000) : refByte (fetchOf s) wide off = .ok 0#8 := by
  have hb : hostBase = 0x8000000000000 := rfl
  have h1 : isHost (0x10000 + off) = false := decide_eq_false (by omega)
  have h2 (o : Owner) (a : Nat) : s.coreByte 0 o a = 0#8 := by
    simp [State.coreByte, State.pastL1Byte, State.homeByte, State.foreign, State.elsewhere, State.resealed, State.core, State.rdcByte,
      State.rdcLine, State.die, e.mem, e.cores, e.dies, e.seals, e.l2, look, Memory.get]
  have h3 (a : Nat) : isDown s a = false := by simp [isDown, State.die, e.dies, look]
  exact refByte_at rfl rfl rfl (wide_page off h) rfl (Nat.le_add_right _ _) h1 e.bad h3 h2

theorem refBytes_empty {s : State} (e : Empty s) : ∀ (n off : Nat), off + n ≤ 0x100000 →
    refBytes (fetchOf s) wide off n = .ok (List.replicate n 0#8) := by
  intro n
  induction n with
  | zero => intros; rfl
  | succ n ih =>
    intro off h
    simp only [refBytes, refByte_empty e off (by omega), ih (off + 1) (by omega)]
    rfl

theorem readTile_empty {s : State} (e : Empty s) (rnd : Nat → Rnd) (t : Target) (ht : t.row ≤ 0x1000) : ∀ rs : List Nat,
    (∀ r ∈ rs, r < 16) → ∃ cs fl, readTile (fetchOf s) rnd wide .raw t 0 0 rs = .ok (cs, fl) := by
  intro rs
  induction rs with
  | nil => exact fun _ => ⟨_, _, rfl⟩
  | cons r rs ih =>
    intro h
    obtain ⟨cs, fl, h1⟩ := ih fun q hq => h q (List.mem_cons_of_mem _ hq)
    have hr := h r (List.mem_cons_self ..)
    have hb : r * t.row ≤ 15 * 0x1000 := Nat.mul_le_mul (by omega) ht
    have h2 : refBytes (fetchOf s) wide ((16 * 0 + r) * t.row + 16 * 0 * t.cell) 128 = .ok (List.replicate 128 0#8) :=
      refBytes_empty e _ _ (by simp; omega)
    simp only [readTile, readTileRow, if_true, h2, h1]
    exact ⟨_, _, rfl⟩

theorem ofBytes_zeros (n : Nat) : ofBytes (List.replicate n 0#8) = 0 := by
  induction n with
  | zero => rfl
  | succ n ih => simp [List.replicate_succ, ofBytes, ih]

theorem clipRecord_zeros : clipRecord (List.replicate 9216 0#8) = some 0 := by
  have hl (k : Nat) : ofBytes (((List.replicate 9216 0#8).drop k).take 4) = 0 := by
    rw [List.drop_replicate, List.take_replicate, ofBytes_zeros]
  have h1 : ofBytes ((List.replicate 9216 0#8).take 1) = 0 := by rw [List.take_replicate, ofBytes_zeros]
  have h2 : (((List.replicate 9216 0#8).drop 1).take 1023).all (· == 0#8) = true := by
    rw [List.drop_replicate, List.take_replicate, List.all_replicate]
    rfl
  simp only [clipRecord, hl, h1, h2]
  decide +kernel

/-- The checks of a target hold over empty memory. -/
theorem tile_checked (g : Group) (x : Slot) (rd clip : Bool)
    (h : okThen (checkTile (slots g x) g (winOf .raw) 1 1 0 0 rd clip) (fun r =>
      decide (r.1.image = wide) && r.2.mem == [] && r.2.bad == [] && r.2.seals == [] && r.2.l2 == [] && r.2.cores == [] && r.2.dies == [] &&
        r.1.win.page.fmt == .raw && r.1.clip == some 2048) = true) :
    ∃ r s1, checkTile (slots g x) g (winOf .raw) 1 1 0 0 rd clip = .ok (r, s1) ∧ r.image = wide ∧ Empty s1 ∧
      r.win.page.fmt = .raw ∧ r.clip = some 2048 := by
  obtain ⟨⟨r, s1⟩, h1, h2⟩ := of_okThen h
  simp only [Bool.and_eq_true, decide_eq_true_eq, beq_iff_eq] at h2
  obtain ⟨⟨⟨⟨⟨⟨⟨⟨ha, hb⟩, hc⟩, hd⟩, hi⟩, he⟩, hf⟩, hg⟩, hh⟩ := h2
  exact ⟨r, s1, h1, ha, ⟨hb, hc, hd, hi, he, hf⟩, hg, hh⟩

/-- Bytes over empty memory are settled at once: there is no copy of them in L1 or the RDC. -/
theorem settled_empty {s : State} (e : Empty s) (core : Nat) (seen : Bool) (ks : List (Nat × Bool × Owner)) :
    settleSectors s core seen ks = s := by
  induction ks with
  | nil => rfl
  | cons k ks ih =>
    have h1 : s.dropSector core k.1 = s := by simp [State.dropSector, State.core, e.cores, look]
    have h2 : s.cleanSector core k.1 = s := by simp [State.cleanSector, State.core, e.cores, look]
    have h3 (o : Owner) (a : Nat) : dropRdcLine s (dieOf core) o a = s := by simp [dropRdcLine, State.rdcLine, State.die, e.dies, look]
    unfold settleSectors at ih ⊢
    rw [List.foldl_cons, h1, h2, h3, ite_self, ite_self, ih]

theorem witness_TilesBindAndFlush :
    (∀ i ∈ [0#2, 1#2, 2#2], Spec.Ready (.tbind ⟨i, 30#5, 7#3, 15#4, true⟩) (slots tiler {}) tiler tiler.active) ∧
    (slots tiler {}).ctx? tiler.asid = some ctx ∧ (∀ a ∈ [30#5, 31#5], Spec.Bindable (slots tiler {}) tiler ctx a 15) ∧
    (∀ rd ∈ [true, false], ∃ r s1, checkTile (slots tiler {}) tiler (winOf .raw) 1 1 0 0 rd false = .ok (r, s1)) ∧
    (∃ r s1 cs fl, checkTile (slots tiler {}) tiler (winOf .raw) 1 1 0 0 true false = .ok (r, s1) ∧
      readTile (fetchOf (settleTile s1 tiler r.image (targetOf r.win.page.fmt 1 1) 0 0))
        (engineRnd tiler.fpmode tiler.fpseed tiler.lidx tiler.retired) r.image r.win.page.fmt (targetOf r.win.page.fmt 1 1) 0 0
        (List.range 16) = .ok (cs, fl)) ∧
    Spec.Ready (.tload ⟨31#5, 7#3, 15#4, true⟩) (slots tiler {}) tiler tiler.active ∧
    ∃ r s1 cs fl, checkTile (slots tiler {}) tiler (winOf .raw) 1 1 0 0 true true = .ok (r, s1) ∧ r.clip = some 2048 ∧
      let s2 := settleTile s1 tiler r.image (Spec.rawTarget ctx) 0 0
      let s3 := settleSectors s2 tiler.core tiler.pkgSeen (r.image.sectors s2 0 2048 9216)
      readTile (fetchOf s3) (engineRnd tiler.fpmode tiler.fpseed tiler.lidx tiler.retired) r.image .raw (Spec.rawTarget ctx) 0 0
        (List.range 16) = .ok (cs, fl) ∧
      refBytes (fetchOf s3) r.image 2048 9216 = .ok (List.replicate 9216 0#8) ∧ clipRecord (List.replicate 9216 0#8) = some 0 := by
  refine ⟨fun i h => ready rfl ?_, rfl, fun a h => bindable _ (.inl rfl) rfl a h, fun rd h => ?_, ?_, ready rfl (by decide +kernel), ?_⟩
  · revert i; decide +kernel
  · obtain ⟨⟨r, s1⟩, h⟩ := of_ok (x := checkTile (slots tiler {}) tiler (winOf .raw) 1 1 0 0 rd false) (by revert rd; decide +kernel)
    exact ⟨r, s1, h⟩
  · obtain ⟨r, s1, h1, h2, h3, h4, -⟩ := tile_checked tiler {} true false (by decide +kernel)
    obtain ⟨cs, fl, h⟩ := readTile_empty h3 (engineRnd tiler.fpmode tiler.fpseed tiler.lidx tiler.retired)
      (targetOf .raw 1 1) (by decide) (List.range 16) (by decide)
    exact ⟨r, s1, cs, fl, h1, by rw [settleTile, settled_empty h3, h2, h4]; exact h⟩
  · obtain ⟨r, s1, h1, h2, h3, h4, h5⟩ := tile_checked tiler {} true true (by decide +kernel)
    obtain ⟨cs, fl, h⟩ := readTile_empty h3 (engineRnd tiler.fpmode tiler.fpseed tiler.lidx tiler.retired)
      (Spec.rawTarget ctx) (by decide +kernel) (List.range 16) (by decide)
    refine ⟨r, s1, cs, fl, h1, h5, ?_, ?_, clipRecord_zeros⟩ <;> rw [settleTile, settled_empty h3, settled_empty h3, h2]
    · exact h
    · exact refBytes_empty h3 _ _ (by decide)

/-- A slot bound to the tile, with a window that ends with the image, and a ticket outstanding in its last cell or none. -/
def bound (q : List Blend) : Slot :=
  { state := .idle, win := some { winOf .raw with limit := 2048#33 }, cells := [(255, { colour := #v[1#16, 2#16, 3#16, 4#16], queue := q })] }

theorem witness_tflush : ∀ q ∈ [[], [(⟨0, 5, none⟩ : Blend)]],
    Spec.Ready (.tflush ⟨15#4, true⟩) (slots tiler (bound q)) tiler tiler.active ∧ (slots tiler (bound q)).tablesOk ∧
    ((∀ e ∈ (bound q).cells, e.2.queue = []) ↔ q = []) ∧
    ∃ r s1, checkTile (slots tiler (bound q)) tiler { winOf .raw with limit := 2048#33 } 1 1 0 0 false false = .ok (r, s1) ∧
      (winOf .raw).page ∈ r.image.pages ∧ (∀ p ∈ r.image.pages, p = (winOf .raw).page) ∧ r.clip = none ∧ r.win.page.fmt = .raw ∧
      r.image.va = 0x10000 ∧ 0x10000 + (Spec.rawTarget ctx).image ≤ 0x110000 ∧ (0 < ctx.gw ∧ 0 < ctx.gh) := by
  intro q h
  obtain ⟨⟨r, s1⟩, h1, h2⟩ := of_okThen
    (x := checkTile (slots tiler (bound q)) tiler { winOf .raw with limit := 2048#33 } 1 1 0 0 false false)
    (p := fun r => r.1.image.pages.contains (winOf .raw).page && r.1.image.pages.all (· == (winOf .raw).page) && r.1.clip == none &&
      r.1.win.page.fmt == .raw && r.1.image.va == 0x10000) (by revert q; decide +kernel)
  simp only [Bool.and_eq_true, beq_iff_eq, List.contains_iff_mem, List.all_eq_true] at h2
  refine ⟨ready rfl (by clear h1; revert q; decide +kernel), tablesOk_of (m := []) rfl rfl block_bench rfl rfl rfl, by simp [bound], r, s1, h1,
    h2.1.1.1.1, h2.1.1.1.2, h2.1.1.2, h2.1.2, h2.2, by decide +kernel, by decide +kernel⟩

def entry (role : Nat) : BinEntry :=
  { index := 9, role := role, evenOdd := true, entry := 7, paint := 3#32, pieces := [⟨255, 65536, 32768⟩],
    back := List.replicate 16 0, lidx := 0, packed := false, origin := ⟨0, 0, 0⟩, row := 0 }

/-- The context with entries in the tile's bin. -/
def binCtx (es : List BinEntry) : Context := { ctx with bins := [(0, es)], binUsed := 100 }

/-- The group with the slot of its context on core 0. -/
def slotted (g : Group) (c : Context) (x : Slot) : State := holding g c { slots := [(15, x)] }

theorem witness_EntriesAreDeposited :
    (∀ st ∈ [SlotState.idle, .deposited 0, .scanned 0],
      Spec.Ready (.cdep ⟨29#5, 15#4, true⟩) (slotted tiler (binCtx []) { state := st }) tiler tiler.active ∧
      (look 0 (binCtx []).bins).getD [] = []) ∧
    (∀ role ∈ [0, 1, 2], Spec.Ready (.cdep ⟨29#5, 15#4, true⟩) (slotted tiler (binCtx [entry role]) { state := .idle }) tiler tiler.active ∧
      (slotted tiler (binCtx [entry role]) { state := .idle }).ctx? 0 = some (binCtx [entry role]) ∧
      binAnswers (slotted tiler (binCtx [entry role]) { state := .idle }) 0 1 = true ∧ (entry role).role < 3 ∧
      (entry role).entry < 1024 ∧ rising ((binCtx [entry role]).bins.map (·.1)) = true) ∧
    (with_ { grp with deposit := true } ctx).group? 1 = some { grp with deposit := true } := by
  refine ⟨fun st h => ⟨ready rfl ?_, rfl⟩, fun role h => ⟨ready rfl ?_, rfl, ?_, ?_, (by decide : 7 < 1024), rfl⟩, rfl⟩
  · revert st; decide +kernel
  · revert role; decide +kernel
  · revert role; decide +kernel
  · revert role; decide

def steep : Slot := { state := .deposited 1, cells := [(255, { c := 0x7FFFFFFF#32 })] }

theorem witness_CoverageIsScanned :
    (∀ role ∈ [0, 1], Spec.Ready (.cscan ⟨15#4, true⟩) (slotted grp ctx { state := .deposited role }) grp grp.active) ∧
    (Spec.slot (slotted grp ctx steep) grp 15 = steep ∧ ∀ r, r < 16 → ∀ j, j ≤ 16 →
      -2 ^ 31 ≤ steep.back.getD r 0 + ((List.range j).map fun i => (steep.cell (16 * r + i)).c.toInt).sum ∧
      steep.back.getD r 0 + ((List.range j).map fun i => (steep.cell (16 * r + i)).c.toInt).sum < 2 ^ 31) ∧
    Spec.Ready (.clpush ⟨15#4, true⟩) (slotted grp ctx { state := .scanned 1, depth := 7 }) grp grp.active ∧
    Spec.Ready (.clpop ⟨15#4, true⟩) (slotted grp ctx { state := .deposited 2, depth := 8 }) grp grp.active ∧
    (∀ w ∈ [0#2, 1#2, 2#2, 3#2], Spec.Ready (.covget ⟨47#6, 15#4, w, 47#6, true⟩) (slotted (grpAt 255) ctx { state := .idle }) (grpAt 255)
      grp.active) ∧
    ∀ t ∈ grp.active, ((grpAt 255).src 47#6 t).toNat < 256 := by
  refine ⟨fun role h => ready rfl (by revert role; decide +kernel), ⟨rfl, by decide +kernel⟩, ready rfl (by decide +kernel),
    ready rfl (by decide +kernel), fun w h => ready rfl (by revert w; decide +kernel), by decide +kernel⟩

/-- A scanned slot: its cells covered or not, one of them with tickets out. -/
def scannedSlot (n : Nat) : Slot :=
  { state := .scanned 0, entry := some (entry 0),
    cells := [(0, { cov := 131072, queue := List.replicate n ⟨0, 1, none⟩ }), (255, { cov := 5 })] }

/-- A group whose thread t holds a ticket of cell t. -/
def ticketed : Group :=
  { grp with threads := Vector.ofFn fun t => { thr t with ticket := some ⟨15, t, 0, 5⟩ } }

def ticketSlot : Slot := { state := .idle, stamp := 1, cells := (List.range 4).map fun i => (i, { queue := [⟨0, 5, none⟩] }) }

/-- A slot whose last cell has a used ticket, the empty blend; its context holds the tile store. -/
def usedSlot : Slot := { cells := [(255, { queue := [⟨0, 5, some (4, #v[0#16, 0#16, 0#16, 0#16])⟩] })] }
def tileHeld (x : Slot) : State := { slotted grp ctx x with cores := [(0, { tileHolder := some 0 })] }

theorem witness_SpansAndBlends :
    (∀ n ∈ [3, 4], Spec.Ready (.cspan ⟨15#4, true⟩) (slotted grp ctx (scannedSlot n)) grp grp.active ∧
      (List.range 256).filter (fun i => Spec.effOf (scannedSlot n) i != 0) = [0, 255] ∧
      ((scannedSlot n).cell 0).queue.length = n ∧ ((scannedSlot n).cell 255).queue.length = 0 ∧
      chipUsed (slotted grp ctx (scannedSlot n)) 0 + 2 ≤ 2048 ∧
      (itemsFor ((slotted grp ctx (scannedSlot n)).set 0 0) 7 1).length + 2 < 32) ∧
    (∀ m ∈ [0#2, 1#2, 2#2, 3#2], Spec.Ready (.tblend ⟨m, 46#6, true⟩) (slotted ticketed ctx ticketSlot) ticketed ticketed.active) ∧
    (∀ t ∈ ticketed.active, (ticketed.thread t).ticket ≠ none) ∧ 3 ∈ ticketed.active ∧
    (ticketed.thread 3).ticket = some ⟨15, 3, 0, 5⟩ ∧
    (∀ t ∈ ticketed.active, t ≠ 3 → (ticketed.thread t).ticket = some ⟨15, t, 0, 5⟩) ∧
    (look 15 ((tileHeld usedSlot).set 0 0).slots).getD {} = usedSlot ∧ ((tileHeld usedSlot).core 0).tileHolder = some 0 ∧
    (usedSlot.cell 255).queue = [⟨0, 5, some (4, #v[0#16, 0#16, 0#16, 0#16])⟩] ∧
    (world.core 0).tileHolder = none ∧ ∀ e ∈ (tileHeld usedSlot).groups, e.2.deposit = false := by
  refine ⟨fun n h => ⟨ready rfl ?_, ?_, ?_, ?_, ?_, ?_⟩, fun m h => ready rfl ?_, by decide +kernel, by decide +kernel, by decide +kernel,
    by decide +kernel, rfl, rfl, rfl, rfl, by decide +kernel⟩
  all_goals first | (revert n; decide +kernel) | (revert m; decide +kernel)

/-! ## Witnesses: control registers and queues -/

def sysGrp (m : Mode) (x : Nat) : Group := { grp with mode := m, s := Vector.replicate 32 (BitVec.ofNat 64 x) }

def lastNumbers : List Nat := [0, 7, 0x800, 0x801, 0x810, 0x817, 0x820, 0x825, 0x880, 0x884, 0x900, 0x90B]

theorem witness_ControlRegisters :
    (∀ n ∈ lastNumbers, Spec.Ready (.cget ⟨BitVec.ofNat 12 n, 31#5, true⟩) (with_ (sysGrp .handler 3) ctx) (sysGrp .handler 3) grp.active) ∧
    (∀ n ∈ [0, 7, 0x800], Spec.Ready (.cget ⟨BitVec.ofNat 12 n, 31#5, true⟩) (with_ (sysGrp .user 3) ctx) (sysGrp .user 3) grp.active) ∧
    (∀ n ∈ [0, 1, 2, 3, 5], ∀ m ∈ [Mode.user, .handler],
      Spec.Ready (.cput ⟨BitVec.ofNat 12 n, 31#5, true⟩) (with_ (sysGrp m 3) ctx) (sysGrp m 3) grp.active) ∧
    (∀ n ∈ [0x800, 0x801, 0x817, 0x820, 0x825], ∀ x ∈ [0, 2 ^ 64 - 1],
      Spec.Ready (.cput ⟨BitVec.ofNat 12 n, 31#5, true⟩) (with_ (sysGrp .handler x) ctx) (sysGrp .handler x) grp.active) ∧
    (with_ (sysGrp .user 3) ctx).ctx? 0 = some ctx := by
  refine ⟨fun n hn => ready rfl ?_, fun n hn => ready rfl ?_, fun n hn m hm => ready rfl ?_, fun n hn x hx => ready rfl ?_, rfl⟩
  · revert n; decide +kernel
  · revert n; decide +kernel
  · revert n m; decide +kernel
  · revert n x; decide +kernel

/-- A privileged number in U mode has its other checks passed; and what AMASK takes or refuses. -/
theorem witness_ControlRegisters_masks :
    (sysGrp .user 3).mode = .user ∧ 0x800 ≤ (0x800#12 : BitVec 12).toNat ∧
    Spec.MaskAllowed grp (BitVec.ofNat 32 15) ∧ Spec.MaskAllowed deep (BitVec.ofNat 32 3) ∧ ¬Spec.MaskAllowed deep 0#32 ∧
    ¬Spec.MaskAllowed deep 16#32 ∧ world.grp = some grp := by
  refine ⟨rfl, by decide, ⟨by decide, by decide, .inl rfl⟩, ⟨by decide, by decide, .inr ⟨[], 15#32, 0x10012#57, [], rfl, nofun⟩⟩,
    fun h => h.1 rfl, fun h => absurd h.2.1 (by decide), rfl⟩

theorem witness_TranslationsAreDropped :
    (∀ k ∈ [0#3, 1#3, 2#3, 3#3], ∀ x ∈ [0, 7],
      Spec.Ready (.tlbinv ⟨k, if k = 0#3 ∨ k = 2#3 then 31#5 else 0#5, true⟩) (with_ (sysGrp .handler x) ctx) (sysGrp .handler x) grp.active ∧
      (x < 2048 ∧ ((with_ (sysGrp .handler x) ctx).part 0).abase ≤ x ∧ x ≤ ((with_ (sysGrp .handler x) ctx).part 0).alimit)) ∧
    (∀ x ∈ [8, 2048], Spec.Ready (.tlbinv ⟨2#3, 31#5, true⟩) (with_ (sysGrp .handler x) ctx) (sysGrp .handler x) grp.active ∧
      ¬(x < 2048 ∧ x ≤ ((with_ (sysGrp .handler x) ctx).part 0).alimit)) ∧
    (∀ g, (with_ g ctx).tablesOk) ∧
    (with_ { grp with wait := .tlbinv } ctx).group? 1 = some { grp with wait := .tlbinv } := by
  refine ⟨fun k hk x hx => ⟨ready rfl ?_, ?_⟩, fun x hx => ⟨ready rfl ?_, ?_⟩, fun g => with_tablesOk g ctx, rfl⟩
  · revert k x; decide +kernel
  · revert x; decide +kernel
  · revert x; decide +kernel
  · revert x; decide +kernel

def ready4 : NMap Die := [(0, { boot := .ready }), (1, { boot := .ready }), (2, { boot := .ready }), (3, { boot := .ready })]

/-- Queue 7 of front end 0: 16 slots at 0x90000, enabled, in context 0, with its last place in the ring published. -/
def queue7 : Queue := { base := 0x90000#64, ctl := 0x80000004#64, tail := 16, prog := 15, head := 15 }

/-- The module up, a command in the ring and more memory. -/
def queued (cmd : List Nat) (more : Memory) : State :=
  { with_ grp ctx with queues := [(7, queue7)], dies := ready4, mem := more ++ bytesAt 0x903C0 cmd ++ tables }

/-- A queue offers the command of some words. -/
def offers (s : State) (fe q : Nat) (ws : List DWord) : Bool :=
  Queue.fetches s fe q && !queueHeld s (s.queue fe q).asid fe q && okThen (readRing s fe q) (fun bs => commandWords bs == ws) &&
    !commandBroken fe ws && !mustWait (s.queue fe q) ws

theorem offers_of {s : State} {fe q : Nat} {ws : List DWord} (h : offers s fe q ws = true) : Spec.Offers s fe q ws := by
  simp only [offers, Bool.and_eq_true, Bool.not_eq_true'] at h
  obtain ⟨⟨⟨⟨h1, h2⟩, h3⟩, h4⟩, h5⟩ := h
  obtain ⟨bs, h6, h7⟩ := of_okThen h3
  exact ⟨h1, h2, ⟨bs, h6, by simpa using h7⟩, h4, h5⟩

theorem tenant_of {cmd : List Nat} {more : Memory} {ws : List DWord} (h : offers (queued cmd more) 0 7 ws = true) :
    Spec.TenantOffers (queued cmd more) 0 7 ws ctx :=
  have h1 : ((queued cmd more).queue 0 7).asid = 0 := (rfl : _ = queue7.asid).trans (by decide +kernel)
  ⟨offers_of h, by decide, by rw [h1]; rfl, rfl⟩

/-- The eight words of a command. -/
def words (a b c d : Nat) : List DWord :=
  [BitVec.ofNat 64 a, BitVec.ofNat 64 b, BitVec.ofNat 64 c, BitVec.ofNat 64 d, 0#64, 0#64, 0#64, 0#64]

/-- LAUNCH of the descriptor at 0x91000, with its interrupt flag; its descriptor in zeros, or broken. -/
def launchBytes : List Nat := [1, 2, 0, 0, 0, 0, 0, 0, 0, 0x10, 9]
/-- COPY of n bytes from 0x10000 to 0x10800. -/
def copyBytes (n : Nat) : List Nat := [2, 2, 0, 0, 0, 0, 0, 0, 0, 8, 1, 0, 0, 0, 0, 0, 0, 0, 1, 0, 0, 0, 0, 0, n]
/-- SIGNAL or WAIT at 0x10800 of a value. -/
def wordBytes (op v : Nat) : List Nat := [op, 2, 0, 0, 0, 0, 0, 0, 0, 8, 1, 0, 0, 0, 0, 0, v]

def badLaunch : State := { queued launchBytes [] with mem := bytesAt 0x903C0 launchBytes ++ bytesAt 0x91001 [4] ++ tables }

theorem witness_QueueCommands :
    (Spec.TenantOffers (queued launchBytes []) 0 7 (words 0x201 0x91000 0 0) ctx ∧
      ∃ bs, frontRead (queued launchBytes []) 0 0x91000 64 = .ok bs ∧ ∃ d, readDescriptor ctx bs = some d) ∧
    (Spec.TenantOffers badLaunch 0 7 (words 0x201 0x91000 0 0) ctx ∧
      ∃ bs, frontRead badLaunch 0 0x91000 64 = .ok bs ∧ readDescriptor ctx bs = none) ∧
    (∀ n ∈ [0, 255], Spec.TenantOffers (queued (copyBytes n) []) 0 7 (words 0x202 0x10800 0x10000 n) ctx ∧
      ((queued (copyBytes n) []).queue 0 7).begun = [] ∧ engineRoom (queued (copyBytes n) []) 0 0 = true) ∧
    (Spec.TenantOffers (queued (wordBytes 3 255) []) 0 7 (words 0x203 0x10800 255 0) ctx ∧
      ∃ p, engineTranslate (queued (wordBytes 3 255) []) 0 .user .write 0x10800 = .ok p ∧ p.fmt = .raw ∧
        p.rawPlace (queued (wordBytes 3 255) []) 0 .write 0x10800 = .ok 0x10800) ∧
    (∀ v ∈ [0, 1], Spec.TenantOffers (queued (wordBytes 4 v) []) 0 7 (words 0x204 0x10800 v 0) ctx ∧
      ∃ bs, frontRead (queued (wordBytes 4 v) []) 0 0x10800 8 = .ok bs ∧ bs.length = 8 ∧
        Spec.numberAt (fun i => bs.getD i 0#8) 0 8 = 0) ∧
    Spec.TenantOffers (queued [5, 2] []) 0 7 (words 0x205 0 0 0) ctx := by
  refine ⟨⟨tenant_of (by decide +kernel), ?_⟩, ⟨⟨offers_of (by decide +kernel), by decide, by decide +kernel, rfl⟩, ?_⟩,
    fun n h => ⟨tenant_of ?_, rfl, ?_⟩, ⟨tenant_of (by decide +kernel), ?_⟩, fun v h => ⟨tenant_of ?_, ?_⟩,
    tenant_of (by decide +kernel)⟩
  · obtain ⟨bs, h1, h2⟩ := of_okThen (x := frontRead (queued launchBytes []) 0 0x91000 64)
      (p := fun bs => (readDescriptor ctx bs).isSome) (by decide +kernel)
    exact ⟨bs, h1, Option.isSome_iff_exists.1 h2⟩
  · obtain ⟨bs, h1, h2⟩ := of_okThen (x := frontRead badLaunch 0 0x91000 64)
      (p := fun bs => (readDescriptor ctx bs).isNone) (by decide +kernel)
    exact ⟨bs, h1, by simpa using h2⟩
  · revert n; decide +kernel
  · revert n; decide +kernel
  · obtain ⟨p, h1, h2⟩ := of_okThen (x := engineTranslate (queued (wordBytes 3 255) []) 0 .user .write 0x10800)
      (p := fun p => p.fmt == .raw && okThen (p.rawPlace (queued (wordBytes 3 255) []) 0 .write 0x10800) fun a => a == 0x10800)
      (by decide +kernel)
    simp only [Bool.and_eq_true, beq_iff_eq] at h2
    obtain ⟨a, h3, h4⟩ := of_okThen h2.2
    exact ⟨p, h1, h2.1, by rw [h3, show a = 0x10800 from by simpa using h4]⟩
  · revert v; decide +kernel
  · obtain ⟨bs, h1, h2⟩ := of_okThen (x := frontRead (queued (wordBytes 4 v) []) 0 0x10800 8)
      (p := fun bs => bs.length == 8 && Spec.numberAt (fun i => bs.getD i 0#8) 0 8 == 0) (by revert v; decide +kernel)
    simp only [Bool.and_eq_true, beq_iff_eq] at h2
    exact ⟨bs, h1, h2⟩

/-- A WAIT that has begun. -/
def waiting (v : Nat) : Command := { number := 15, op := 4, words := words 4 0x10800 v 0, irq := false, target := 0, done := false }

def polled (v : Nat) : State := { queued [] [] with queues := [(7, { queue7 with head := 16, begun := [waiting v] })] }

theorem witness_QueueCommands_poll : ∀ v ∈ [0, 1],
    (polled v).queue 0 7 = { queue7 with head := 16, begun := [waiting v] } ∧ ((polled v).queue 0 7).stat = 0 ∧
    queueHeld (polled v) 0 0 7 = false ∧ ∃ bs, frontRead (polled v) 0 0x10800 8 = .ok bs ∧ bs.length = 8 ∧
      Spec.numberAt (fun i => bs.getD i 0#8) 0 8 = 0 := by
  refine fun v h => ⟨rfl, ?_, ?_, ?_⟩
  · revert v; decide +kernel
  · revert v; decide +kernel
  · obtain ⟨bs, h1, h2⟩ := of_okThen (x := frontRead (polled v) 0 0x10800 8)
      (p := fun bs => bs.length == 8 && Spec.numberAt (fun i => bs.getD i 0#8) 0 8 == 0) (by revert v; decide +kernel)
    simp only [Bool.and_eq_true, beq_iff_eq] at h2
    exact ⟨bs, h1, h2⟩

/-- Queue 7 with a state and EN. -/
def stateOf (ctl : Nat) : State := { queued [] [] with queues := [(7, { queue7 with ctl := BitVec.ofNat 64 ctl })] }

theorem witness_QueueRegisters :
    (∀ v ∈ [16, 31], ((stateOf 4).queue 0 7).tail ≤ v ∧ v ≤ ((stateOf 4).queue 0 7).prog + 2 ^ (((stateOf 4).queue 0 7).ctl.toNat % 32)) ∧
    (∀ v ∈ [15, 32], ¬(((stateOf 4).queue 0 7).tail ≤ v ∧ v ≤ ((stateOf 4).queue 0 7).prog + 2 ^ (((stateOf 4).queue 0 7).ctl.toNat % 32))) ∧
    ((stateOf 4).queue 0 7).ctl.toNat / 2 ^ 32 % 16 = 0 ∧ ctxAway (stateOf 4) 0 = false ∧ ((stateOf 4).queue 0 7).stat = 0 ∧
    ((stateOf 0x380000004).queue 0 7).stat = 3 ∧ ((stateOf 0x280000004).queue 0 7).stat = 2 ∧
    ((stateOf 0x280000004).queue 0 7).begun = [] := by decide +kernel

/-! ## Witnesses: the administration queue -/

/-- Words as little-endian bytes. -/
def wordsBytes (ws : List Nat) : List Nat := ws.flatMap fun w => (List.range 8).map fun i => w / 256 ^ i % 256

/-- A command in the administration queue's ring, in host memory. -/
def asked (ws : List Nat) (s : State) : State :=
  { s with queues := [(512, queue7)], dies := ready4, mem := s.mem ++ bytesAt (hostBase + 0x903C0) (wordsBytes ws) }

/-- The command asked is offered. -/
def adminOffers (ws : List Nat) (op : Nat) (s : State) : Bool :=
  firmwareRuns (asked ws s) && offers (asked ws s) 64 0 (words (ws.getD 0 0) (ws.getD 1 0) (ws.getD 2 0) 0) && ws.getD 0 0 % 256 == op &&
    decide (ws.getD 0 0 < 2 ^ 64)

theorem admin_of {ws : List Nat} {op : Nat} {s : State} (h : adminOffers ws op s = true) :
    Spec.AdminOffers (asked ws s) op (words (ws.getD 0 0) (ws.getD 1 0) (ws.getD 2 0) 0) := by
  simp only [adminOffers, Bool.and_eq_true, beq_iff_eq, decide_eq_true_eq] at h
  obtain ⟨⟨⟨h1, h2⟩, h3⟩, h4⟩ := h
  refine ⟨h1, offers_of h2, ?_, rfl⟩
  show (BitVec.ofNat 64 (ws.getD 0 0)).toNat % 256 = op
  rw [BitVec.toNat_ofNat, Nat.mod_eq_of_lt h4, h3]

/-- The world with a second context, 5, as it is created in partition 0, that has no group. -/
def ctx5 : Context := { Context.init 0 0 with cfg := (Context.init 0 0).cfg.setIfInBounds 0 5#64 }
def two : State := { world with contexts := [(0, ctx), (5, ctx5)] }

theorem witness_AdminCommands_create :
    (∀ a ∈ [1, 7], Spec.AdminOffers (asked [16, a] world) 16 (words 16 a 0 0) ∧
      (asked [16, a] world).ctx? a = none ∧ ((asked [16, a] world).part 0).abase ≤ a ∧
      a ≤ ((asked [16, a] world).part 0).alimit ∧ ((asked [16, a] world).part 0).tdis ≠ 3) ∧
    (Spec.AdminOffers (asked [16, 0] world) 16 (words 16 0 0 0) ∧ (asked [16, 0] world).ctx? 0 = some ctx) ∧
    (Spec.AdminOffers (asked [16, 8] world) 16 (words 16 8 0 0) ∧ ((asked [16, 8] world).part 0).alimit < 8) ∧
    (firmwareRuns { asked [16, 7] world with dies := [] } = false ∧
      Spec.Offers { asked [16, 7] world with dies := [] } 64 0 (words 16 7 0 0) ∧ Spec.word (words 16 7 0 0) 0 % 256 = 16) := by
  refine ⟨fun a h => ⟨?_, ?_⟩, ⟨admin_of (by decide +kernel), rfl⟩, ⟨admin_of (by decide +kernel), by decide +kernel⟩, rfl,
    offers_of (by decide +kernel), by decide⟩
  · simp only [List.mem_cons, List.not_mem_nil, or_false] at h
    obtain rfl | rfl := h <;> exact admin_of (by decide +kernel)
  · revert a; decide +kernel

/-- CONTEXT of action 1 on context 5, of a register. -/
def ctxWrite (n v : Nat) : List Nat := [16, 5 + 4096 + n * 65536, v]

theorem witness_AdminCommands_write :
    (∀ n ∈ [0x80F, 0x810, 0x811, 0x817, 0x818, 0x87F, 0x880, 0x884, 0x885],
      Spec.AdminOffers (asked (ctxWrite n 0x103000) two) 16 (words 16 (5 + 4096 + n * 65536) 0x103000 0) ∧
      (Spec.word (words 16 (5 + 4096 + n * 65536) 0x103000 0) 1 / 2 ^ 12 % 16,
        Spec.word (words 16 (5 + 4096 + n * 65536) 0x103000 0) 1 % 2048,
        Spec.regOf (words 16 (5 + 4096 + n * 65536) 0x103000 0)) = (1, 5, n)) ∧
    (∀ n, (asked (ctxWrite n 0x103000) two).ctx? 5 = some ctx5) ∧
    (∀ e ∈ two.groups, e.2.asid ≠ 5) ∧ (∀ e ∈ two.ops, e.2.asid ≠ 5) ∧ (∀ e ∈ two.sets, e.1 / 256 ≠ 5) ∧
    (Spec.AdminOffers (asked (ctxWrite 0x817 0) world) 16 (words 16 (5 + 4096 + 0x817 * 65536) 0 0) ∧
      (asked (ctxWrite 0x817 0) world).ctx? 5 = none) := by
  refine ⟨fun n h => ⟨?_, ?_⟩, fun n => rfl, by decide, by decide, by decide, admin_of (by decide +kernel), rfl⟩
  · simp only [List.mem_cons, List.not_mem_nil, or_false] at h
    obtain rfl | rfl | rfl | rfl | rfl | rfl | rfl | rfl | rfl := h <;> exact admin_of (by decide +kernel)
  · revert n; decide +kernel

/-- A soft PREEMPT of context 5 waits, and a CONTEXT of action 2 on it comes. -/
def softCmd : Command := { number := 14, op := 18, words := words 18 5 0 0, irq := false, target := 0, done := false }

def awaiting : State :=
  { asked [16, 5 + 8192] { world with contexts := [(0, ctx), (5, { ctx5 with preempt := .soft, preemptCmds := [14] })] } with
    queues := [(512, { queue7 with prog := 14, begun := [softCmd] })] }

theorem witness_AdminCommands_destroy_waited :
    firmwareRuns awaiting = true ∧ Spec.Offers awaiting 64 0 (words 16 (5 + 8192) 0 0) ∧
    (Spec.word (words 16 (5 + 8192) 0 0) 0 % 256, Spec.word (words 16 (5 + 8192) 0 0) 1 / 2 ^ 12 % 16,
      Spec.word (words 16 (5 + 8192) 0 0) 1 % 2048) = (16, 2, 5) ∧
    awaiting.ctx? 5 = some { ctx5 with preempt := .soft, preemptCmds := [14] } ∧ (awaiting.queue 64 0).begun = [softCmd] ∧
    softCmd.number = 14 ∧ ∀ e ∈ awaiting.groups, e.2.asid ≠ 5 := by
  refine ⟨by decide +kernel, offers_of (by decide +kernel), by decide +kernel, rfl, rfl, rfl, by decide⟩

theorem witness_AdminCommands_destroy :
    (∀ a ∈ [0, 5], Spec.AdminOffers (asked [16, a + 8192] two) 16 (words 16 (a + 8192) 0 0)) ∧ ctx5.preemptCmds = [] ∧
    ctx.preemptCmds = [] ∧
    (asked [16, 5 + 8192] two).ctx? 5 = some ctx5 ∧ rising (two.contexts.map (·.1)) = true ∧
    (∀ e ∈ two.groups, e.2.asid = 5 → 256 ≤ e.2.core) ∧ ∃ e ∈ two.groups, e.2.asid = 0 ∧ e.2.core < 256 := by
  refine ⟨fun a h => ?_, rfl, rfl, rfl, by decide, by decide, (1, grp), .head _, rfl, by decide⟩
  simp only [List.mem_cons, List.not_mem_nil, or_false] at h
  obtain rfl | rfl := h <;> exact admin_of (by decide +kernel)

/-- PARTSET of a register of partition 0. -/
def setPart (n v : Nat) : List Nat := [20, n * 65536, v]

def empty0 : State := { world with contexts := [] }

theorem witness_AdminCommands_partset :
    (∀ n ∈ [0x81F, 0x820, 0x824, 0x826], Spec.AdminOffers (asked (setPart n 0x0201) world) 20 (words 20 (n * 65536) 0x0201 0)) ∧
    Spec.AdminOffers (asked (setPart 0x820 0x0102) world) 20 (words 20 (0x820 * 65536) 0x0102 0) ∧
    ((0x0102 / 2 ^ 8 % 256 < 0x0102 % 256) ∧ (world.part 0).cbase ≠ 0x0102 % 256) ∧
    Spec.AdminOffers (asked (setPart 0x820 0x70000000201) empty0) 20 (words 20 (0x820 * 65536) 0x70000000201 0) ∧
    (0x70000000201 % 256 ≤ 0x70000000201 / 2 ^ 8 % 256 ∧ (∀ e ∈ empty0.parts, e.1 = 0) ∧ ∀ e ∈ empty0.contexts, e.2.part ≠ 0) ∧
    (world.part 0).tdis = 0 := by
  refine ⟨fun n h => ?_, admin_of (by decide +kernel), by decide +kernel, admin_of (by decide +kernel), by decide +kernel,
    by decide +kernel⟩
  simp only [List.mem_cons, List.not_mem_nil, or_false] at h
  obtain rfl | rfl | rfl | rfl := h <;> exact admin_of (by decide +kernel)

/-- FWLOAD of n bytes at host address 0x4000, where the least image stands, of security version 3. -/
def loading (n : Nat) : State :=
  { asked [21, 0x4000, n] { world with mem := [] } with
    mem := bytesAt (hostBase + 0x4000) [1, 0, 0, 0, 3, 0, 0, 0, 0, 0x10] ++ bytesAt (hostBase + 0x903C0) (wordsBytes [21, 0x4000, n]) }

def loadOffers (n : Nat) (d : NMap Die) : Bool := offers { loading n with dies := d } 64 0 (words 21 0x4000 n 0)

theorem look_absent {k : Nat} : ∀ {m : Memory}, (∀ e ∈ m, e.1 ≠ k) → look k m = none
  | [], _ => rfl
  | (j, x) :: m, h => by
    have h1 := h (j, x) (.head _)
    simp only [look, if_neg (Ne.symm h1)]
    exact look_absent fun e he => h e (.tail _ he)

theorem bytes_length (m : Memory) : ∀ n a, (m.bytes a n).length = n
  | 0, _ => rfl
  | n + 1, a => congrArg (· + 1) (bytes_length m n (a + 1))

theorem bytes_drop (m : Memory) : ∀ k a n, (m.bytes a (n + k)).drop k = m.bytes (a + k) n
  | 0, _, _ => rfl
  | k + 1, a, n => by
    show (m.bytes (a + 1) (n + k)).drop k = _
    rw [bytes_drop m k (a + 1) n, show a + 1 + k = a + (k + 1) by omega]

theorem bytes_zero (m : Memory) : ∀ n a, (∀ e ∈ m, e.1 < a ∨ a + n ≤ e.1) → ∀ b ∈ m.bytes a n, b = 0#8
  | 0, _, _ => nofun
  | n + 1, a, h => by
    intro b hb
    obtain rfl | hb := List.mem_cons.1 hb
    · simp only [Memory.get, look_absent (k := a) fun e he => by have := h e he; omega, Option.getD_none]
    · exact bytes_zero m n (a + 1) (fun e he => by have := h e he; omega) b hb

theorem loading_formed : imageFormed ((loading 20480).mem.bytes (hostBase + 0x4000) 20480) 20480 = true := by
  have h1 : (((loading 20480).mem.bytes (hostBase + 0x4000) 20480).drop 0x14FD).all (· == 0#8) = true := by
    rw [bytes_drop _ 0x14FD _ (20480 - 0x14FD), List.all_eq_true]
    exact fun b hb => beq_iff_eq.2 (bytes_zero _ _ _ (by decide +kernel) b hb)
  have h2 : ((((loading 20480).mem.bytes (hostBase + 0x4000) 20480).drop 0x14FD).take 11011).all (· == 0#8) = true :=
    List.all_eq_true.2 fun b hb => List.all_eq_true.1 h1 b (List.mem_of_mem_take hb)
  simp only [imageFormed, h2, Bool.and_true]
  decide +kernel

/-- The image is accepted where its signatures are good and its version is high enough: what `Config` leaves open. -/
theorem witness_AdminCommands_fwload :
    (∀ n ∈ [0, 20479, 20480, 16777216, 16777217], ∀ d ∈ [ready4, []],
      Spec.Offers { loading n with dies := d } 64 0 (words 21 0x4000 n 0)) ∧
    ((loading 20480).queue 64 0).begun = [] ∧ ({ loading 20480 with dies := [] } : State).die 0 = {} ∧
    firmwareRuns (loading 20480) = true ∧ ((loading 20480).die 0).image = none ∧
    (imageTrusted 0 ((loading 20480).mem.bytes (hostBase + 0x4000) 20480) = true → Config.fusedMinimum 0 ≤ 3 →
      imageAccepted 0 ⟨(loading 20480).mem.bytes (hostBase + 0x4000) 20480, 3⟩ = true) := by
  refine ⟨fun n h d h' => offers_of ?_, rfl, rfl, rfl, rfl, fun h1 h2 => ?_⟩
  · show loadOffers n d = true
    revert n d; decide +kernel
  · simp only [imageAccepted, Bool.and_eq_true, decide_eq_true_eq]
    refine ⟨⟨?_, h1⟩, h2⟩
    rw [bytes_length]
    exact loading_formed
/-! ## Witnesses: answers and pre-emption -/

/-- A record of the group, 7, with the fault that it reports, or of engine operation 5. -/
def postedOf (o : RecordOwner) (ev : Option Event) (done : Bool) : Posted :=
  { words := Vector.replicate 8 0#64, owner := o, event := ev, answered := done, ask := none }

def ctxPosted (p : Posted) : Context := { ctx with records := [(7, p)], seq := 8, fbhead := 8 }

def awaited : Posted := postedOf (.group 1) (some (event 1)) false

/-- The group waits for the host's answer to record 7, a request of the port's among it. -/
def held : State := { with_ { grp with wait := .host } (ctxPosted awaited) with requests := [(4, ⟨0, 7, 0x10, true, true, true⟩)] }

theorem witness_Answers :
    (∀ k ∈ [0, 1, 2, 3], Spec.AnswerOffers (asked [17, 7, k] held) (words 17 7 k 0) k 0 7 ∧
      Spec.Awaits (asked [17, 7, k] held) 0 7 (ctxPosted awaited) awaited 1 { grp with wait := .host } (event 1) ∧
      look 4 (asked [17, 7, k] held).requests = some ⟨0, 7, 0x10, true, true, true⟩ ∧
      Spec.FrameAt (asked [17, 7, k] held) { grp with wait := .host } (ctxPosted awaited) 0x60000) ∧
    (grp.mode = .user ∧ grp.stack.length < 256 ∧ (ctxPosted awaited).hline ≠ 0 ∧ ({ ctxPosted awaited with hvec := 0#64 } : Context).hline = 0) := by
  refine ⟨fun k h => ⟨⟨?_, ?_⟩, ⟨rfl, rfl, ⟨rfl, rfl⟩, rfl, rfl, rfl, rfl, rfl⟩, rfl, ?_⟩, rfl, by decide, by decide +kernel, by decide +kernel⟩
  · simp only [List.mem_cons, List.not_mem_nil, or_false] at h
    obtain rfl | rfl | rfl | rfl := h <;> exact admin_of (by decide +kernel)
  · revert k; decide +kernel
  · simp only [List.mem_cons, List.not_mem_nil, or_false] at h
    obtain rfl | rfl | rfl | rfl := h <;> exact frameAt_of (by decide +kernel)

/-- The record of a damaged word at 0x10000, which is still damaged. -/
def stillBad : State :=
  { with_ { grp with wait := .host } (ctxPosted (postedOf (.group 1) (some { event 5 with info := 0x10000#64 }) false)) with
    bad := [(0x400, [0])] }

theorem witness_Answers_dataError : codeDATAERR = 5 ∧ stillBad.lost (foldAlias 0x10000) 8 = true ∧
    ∃ p, walk stillBad 0 0x10000 = .ok p ∧ p.fmt = .raw ∧ p.frame + (0x10000 - p.vbase) = 0x10000 := by
  obtain ⟨p, h1, h2⟩ := of_okThen (x := walk stillBad 0 0x10000) (p := fun p => p.fmt == .raw && p.frame + (0x10000 - p.vbase) == 0x10000)
    (by decide +kernel)
  simp only [Bool.and_eq_true, beq_iff_eq] at h2
  exact ⟨rfl, by decide +kernel, p, h1, h2⟩

/-- An operation held by record 7, which is its own. -/
def heldOp : State :=
  { with_ grp (ctxPosted (postedOf (.engine 5) none false)) with
    ops := [(5, { engineOp with held := some 7, source := .group 1 0 1 })] }

theorem witness_Answers_engine :
    (∀ k ∈ [0, 2], Spec.AnswerOffers (asked [17, 7, k] heldOp) (words 17 7 k 0) k 0 7 ∧
      (asked [17, 7, k] heldOp).ctx? 0 = some (ctxPosted (postedOf (.engine 5) none false)) ∧
      look 7 (ctxPosted (postedOf (.engine 5) none false)).records = some (postedOf (.engine 5) none false) ∧
      look 5 (asked [17, 7, k] heldOp).ops = some { engineOp with held := some 7, source := .group 1 0 1 }) ∧
    (∀ e ∈ Spec.answerTable,
      Spec.AnswerOffers (asked [17, 7, e.2 + 3 * 256] held) (words 17 7 (e.2 + 3 * 256) 0) e.2 3 7 ∧
      (asked [17, 7, e.2 + 3 * 256] held).ctx? 3 = none ∧
      Spec.AnswerOffers (asked [17, 7, e.2] (with_ grp (ctxPosted (postedOf (.group 1) none true)))) (words 17 7 e.2 0) e.2 0 7) := by
  refine ⟨fun k h => ⟨⟨?_, ?_⟩, rfl, rfl, rfl⟩, fun e h => ?_⟩
  · simp only [List.mem_cons, List.not_mem_nil, or_false] at h
    obtain rfl | rfl := h <;> exact admin_of (by decide +kernel)
  · revert k; decide +kernel
  · simp only [Spec.answerTable, List.mem_cons, List.not_mem_nil, or_false] at h
    obtain rfl | rfl | rfl | rfl := h <;>
      exact ⟨⟨admin_of (by decide +kernel), by decide +kernel⟩, rfl, ⟨admin_of (by decide +kernel), by decide +kernel⟩⟩

/-- The group out of its stint, on core 0, which its context may use. -/
def still : State := { with_ { grp with sched := { lane := some 0, inStint := false } } ctx with sets := [(0, {})] }

theorem witness_Preemption :
    (∀ k ∈ [0, 1], Spec.AdminOffers (asked [18, 0, k] world) 18 (words 18 0 k 0) ∧ saveReady (asked [18, 0, k] world) 0 = false ∧
      (∃ e ∈ (asked [18, 0, k] world).groups, e.2.asid = 0)) ∧
    (Spec.AdminOffers (asked [18, 5, 0] two) 18 (words 18 5 0 0) ∧ two.ctx? 5 = some ctx5 ∧
      (∀ e ∈ two.groups, e.2.asid ≠ 5) ∧ ∀ e ∈ two.sets, e.1 / 256 = 5 → e.2.items = [] ∧ e.2.formed = []) ∧
    (Spec.AdminOffers (asked [18, 0, 1] still) 18 (words 18 0 1 0) ∧ saveReady (asked [18, 0, 1] still) 0 = true ∧
      rising (still.sets.map (·.1)) = true ∧
      ∀ e ∈ (asked [18, 0, 1] still).groups, e.2.asid = 0 → e.2.core < 256 ∧ e.2.core ∈ ctxCores (asked [18, 0, 1] still) 0) ∧
    (ctx.stopped = none ∧ ctx.preempt = .none ∧ ctx.preemptCmds = []) := by
  refine ⟨fun k h => ?_, ⟨admin_of (by decide +kernel), rfl, by decide, by decide⟩,
    ⟨admin_of (by decide +kernel), by decide +kernel, by decide, by decide +kernel⟩, rfl, rfl, rfl⟩
  simp only [List.mem_cons, List.not_mem_nil, or_false] at h
  obtain rfl | rfl := h <;> exact ⟨admin_of (by decide +kernel), by decide +kernel, (1, grp), .head _, rfl⟩

/-- A hard pre-emption of context 0 at its deadline. -/
def dueNow (ops : NMap EngineOp) : State := { with_ grp { ctx with preempt := .hard 0 65536 } with now := 65536, ops := ops }

/-- A saved context with one unit, of core 1. -/
def savedUnit : SavedUnit := { core := 1, away := 256, blocks := [], set := {} }
def saved (us : List SavedUnit) : State := { with_ grp { ctx with preempt := .saved, units := us } with groups := [] }

theorem witness_Preemption_deadline :
    (∀ ops ∈ [[], [(5, engineOp)]],
      (dueNow ops).ctx? 0 = some { ctx with preempt := .hard 0 65536 } ∧ 0 + 65536 ≤ (dueNow ops).now ∧ saveReady (dueNow ops) 0 = false ∧
      (∀ e ∈ (dueNow ops).dies, e.2.trip = false) ∧ (∀ e ∈ (dueNow ops).cores, e.2.fenced = false) ∧
      (∀ e ∈ (dueNow ops).contexts, e.2.autoResume = false)) ∧
    (dueNow []).group? 1 = some grp ∧
    (∀ us ∈ [[], [savedUnit]], Spec.AdminOffers (asked [19, 0] (saved us)) 19 (words 19 0 0 0) ∧
      (saved us).ctx? 0 = some { ctx with preempt := .saved, units := us } ∧ (saved us).bad = []) ∧
    (savedUnit.core ∈ partCores ((asked [19, 0] (saved [savedUnit])).part ctx.part) ∧
      savedUnit.blocks = [] ∧ savedUnit.set.mq = [] ∧ received (asked [19, 0] (saved [savedUnit])) 0 1 = false) := by
  refine ⟨fun ops h => ?_, rfl, fun us h => ?_, by decide +kernel, rfl, rfl, by decide +kernel⟩
  · simp only [List.mem_cons, List.not_mem_nil, or_false] at h
    obtain rfl | rfl := h <;> exact ⟨rfl, by decide +kernel, by decide +kernel, by decide +kernel, by decide +kernel, by decide +kernel⟩
  · simp only [List.mem_cons, List.not_mem_nil, or_false] at h
    obtain rfl | rfl := h <;> exact ⟨admin_of (by decide +kernel), rfl, rfl⟩
/-! ## Witnesses: placement, lanes and parking -/

/-- The context with a park area of 255 units of 64 KiB. -/
def roomy : Context := { ctx with cfg := ctx.cfg.setIfInBounds 3 0x600FF#64 }

/-- An entry of 16 registers at line 0x10000. -/
def entryBytes : List Nat := [0, 0, 1, 0, 0, 0, 0, 0, 2]
def goodEntry : EntryRow := { nregs := 16, bench := 0, cbar := 0, qbar := 0, line := 0x10000 }

def unplaced : Grid := { grid with bound := true, nextBlock := 0 }

/-- A grid of front end 0 with a block to place, its entry in the table or not, the dies ready or not. -/
def placing (mem : Memory) (d : NMap Die) : State :=
  { with_ grp roomy with mem := mem ++ tables, dies := d, grids := [(1, unplaced)], feGrids := [(0, [1])] }

theorem mayPlace (m : Memory) (d : NMap Die) : Spec.MayPlace (placing m d) 1 unplaced roomy :=
  ⟨rfl, rfl, ⟨rfl, rfl, rfl, (by decide +kernel : part.tdis = 0)⟩, rfl, by decide, fun fe q k h => by
    injection h with h1 h2 h3
    subst h1 h2
    show (State.reset.queue 0 0).stat ≠ 2
    decide +kernel⟩

def entryAt : Memory := bytesAt 0x20030 entryBytes

theorem witness_BlocksArePlaced :
    (∀ m ∈ [[], entryAt], ∀ d ∈ [[], ready4], gridOrder (placing m d) 0 = [1] ∧
      ∀ e ∈ (placing m d).contexts, e.2.part = 0 → e.2.units = []) ∧
    (∀ m d, Spec.MayPlace (placing m d) 1 unplaced roomy) ∧
    readEntry (placing [] ready4) 0 roomy 3 = none ∧ readEntry (placing entryAt ready4) 0 roomy 3 = some goodEntry ∧
    readEntry (placing entryAt []) 0 roomy 3 = some goodEntry ∧ unplaced.gpb ≤ 512 ∧
    (∀ k, ¬Spec.CanTake (placing entryAt []) unplaced roomy goodEntry k) ∧
    (Spec.CanTake (placing entryAt ready4) unplaced roomy goodEntry 1 ∧
      ∀ j, Spec.CanTake (placing entryAt ready4) unplaced roomy goodEntry j → j ≠ 1 →
        freePlaces (placing entryAt ready4) j < freePlaces (placing entryAt ready4) 1 ∨
          freePlaces (placing entryAt ready4) j = freePlaces (placing entryAt ready4) 1 ∧ 1 < j) := by
  refine ⟨?_, mayPlace, by decide +kernel, by decide +kernel, by decide +kernel, by decide, fun k h => ?_,
    ⟨by decide +kernel, by decide +kernel, by decide +kernel⟩, fun j h hj => ?_⟩
  · decide +kernel
  · have h1 : coreAdmits (placing entryAt []) k 1 goodEntry = true := h.2.1
    have h0 : ((placing entryAt []).die (dieOf k)).boot = .rom := rfl
    simp [coreAdmits, coreServes, h0] at h1
  · have h1 : ∀ j ∈ partCores ((placing entryAt ready4).part 0), j ≠ 1 →
        freePlaces (placing entryAt ready4) j < freePlaces (placing entryAt ready4) 1 ∨
          freePlaces (placing entryAt ready4) j = freePlaces (placing entryAt ready4) 1 ∧ 1 < j := by decide +kernel
    exact h1 j h.1 hj

/-- Waiting items, and a packed group that waits for its place. -/
def packing (t : Nat) : State := { holding grp ctx { items := [item], timers := [(7, 256)] } with now := t }
def formed (d : NMap Die) : State :=
  { holding grp roomy { formed := [⟨[item]⟩] } with dies := d, mem := bytesAt 0x20070 entryBytes ++ tables }

theorem witness_PackedGroupsForm :
    (∀ t, look 7 ((packing t).set 0 0).timers = some 256 ∧
      (itemsFor ((packing t).set 0 0) 7 1).take 32 ≠ []) ∧
    ((packing 255).now < 256 ∧ 256 ≤ (packing 256).now) ∧
    ((formed ready4).ctx? 0 = some roomy ∧ roomy.preempt = .none ∧ ((formed ready4).set 0 0).formed = [⟨[item]⟩] ∧
      readEntry (formed ready4) 0 roomy item.entry = some goodEntry ∧ packedFits (formed ready4) 0 0 roomy goodEntry = true) ∧
    (readEntry (formed []) 0 roomy item.entry = some goodEntry ∧ packedFits (formed []) 0 0 roomy goodEntry = false) := by
  refine ⟨fun t => ⟨rfl, ?_⟩, by decide +kernel, ⟨rfl, rfl, rfl, by decide +kernel, by decide +kernel⟩, by decide +kernel,
    by decide +kernel⟩
  show (itemsFor ({ items := [item], timers := [(7, 256)] } : CoreSet) 7 1).take 32 ≠ []
  decide +kernel

/-- The group with its place in the arbiter, alone on its core. -/
def scheduled (c : Sched) (w : Wait) : Group := { grp with sched := c, wait := w }
def laned (c : Sched) (w : Wait) (t : Nat) : State := { with_ (scheduled c w) ctx with now := t }

theorem on_laned (c : Sched) (w : Wait) (t : Nat) : Spec.On (laned c w t) 0 1 (scheduled c w) := ⟨.head _, rfl⟩

theorem only_laned {c : Sched} {w : Wait} {t j : Nat} {k : Group} (h : Spec.On (laned c w t) 0 j k) : j = 1 ∧ k = scheduled c w :=
  Prod.mk.inj (List.mem_singleton.1 h.1)

theorem witness_LanesChoose :
    (∀ r ∈ [false, true], ∃ c : Sched, c = { lane := some 127, resumeStint := r } ∧ rising ((laned c .none 0).groups.map (·.1)) = true ∧
      Spec.On (laned c .none 0) 0 1 (scheduled c .none) ∧ Spec.Free (laned c .none 0) (scheduled c .none) ∧
      (∀ j k, Spec.On (laned c .none 0) 0 j k → k.sched.lane = some 127 → k.sched.inStint = false ∧ ¬(j ≠ 1))) ∧
    (∃ j k, Spec.On (laned { lane := some 127, inStint := true } .none 0) 0 j k ∧ k.sched.lane = some 127 ∧ k.sched.inStint = true) ∧
    (∃ c : Sched, c = { lane := some 127, inStint := true, stintWait := 960 } ∧ Spec.On (laned c .none 0) 0 1 (scheduled c .none) ∧
      ∀ j k, Spec.On (laned c .none 0) 0 j k → k.sched.lane = some 127 → k.sched.inStint = true → j = 1) := by
  refine ⟨fun r h => ⟨_, rfl, rfl, on_laned _ _ _, ⟨rfl, rfl, (by decide +kernel : ctxRuns (laned {} .none 0) 0 = true)⟩, fun j k h h1 => ?_⟩,
    ⟨1, _, on_laned _ _ _, rfl, rfl⟩, _, rfl, on_laned _ _ _, fun j k h _ _ => (only_laned h).1⟩
  obtain ⟨rfl, rfl⟩ := only_laned h
  exact ⟨rfl, fun h => h rfl⟩

/-- A resident group and a parked one, both of class 0. -/
def rotating : State :=
  { with_ grp ctx with
    now := 65536
    groups := [(1, scheduled { lane := some 0 } .none), (2, scheduled {} .none)] }

theorem only_rotating {j : Nat} {k : Group} (h : Spec.On rotating 0 j k) :
    (j = 1 ∧ k = scheduled { lane := some 0 } .none) ∨ (j = 2 ∧ k = scheduled {} .none) := by
  obtain h | h := List.mem_cons.1 h.1
  · exact .inl (Prod.mk.inj h)
  · exact .inr (Prod.mk.inj (List.mem_singleton.1 h))

def moving (m : ParkMove) : State := { rotating with cores := [(0, { move := some m })] }

theorem witness_ParkEngineMoves :
    (rising ((laned {} .none 0).groups.map (·.1)) = true ∧ ((laned {} .none 0).core 0).move = none ∧
      Spec.FirstParked (laned {} .none 0) 0 1 (scheduled {} .none) (fun _ => True) ∧
      ∀ l, l ≤ 0 → ((((laned {} .none 0).groups.filter fun e => e.2.core == 0 && e.2.sched.lane == some l).length < 4) ↔ l = 0)) ∧
    (∀ t ∈ [4095, 4096], ∃ c : Sched, c = { lane := some 3 } ∧ Spec.On (laned c .tlbinv t) 0 1 (scheduled c .tlbinv) ∧
      (scheduled c .tlbinv).wait ≠ .none ∧ ((scheduled c .tlbinv).sched.idleSince + 4096 ≤ (laned c .tlbinv t).now ↔ t = 4096)) ∧
    (Spec.FirstParked rotating 0 2 (scheduled {} .none)
        (fun h => h.sched.readySince + 2 ^ (rotating.part (groupPart rotating h)).lclog h.cls < rotating.now) ∧
      Spec.On rotating 0 1 (scheduled { lane := some 0 } .none) ∧
      (0 + 2 ^ (rotating.part (groupPart rotating (scheduled {} .none))).qlog ≤ rotating.now) ∧
      (∀ j h, Spec.On rotating 0 j h → h.sched.lane ≠ none → j ≠ 1 → False)) ∧
    (∃ m : ParkMove, m = ⟨0, some 1, some 2⟩ ∧ ((moving m).core 0).move = some m ∧ m.out ≠ m.into ∧
      (moving m).group? 1 = some (scheduled { lane := some 0 } .none) ∧ (moving m).group? 2 = some (scheduled {} .none)) := by
  refine ⟨⟨rfl, rfl, ⟨⟨on_laned _ _ _, rfl, rfl, rfl, by decide +kernel⟩, trivial, fun j k h _ hj => ?_⟩, fun l h => ?_⟩,
    fun t h => ⟨_, rfl, on_laned _ _ _, nofun, ?_⟩,
    ⟨⟨⟨⟨.tail _ (.head _), rfl⟩, rfl, rfl, rfl, by decide +kernel⟩, by decide +kernel, fun j k h _ hj => ?_⟩, ⟨.head _, rfl⟩,
      by decide +kernel, fun j h hh h1 hj => ?_⟩, _, rfl, rfl, nofun, rfl, rfl⟩
  · exact absurd (only_laned h.1).1 hj
  · obtain rfl : l = 0 := by omega
    decide +kernel
  · simp only [List.mem_cons, List.not_mem_nil, or_false] at h
    obtain rfl | rfl := h <;> decide
  · obtain ⟨rfl, rfl⟩ | ⟨rfl, rfl⟩ := only_rotating h.1
    · exact absurd h.2.1 nofun
    · exact absurd rfl hj
  · obtain ⟨rfl, rfl⟩ | ⟨rfl, rfl⟩ := only_rotating hh
    · exact hj rfl
    · exact h1 rfl
/-! ## Witnesses: waits, limits, registers from outside, reset and power -/

def waitGrp (t : Nat) : Group := { grp with wait := .word 0x400 3 t }

/-- The watched sector's count of writes. -/
def watching (t n : Nat) : State := { with_ (waitGrp t) ctx with watch := [(0x400, n)] }

def det (n : Nat) : Group := { grp with det := { grp.det with en := true, run := n, buffer := [] } }

def given : Contribution :=
  { gid := 1, grid := 1, key := ⟨0, 5, 0, 0, 0, []⟩, loc := .home 0x10000, own := ⟨0, 0⟩, op := 11, x := 0x3F800000#32,
    rnd := grp.laneRnd 0 0, core := 0, scope := 4, due := false, instr := 0x10010#57, va := 0x10000 }

/-- The pool with one contribution, its grid's group gone or not. -/
def pooled (gs : NMap Group) : State := { with_ grp ctx with pool := [given], groups := gs }

theorem pooled_ok (gs : NMap Group) (h : rising (gs.map (·.1)) = true) : (pooled gs).tablesOk :=
  tablesOk_of (s := pooled gs) (m := tables) rfl tables_wf block_bench h rfl rfl

/-- A sector of core 0's L1, filled and made dirty at time 0, its bytes clean or dirty. -/
def sector (d : Bool) : L1Sector := ⟨Vector.replicate 64 7#8, Vector.replicate 64 d, 0, 0, ⟨0, 0⟩⟩
def sectored (d : Bool) (t : Nat) : State := { world with cores := [(0, { l1 := [(0x400, sector d)] })], now := t }

theorem sectored_ok (d : Bool) (t : Nat) : (sectored d t).tablesOk :=
  ⟨tables_wf, fun b h m hm => (by rw [block_bench b h] at hm; cases hm), rfl, fun c h => (by obtain rfl := List.mem_singleton.1 h; rfl),
    ⟨rfl, nofun⟩, rfl⟩

theorem witness_WaitsAndLimitsEnd :
    (∀ n ∈ [3, 4], ∀ t ∈ [4096, 4097], (watching t n).group? 1 = some (waitGrp t) ∧ (waitGrp t).wait = .word 0x400 3 t ∧
      (look 0x400 (watching t n).watch ≠ some 3 ↔ n = 4) ∧
      (t ≤ ({ watching t n with now := 4096 } : State).now ↔ t = 4096)) ∧
    look (0x10000 / 64) (watching 0 3).watch = some 3 ∧
    (world.group? 1 = some grp ∧ ∀ m ∈ (setAt world grp.asid grp.core).mq, m.gid ≠ 1) ∧
    (∀ n ∈ [8191, 8192], (with_ (det n) ctx).group? 1 = some (det n) ∧ (with_ (det n) ctx).tablesOk ∧ (det n).det.en = true ∧
      (2 ^ (det n).det.qlog ≤ (det n).det.run ↔ n = 8192)) ∧
    (∀ gs ∈ [[], [(1, grp)]], (pooled gs).grids = [(1, grid)] ∧ (pooled gs).tablesOk ∧ given ∈ (pooled gs).pool ∧
      Spec.KeyedFor (pooled gs) 0 ⟨0, 0⟩ 0x10000 ∧ (pooled gs).bad = [] ∧ isDown (pooled gs) 0x10000 = false ∧
      (∀ d ∈ (pooled gs).pool, d.grid = 1 → d ≠ given → False) ∧ (∀ e ∈ (pooled gs).groups, e.2.det.atom = []) ∧
      (smallerMayCome (pooled gs) given = false ↔ gs = [])) ∧
    (∀ d ∈ [false, true], (sectored d 0).tablesOk ∧ look 0x400 ((sectored d 0).core 0).l1 = some (sector d) ∧
      (sectored d 0).foreign ⟨0, 0⟩ 0x400 = false ∧ ∀ i, i < 64 → (sector d).dirty[i]? = some d) ∧
    rising ((world.die 0).rdc.map (·.1)) = true ∧
    ∀ d ∈ [false, true], (look 0x400 ((sectored d 32767).expire.core 0).l1 = some (sector d) ∧
      look 0x400 ((sectored d 32768).expire.core 0).l1 ≠ some (sector d)) := by
  refine ⟨fun n h t ht => ⟨rfl, rfl, ?_, ?_⟩, rfl, ⟨rfl, by decide +kernel⟩, fun n h => ⟨rfl, with_tablesOk _ _, rfl, ?_⟩,
    fun gs h => ⟨rfl, pooled_ok gs ?_, List.mem_singleton.2 rfl, keyedFor rfl, rfl, rfl, fun d hd _ hn => hn (List.mem_singleton.1 hd), ?_, ?_⟩,
    fun d h => ⟨sectored_ok d 0, rfl, rfl, ?_⟩, by decide, ?_⟩
  · show some n ≠ some 3 ↔ n = 4
    simp only [List.mem_cons, List.not_mem_nil, or_false] at h
    rw [ne_eq, Option.some.injEq]; omega
  · show t ≤ 4096 ↔ _
    simp only [List.mem_cons, List.not_mem_nil, or_false] at ht
    omega
  · show 2 ^ 13 ≤ n ↔ _
    simp only [List.mem_cons, List.not_mem_nil, or_false] at h
    omega
  · revert gs; decide +kernel
  · simp only [List.mem_cons, List.not_mem_nil, or_false] at h
    obtain rfl | rfl := h <;> decide +kernel
  · simp only [List.mem_cons, List.not_mem_nil, or_false] at h
    obtain rfl | rfl := h
    · decide +kernel
    · exact iff_of_false (by decide +kernel) nofun
  · revert d; decide +kernel
  · decide +kernel

/-- Core 255 with SIZE = 1 and a change of SIZE that waits, or none; a block of group 1 holds all of its bench there, or none. -/
def sized (p : Option Nat) (n : Nat) : State :=
  { world with
    cores := [(255, { bench := 1, pend := p })]
    blocks := [(1, { block with benchSize := 256 * n, bench := [(255, [])], benchAt := [(255, 2 ^ n - 1)] })] }

theorem sized_ok (p : Option Nat) (n : Nat) : (sized p n).tablesOk :=
  ⟨tables_wf, fun b h m hm => (by
    obtain rfl := List.mem_singleton.1 h
    obtain rfl := List.mem_singleton.1 hm
    rfl), rfl, fun c h => (by obtain rfl := List.mem_singleton.1 h; rfl), ⟨rfl, nofun⟩, rfl⟩

/-- SIZE = 0 leaves nothing of a bench of 512 units, and all of an empty one. -/
theorem sized_past (p : Option Nat) (n : Nat) (h : n = 0 ∨ n = 512) : Spec.PastBench (sized p n) 255 0 ↔ n = 512 := by
  constructor
  · rintro ⟨e, he, m, hm, i, -, hi⟩
    obtain rfl := List.mem_singleton.1 he
    obtain rfl | rfl := h
    · obtain rfl : m = 0 := by simpa [look] using hm.symm
      simp at hi
    · rfl
  · rintro rfl
    exact ⟨_, .head _, _, rfl, 0, Nat.zero_le _, by decide +kernel⟩

theorem witness_RegisterWrites :
    (world.ctx? 0 = some ctx ∧ 0 ≤ ctx.fbhead ∧ ctx.waiting = [] ∧ ctx.fbhead < 1) ∧
    (∀ p ∈ [none, some 2], ∀ n ∈ [0, 512], (sized p n).tablesOk ∧ ((sized p n).core 255).pend = p ∧ ((sized p n).core 255).bench = 1 ∧
      (Spec.PastBench (sized p n) 255 0 ↔ n = 512)) ∧
    (moduleUp (stateOf 4) = true ∧ ((stateOf 4).queue 0 7).tail ≤ 16 ∧
      16 ≤ ((stateOf 4).queue 0 7).prog + 2 ^ (((stateOf 4).queue 0 7).ctl.toNat % 32) ∧ ((stateOf 4).queue 0 7).en = false ∧
      moduleUp world = false) ∧
    (ctxIdle world 0 = false ∧ 1 ≠ ctx.cfg[1].toNat / 4096 % 2 ^ 40) ∧
    (∀ v ∈ [600, 2400], 600 ≤ v % 2 ^ 12 ∧ v % 2 ^ 12 ≤ 2400) ∧ ((stateOf 4).die 3).boot = .ready := by
  refine ⟨⟨rfl, Nat.zero_le _, rfl, by decide⟩, fun p h n h' => ⟨sized_ok p n, rfl, rfl, sized_past p n ?_⟩, by decide +kernel,
    by decide +kernel, by decide, rfl⟩
  simpa using h'

/-- A sector dirty in L2 whose DRAM bytes are not those of memory, of a context's pages or not. -/
def stored (c : NMap Context) : State := { world with l2 := [(0x402, ⟨List.replicate 64 7#8, [5], 0, ⟨0, 0⟩⟩)], contexts := c }

theorem stored_ok (c : NMap Context) : (stored c).tablesOk :=
  ⟨tables_wf, fun b h m hm => (by rw [block_bench b h] at hm; cases hm), rfl, nofun,
    ⟨rfl, fun _ h => by obtain rfl := List.mem_singleton.1 h; rfl⟩, rfl⟩

/-- Its line pinned. -/
def storedPinned : State := { stored [] with parts := [(0, { part with pins := [0x100] })] }

/-- Partition 5 with its trusted interface locked or running, which holds the key slot 0. -/
def keyed (v : Nat) : State :=
  { world with parts := [(5, { Partition.init with cfg := Partition.init.cfg.setIfInBounds 1 (BitVec.ofNat 64 (v * 2 ^ 60)), made := true })] }

/-- No context, partition 0 with a COLOUR. -/
def coloured (c : Nat) : State := { empty0 with parts := [(0, { part with cfg := part.cfg.setIfInBounds 2 (BitVec.ofNat 64 c) })] }

theorem witness_PartitionsAndKeys :
    (world.tablesOk ∧ (∀ e ∈ world.parts, e.2.tdis = 0) ∧
      ∀ v ∈ [1, 2, 3], (keyed v).parts = [(5, (keyed v).part 5)] ∧
        ((keyed v).part 5).kbase ≤ 0 ∧ 0 ≤ ((keyed v).part 5).klimit ∧ ((keyed v).part 5).tdis = v) ∧
    (List.range 64).filter (fun i => (world.part 0).colour.testBit i) ≠ [] ∧
    (∀ a ∈ [0x10000, hostBase - 1], a < hostBase ∧ look (a / 64) world.l2 = none ∧
      world.sliceShort (homeDie a) (world.slotOf ⟨0, 0⟩ a) 1 = false ∧ world.foreign ⟨0, 0⟩ (a / 64) = false) ∧
    (∀ s ∈ [stored [], storedPinned], s.tablesOk ∧ (∃ x, look 0x402 s.l2 = some x) ∧ (s.isPinned (0x402 * 64) = true ↔ s = storedPinned)) ∧
    (∀ e ∈ [(2 ^ 64 - 1, 1), (1, 3)],
      Spec.AdminOffers (asked (setPart 0x822 e.2) (coloured e.1)) 20 (words 20 (0x822 * 65536) e.2 0) ∧
      ((asked (setPart 0x822 e.2) (coloured e.1)).part 0).tdis = 0 ∧ (asked (setPart 0x822 e.2) (coloured e.1)).contexts = [] ∧
      ((asked (setPart 0x822 e.2) (coloured e.1)).part 0).cfg[2] ≠ BitVec.ofNat 64 e.2 ∧
      (∀ x ∈ (asked (setPart 0x822 e.2) (coloured e.1)).parts, x.1 ≠ 0 → False) ∧
      (asked (setPart 0x822 e.2) (coloured e.1)).tablesOk ∧
      (((asked (setPart 0x822 e.2) (coloured e.1)).part 0).cfg[2] &&& ~~~(BitVec.ofNat 64 e.2) = 0#64 ↔ e.2 = 3)) := by
  refine ⟨⟨world_tablesOk, by decide +kernel, by decide +kernel⟩, by decide +kernel, by decide +kernel, fun s h => ?_, fun e h => ?_⟩
  · simp only [List.mem_cons, List.not_mem_nil, or_false] at h
    obtain rfl | rfl := h
    · exact ⟨stored_ok [], ⟨_, rfl⟩, by decide +kernel⟩
    · exact ⟨⟨tables_wf, (stored_ok []).2, rfl, nofun, ⟨rfl, by decide⟩, rfl⟩, ⟨_, rfl⟩, iff_of_true (by decide +kernel) rfl⟩
  · simp only [List.mem_cons, List.not_mem_nil, or_false] at h
    obtain rfl | rfl := h <;>
      exact ⟨admin_of (by decide +kernel), by decide +kernel, rfl, by decide +kernel, by decide +kernel,
        tablesOk_of (m := tables ++ bytesAt (hostBase + 0x903C0) (wordsBytes _)) rfl (by decide +kernel) block_bench rfl rfl rfl,
        by decide +kernel⟩

/-- Context 0 with work on die 0; no context at all. -/
theorem witness_DiesReset :
    (world.ctx? 0 = some ctx ∧ ctx.stopped = none ∧ ∃ e ∈ world.groups, e.2.asid = 0 ∧ dieOf e.2.core = 0) ∧
    ((∀ e ∈ world.contexts, hasWork world e.1 3 = false) ∧ (world.mgmt 3 10).toNat % 2 = 0) :=
  ⟨⟨rfl, rfl, (1, grp), .head _, rfl, rfl⟩, by decide +kernel, by decide +kernel⟩

/-- Die 3 in a state of its controller, with an image, or one staged. -/
def die3 (b : Boot) (x y : Option Image) : State := { world with dies := [(3, { boot := b, image := x, staged := y })] }

/-- Of an image whose signatures are good and whose version is high enough: what `Config` leaves open. -/
theorem witness_PowerAndFirmware (x : Image) :
    (({ world with contexts := [] } : State).contexts = [] ∧ world.contexts = [(0, ctx)] ∧ ctx.stopped = none ∧ ctx.preempt = .none ∧
      saveReady world 0 = false) ∧
    (((die3 .held none none).die 3).boot = .held ∧ ((die3 .ready none none).die 3).boot ≠ .held) ∧
    (((die3 .loaded (some x) none).die 3).image = some x ∧ ((die3 .loaded (some x) none).die 3).boot = .loaded) ∧
    (((die3 .ready (some x) (some x)).die 3).staged = some x ∧ ((die3 .ready none (some x)).queue 64 0).begun = [] ∧
      ((die3 .ready (some x) (some x)).die 3).image = some x ∧ x.svn ≤ x.svn ∧ ((die3 .ready none none).die 3).staged = none) ∧
    (imageAccepted 3 ⟨[], 0⟩ = false ∧ ((die3 .ready (some ⟨[], 1⟩) (some ⟨[], 0⟩)).die 3).image = some ⟨[], 1⟩) :=
  ⟨⟨rfl, rfl, rfl, rfl, by decide +kernel⟩, ⟨rfl, by decide⟩, ⟨rfl, rfl⟩, ⟨rfl, rfl, rfl, Nat.le_refl _, rfl⟩, rfl, rfl⟩
/-! ## Witnesses: errors, the host and the pod -/

/-- Die 3 with mirroring on and one record. -/
def mirrored (on : Nat) : State :=
  { world with dies := [(3, { mgmt := [(10, BitVec.ofNat 64 (0x7000 + on))], ring := [⟨9, 6, 3, 1, 2⟩], logged := 1 })] }

theorem witness_ErrorsAndRepairs :
    (world.contexts = [(0, ctx)] ∧ empty0.contexts = [] ∧ ctx.stopped = none ∧ ctx.autoResume = false ∧ ctx.preempt = .none ∧
      onCore world 0 0 = true ∧ holdsCore world 0 0 = true ∧ hasWork world 0 0 = true ∧ saveReady world 0 = false ∧ (world.core 0).absent = false ∧
      (∀ e ∈ world.cores, e.2.fenced = false)) ∧
    ((({ world with cores := [(0, { fenced := true })] } : State).core 0).fenced = true ∧
      (({ world with cores := [(0, { absent := true })] } : State).core 0).absent = true) ∧
    (∀ v ∈ [1, 2], look 5 (keyed v).parts ≠ none ∧ 0 ∈ partCores ((keyed v).part 5) ∧ ((keyed v).part 5).tdis = v) ∧
    ((∀ e ∈ (stored []).l2, e.1 / 4 ≠ 0x101) ∧ (∃ e ∈ (stored []).l2, e.1 / 4 = 0x100) ∧ look 0x402 (stored []).l2 ≠ none ∧
      ((stored []).mgmt (homeDie (0x100 * 256)) 10).toNat % 2 = 0 ∧ mapsSector (stored [(0, ctx)]).awake ctx 0x402 = true) ∧
    ((stored []).tablesOk ∧ ∀ n, (mirrored n).tablesOk) ∧
    (((mirrored 0).mgmt 3 10).toNat % 2 = 0 ∧ ((mirrored 1).mgmt 3 10).toNat % 2 = 1 ∧
      ((mirrored 1).die 3).ring = [⟨9, 6, 3, 1, 2⟩] ∧ 0 < ((mirrored 1).die 3).logged) := by
  refine ⟨⟨rfl, rfl, rfl, rfl, rfl, by decide +kernel, by decide +kernel, by decide +kernel, by decide +kernel, by decide +kernel,
      by decide +kernel⟩,
    ⟨rfl, rfl⟩, by decide +kernel, ⟨by decide +kernel, by decide +kernel, by decide +kernel, by decide +kernel, by decide +kernel⟩,
    ⟨stored_ok [], fun n => tablesOk_of (s := mirrored n) (m := tables) rfl tables_wf block_bench rfl rfl rfl⟩,
    by decide +kernel, by decide +kernel, rfl, by decide⟩

/-- Partition 63 with its trusted interface in a state. -/
def trusted (v : Nat) : State :=
  { world with parts := [(63, { Partition.init with cfg := Partition.init.cfg.setIfInBounds 1 (BitVec.ofNat 64 (v * 2 ^ 60)) })] }

/-- The context bound to pod job 3, and a part of a gather, or of a scatter, of its element 7. -/
def jobCtx : Context := { ctx with job := 3 }
def remoteOf (vs : Option (List (List Byte))) : RemotePart :=
  { tag := 1, die := 0, job := 3, esize := 8, base := 0x10000, limit := 64, elems := [7], values := vs, firsts := [], rm := 0#3, seed := 0#64,
    lidx := 0, count := 0 }

def jobReach (acc : Access) : Bool :=
  okThen (engineTranslate (with_ grp jobCtx) 0 .user acc 0x10038) fun p =>
    p.fmt == .raw && decide (8 ≤ p.reach 0x10038) && okThen (p.rawPlace (with_ grp jobCtx) 0 acc 0x10038) fun a => a == 0x10038

theorem jobReach_of {acc : Access} (h : jobReach acc = true) :
    ∃ p, engineTranslate (with_ grp jobCtx) 0 .user acc 0x10038 = .ok p ∧ p.fmt = .raw ∧ 8 ≤ p.reach 0x10038 ∧
      p.rawPlace (with_ grp jobCtx) 0 acc 0x10038 = .ok 0x10038 := by
  obtain ⟨p, h1, h2⟩ := of_okThen h
  simp only [Bool.and_eq_true, beq_iff_eq, decide_eq_true_eq] at h2
  obtain ⟨a, h3, h4⟩ := of_okThen h2.2
  exact ⟨p, h1, h2.1.1, h2.1.2, by rw [h3, show a = 0x10038 from by simpa using h4]⟩

/-- A pod barrier of two groups at which none, or one of this module, has arrived. -/
def podBar (gids : List Nat) : WideBarrier :=
  { scope := 5, place := 3, number := 7, grid := 1, bar := { gen := 0, arrived := gids }, remote := [] }
def barred (gids : List Nat) : State :=
  { world with wide := [podBar gids], grids := [(1, { grid with bars := [{ scope := 5, number := 7, count := 2 }] })] }

/-- An invalidation that waits for operation 5, which runs or is over. -/
def invalidating (ops : NMap EngineOp) : State := { with_ grp ctx with ops := ops, invals := [⟨9, 7, [5], []⟩] }

theorem witness_HostAndPod_invalidations :
    ((with_ grp ctx).invals = [] ∧ (∀ e ∈ (with_ grp ctx).ops, False) ∧
      ∃ o, (5, o) ∈ (running engineOp tables).ops ∧ (running engineOp tables).invals = [] ∧
        ∃ c, (running engineOp tables).ctx? o.asid = some c ∧ c.pasid = ctx.pasid) ∧
    ((∀ k ∈ [5], look k (invalidating []).ops = none) ∧ ∃ k ∈ [5], look k (invalidating [(5, engineOp)]).ops ≠ none) ∧
    moduleUp (stateOf 4) = true ∧ world.tablesOk :=
  ⟨⟨rfl, fun _ h => List.not_mem_nil h, engineOp, .head _, rfl, ctx, rfl, rfl⟩, ⟨by decide, 5, .head _, by decide +kernel⟩, by decide +kernel, world_tablesOk⟩

theorem witness_HostAndPod :
    (firmwareRuns (stateOf 4) = true ∧ (stateOf 4).contexts = [(0, ctx)]) ∧
    (∀ v ∈ [0, 1, 2, 3], ((trusted v).part 63).tdis = v) ∧
    (world.ctx? 0 = some ctx ∧ ctx.part = 0 ∧ ({ world with parts := [(0, ((trusted 2).part 63))] } : State).contexts = world.contexts ∧
      (({ world with parts := [(0, ((trusted 2).part 63))] } : State).part 0).tdis = 2) ∧
    ((∀ e ∈ world.contexts, e.2.job ≠ 3) ∧ (with_ grp jobCtx).contexts = [(0, jobCtx)] ∧ jobCtx.stopped = none ∧
      (with_ grp jobCtx).tablesOk ∧ 7 * 8 + 8 ≤ (remoteOf none).limit ∧ ({ remoteOf none with limit := 63 } : RemotePart).limit < 7 * 8 + 8 ∧ (with_ grp jobCtx).bad = [] ∧ homeDie 0x10038 = 0 ∧
      ∃ p, engineTranslate (with_ grp jobCtx) 0 .user .read (0x10000 + 7 * 8) = .ok p ∧ p.fmt = .raw ∧ 8 ≤ p.reach (0x10000 + 7 * 8) ∧
        p.rawPlace (with_ grp jobCtx) 0 .read (0x10000 + 7 * 8) = .ok 0x10038) ∧
    ((remoteOf (some [List.replicate 8 1#8])).values = some [List.replicate 8 1#8] ∧
      ∃ p, engineTranslate (with_ grp jobCtx) 0 .user .write (0x10000 + 7 * 8) = .ok p ∧ p.fmt = .raw ∧ 8 ≤ p.reach (0x10000 + 7 * 8) ∧
        p.rawPlace (with_ grp jobCtx) 0 .write (0x10000 + 7 * 8) = .ok 0x10038) ∧
    ((∀ w ∈ world.wide, ¬(w.scope = 5 ∧ w.place = 3 ∧ w.number = 7)) ∧
      (barred []).wide = [podBar []] ∧ (podBar []).bar.arrived.length + (podBar []).remote.length + 1 < barCount (barred []) (.pod 3 7)) := by
  have hr := jobReach_of (acc := .read) (by decide +kernel)
  have hw := jobReach_of (acc := .write) (by decide +kernel)
  refine ⟨⟨rfl, rfl⟩, by decide +kernel, ⟨rfl, rfl, rfl, ?_⟩, ⟨?_, rfl, rfl, with_tablesOk _ _, ?_, ?_, rfl, ?_, hr⟩, ⟨rfl, hw⟩, ?_, rfl, ?_⟩
  · decide +kernel
  · decide +kernel
  · decide +kernel
  · decide +kernel
  · decide +kernel
  · decide +kernel
  · decide +kernel

/-! ## Witnesses: decoding and the step -/

theorem witness_DecodeEncode :
    encode (.add ⟨false, 2#3, 2#6, 1#6, 3#6, true⟩) = some (leBytes 4 0x20810C03) ∧
      notZeroMove (.add ⟨false, 2#3, 2#6, 1#6, 3#6, true⟩) = true ∧ encode (.add_16 ⟨9#6, 5#5⟩) = some (leBytes 2 0x24A2) := by
  decide +kernel

/-- At 0x10000 an entry line that begins with a word no instruction has. -/
def badCode : Memory :=
  bytesAt 0x10000 ([0xFD] ++ List.replicate 6 0xFF ++ [1, 0, 0, 0, 0, 0, 0, 2, 0, 0xF1, 3]) ++ tables

/-- The first lane of core 0 has its turn. -/
def atLane (g : Group) (m : Memory) : State := { world with agenda := [.issue 0 0], mem := m, groups := [(1, g)] }

/-- The fetch of the group's line succeeds, and its bytes are as is asked. -/
def fetches (g : Group) (m : Memory) (ask : State → List Byte → Bool) : Bool :=
  okThen (translate { atLane g m with agenda := [], cur := 1 } 0 0 g.mode .fetch (g.pc.toNat / 128 * 128)) fun r =>
    r.1.fmt == .raw && r.2.bad == [] && okThen (r.1.rawPlace r.2 0 .fetch (g.pc.toNat / 128 * 128)) fun pa =>
      lineSound (r.2.homeBytesAt r.1.own pa 128) && headerKind (lineHeader (r.2.homeBytesAt r.1.own pa 128)) == 2 &&
        slotMarked (r.2.homeBytesAt r.1.own pa 128) g.pc.toNat && ask r.2 (r.2.homeBytesAt r.1.own pa 128)

theorem upkeep_atLane (g : Group) (m : Memory) : upkeep (atLane g m) = atLane g m := rfl

theorem issues_of {g : Group} {m : Memory} {ask : State → List Byte → Bool} (h : fetches g m ask = true) (hc : g.core = 0)
    (ha : g.asid = 0) (hl : g.sched.lane = some 0) (hi : g.sched.inStint = true) (hp : g.pending = none) (he : g.sched.endDue = false) :
    ∃ s1 line, Spec.Issues (upkeep (atLane g m)) 1 g [] s1 line ∧ ask s1 line = true := by
  rw [upkeep_atLane]
  obtain ⟨⟨p, s1⟩, h1, h2⟩ := of_okThen h
  simp only [Bool.and_eq_true, beq_iff_eq] at h2
  obtain ⟨pa, h3, h4⟩ := of_okThen h2.2
  simp only [Bool.and_eq_true, beq_iff_eq] at h4
  refine ⟨s1, s1.homeBytesAt p.own pa 128, ⟨⟨0, ?_, hl, ?_⟩, ⟨.head _, hi, hp, he⟩, ⟨p, pa, ?_, h2.1.1, ?_, rfl⟩, h2.1.2, h4.1.1.1,
    fun _ => ⟨h4.1.1.2, h4.1.2⟩⟩, h4.2⟩
  · rw [hc]; rfl
  · exact fun j k h _ _ _ => List.mem_singleton.1 h
  · rw [hc, ha]; exact h1
  · rw [ha]; exact h3

def isNop : Except Reject (Instr × Nat) → Bool
  | .ok (.nop_16, 2) => true
  | _ => false

def isBad : Except Reject (Instr × Nat) → Bool
  | .error .unassigned => true
  | _ => false

theorem of_isNop {x : Except Reject (Instr × Nat)} (h : isNop x = true) : x = .ok (.nop_16, 2) := by
  unfold isNop at h; split at h <;> first | rfl | cases h

theorem of_isBad {x : Except Reject (Instr × Nat)} (h : isBad x = true) : x = .error .unassigned := by
  unfold isBad at h; split at h <;> first | rfl | cases h

/-- The bytes at the pc decode to a `nop`, which an interlock holds or does not; or to none. -/
theorem witness_StepRunsInstruction :
    (∀ b ∈ [false, true], ∃ s1 line, Spec.Issues (upkeep (atLane { grp with scribe := b, fresh := true } code)) 1 { grp with scribe := b, fresh := true } []
      s1 line ∧ decode (line.drop 16) = .ok (.nop_16, 2) ∧ interlocked s1 { grp with scribe := b, fresh := true } .nop_16 = b) ∧
    (∃ s1 line, Spec.Issues (upkeep (atLane grp badCode)) 1 grp [] s1 line ∧ decode (line.drop 16) = .error .unassigned) ∧
    isEvent .coldReset = true := by
  refine ⟨fun b h => ?_, ?_, rfl⟩
  · obtain ⟨s1, line, h1, h2⟩ := issues_of (g := { grp with scribe := b, fresh := true }) (m := code)
      (ask := fun s1 line => isNop (decode (line.drop 16)) && interlocked s1 { grp with scribe := b, fresh := true } .nop_16 == b)
      (by revert b; decide +kernel) rfl rfl rfl rfl rfl rfl
    simp only [Bool.and_eq_true, beq_iff_eq] at h2
    exact ⟨s1, line, h1, of_isNop h2.1, h2.2⟩
  · obtain ⟨s1, line, h1, h2⟩ := issues_of (g := grp) (m := badCode)
      (ask := fun _ line => isBad (decode (line.drop 16))) (by decide +kernel) rfl rfl rfl rfl rfl rfl
    exact ⟨s1, line, h1, of_isBad h2⟩

/-- A state whose tables are sound, and a step of it. -/
theorem witness_StepKeepsTables :
    ({ world with agenda := [.tick 1] } : State).tablesOk ∧ ∃ t, step { world with agenda := [.tick 1] } = .next t :=
  ⟨tablesOk_of (m := tables) rfl tables_wf block_bench rfl rfl rfl, _, rfl⟩
/-! ## Witnesses: further clauses of the statements -/

theorem witness_IllopOrder_recorded :
    world.grp = some grp ∧ (Instr.park ⟨false⟩).size ≠ 0 ∧ (Instr.bar ⟨false, 6#3, 0#5, false⟩).size ≠ 0 ∧
    (∀ t, t < 32 → (grp.thread t).b0.valid = true ∧ (grp.thread t).b1.valid = true) ∧
    Spec.stateChecked (.park ⟨false⟩) = false ∧ illopCause (.park ⟨false⟩) grp [] false false = some 5 ∧
    Spec.stateChecked (.xpand ⟨0#4, 0#2, 61#6, 61#6, false⟩) = true ∧ illopCause (.xpand ⟨0#4, 0#2, 61#6, 61#6, false⟩) grp [] false false = some 3 := by
  decide +kernel

/-- The handler of a group that has lost threads 0 to 2, and one that the Speter sends back elsewhere. -/
def lessened : Group := { inHandler with lmask := 8#32 }
def astray : Group := { inHandler with frameEpc := 0x10092#57 }

/-- A frame that is read, what it says, and the line it resumes in. -/
def resumes (s : State) (g : Group) (sound marked : Bool) : Bool :=
  okThen (readVirtual s 0 0 .handler .read (frameAddr ctx g) 1024) fun r =>
    frameOk g r.1 == sound && Spec.numberAt (fun i => r.1.getD i 0#8) 0x40 8 == 0x10090 &&
      okThen (enterLine r.2.2 0 0 .user 0x10090) fun q => slotMarked q.1 0x10090 == marked

theorem witness_ReturnFromHandler_double :
    Spec.Ready (.rte ⟨true⟩) (framed lessened) lessened grp.active ∧ resumes (framed lessened) lessened false true = true ∧
    BitVec.ofNat 32 15 &&& ~~~lessened.lmask ≠ 0#32 ∧
    Spec.Ready (.rte ⟨true⟩) (framedOn 2 astray) astray grp.active ∧ resumes (framedOn 2 astray) astray true false = true ∧
    BitVec.ofNat 57 0x10090 ≠ astray.frameEpc :=
  ⟨ready rfl (by decide +kernel), by decide +kernel, by decide, ready rfl (by decide +kernel), by decide +kernel, by decide⟩

/-- A range of one raw page whose walk, checks and pins are as asked. -/
def onePage (s : State) (g : Group) (op : Nat) : Bool :=
  let w := g.win 7
  cacheCheck w op 0 4096 == none &&
    okThen (translate s g.core g.asid g.mode (if op = 2 then .write else .read) (w.va 0)) fun q => q.1.fmt == .raw &&
      q.1.frame % 4096 == 0 && decide (q.1.frame + q.1.span ≤ 0x20000000000) && decide (w.va 0 + 4096 ≤ q.1.vbase + q.1.span) &&
      decide (q.1.vbase ≤ w.va 0) && q.1.frame == 0x10000 && q.1.vbase == 0x10000

/-- The partition with its pins all but 16, or all but 15, taken. -/
def pinned (n : Nat) : State :=
  { onCode (pinner 0 4096) with parts := [(0, { part with pins := (List.range n).map (4096 + ·) })] }

theorem witness_CacheControl_page :
    ∀ n ∈ [1008, 1009], (∀ o ∈ [1#4, 2#4, 3#4, 4#4],
      Spec.Ready (.cache ⟨o, 1#5, 0#5, 7#3, true⟩) (pinned n) (pinner 0 4096) grp.active ∧
      onePage (pinned n) (pinner 0 4096) o.toNat = true) ∧ (pinned n).tablesOk ∧
      (((pinned n).part 0).pins.length + 16 ≤ ((pinned n).part 0).pinq ↔ n = 1008) ∧
      (∀ l ∈ (List.range 16).map (256 + ·), ((pinned n).part 0).pins.contains l = false ∧ isDown (pinned n) (256 * l) = false) ∧
      0x10000 / 256 = 256 ∧ (0x10000 + 4095) / 256 + 1 - 256 = 16 := by
  intro n hn
  refine ⟨fun o ho => ⟨ready rfl ?_, ?_⟩, tablesOk_of (m := code) rfl code_wf block_bench rfl rfl rfl, ?_, ?_, rfl, rfl⟩
  · revert o; decide +kernel
  · revert n o; decide +kernel
  · revert n; decide +kernel
  · revert n; decide +kernel

/-- The last barrier of a scope. -/
def lastBar (sc : Nat) : Nat := [0, 0, 0, 15, 7, 3].getD sc 0

/-- A die, package or pod barrier of two groups on which these have arrived, or one of another module. -/
def bigBar (sc : Nat) (gids : List Nat) (remote : Nat) : WideBarrier :=
  { scope := sc, place := 0, number := lastBar sc, grid := 1, bar := { gen := 6, arrived := gids }, remote := List.replicate remote 5 }
def bigWorld (sc count : Nat) (gids : List Nat) (remote : Nat) (h : Group) : State :=
  { pairOf block2 grp h with wide := [bigBar sc gids remote], grids := [(1, { grid with bars := [{ scope := sc, number := lastBar sc, count := count }] })] }

/-- The barrier by its scope. -/
def bigRef (sc : Nat) : BarRef := if sc = 3 then .die 0 15 else if sc = 4 then .pkg 7 else .pod 0 3

theorem witness_BarriersComplete_wide :
    ∀ sc ∈ [3#3, 4#3, 5#3], ∀ x ∈ [true, false], ∀ e ∈ [([], 2, 0), ([2], 2, 0), ([1], 2, 0), ([], 3, 1), ([2], 3, if sc = 5#3 then 1 else 0)],
      let s := bigWorld sc.toNat e.2.1 e.1 e.2.2 { grp with wait := if e.1 = [2] then .bar (bigRef sc.toNat) 6 else .none }
      Spec.Ready (.bar ⟨x, sc, BitVec.ofNat 5 (lastBar sc.toNat), true⟩) s grp grp.active ∧ s.grid? grp.grid = some { grid with bars := [{ scope := sc.toNat, number := lastBar sc.toNat, count := e.2.1 }] } ∧
      (bigBar sc.toNat e.1 e.2.2).is (bigRef sc.toNat) = true ∧ s.wide = [bigBar sc.toNat e.1 e.2.2] ∧ grp.packed = false ∧
      grp.det.en = false ∧ s.tablesOk ∧ (∀ k ∈ s.groups, k.2.wait ≠ .barArrive (bigRef sc.toNat) 6) ∧
      dieOf grp.core = 0 ∧ ((s.ctx? grp.asid).map (·.job)).getD 0 = 0 := by
  intro sc hs x hx e he
  refine ⟨ready rfl ?_, rfl, ?_, rfl, rfl, rfl, tablesOk_of (m := tables) rfl tables_wf (by simp [bigWorld, pairOf, block2, block]) rfl rfl rfl, ?_, by decide, ?_⟩
  · clear he; revert sc x; decide +kernel
  · revert sc e; decide +kernel
  · revert sc e; decide +kernel
  · revert sc e; decide +kernel

/-- The last element of a `gather` and of a `scatter` of 64 bytes: to or from 0x10800, the list at 0x10000 names element 0 here. -/
def gatherOp : EngineOp := { engineOp with kind := .gather, idx := some win, dstOff := 0x800, len := 1, esize := 64 }
def scatterOp : EngineOp := { gatherOp with kind := .scatter, dstOff := 0, srcOff := 0x800 }

/-- The page and its place that an operation's last element reaches. -/
def lands (s : State) (o : EngineOp) (va n pa : Nat) : Bool :=
  okThen (engineTranslate s o.asid o.mode .write va) fun p => p.fmt == .raw && decide (n ≤ p.reach va) &&
    okThen (p.rawPlace s o.asid .write va) fun a => a == pa

theorem lands_of {s : State} {o : EngineOp} {va n pa : Nat} (h : lands s o va n pa = true) : ∃ p, Spec.Lands s o va n p pa := by
  obtain ⟨p, h1, h2⟩ := of_okThen h
  simp only [Bool.and_eq_true, beq_iff_eq, decide_eq_true_eq] at h2
  obtain ⟨a, h3, h4⟩ := of_okThen h2.2
  exact ⟨p, h1, h2.1.1, h2.1.2, by rw [h3, show a = pa from by simpa using h4]⟩

/-- An operation's entry, and what of the source it then reads. -/
def reads (s : State) (o : EngineOp) (x va : Nat) : Bool :=
  okThen (engineRead s o.asid o.die o.mode 3 0x10000 8) fun r => r.1 == toBytes 8 x &&
    okThen (engineTranslate r.2 o.asid o.mode .read va) fun q => q.fmt == .raw &&
      okThen (engineRead r.2 o.asid o.die o.mode 17 va o.esize) fun b => b.1.length == o.esize

theorem witness_EngineOperationsRun_elements :
    (∃ s2 p, Spec.LastElement (running gatherOp tables) s2 5 gatherOp .gather win 0 ∧ reads (running gatherOp tables) gatherOp 0 0x10000 = true ∧
      Spec.Lands (running gatherOp tables) gatherOp 0x10800 64 p 0x10800) ∧
    (∃ s2 p, Spec.LastElement (running scatterOp tables) s2 5 scatterOp .scatter win 0 ∧
      reads (running scatterOp tables) scatterOp 0 0x10800 = true ∧ Spec.Lands (running scatterOp tables) scatterOp 0x10000 64 p 0x10000) ∧
    podPos (running gatherOp tables) = 0 ∧ gatherOp.source = .group 1 0 63 ∧ 64 ≤ win.limit.toNat := by
  have hl (o : EngineOp) (k : OpKind) (ho : (o.kind, o.idx, o.held, o.done, o.len) = (k, some win, none, 0, 1))
      (h : okThen (engineRead (running o tables) o.asid o.die o.mode 3 (0x10000 + o.idxOff) 8) (fun r => r.1 == toBytes 8 0) = true) :
      ∃ s2, Spec.LastElement (running o tables) s2 5 o k win 0 := by
    simp only [Prod.mk.injEq] at ho
    obtain ⟨⟨bs, s2⟩, h1, h2⟩ := of_okThen h
    refine ⟨s2, rfl, rfl, running_tablesOk _, ho.1, ho.2.1, ho.2.2.1, by rw [ho.2.2.2.1, ho.2.2.2.2], ?_, by decide⟩
    rw [ho.2.2.2.1, show win.base.toNat = 0x10000 from rfl, Nat.mul_zero, Nat.add_zero, h1, show bs = toBytes 8 0 from by simpa using h2]
  obtain ⟨s2, h⟩ := hl gatherOp .gather rfl (by decide +kernel)
  obtain ⟨s3, k⟩ := hl scatterOp .scatter rfl (by decide +kernel)
  obtain ⟨p, hp⟩ := lands_of (s := running gatherOp tables) (o := gatherOp) (va := 0x10800) (n := 64) (pa := 0x10800) (by decide +kernel)
  obtain ⟨q, hq⟩ := lands_of (s := running scatterOp tables) (o := scatterOp) (va := 0x10000) (n := 64) (pa := 0x10000) (by decide +kernel)
  exact ⟨⟨s2, p, h, by decide +kernel, hp⟩, ⟨s3, q, k, by decide +kernel, hq⟩, by decide +kernel, rfl, by decide⟩

/-- The same element of module 1 of a pod of two, answered. -/
def farOp : EngineOp := { gatherOp with esize := 4 }
def farState : State :=
  { with_ grp { ctx with job := 3 } with
    ops := [(5, farOp)]
    mem := bytesAt 0x10006 [1] ++ tables
    dies := [(0, { mgmt := [(11, 0x10000#64)] })]
    replies := [(replyKey 5 0, (0, List.replicate 4 7#8))] }

theorem witness_EngineOperationsRun_remote :
    (∃ s2 p, Spec.LastElement farState s2 5 farOp .gather win (2 ^ 48) ∧ Spec.Lands farState farOp 0x10800 4 p 0x10800) ∧
    2 ^ 48 / 2 ^ 48 ≠ podPos farState ∧ 2 ^ 48 / 2 ^ 48 < podSize farState ∧
    (∃ c, farState.ctx? 0 = some c ∧ c.job ≠ 0) ∧ look (replyKey 5 0) farState.replies = some (0, List.replicate 4 7#8) := by
  obtain ⟨⟨bs, s2⟩, h1, h2⟩ := of_okThen (x := engineRead farState 0 0 .user 3 0x10000 8) (p := fun r => r.1 == toBytes 8 (2 ^ 48))
    (by decide +kernel)
  obtain ⟨p, hp⟩ := lands_of (s := farState) (o := farOp) (va := 0x10800) (n := 4) (pa := 0x10800) (by decide +kernel)
  have hb : bs = toBytes 8 (2 ^ 48) := by simpa using h2
  exact ⟨⟨s2, p, ⟨rfl, rfl, tablesOk_of (m := farState.mem) rfl (by decide +kernel) block_bench rfl rfl rfl, rfl, rfl, rfl, rfl, by rw [← hb]; exact h1,
    by decide⟩, hp⟩, by decide +kernel, by decide +kernel, ⟨_, rfl, by decide⟩, by decide +kernel⟩

/-- A copy of the last block of 64 bytes into a grain page, from a raw page and from the same page. -/
def blockOp : EngineOp := { engineOp with dst := { win with base := 0x40000000#57 } }
def sameOp : EngineOp := { blockOp with src := { win with base := 0x40000000#57 } }

/-- What such a copy needs of its pages. -/
def blockLands (o : EngineOp) (same : Bool) : Bool :=
  let s := running o grainTables
  okThen (engineTranslate s 0 .user .write (Spec.dstVa o)) fun p =>
    okThen (engineTranslate s 0 .user .read (Spec.srcVa o)) fun q =>
      p.fmt != .raw && !isHost p.frame && !q.hostGrain && !p.blockDown s ((Spec.dstVa o - p.vbase) / 64) &&
        decide (Spec.blockBytes p ((Spec.dstVa o - p.vbase) / 64)).Nodup &&
        if same then q.fmt == p.fmt && !q.blockDown s ((Spec.srcVa o - q.vbase) / 64) && !(Place.mk q (Spec.srcVa o - q.vbase) q.frame).damaged s 64
        else q.fmt != p.fmt && okThen (engineRead s 0 0 .user 17 (Spec.srcVa o) 64) fun _ => true

theorem witness_EngineOperationsRun_blocks :
    (Spec.Copies (running blockOp grainTables) 5 blockOp ∧ blockLands blockOp false = true) ∧
    (Spec.Copies (running sameOp grainTables) 5 sameOp ∧ blockLands sameOp true = true) ∧
    (∀ o ∈ [blockOp, sameOp], o.len - o.done = 64 ∧ Spec.dstVa o % 64 = 0 ∧ Spec.srcVa o % 64 = 0 ∧ o.source = .group 1 0 63) ∧
    ∀ o, (running o grainTables).tablesOk :=
  ⟨⟨copies _ _ (by decide +kernel), by decide +kernel⟩, ⟨copies _ _ (by decide +kernel), by decide +kernel⟩, by decide +kernel,
    fun _ => tablesOk_of (m := grainTables) rfl (by decide +kernel) block_bench rfl rfl rfl⟩

theorem witness_CountersCount_others :
    ∀ e ∈ [(64, true), (65, false)], let h : Group := { grpAt 64 with wait := .counter 63 e.1 }
      (({ counting {} with groups := [(1, grpAt 64), (2, h)] } : State).group? 2 = some h) ∧
      Spec.Ready (.carm ⟨31#5, 63#6, true⟩) ({ counting {} with groups := [(1, grpAt 64), (2, h)] } : State) (grpAt 64) grp.active ∧
      (((grpAt 64).sreg 31 - BitVec.ofNat 64 e.1).toNat < 2 ^ 63 ↔ e.2 = true) :=
  fun e he => ⟨rfl, ready rfl (by decide +kernel), by revert e; decide +kernel⟩

/-- With no copy in L1 or the RDC nothing is settled before a step. -/
theorem stepFetch_bare {s : State} {core asid : Nat} {m : MatInstr} (h1 : (s.core core).l1 = []) (hd : s.dies = []) :
    Spec.stepFetch s core asid m = ⟨s, asid, core, m.seen⟩ := by
  have h (ks : List (Nat × Bool × Owner)) : ks.foldl (fun s k =>
      if k.2.1 then (if (s.group? m.gid).any (·.pkgSeen) then s.cleanSector core k.1 else s)
      else dropRdcLine (s.dropSector core k.1) (core / 64) k.2.2 (64 * k.1)) s = s := by
    induction ks with
    | nil => rfl
    | cons k ks ih =>
      have e1 : s.dropSector core k.1 = s := by simp [State.dropSector, h1, look]
      have e2 : s.cleanSector core k.1 = s := by simp [State.cleanSector, h1, look]
      have e3 (d : Nat) (o : Owner) (a : Nat) : dropRdcLine s d o a = s := by simp [dropRdcLine, State.rdcLine, State.die, hd, look]
      rw [List.foldl_cons, e1, e2, e3, ite_self, ite_self, ih]
  exact congrArg (Fetch.mk · asid core m.seen) (h _)

theorem stepAt_bare (m : MatInstr) : stepAt m = ⟨queueOf m, 0, 0, m.seen⟩ := stepFetch_bare rfl rfl

/-- Records at their last step: the two forms of `mma`, `mlut`, `msp`, and drains to memory, raw and block by block. -/
def benchRef : MemRef := { va := 0, pages := [], bench := some (1, 0) }
def mmaAt (n : Bool) : MatInstr :=
  { record (.mma ⟨15#4, 0#2, 3#2, n, 0#3, 31#5, 1#3, true⟩) 3 [if n then benchRef else refOf .raw] with
    staged := List.replicate 32 (List.replicate 32 0x3C003C00#32) }
def mlutAt : MatInstr := record (.mlut ⟨0#2, true, false, 30#5, 2#3, 0#3, 15#4, true⟩) 3 [refOf .raw, refOf .g5]
def mspAt : MatInstr :=
  { record (.msp ⟨3#3, 0#2, 30#5, 0#3, 0#3, 15#4, true⟩) 3 [refOf .raw, refOf .raw] with staged := List.replicate 64 (List.replicate 8 0#32) }
def drainMemAt (y : Nat) (fmt : PageFmt) (step : Nat) : MatInstr :=
  record (.mdrainMem ⟨0#3, true, true, BitVec.ofNat 3 y, 29#5, 0#3, false, 15#4, true⟩) step [refOf fmt, refOf .raw]

theorem witness_matrix_steps :
    (∀ n ∈ [true, false], Spec.Head (queueOf (mmaAt n)) 0 0 (mmaAt n) [behind] ∧ (mmaAt n).fault = none ∧ 3 < 4 ∧
      ∃ cols, fetchBlocks (stepAt (mmaAt n)) (.half fp16) (if n then benchRef else refOf .raw) ((List.range 32).map fun i => i * 4 + 3) = .ok cols) ∧
    (Spec.Head (queueOf mlutAt) 0 0 mlutAt [behind] ∧ mlutAt.step < shapeK 0#2 / 16 ∧
      (∃ rows, fetchBlocks (stepAt mlutAt) (.weights false) (refOf .raw) ((List.range 64).map fun i => i * 4 + 3) = .ok rows) ∧
      ∃ cols, fetchBlocks (stepAt mlutAt) .grain (refOf .g5) ((List.range 64).map fun i => i * 4 + 3) = .ok cols) ∧
    Spec.Head (queueOf mspAt) 0 0 mspAt [behind] ∧ mspAt.step < shapeK 0#2 / 16 ∧
    (∃ rows, sparseBlocks (stepAt mspAt) 3 3 (refOf .raw) mspAt.staged = .ok rows) ∧
    ∃ cols, fetchBlocks (stepAt mspAt) (typeKind 3) (refOf .raw) ((List.range 64).map fun i => i * 4 + 3) = .ok cols := by
  refine ⟨fun n hn => ⟨head_queueOf _ (by revert n; decide), by revert n; decide, by decide, of_ok ?_⟩, ⟨head_queueOf _ rfl, by decide, of_ok ?_, of_ok ?_⟩,
    head_queueOf _ rfl, by decide, of_ok ?_, of_ok ?_⟩ <;> rw [stepAt_bare]
  · revert n; decide +kernel
  · decide +kernel
  · decide +kernel
  · decide +kernel
  · decide +kernel

theorem queueOf_tablesOk (m : MatInstr) : (queueOf m).tablesOk :=
  ⟨rfl, fun b h m hm => (by rw [block_bench b h] at hm; cases hm), rfl, by simp [queueOf, rising], ⟨rfl, nofun⟩, rfl⟩

theorem refOf_page (fmt : PageFmt) (off : Nat) (h : off < 0x100000) : (refOf fmt).page (0x10000 + off) = some { page with fmt := fmt, span := 0x100000 } := by
  have h1 : decide (0x10000 ≤ 0x10000 + off) = true := decide_eq_true (Nat.le_add_right _ _)
  have h2 : decide (0x10000 + off < 0x10000 + 0x100000) = true := decide_eq_true (Nat.add_lt_add_left h _)
  simp only [MemRef.page, refOf, page, List.find?_cons, h1, h2, Bool.and_self]

/-- The 128 blocks of a step of a drain lie apart. -/
theorem blockBytes_apart : ((List.range 128).flatMap fun u => Spec.blockBytes { page with fmt := .g8, span := 0x100000 } (896 + u)).Nodup := by
  have hf (a : Nat) (h : a < 0x20000000000) : foldAlias a = a := by
    simp only [foldAlias, Bool.and_eq_true, decide_eq_true_eq]
    exact if_neg (by omega)
  have hb (u a : Nat) (h : u < 128) (ha : a ∈ Spec.blockBytes { page with fmt := .g8, span := 0x100000 } (896 + u)) :
      (0x13800 + 16 * u ≤ a ∧ a < 0x13810 + 16 * u) ∨ a = 0x50700 + 2 * u ∨ a = 0x50701 + 2 * u := by
    simp only [Spec.blockBytes, Page.blockAddr, Page.sideAddr, page, PageFmt.blockBytes, List.mem_append, List.mem_map, List.mem_range,
      List.mem_cons, List.not_mem_nil, or_false] at ha
    rcases ha with ⟨i, hi, rfl⟩ | rfl | rfl <;> rw [hf _ (by omega)] <;> omega
  refine List.pairwise_flatMap.mpr ⟨fun u hu => ?_, List.pairwise_lt_range.imp_of_mem fun hu hv h a ha b hb' => ?_⟩
  · rw [List.mem_range] at hu
    have : ∀ u ∈ List.range 128, (Spec.blockBytes { page with fmt := .g8, span := 0x100000 } (896 + u)).Nodup := by decide +kernel
    exact this u (List.mem_range.mpr hu)
  · have h1 := hb _ a (List.mem_range.mp hu) ha
    have h2 := hb _ b (List.mem_range.mp hv) hb'
    have hu := List.mem_range.mp hu
    have hv := List.mem_range.mp hv
    omega

/-- A place in those pages, with nothing in memory but what has a home of its own. -/
theorem queueOf_place (m : MatInstr) (acc : Access) (va : Nat) (h1 : 0x10000 ≤ va) (h : va < 0x110000) :
    ({ page with fmt := .raw, span := 0x100000 } : Page).rawPlace (queueOf m) 0 acc va = .ok va := by
  have hb : hostBase = 0x8000000000000 := rfl
  have e : 0x10000 + (va - 0x10000) = va := by omega
  have hh : isHost va = false := decide_eq_false (by omega)
  have hf : foldAlias va = va := by
    simp only [foldAlias, Bool.and_eq_true, decide_eq_true_eq]
    exact if_neg (by omega)
  have hd : isDown (queueOf m) va = false := by
    simp only [isDown, Bool.and_eq_false_imp]
    exact fun _ => rfl
  simp only [Page.rawPlace, page, e, hh, hf, hd]
  rfl

theorem witness_mdrain_steps :
    (∀ y ∈ [0, 1], let m := drainMemAt y .raw 7
      let size := 4 / (y + 1)
      Spec.Head (queueOf m) 0 0 m [behind] ∧ (queueOf m).tablesOk ∧ m.fault = none ∧ 16 * 7 < 128 ∧
      (∃ bias, biasRow (stepAt m) (refOf .raw) (List.range 128) = .ok bias) ∧
      ∀ o, o < 16 * 128 * size → (refOf .raw).page (0x10000 + 16 * 128 * 7 * size + o) = some { page with fmt := .raw, span := 0x100000 } ∧
        ({ page with fmt := .raw, span := 0x100000 } : Page).rawPlace (queueOf m) 0 .write (0x10000 + 16 * 128 * 7 * size + o) =
          .ok (0x10000 + 16 * 128 * 7 * size + o)) ∧
    let m := drainMemAt 3 .g8 7
    Spec.Head (queueOf m) 0 0 m [behind] ∧ (∃ bias, biasRow (stepAt m) (refOf .raw) (List.range 128) = .ok bias) ∧
    ∀ u, u < 128 → (refOf .g8).page (0x10000 + (4 * (16 * 128 * 7) + 64 * u)) = some { page with fmt := .g8, span := 0x100000 } ∧
      (0x10000 + (4 * (16 * 128 * 7) + 64 * u) - page.vbase) / 64 = 896 + u ∧
      ({ page with fmt := .g8, span := 0x100000 } : Page).blockDown (queueOf m) (896 + u) = false := by
  refine ⟨fun y hy => ⟨head_queueOf _ rfl, queueOf_tablesOk _, rfl, by decide, of_ok ?_, fun o ho => ?_⟩, head_queueOf _ rfl, of_ok ?_,
    fun u hu => ⟨refOf_page .g8 (4 * (16 * 128 * 7) + 64 * u) (by omega), ?_, ?_⟩⟩
  · rw [stepAt_bare]; revert y; decide +kernel
  · have : y = 0 ∨ y = 1 := by simpa using hy
    have : o < 8192 := by rcases this with rfl | rfl <;> omega
    rcases ‹y = 0 ∨ y = 1› with rfl | rfl
    · exact ⟨by rw [Nat.add_assoc]; exact refOf_page .raw (16 * 128 * 7 * (4 / (0 + 1)) + o) (by omega), queueOf_place _ _ _ (by omega) (by omega)⟩
    · exact ⟨by rw [Nat.add_assoc]; exact refOf_page .raw (16 * 128 * 7 * (4 / (1 + 1)) + o) (by omega), queueOf_place _ _ _ (by omega) (by omega)⟩
  · rw [stepAt_bare]; decide +kernel
  · have : page.vbase = 0x10000 := rfl
    omega
  · simp only [Page.blockDown, isDown, Bool.or_eq_false_iff, Bool.and_eq_false_imp]
    exact ⟨⟨fun _ => rfl, fun _ => rfl⟩, fun _ => rfl⟩

/-- A drain to memory whose steps are done, with its greatest magnitude to enter, at once or as a contribution. -/
def peakAt (det : Bool) : MatInstr :=
  { record (.mdrainMem ⟨4#3, true, true, 0#3, 29#5, 0#3, false, 15#4, true⟩) 8 [refOf .raw, refOf .raw, refOf .raw] with
    det := if det then some (1, keyOf grp 0 0) else none }

theorem witness_mdrain_peak : ∀ d ∈ [false, true],
    Spec.Head (queueOf (peakAt d)) 0 0 (peakAt d) [behind] ∧ matSteps (peakAt d).instr ≤ (peakAt d).step ∧ (queueOf (peakAt d)).tablesOk ∧
    (queueOf (peakAt d)).grid? (peakAt d).grid = some grid ∧ grid.live ≠ 0 ∧
    (refOf .raw).place (queueOf (peakAt d)) 0 0x10000 = .ok ({ page with fmt := .raw, span := 0x100000 }, 0x10000) ∧
    (∀ key a, Spec.KeyedFor (queueOf (peakAt d)) 0 key a) ∧ isDown (queueOf (peakAt d)) 0x10000 = false ∧ (queueOf (peakAt d)).bad = [] := by
  intro d hd
  refine ⟨head_queueOf _ rfl, by revert d; decide +kernel, queueOf_tablesOk _, rfl, by decide, ?_, ?_, rfl, rfl⟩
  · have h := queueOf_place (peakAt d) .read 0x10000 (by decide) (by decide)
    simp only [MemRef.place, refOf_page .raw 0 (by decide), h]
    rfl
  · exact fun key a => ⟨nofun, rfl, nofun⟩

/-- The group whose stint ends as its scribe's work does. -/
def scribed (due : Bool) : Group := { grp with scribe := true, sched := { grp.sched with endDue := due } }

theorem witness_PathsAreBinned_push :
    (∀ bs ∈ [[], [none], [some ⟨0, 0, 0, 0⟩]],
      Spec.Ready (.pend ⟨true⟩) (with_ (binning (some (openPath 1)) bs) ctx) (binning (some (openPath 1)) bs) grp.active ∧
      binDown (with_ (binning (some (openPath 1)) bs) ctx) 0 ctx.binUsed = false ∧
      binAnswers (with_ (binning (some (openPath 1)) bs) ctx) 0 ctx.binUsed = true ∧
      (binWindow ctx.gw ctx.gh bs = if bs = [none] then none else some ⟨0, 0, 0, 0⟩)) ∧
    (∀ r ∈ [0, 2], binDown (with_ (binning (some (openPath r)) []) ctx) 0 ctx.binUsed = false) ∧
    (∀ k ∈ [0, 1, 2], binDown (with_ (binning (some (openPath 0)) []) ctx) 0 (ctx.binUsed - (openPath 0).charge + binned k) = false) ∧
    (∀ e ∈ [true, false], (with_ (scribed e) ctx).group? 1 = some (scribed e) ∧ (scribed e).sched.endDue = e) ∧
    binDown (with_ grp ctx) 0 1 = false := by
  refine ⟨fun bs h => ⟨ready rfl ?_, ?_, ?_, ?_⟩, by decide +kernel, by decide +kernel, fun e h => ⟨rfl, rfl⟩, by decide +kernel⟩ <;>
    revert bs <;> decide +kernel

/-- A thermal trip is pending, or the partition's interface is in error. -/
def tripped (s : State) : State := { s with dies := [(0, { boot := .ready, trip := true })] }
def inError : Partition := { part with cfg := part.cfg.setIfInBounds 1 (BitVec.ofNat 64 (3 * 2 ^ 60 + 0x1000000000)) }

theorem witness_AdminCommands_held :
    (firmwareRuns (tripped (asked [16, 7] world)) = true ∧ Spec.Offers (tripped (asked [16, 7] world)) 64 0 (words 16 7 0 0)) ∧
    (∀ ws ∈ [ctxWrite 0x811 0x103000, [16, 5 + 8192]], Spec.AdminOffers (asked ws { two with parts := [(0, inError)] }) 16
      (words (ws.getD 0 0) (ws.getD 1 0) (ws.getD 2 0) 0)) ∧
    Spec.AdminOffers (asked (setPart 0x820 1) { two with parts := [(0, inError)] }) 20 (words 20 (0x820 * 65536) 1 0) ∧
    inError.tdis = 3 := by
  refine ⟨⟨by decide +kernel, offers_of (by decide +kernel)⟩, fun ws h => ?_, admin_of (by decide +kernel), by decide +kernel⟩
  simp only [List.mem_cons, List.not_mem_nil, or_false] at h
  obtain rfl | rfl := h <;> exact admin_of (by decide +kernel)

/-- CONTEXT of action 1 on a context. -/
def ctxWriteOf (a n v : Nat) : List Nat := [16, a + 4096 + n * 65536, v]

/-- Context 0 is busy: a changed M-only field and an unchanged one; context 5 is not: a name that is its own, free, taken, and beyond. -/
theorem witness_AdminCommands_fields :
    (∀ e ∈ [(0, 0x811, 0x104000), (0, 0x811, 0x103000), (5, 0x811, 0x104000), (5, 0x810, 5), (5, 0x810, 7), (5, 0x810, 0), (5, 0x810, 8),
        (5, 0x816, 15 * 2 ^ 32), (5, 0x881, 0x103F8), (5, 0x882, 0x40008), (5, 0x883, 1)],
      Spec.AdminOffers (asked (ctxWriteOf e.1 e.2.1 e.2.2) two) 16 (words 16 (e.1 + 4096 + e.2.1 * 65536) e.2.2 0)) ∧
    Spec.Busy two 0 ∧ ¬Spec.Busy two 5 ∧ (two.part 0).tdis ≠ 3 ∧
    (∃ f ∈ Spec.mOnly 1, Spec.fieldAfter 1 (ctx.cfg[1]).toNat 0x104000 f ≠ Spec.bitsAt (ctx.cfg[1]).toNat f) ∧
    (¬∃ f ∈ Spec.mOnly 1, Spec.fieldAfter 1 (ctx.cfg[1]).toNat 0x103000 f ≠ Spec.bitsAt (ctx.cfg[1]).toNat f) ∧
    ((two.part ctx5.part).abase, (two.part ctx5.part).alimit) = (0, 7) ∧ (two.ctx? 7, two.ctx? 0) = (none, some ctx) := by
  refine ⟨fun e h => ?_, .inl ⟨(1, grp), .head _, rfl, by decide⟩, ?_, by decide +kernel, by decide +kernel, by decide +kernel, by decide +kernel, rfl⟩
  · simp only [List.mem_cons, List.not_mem_nil, or_false] at h
    obtain rfl | rfl | rfl | rfl | rfl | rfl | rfl | rfl | rfl | rfl | rfl := h <;> exact admin_of (by decide +kernel)
  · rintro (⟨e, he, h, -⟩ | ⟨e, he, -⟩ | ⟨e, he, -⟩)
    · obtain rfl := List.mem_singleton.mp he
      exact absurd h (by decide)
    · cases he
    · cases he

/-- Partition 1 beside partition 0: cores and contexts above its, keys from 32 on, the upper slices, its interface in a state. -/
def beside (tdis : Nat) : State :=
  { empty0 with
    parts := [(0, part), (1, { part with cfg := #v[0xF00080704#64, BitVec.ofNat 64 (tdis * 2 ^ 60 + 2 * 2 ^ 40 + 63 * 65536 + 32), 0xFFFFFFFF00000000#64, 0#64, 0#64, 0#64] })] }

theorem witness_AdminCommands_partitions :
    (∀ e ∈ [(0x820, 0x700000300 + 4 * 256), (0x821, 32 * 65536 + 32), (0x821, 255 * 2 ^ 40), (0x822, 0), (0x822, 0xFFFFFFFF00000000)],
      ∀ t ∈ [0, 1, 2], Spec.AdminOffers (asked (setPart e.1 e.2) (beside t)) 20 (words 20 (e.1 * 65536) e.2 0)) ∧
    (∀ e ∈ [(0x820, 0x800000300), (0x821, 1), (0x822, 1), (0x823, 0x101000), (0x825, 0)],
      Spec.AdminOffers (asked (setPart e.1 e.2) world) 20 (words 20 (e.1 * 65536) e.2 0) ∧
      Spec.AdminOffers (asked (setPart e.1 e.2) empty0) 20 (words 20 (e.1 * 65536) e.2 0)) ∧
    Spec.PartBusy world 0 ∧ ((∀ e ∈ empty0.parts, e.1 = 0) ∧ ∀ e ∈ empty0.contexts, e.2.part ≠ 0) ∧ empty0.tablesOk ∧
    let q := (beside 1).part 1
    q.made = true ∧ (q.cbase, q.climit, q.abase, q.alimit) = (4, 7, 8, 15) ∧ (q.kbase, q.klimit, q.tdis) = (32, 63, 1) ∧
    Spec.Overlap 0 7 q.cbase q.climit ∧ Spec.Overlap 32 32 q.kbase q.klimit ∧ 256 < 255 + q.bww ∧ q.colour.testBit 63 = true := by
  refine ⟨fun e h t ht => ?_, fun e h => ⟨?_, ?_⟩, ⟨(0, ctx), .head _, rfl, .inl ⟨(1, grp), .head _, rfl, by decide⟩⟩, ⟨by decide, nofun⟩,
    tablesOk_of rfl tables_wf block_bench rfl rfl rfl, by decide +kernel, by decide +kernel, by decide +kernel, ?_, ?_, by decide +kernel, by decide +kernel⟩
  · apply admin_of (ws := setPart e.1 e.2)
    revert e t; decide +kernel
  · apply admin_of (ws := setPart e.1 e.2)
    revert e; decide +kernel
  · apply admin_of (ws := setPart e.1 e.2)
    revert e; decide +kernel
  · exact ⟨by decide +kernel, by decide +kernel⟩
  · exact ⟨by decide +kernel, by decide +kernel⟩

/-- The tables with the second gibibyte on die 1, and the state with that die down. -/
def farTables : Memory :=
  bytesAt 0x100000 [0x01, 0x10, 0x10] ++ bytesAt 0x101000 [0x01, 0x20, 0x10] ++ bytesAt 0x102000 [0x1F, 0, 0, 0, 0, 0, 0, 0, 0x1F, 0, 0, 0, 0x80] ++
    bytesAt 0x103000 [0x01, 0x40, 0x10] ++ bytesAt 0x104000 [0x01, 0x50, 0x10] ++ bytesAt 0x105000 [0x1F, 0, 0, 0, 0, 0, 0, 0, 0x1F, 0, 0, 0x40]
def fallen (s : State) : State := { s with dies := [(0, { boot := .ready }), (1, { boot := .loaded, down := true })] }
def farCtx : Context := { ctx with cfg := ctx.cfg.setIfInBounds 3 0x40000001#64, preempt := .saved }

theorem witness_Preemption_resume :
    (∀ d ∈ [({ trip := true } : Die), { boot := .held }],
      Spec.AdminOffers { asked [19, 0] (saved []) with dies := [(0, { boot := .ready }), (1, d)] } 19 (words 19 0 0 0)) ∧
    (∀ us ∈ [[], [savedUnit]], parkDown (asked [19, 0] (saved us)) 0 = false ∧
      ∀ e ∈ (asked [19, 0] (saved us)).dies, e.2.trip = false ∧ e.2.boot ≠ .held) ∧
    Spec.AdminOffers (fallen (asked [19, 0] { world with mem := farTables, contexts := [(0, farCtx)] })) 19 (words 19 0 0 0) ∧
    parkDown (fallen (asked [19, 0] { world with mem := farTables, contexts := [(0, farCtx)] })) 0 = true ∧ savedUnit.set.xwait = [] := by
  have h (s : State) (h1 : firmwareRuns s = true) (h2 : offers s 64 0 (words 19 0 0 0) = true) (hb : (s.queue 64 0).begun = []) : Spec.AdminOffers s 19 (words 19 0 0 0) :=
    ⟨h1, offers_of h2, by decide, hb⟩
  refine ⟨fun d hd => h _ ?_ ?_ rfl, by decide +kernel, h _ (by decide +kernel) (by decide +kernel) rfl, by decide +kernel, rfl⟩ <;>
    revert d <;> decide +kernel

/-- The entry table and the park area on the die that is down. -/
def farRoomy : Context := { roomy with cfg := roomy.cfg.setIfInBounds 2 0x40000008#64 }
def placingFar : State := fallen { placing [] [] with mem := farTables, contexts := [(0, farRoomy)] }
def movingFar : State := fallen { moving ⟨0, some 1, some 2⟩ with mem := farTables, contexts := [(0, { farCtx with preempt := .none })] }

theorem witness_HomesDown :
    (∀ m ∈ [[], entryAt], ∀ d ∈ [[], ready4], entryDown (placing m d) 0 roomy 3 = false) ∧
    (∀ d ∈ [[], ready4], entryDown (formed d) 0 roomy item.entry = false) ∧
    (Spec.MayPlace placingFar 1 unplaced farRoomy ∧ gridOrder placingFar 0 = [1] ∧ entryDown placingFar 0 farRoomy 3 = true) ∧
    moveDown (moving ⟨0, some 1, some 2⟩) ⟨0, some 1, some 2⟩ = false ∧
    ((movingFar.core 0).move = some ⟨0, some 1, some 2⟩ ∧ moveDown movingFar ⟨0, some 1, some 2⟩ = true) ∧
    (∀ d ∈ [false, true], isDown (sectored d 0) (0x400 * 64) = false) ∧
    isDown { pooled [] with dies := [(0, { down := true })] } 0x10000 = true := by
  refine ⟨by decide +kernel, by decide +kernel, ⟨⟨rfl, rfl, ⟨rfl, rfl, rfl, (by decide +kernel : part.tdis = 0)⟩, rfl, by decide, fun fe q k h => ?_⟩,
    by decide +kernel, by decide +kernel⟩, by decide +kernel, ⟨rfl, by decide +kernel⟩, by decide +kernel, by decide +kernel⟩
  injection h with h1 h2 h3
  subst h1 h2
  show (State.reset.queue 0 0).stat ≠ 2
  decide +kernel

/-- Two partitions that hold key slot 0, the second with its interface in a state. -/
def keyedTwice (v : Nat) : State := { keyed v with parts := [(4, Partition.init), (5, (keyed v).part 5)] }

/-- The sector dirty in L2, found uncorrectable. -/
def storedBad : State := { stored [] with bad := [(0x402, [0])] }

theorem witness_KeysAndRegisters :
    (∀ v ∈ [1, 2, 3], (keyedTwice v).parts = [(4, Partition.init), (5, (keyed v).part 5)] ∧ Partition.init.tdis = 0 ∧
      ((keyed v).part 5).kbase ≤ 0 ∧ 0 ≤ ((keyed v).part 5).klimit ∧ ((keyed v).part 5).tdis = v) ∧
    (({ world with parts := [(0, inError)] } : State).ctx? 0 = some ctx ∧ (({ world with parts := [(0, inError)] } : State).part ctx.part).tdis = 3 ∧
      (world.part ctx.part).tdis ≠ 3) ∧
    (look 0x402 storedBad.bad ≠ none ∧ look 0x402 (stored []).bad = none ∧ storedBad.isPinned (0x402 * 64) = false ∧ storedBad.tablesOk) :=
  ⟨by decide +kernel, ⟨rfl, by decide +kernel, by decide +kernel⟩, by decide +kernel, by decide +kernel, by decide +kernel,
    tables_wf, (stored_ok []).2, rfl, nofun, (stored_ok []).5, rfl⟩

/-- A context that a hard pre-emption has saved, or that one is to save. -/
def savedOnly : State := { saved [savedUnit] with groups := [(1, { grp with core := 256 })], blocks := [(1, { block with cores := [256], benchAt := [(256, 0xFFFF)] })] }
def hardCtx : Context := { ctx with preempt := .hard 0 65536, autoResume := true }

theorem witness_ResetsAndTrips (x : Image) :
    ((∃ c, savedOnly.contexts = [(0, c)] ∧ c.preempt = .saved) ∧ (∀ e ∈ savedOnly.groups, 256 ≤ e.2.core) ∧
      (∀ e ∈ savedOnly.blocks, ∀ k ∈ e.2.cores, 256 ≤ k) ∧ savedOnly.ops = [] ∧ savedOnly.sets = []) ∧
    (∀ e ∈ savedOnly.contexts, e.2.stopped = none → e.2.preempt = .saved) ∧
    ((with_ grp hardCtx).contexts = [(0, hardCtx)] ∧ hardCtx.stopped = none ∧ hardCtx.preempt = .hard 0 65536) ∧
    (let s : State := { world with dies := [(0, { boot := .ready, image := some ⟨[], 0⟩ }), (1, { boot := .loaded, image := some x }), (2, { boot := .rom })] }
      ∃ e < 4, (s.die e).boot = .rom ∧ ∃ y, (s.die 0).image = some y ∧ imageAccepted e y = false) ∧
    ¬∃ e < 4, ((die3 .loaded (some x) none).die e).boot = .rom ∧
      ∃ y, ((die3 .loaded (some x) none).die 0).image = some y ∧ imageAccepted e y = false := by
  refine ⟨⟨⟨_, rfl, rfl⟩, by decide, by decide, rfl, rfl⟩, by decide +kernel, ⟨rfl, rfl, rfl⟩, ⟨2, by decide, rfl, ⟨[], 0⟩, rfl, rfl⟩, ?_⟩
  rintro ⟨e, -, -, y, h, -⟩
  exact absurd h nofun

/-- Context 0 holds nothing on core 1 but items that wait there. -/
def setOnly : State := { with_ grp ctx with sets := [(1, { items := [item] })] }
def dying (c : NMap Context) : State := { stored c with l2 := [], dead := [0x402] }

theorem witness_ErrorsOfSets :
    (setOnly.contexts = [(0, ctx)] ∧ onCore setOnly 0 1 = false ∧ holdsCore setOnly 0 1 = true ∧ saveReady setOnly 0 = false ∧
      (∀ e ∈ setOnly.parts, e.2.tdis = 0) ∧ ∀ e ∈ setOnly.cores, e.2.fenced = false) ∧
    ((dying [(0, ctx)]).dead = [0x402] ∧ anyDown (dying [(0, ctx)]) = false ∧ anyDown (fallen (dying [(0, ctx)])) = true ∧
      ((dying [(0, ctx)]).mgmt (homeDie (0x402 * 64)) 10).toNat % 2 = 0 ∧ mapsSector (dying [(0, ctx)]).awake ctx 0x402 = true) := by
  decide +kernel

/-- A queued drain whose bias row lies in host memory, and a remote element on a die that is down. -/
def hostDrain : MatInstr :=
  record (.mdrainMem ⟨0#3, true, true, 0#3, 29#5, 0#3, false, 15#4, true⟩) 0 [refOf .raw, { refOf .raw with host := [(16, hostBase)] }]
def heldInval (ns : List (Nat × Nat)) : State := { queueOf hostDrain with invals := [⟨9, 7, [], ns⟩] }
def farJob : State := fallen { with_ grp jobCtx with mem := farTables }
def farPart : RemotePart := { remoteOf none with base := 0x40000000 }

theorem witness_HostAndPod_waits :
    (∃ k x, (k, x) ∈ (queueOf hostDrain).sets ∧ (∃ c, (queueOf hostDrain).ctx? (k / 256) = some c ∧ c.pasid = ctx.pasid) ∧
      Spec.HoldsHost x (1, grp.retired)) ∧
    (∀ ns ∈ [[(1, grp.retired)], [(2, 0)]], (heldInval ns).invals = [⟨9, 7, [], ns⟩]) ∧
    (¬∃ k x, (k, x) ∈ (heldInval [(2, 0)]).sets ∧ Spec.HoldsHost x (2, 0)) ∧
    (farJob.contexts = [(0, jobCtx)] ∧ jobCtx.job = farPart.job ∧ farPart.elems = [7] ∧ farPart.values = none ∧ 7 * 8 + 8 ≤ farPart.limit ∧
      ∃ p tr, engineTranslate farJob 0 .user .read (0x40000000 + 7 * 8) = .ok p ∧ p.fmt = .raw ∧ 8 ≤ p.reach (0x40000000 + 7 * 8) ∧
        p.rawPlace farJob 0 .read (0x40000000 + 7 * 8) = .error tr ∧ tr.code = 255) := by
  have hh : Spec.HoldsHost { mq := [hostDrain, behind] } (1, grp.retired) := ⟨hostDrain, .head _, rfl, _, .tail _ (.head _), nofun⟩
  refine ⟨⟨0, _, .head _, ⟨ctx, rfl, rfl⟩, hh⟩, fun ns h => rfl, ?_, rfl, rfl, rfl, rfl, by decide, ?_⟩
  · rintro ⟨k, x, hx, m, hm, he, -⟩
    obtain ⟨-, rfl⟩ := Prod.mk.inj (List.mem_singleton.mp hx)
    simp only [List.mem_cons, List.not_mem_nil, or_false] at hm
    obtain rfl | rfl := hm <;> exact absurd (congrArg Prod.fst he) (by decide)
  · have h : okThen (engineTranslate farJob 0 .user .read 0x40000038) (fun p => p.fmt == .raw && decide (8 ≤ p.reach 0x40000038) &&
      match p.rawPlace farJob 0 .read 0x40000038 with
      | .ok _ => false
      | .error tr => tr.code == 255) = true := by decide +kernel
    obtain ⟨p, h1, h2⟩ := of_okThen h
    simp only [Bool.and_eq_true, beq_iff_eq, decide_eq_true_eq] at h2
    obtain ⟨⟨h3, h4⟩, h5⟩ := h2
    split at h5
    · cases h5
    · rename_i tr e
      exact ⟨p, tr, h1, h3, h4, e, by simpa using h5⟩

/-- A group whose unit works on after its last instruction. -/
def endDueGrp : Group := { grp with sched := { lane := some 0, inStint := true, endDue := true } }

theorem witness_StepRunsInstruction_endDue :
    (upkeep (atLane endDueGrp code)).agenda = .issue 0 0 :: [] ∧ (1, endDueGrp) ∈ (upkeep (atLane endDueGrp code)).groups ∧
    endDueGrp.sched.lane = some 0 ∧ endDueGrp.sched.inStint = true ∧ endDueGrp.sched.endDue = true ∧
    (∀ j k, (j, k) ∈ (upkeep (atLane endDueGrp code)).groups → (j, k) = (1, endDueGrp)) ∧ world.dead = [] := by
  rw [upkeep_atLane]
  exact ⟨rfl, .head _, rfl, rfl, rfl, fun j k h => List.mem_singleton.mp h, rfl⟩


/-! ## Witnesses: marked targets, receivers, barriers of a launch -/

/-- The code with a second table, whose targets are slots 2 and 3 of the line at 0x10080, which no bit marks. -/
def strayCode : Memory :=
  bytesAt 0x10000 (header 2 1) ++ bytesAt 0x10080 (header 0 3) ++ bytesAt 0x1010E [1] ++
    bytesAt 0x10110 [2, 0, 0, 0, 0, 0, 0, 0, 0xC2, 0xFF, 0xFF, 0xFF, 16, 0, 0, 0, 0xC3, 0xFF, 0xFF, 0xFF] ++ tables
def badPairs : List Nat := [0, 2 ^ 32 - 62, 16, 2 ^ 32 - 61]
def onBad (g : Group) : State := { world with mem := strayCode, groups := [(1, g)] }

theorem starts_nops {line : List Byte} (h : ∀ i, i < 56 → (line.getD (16 + 2 * i) 0#8).toNat % 2 = 0) :
    ∀ i, Spec.Starts line i ↔ i ≤ 56 := by
  intro i
  constructor
  · intro hs
    induction hs with
    | first => omega
    | short _ h1 _ _ => omega
    | long _ h1 h2 _ => rw [h _ h1] at h2; cases h2
  · induction i with
    | zero => exact fun _ => .first
    | succ i ih => exact fun hi => .short (ih (by omega)) (by omega) (h i (by omega))

/-- The line at 0x10080. -/
def markedLine : List Byte := (header 0 3).map (BitVec.ofNat 8 ·) ++ List.replicate 112 0#8

theorem markedLine_sound : Spec.SoundLine markedLine := by
  have h := starts_nops (line := markedLine) (by decide +kernel)
  exact ⟨by decide +kernel, by decide +kernel, fun i hi => by rw [h]; revert i; decide +kernel, fun hs => by have := (h 57).1 hs; omega,
    fun i hi _ => by rw [h]; omega⟩

/-- The fault that a check comes to. -/
def failure {α : Type} (x : Except Trap α) : Option Trap :=
  match x with
  | .ok _ => none
  | .error t => some t

theorem of_failure {α : Type} {x : Except Trap α} {tr : Trap} (h : failure x = some tr) : x = .error tr := by
  unfold failure at h
  split at h
  · cases h
  · cases h; rfl

theorem witness_TargetsAreMarked :
    (∀ a ∈ [0x10090, 0x10092], ∃ s', checkTarget (onCode grp) grp a = .ok s') ∧
    (∀ a ∈ [0x10091, 0x1008E, 0x10080], ¬(a % 2 = 0 ∧ 16 ≤ a % 128)) ∧
    ((0x40000090 % 2 = 0 ∧ 16 ≤ 0x40000090 % 128) ∧ ∃ tr, fetchLine (onCode grp) grp.core grp.asid grp.mode 0x40000090 = .error tr) ∧
    (∀ a ∈ [0x10090, 0x10092, 0x10094, 0x100FE], (a % 2 = 0 ∧ 16 ≤ a % 128) ∧
      ∃ s', fetchLine (onCode grp) grp.core grp.asid grp.mode a = .ok (markedLine, s')) ∧
    Spec.SoundLine markedLine ∧ (∀ i, i < 56 → ((ofBytes (markedLine.take 16)).testBit (56 + i) = true ↔ i < 2)) ∧
    (∃ line s', fetchLine (onCode grp) grp.core grp.asid grp.mode 0x10190 = .ok (line, s') ∧ ¬Spec.SoundLine line) := by
  refine ⟨fun a h => ?_, by decide, ⟨by decide, ?_⟩, fun a h => ⟨?_, ?_⟩, markedLine_sound, by decide +kernel, ?_⟩
  · exact targetOk_of (by revert a; decide +kernel)
  · obtain ⟨tr, h⟩ := Option.isSome_iff_exists.1 (show (failure (fetchLine (onCode grp) grp.core grp.asid grp.mode 0x40000090)).isSome = true
      by decide +kernel)
    exact ⟨tr, of_failure h⟩
  · revert a; decide
  · have ⟨⟨l, s'⟩, h1, h2⟩ := of_okThen (x := fetchLine (onCode grp) grp.core grp.asid grp.mode a) (p := fun r => r.1 == markedLine)
      (by revert a; decide +kernel)
    exact ⟨s', by rw [h1, show l = markedLine from by simpa using h2]⟩
  · have ⟨⟨l, s'⟩, h1, h2⟩ := of_okThen (x := fetchLine (onCode grp) grp.core grp.asid grp.mode 0x10190)
      (p := fun r => r.1 == List.replicate 128 0#8) (by decide +kernel)
    refine ⟨l, s', h1, fun hs => ?_⟩
    have h3 : l = List.replicate 128 0#8 := by simpa using h2
    have := (hs.starts 0 (by omega)).2 .first
    rw [h3] at this
    revert this
    decide +kernel

theorem witness_TransferTargetChecked_others :
    (Spec.Ready (.jmp ⟨66#22, true⟩) (onCode grp) grp grp.active ∧
      ∃ tr, checkTarget (onCode grp) grp (Spec.target grp (66#22 : BitVec 22)) = .error tr) ∧
    (Spec.Ready (.br ⟨66#19, 0#3, true⟩) (onCode grp) grp grp.active ∧ Spec.Ready (.br ⟨66#19, 7#3, true⟩) (onCode deep) deep deep.active ∧
      (∃ t, t < 32 ∧ deep.amask.getLsbD t = true ∧ (deep.thread t).p.getLsbD 7 = true) ∧ Spec.topAddr deep.stack = some 0x10012#57 ∧
      (∃ tr, checkTarget (onCode grp) grp (Spec.target grp (66#19 : BitVec 19)) = .error tr) ∧
      ∃ tr, checkTarget (onCode deep) deep (Spec.target deep (66#19 : BitVec 19)) = .error tr) ∧
    (Spec.Ready (.switch sw) (onBad (grpAt 16)) (grpAt 16) grp.active ∧ Spec.target (grpAt 16) (128#16 : BitVec 16) = 0x10110 ∧
      (∃ s1 tr, readTable (onBad (grpAt 16)) (grpAt 16) 0x10110 = .ok (some badPairs, s1) ∧
        checkTarget s1 (grpAt 16) 0x10096 = .error tr) ∧
      (0x10110 + 2 * signed 32 (2 ^ 32 - 61)) % 2 ^ 57 = 0x10096 ∧ grp.active ≠ [] ∧
      ∀ t ∈ grp.active, badPairs.getD 2 0 = ((grpAt 16).src 47#6 t).toNat ∧ badPairs.getD 0 0 ≠ ((grpAt 16).src 47#6 t).toNat) ∧
    (Spec.Ready (.switch sw) (onBad deep) deep grp.active ∧ Spec.target deep (128#16 : BitVec 16) = 0x10110 ∧
      (∃ s1 tr, readTable (onBad deep) deep 0x10110 = .ok (some badPairs, s1) ∧
        checkTargets s1 deep [0x10094, 0x10096] = .error tr) ∧
      (∀ i, i < 2 → ∃ t ∈ grp.active, badPairs.getD (2 * i) 0 = (deep.src 47#6 t).toNat ∧
        ∀ j, j < i → badPairs.getD (2 * j) 0 ≠ (deep.src 47#6 t).toNat) ∧
      ∀ i, i < 2 → ∃ t ∈ grp.active, badPairs.getD (2 * i) 0 ≠ (deep.src 47#6 t).toNat) := by
  have bad {s : State} {g : Group} {ta : Nat} {ask : State → Option Trap}
      (h : okThen (readTable s g ta) (fun r => r.1 == some badPairs && (ask r.2).isSome) = true) :
      ∃ s1 tr, readTable s g ta = .ok (some badPairs, s1) ∧ ask s1 = some tr := by
    obtain ⟨⟨a, s1⟩, h1, h2⟩ := of_okThen h
    simp only [Bool.and_eq_true, beq_iff_eq] at h2
    obtain ⟨tr, h3⟩ := Option.isSome_iff_exists.1 h2.2
    exact ⟨s1, tr, by rw [h1, h2.1], h3⟩
  refine ⟨⟨ready_onCode (by decide +kernel), targetBad_of (by decide +kernel)⟩,
    ⟨ready_onCode (by decide +kernel), ready_onCode (by decide +kernel), ⟨0, by decide +kernel⟩, rfl, targetBad_of (by decide +kernel),
      targetBad_of (by decide +kernel)⟩,
    ⟨ready rfl (by decide +kernel), by decide +kernel, ?_, by decide, by decide, by decide +kernel⟩,
    ⟨ready rfl (by decide +kernel), by decide +kernel, ?_, by decide +kernel, by decide +kernel⟩⟩
  · obtain ⟨s1, tr, h1, h2⟩ := bad (s := onBad (grpAt 16)) (g := grpAt 16) (ta := 0x10110)
      (ask := fun s => failure (checkTarget s (grpAt 16) 0x10096)) (by decide +kernel)
    exact ⟨s1, tr, h1, of_failure h2⟩
  · obtain ⟨s1, tr, h1, h2⟩ := bad (s := onBad deep) (g := deep) (ta := 0x10110)
      (ask := fun s => failure (checkTargets s deep [0x10094, 0x10096])) (by decide +kernel)
    exact ⟨s1, tr, h1, of_failure h2⟩

/-- A member of an open expansion: its threads are receivers. -/
theorem witness_ExitRemovesThreads_receivers :
    (expanding openExpansion).grp = some member ∧ ∃ t ∈ member.participants 7#3, Spec.Receives (expanding openExpansion) member t :=
  ⟨rfl, 0, by decide +kernel, 15, 0, openExpansion, rfl, by decide +kernel, by decide +kernel⟩


/-- Descriptors at 0x10040 whose BAR fields are these bytes, from a context of a job, with barriers that are bound and three arrivals
that other modules have brought to pod barrier 3 of job 3. -/
def launching (bars : List Nat) (job : Nat) (w : List WideBarrier) : State :=
  { world with
    mem := bytesAt 0x10070 bars ++ tables
    contexts := [(0, { ctx with job := job })]
    wide := w
    podEarly := [(15, [9, 8, 7])] }

/-- Die barrier 15 of two, package barrier 7 of one and pod barrier 3 of two. -/
def threeBars : List Nat := [0x7B, 2, 0, 0, 0x3C, 1, 0, 0, 0x1D, 2, 0, 0]

/-- What BAR field `i` says. -/
def barAt (s : State) (i : Nat) : BoundBar :=
  let v := Spec.numberAt (described s) (0x30 + 4 * i) 4
  ⟨v % 8, v / 8 % 32, v / 256⟩

/-- Die barrier 15 of die 2, held by another launch. -/
def heldBar : WideBarrier := { scope := 3, place := 2, number := 15, grid := 9, bar := {}, remote := [] }

theorem witness_LaunchCreatesGrid_bars :
    (∀ w ∈ [[], [heldBar]], let s := launching threeBars 3 w
      Spec.Ready (.launch ⟨7#3, 31#5, true⟩) s grp grp.active ∧ s.ctx? grp.asid = some { ctx with job := 3 } ∧ s.tablesOk ∧
      Spec.OpenRaw grp 7 true false ∧ Spec.Reads s grp 7 ((grp.sreg 31).toNat : Int) 64 ∧ unplacedDevice s ctx.part < 64 ∧
      (∀ i, i < 16 → described s i = 0#8) ∧ (List.range 4).map (barAt s) = [⟨3, 15, 2⟩, ⟨4, 7, 1⟩, ⟨5, 3, 2⟩, ⟨0, 0, 0⟩] ∧
      (∀ e ∈ s.groups, e.2.wait = .none) ∧ (heldBar ∈ s.wide ↔ w ≠ [])) ∧
    ∀ e ∈ [([0x7B, 2, 0, 0, 0x7B, 3, 0, 0], 3, (⟨3, 15, 2⟩ : BoundBar), (⟨3, 15, 3⟩ : BoundBar)), ([0x7B, 0], 3, ⟨3, 15, 0⟩, ⟨0, 0, 0⟩),
        ([0x44, 1], 3, ⟨4, 8, 1⟩, ⟨0, 0, 0⟩), ([0x1D, 2], 0, ⟨5, 3, 2⟩, ⟨0, 0, 0⟩)],
      let s := launching e.1 e.2.1 []
      Spec.Ready (.launch ⟨7#3, 31#5, true⟩) s grp grp.active ∧ s.ctx? grp.asid = some { ctx with job := e.2.1 } ∧ s.tablesOk ∧
      Spec.Reads s grp 7 ((grp.sreg 31).toNat : Int) 64 ∧ (barAt s 0, barAt s 1) = e.2.2 := by
  refine ⟨fun w h => ?_, fun e h => ?_⟩
  · simp only [List.mem_cons, List.not_mem_nil, or_false] at h
    obtain rfl | rfl := h <;>
      exact ⟨ready rfl (by decide +kernel), rfl, tablesOk_of (m := bytesAt 0x10070 threeBars ++ tables) rfl (by decide +kernel) block_bench rfl rfl rfl,
        opened_rd rfl 7 (by decide), reads_of rfl (by decide +kernel), by decide +kernel, by decide +kernel, by decide +kernel, by decide +kernel,
        by decide⟩
  · simp only [List.mem_cons, List.not_mem_nil, or_false] at h
    obtain rfl | rfl | rfl | rfl := h <;>
      exact ⟨ready rfl (by decide +kernel), rfl, tablesOk_of (m := bytesAt 0x10070 _ ++ tables) rfl (by decide +kernel) block_bench rfl rfl rfl,
        reads_of rfl (by decide +kernel), by decide +kernel⟩

/-- A copy of the last block of 64 bytes into a grain page, from the last 32 bytes of a raw page and the first 32 of that grain page. -/
def intoOp : EngineOp := { blockOp with src := { win with base := 0x3FFFFFE0#57 } }

/-- Every byte of a source lies in a raw page. -/
def allRaw (s : State) (va n : Nat) : Bool :=
  (List.range n).all fun i => okThen (engineTranslate s 0 .user .read (va + i)) fun q => q.fmt == .raw

theorem noPageOf_of {s : State} {va n : Nat} {f : PageFmt} (h : allRaw s va n = true) (hf : f ≠ .raw) : Spec.NoPageOf s 0 .user va n f := by
  intro v q h1 h2 hq
  have ⟨q', h3, h4⟩ := of_okThen (List.all_eq_true.1 h (v - va) (List.mem_range.2 (by omega)))
  rw [show va + (v - va) = v from by omega, hq] at h3
  cases h3
  rw [show q.fmt = .raw from by simpa using h4]
  exact hf.symm

theorem witness_EngineOperationsRun_sources :
    (∃ p, engineTranslate (running intoOp grainTables) 0 .user .write (Spec.dstVa intoOp) = .ok p ∧ p.fmt ≠ .raw ∧
      Spec.RunsInto (running intoOp grainTables) intoOp p) ∧
    Spec.Copies (running intoOp grainTables) 5 intoOp ∧ (running intoOp grainTables).tablesOk ∧ intoOp.source = .group 1 0 63 ∧
    Spec.RecordFits (running intoOp grainTables) 0 ctx 0x40000 ∧
    (∃ p, engineTranslate (running blockOp grainTables) 0 .user .write (Spec.dstVa blockOp) = .ok p ∧
      Spec.NoPageOf (running blockOp grainTables) 0 .user (Spec.srcVa blockOp) 64 p.fmt) ∧
    ∀ f, f ≠ .raw → Spec.NoPageOf (running gatherOp tables) 0 .user 0x10000 64 f := by
  refine ⟨?_, copies _ _ (by decide +kernel), tablesOk_of (m := grainTables) rfl (by decide +kernel) block_bench rfl rfl rfl, rfl,
    fits_of (by decide +kernel), ?_, fun f => noPageOf_of (by decide +kernel)⟩
  · have h : okThen (engineTranslate (running intoOp grainTables) 0 .user .write (Spec.dstVa intoOp)) (fun p =>
        p.fmt == .g8 && !isHost p.frame && !p.blockDown (running intoOp grainTables) ((Spec.dstVa intoOp - p.vbase) / 64)) = true := by
      decide +kernel
    have h' : okThen (engineTranslate (running intoOp grainTables) 0 .user .read (Spec.srcVa intoOp)) (fun q =>
        !q.hostGrain && q.fmt == .raw) = true := by decide +kernel
    have h'' : okThen (engineTranslate (running intoOp grainTables) 0 .user .read (Spec.srcVa intoOp + 63)) (fun q => q.fmt == .g8) = true := by
      decide +kernel
    have ⟨p, h1, h2⟩ := of_okThen h
    have ⟨q, h3, h4⟩ := of_okThen h'
    have ⟨r, h5, h6⟩ := of_okThen h''
    simp only [Bool.and_eq_true, beq_iff_eq, Bool.not_eq_true'] at h2 h4 h6
    exact ⟨p, h1, by rw [h2.1.1]; decide, ⟨by decide, by decide⟩, h2.1.2, h2.2, ⟨q, h3, h4.1, by rw [h4.2, h2.1.1]; decide⟩,
      ⟨r, h5, by rw [h6, h2.1.1]⟩⟩
  · have ⟨p, h1, h2⟩ := of_okThen (x := engineTranslate (running blockOp grainTables) 0 .user .write (Spec.dstVa blockOp))
      (p := fun p => p.fmt == .g8) (by decide +kernel)
    exact ⟨p, h1, noPageOf_of (by decide +kernel) (by rw [show p.fmt = .g8 from by simpa using h2]; decide)⟩

theorem witness_ExitRemovesThreads_none (s : State) : ∀ g ∈ [grp, late], ∀ f, ∀ t ∈ g.participants f, ¬Spec.Receives s g t := by
  intro g hg f t _ ⟨_, _, _, h, _⟩
  simp only [List.mem_cons, List.not_mem_nil, or_false] at hg
  obtain rfl | rfl := hg <;> cases h

/-- The same drain with its group gone, or with so many contributions in its commit buffer. -/
def bufferedDrain (n : Option Nat) : State :=
  { queueOf (peakAt true) with
    groups := n.toList.map fun k => (1, { grp with det := { grp.det with buffer := List.replicate k given } }) }

theorem witness_mdrain_peak_buffered :
    (∀ n ∈ [none, some 0, some 254, some 255], let s := bufferedDrain n
      Spec.Head s 0 0 (peakAt true) [behind] ∧ s.tablesOk ∧ s.grid? (peakAt true).grid = some grid ∧
      (peakAt true).det = some (1, keyOf grp 0 0) ∧ isDown s 0x10000 = false ∧
      (refOf .raw).place s 0 0x10000 = .ok ({ page with fmt := .raw, span := 0x100000 }, 0x10000)) ∧
    (bufferedDrain none).group? (peakAt true).gid = none ∧
    ∀ k ∈ [0, 254, 255], ∃ g, (bufferedDrain (some k)).group? (peakAt true).gid = some g ∧ g.core < 256 ∧ g.det.buffer.length = k := by
  refine ⟨fun n hn => ⟨⟨rfl, rfl, rfl, ⟨ctx, rfl, rfl⟩, rfl⟩, ?_, rfl, rfl, rfl, ?_⟩, rfl, fun k _ => ⟨_, rfl, show 0 < 256 by decide, ?_⟩⟩
  · refine ⟨rfl, fun b h m hm => (by rw [block_bench b h] at hm; cases hm), ?_, by simp [bufferedDrain, queueOf, rising], ⟨rfl, nofun⟩, rfl⟩
    cases n <;> rfl
  · have h : ({ page with fmt := .raw, span := 0x100000 } : Page).rawPlace (bufferedDrain n) 0 .read 0x10000 = .ok 0x10000 :=
      queueOf_place (peakAt true) .read 0x10000 (by decide) (by decide)
    simp only [MemRef.place, refOf_page .raw 0 (by decide), h]
    rfl
  · simp

/-- Windows of a tile's image that end before it, that may not be written, and that do not start on a block. -/
def tileWindow (limit base : Nat) (wr : Bool) : Group :=
  { tiler with w := Vector.replicate 8 { winOf .raw with limit := BitVec.ofNat 33 limit, base := BitVec.ofNat 57 base, wr := wr } }

theorem witness_TilesBindAndFlush_order : ∀ e ∈ [(11263, 0x10000, true), (11264, 0x10000, false), (11264, 0x10020, true)],
    let g := tileWindow e.1 e.2.1 e.2.2
    Spec.Ready (.tload ⟨31#5, 7#3, 15#4, true⟩) (slots g {}) g g.active ∧ (slots g {}).ctx? g.asid = some ctx ∧
    Spec.Bindable (slots g {}) g ctx 31#5 15 ∧
    ((Spec.rawTarget ctx).whole ≤ (g.win 7).limit.toNat ∧ (g.win 7).rd = true ∧ (g.win 7).wr = true ↔ e.2.1 = 0x10020) ∧
    ((g.win 7).va 0 % 64 ≠ 0 ↔ e.2.1 = 0x10020) := by
  intro e h
  simp only [List.mem_cons, List.not_mem_nil, or_false] at h
  obtain rfl | rfl | rfl := h <;>
    exact ⟨ready rfl (by decide +kernel), rfl, ⟨by decide +kernel, by decide +kernel, .inl rfl, nofun⟩, by decide +kernel, by decide +kernel⟩

/-- The machine with die 0 in a phase. -/
def phased (b : Boot) (x : Nat) : State := { with_ (sysGrp .handler x) ctxFull with dies := [(0, { boot := b })] }

theorem witness_ControlRegisters_privileged :
    (∀ n ∈ [0x810, 0x815, 0x816, 0x880, 0x883, 0x884, 0x900, 0x901, 0x902, 0x903, 0x904, 0x908, 0x909, 0x90A, 0x90B], ∀ x ∈ [0, 2 ^ 64 - 1],
      ∀ b ∈ [Boot.ready, .held, .rom], Spec.Ready (.cput ⟨BitVec.ofNat 12 n, 31#5, true⟩) (phased b x) (sysGrp .handler x) grp.active ∧
        (phased b x).ctx? 0 = some ctxFull ∧ (sysGrp .handler x).core < 256 ∧ (sysGrp .handler x).mode = .handler ∧
        ((phased b x).die 0).boot = b) ∧
    (∀ x ∈ [(14 * 2 ^ 32, 14), (15 * 2 ^ 32, 15)], ((sysGrp .handler x.1).sreg 31).toNat / 2 ^ 32 % 2 ^ 16 = x.2) ∧
    (∀ x ∈ [63, 64], ((sysGrp .handler x).sreg 31).toNat = x) ∧ ctxFull.fbhead = 63 ∧ ctxFull.waiting = [] ∧
    ∀ x ∈ [599 + 0 * 2 ^ 16, 600 + 1 * 2 ^ 16, 2400 + 1000 * 2 ^ 16, 2401 + 1001 * 2 ^ 16], ((sysGrp .handler x).sreg 31).toNat = x := by
  refine ⟨fun n hn x hx b _ => ⟨ready rfl ?_, rfl, show 0 < 256 by decide, rfl, rfl⟩, by decide +kernel, by decide +kernel, rfl, rfl, by decide +kernel⟩
  revert n x
  decide +kernel

/-- Queue 7 with a state, its partition's interface in error. -/
def closed (ctl : Nat) : State := { stateOf ctl with parts := [(0, inError)] }

/-- The administration queue in error while a soft PREEMPT of context 5 waits. -/
def adminStopped : State := { awaiting with queues := [(512, { queue7 with ctl := 0x380000004#64 })] }

theorem witness_QueueRegisters_error :
    (∀ c ∈ [0, 4, 0x380000004], ((closed c).part 0).tdis = 3 ∧ frontInError (closed c) 0 = true ∧ frontInError (stateOf c) 0 = false) ∧
    (frontInError adminStopped 64 = false ∧ (adminStopped.queue 64 0).stat = 3 ∧
      adminStopped.ctx? 5 = some { ctx5 with preempt := .soft, preemptCmds := [14] }) ∧
    ((closed 4).ctx? 0 = some ctx ∧ ((closed 4).part ctx.part).tdis = 3 ∧ (world.part ctx.part).tdis ≠ 3) :=
  ⟨by decide +kernel, ⟨rfl, by decide +kernel, rfl⟩, rfl, by decide +kernel, by decide +kernel⟩

theorem witness_AdminCommands_colour :
    (Spec.AdminOffers (asked (setPart 0x820 0x70000000201) (coloured 0)) 20 (words 20 (0x820 * 65536) 0x70000000201 0) ∧
      ((coloured 0).part 0).colour = 0 ∧ ((coloured 0).part 0).tdis = 0 ∧ ((coloured 0).part 0).cbase ≠ 0x70000000201 % 256) ∧
    (Spec.AdminOffers (asked (setPart 0x820 0x70000000201) empty0) 20 (words 20 (0x820 * 65536) 0x70000000201 0) ∧
      (empty0.part 0).colour ≠ 0 ∧ 0x70000000201 % 256 ≤ 0x70000000201 / 2 ^ 8 % 256) ∧
    (Spec.AdminOffers (asked (setPart 0x822 1) empty0) 20 (words 20 (0x822 * 65536) 1 0) ∧ (empty0.part 0).colour ≠ 1) :=
  ⟨⟨admin_of (by decide +kernel), by decide +kernel, by decide +kernel, by decide +kernel⟩,
    ⟨admin_of (by decide +kernel), by decide +kernel, by decide⟩, admin_of (by decide +kernel), by decide +kernel⟩

/-- A context that a core's fencing has taken off the module, to come back by itself. -/
def fencedOff : State := { saved [savedUnit] with contexts := [(0, { ctx with preempt := .saved, units := [savedUnit], autoResume := true })] }

theorem witness_Preemption_fenced :
    (Spec.AdminOffers (asked [18, 0, 0] fencedOff) 18 (words 18 0 0 0) ∧
      fencedOff.ctx? 0 = some { ctx with preempt := .saved, units := [savedUnit], autoResume := true } ∧ ctx.stopped = none) ∧
    coreServes (asked [19, 0] (saved [savedUnit])) savedUnit.core = true ∧ savedUnit.core < 256 ∧ savedUnit.set.xwait = [] :=
  ⟨⟨admin_of (by decide +kernel), rfl, rfl⟩, by decide +kernel, by decide, rfl⟩

/-- What a context may hold on core 64 of die 1 without a group there. -/
def holdings : List CoreSet := [{ mq := [behind] }, { items := [item] }, { slots := [(0, { state := .idle })] }]

theorem witness_DiesReset_sets :
    (∀ x ∈ holdings, let s : State := { world with sets := [(64, x)] }
      s.ctx? 0 = some ctx ∧ ctx.stopped = none ∧ (∀ e ∈ world.groups, dieOf e.2.core ≠ 1) ∧
      ∃ e ∈ s.sets, e.1 / 256 = 0 ∧ dieOf (e.1 % 256) = 1 ∧ (e.2.mq ≠ [] ∨ e.2.items ≠ [] ∨ ∃ y ∈ e.2.slots, y.2.state ≠ .unbound)) ∧
    ((die3 .held none none).die 3).boot = .held ∧ ((die3 .ready none none).die 3).boot ≠ .held := by
  refine ⟨fun x h => ⟨rfl, rfl, by decide, ?_⟩, rfl, by decide⟩
  simp only [holdings, List.mem_cons, List.not_mem_nil, or_false] at h
  obtain rfl | rfl | rfl := h
  · exact ⟨_, .head _, rfl, rfl, .inl nofun⟩
  · exact ⟨_, .head _, rfl, rfl, .inr (.inl nofun)⟩
  · exact ⟨_, .head _, rfl, rfl, .inr (.inr ⟨_, .head _, nofun⟩)⟩

/-- Context 0 in a state of pre-emption, its group on core 0. -/
def preempted (p : Preempt) : State := with_ grp { ctx with preempt := p }

theorem witness_PowerAndFirmware_trips :
    (∀ p ∈ [Preempt.none, .soft, .saved], (preempted p).contexts = [(0, { ctx with preempt := p })] ∧ ctx.stopped = none ∧
      (p = .saved → ctxCores (preempted p) 0 ≠ []) ∧ saveReady (preempted p) 0 = false) ∧
    (∀ e ∈ savedOnly.contexts, e.2.stopped = none ∧ e.2.preempt = .saved ∧ ctxCores savedOnly e.1 = []) ∧
    ∀ limit ∈ [1024, 65536, 1048576], (preempted (.hard 0 limit)).contexts = [(0, { ctx with preempt := .hard 0 limit })] :=
  ⟨by decide +kernel, by decide +kernel, fun _ _ => rfl⟩

theorem witness_ErrorsAndRepairs_partitions :
    (world.contexts = [(0, ctx)] ∧ onCore world 0 1 = false ∧ look ctx.part world.parts ≠ none ∧ 1 ∈ partCores (world.part ctx.part) ∧
      (world.part ctx.part).tdis ≠ 3 ∧ ∀ e ∈ world.cores, e.2.fenced = false) ∧
    (∀ p ∈ [Preempt.none, .soft], let s : State := { setOnly with contexts := [(0, { ctx with preempt := p })], parts := [(0, inError)] }
      onCore s 0 1 = false ∧ holdsCore s 0 1 = true ∧ saveReady s 0 = false ∧ 1 ∈ partCores inError ∧
      ∀ e ∈ s.parts, 1 ∈ partCores e.2 → e.2.tdis = 3) ∧
    (∀ v ∈ [0, 1, 2, 3], let s : State := { keyed v with contexts := [] }
      look 5 s.parts ≠ none ∧ 0 ∈ partCores (s.part 5) ∧ (s.part 5).tdis = v) ∧
    (let s : State := { world with dies := [(0, { boot := .held })] }; hasWork s 0 0 = true ∧ (s.die 0).boot = .held) ∧
    look 0x402 (stored []).l2 = some ⟨List.replicate 64 7#8, [5], 0, ⟨0, 0⟩⟩ ∧
    ∀ p ∈ [Preempt.none, .soft], holdsCore (preempted p) 0 0 = true ∧ saveReady (preempted p) 0 = false ∧ ((preempted p).core 0).absent = false := by
  decide +kernel

/-! ## The spec's worked examples -/

/-- The group with some registers of its threads 0 to 3, and predicate p2 of thread 2 set. -/
def withRegs (rs : List (Nat × List Nat)) : Group :=
  { grp with
    threads := Vector.ofFn fun t => rs.foldl (fun x (r : Nat × List Nat) => x.setReg r.1 (BitVec.ofNat 32 (r.2.getD t 0)))
      { Thread.init with p := if t.val = 2 then 4#8 else 0#8 } }

/-- A register of threads 0 to 3 after an instruction, with FFLAGS. -/
def after (i : Instr) (s : State) (r : Nat) : List Nat × Nat :=
  match exec i s with
  | .next t => (t.grp.map fun g => ((List.range 4).map fun u => ((g.thread u).reg r).toNat, g.fflags.toNat)).getD ([], 0)
  | _ => ([], 0)

/-- R232: `dp4.s8` of 0x80FF_0302, 0x0204_FF05 and 10 is −243. -/
theorem test_dp4 : (after (.dp4S8 ⟨3#6, 2#6, 1#6, 4#6, false⟩)
    (with_ (withRegs [(1, [0x80FF0302]), (2, [0x0204FF05]), (3, [10])]) ctx) 4).1.getD 0 0 = 0xFFFFFF0D := by decide +kernel

/-- R241: `sscan.fadd v3, v1, p2` of 1, 2, 4 and 8 with a head at thread 2 gives 1, 3, 4 and 12. -/
theorem test_sscan : (after (.sscan ⟨false, 0#3, 2#3, 5#3, 1#6, 3#6, false⟩)
    (with_ (withRegs [(1, [0x3F800000, 0x40000000, 0x40800000, 0x41000000])]) ctx) 3).1 =
      [0x3F800000, 0x40400000, 0x40800000, 0x41400000] := by decide +kernel

/-- R238: `cvt.f16.f32` of 65,536 under `rne` and `rtz`, with OF and NX (R221: bits 2 and 0). -/
theorem test_cvt_overflow : ∀ e ∈ [(0#3, 0x7C00), (1#3, 0x7BFF)],
    let r := after (.cvt ⟨false, 0#3, 2#3, 3#3, 1#6, 2#6, false⟩) (with_ { withRegs [(1, [0x47800000])] with fpmode := e.1 } ctx) 2
    (r.1.getD 0 0, r.2) = (e.2, 5) := by decide +kernel

/-- R197: three threads add 1, 2 and 4 to a word of 10 and receive 10, 11 and 13; the word ends at 17. -/
theorem test_atom :
    let g := { withRegs [(6, [1, 2, 4])] with amask := 7#32 }
    let s := { with_ g ctx with mem := bytesAt 0x10000 [10] ++ tables }
    let i : Instr := .atom ⟨3#3, 0#4, 0#3, 2#6, 6#6, false⟩
    (after i s 6).1 = [10, 11, 13, 0] ∧ (match exec i s with | .next t => t.mem.get 0x10000 | _ => 0#8) = 17#8 := by decide +kernel

/-- The first instruction after reset: `add v5, v5, v9` of R36, 0x24A2; the pc passes its 2 bytes. -/
theorem test_first_step : (match step (State.reset.withFetchWord 16 0x24A2) with
    | .next t => (t.grp.map fun g => (g.pc.toNat, (g.thread 0).reg 5)).getD (0, 0#32)
    | _ => (0, 0#32)) = (0x10012, 0#32) := by decide +kernel

/-! ## The cipher of R329, by its standards' examples -/

/-- FIPS 197, appendix C.3: the worked example of AES-256. -/
theorem test_aes256 : Cipher.encryptBlock (Cipher.roundKeys (List.range 32)) ((List.range 16).map (0x11 * ·)) =
    [0x8E, 0xA2, 0xB7, 0xCA, 0x51, 0x67, 0x45, 0xBF, 0xEA, 0xFC, 0x49, 0x90, 0x4B, 0x49, 0x60, 0x89] := by decide +kernel

/-- IEEE 1619, vector 10 of XTS-AES-256: the first block of data unit 0xFF. -/
theorem test_xts : Cipher.encrypt (Cipher.number
      ([0x27, 0x18, 0x28, 0x18, 0x28, 0x45, 0x90, 0x45, 0x23, 0x53, 0x60, 0x28, 0x74, 0x71, 0x35, 0x26, 0x62, 0x49, 0x77, 0x57, 0x24, 0x70,
        0x93, 0x69, 0x99, 0x59, 0x57, 0x49, 0x66, 0x96, 0x76, 0x27] ++
       [0x31, 0x41, 0x59, 0x26, 0x53, 0x58, 0x97, 0x93, 0x23, 0x84, 0x62, 0x64, 0x33, 0x83, 0x27, 0x95, 0x02, 0x88, 0x41, 0x97, 0x16, 0x93,
        0x99, 0x37, 0x51, 0x05, 0x82, 0x09, 0x74, 0x94, 0x45, 0x92])) 0xFF 0 (List.range 16) =
    [0x1C, 0x3B, 0x3A, 0x10, 0x2F, 0x77, 0x03, 0x86, 0xE4, 0x83, 0x6C, 0x99, 0xE3, 0x70, 0xCF, 0x9B] := by decide +kernel

/-! ## Records of a save -/

/-- The expansion that the worked program of spec/19_program_expand.md saves. -/
def savedExpansion : Expansion :=
  { size := 2, op := 8, gids := [1, 2], masks := [15#32, 15#32], waves := [1, 1], ends := [none, none],
    starts := [16#32, 18#32, 18#32, 21#32, 22#32, 27#32, 29#32, 30#32], lens := [2#32, 0#32, 3#32, 1#32, 0#32, 2#32, 1#32, 1#32],
    partials := [0x41200000#32, 0x80000000#32, 0x3F800000#32, 0x41100000#32, 0x80000000#32, 0x40D00000#32, 0x80000000#32,
      0x80000000#32],
    applied := [2, 0, 3, 1, 0, 2, 0, 0], held := [] }

/-- R142, with the bytes that the page lists. -/
theorem test_expansion_record :
    let r := savedExpansion.record
    r.length = 4160 ∧ ofBytes (r.take 8) = 0x20821 ∧ ofBytes ((r.drop 8).take 8) = 10 ∧
    ofBytes ((r.drop 0x10).take 8) = 0x100000001 ∧ ofBytes ((r.drop 0x20).take 8) = 0xF0000000F ∧
    ofBytes ((r.drop 0x70).take 24) = 18 + 3 * 2 ^ 32 + 2 * 2 ^ 64 + 0x3F800000 * 2 ^ 128 + 3 * 2 ^ 160 ∧
    ofBytes ((r.drop 0xE8).take 24) = 30 + 1 * 2 ^ 32 + 9 * 2 ^ 64 + 0x80000000 * 2 ^ 128 ∧
    ofBytes (r.drop 0x100) = 0 := by decide +kernel

/-- R142: T = 2, L = (4, 4), one `xnext`, then `xend`: of owner 0's two iterations dealt the second's contribution is held; the iterations
that `xend` resolved undealt count for owner 1. -/
theorem test_applied_counts : ∀ e ∈ [([1, 0], [{ contribution with k := 1 }], 1), ([2, 0], [], 4)],
    let x : Expansion := { openExpansion with
      masks := [3#32], waves := [1], ends := [some 5], starts := [10#32, 20#32], lens := [4#32, 4#32], partials := [0#32, 0#32],
      applied := e.1, held := e.2.1 }
    (x.appliedCount 0, x.appliedCount 1) = (e.2.2, 4) := by decide +kernel

/-! ## The digest of R379, by its standard's example -/

/-- FIPS 180-4: SHA-384 of "abc". -/
theorem test_sha384 : Digest.number (Digest.sha384 [0x61#8, 0x62#8, 0x63#8]) =
    0xcb00753f45a35e8bb5a03d699ac65007272c32ab0eded1631a8b605a43ff5bed8086072ba1e7cc2358baeca134c825a7 := by decide +kernel

end Sys2Proof.Tests
end

namespace Sys2Proof.Machine

/-! ## The ILLOP causes of a lane form -/

/-- What the checks of a lane form ask about: sources, one destination register, and whether it samples the rounding. -/
def laneNeeds (srcs : List (BitVec 6)) (d : BitVec 6) (samples : Bool) : Needs :=
  { srcs := srcs, dsts := [d], samples := samples }

/-- No ILLOP cause lies in a source code that the threads `ts` read (causes 3, 4 and 7 of R51). -/
structure Group.Readable (g : Group) (ts : List Nat) (c : BitVec 6) : Prop where
  code  : c.toNat < 61
  reg   : c.toNat < 48 → c.toNat < g.nregs
  latch : ∀ t ∈ ts, (c = 56#6 → (g.thread t).b0.valid = true) ∧ (c = 57#6 → (g.thread t).b1.valid = true)

/-- A register below the entry's count names a readable source. -/
theorem Group.readable_reg {g : Group} (ts : List Nat) {c : BitVec 6} (h48 : c.toNat < 48) (hr : c.toNat < g.nregs) :
    g.Readable ts c where
  code := by omega
  reg _ := hr
  latch t _ := by constructor <;> (rintro rfl; exact absurd h48 (by decide))

/-- The code `z` is readable. -/
theorem Group.readable_z (g : Group) (ts : List Nat) : g.Readable ts 60#6 where
  code := by decide
  reg h := absurd h (by decide)
  latch _ _ := ⟨fun h => absurd h (by decide), fun h => absurd h (by decide)⟩

section
variable (srcs : List (BitVec 6)) (d : BitVec 6) (samples : Bool)

theorem needsBadCode_lane :
    needsBadCode (laneNeeds srcs d samples) = false ↔ (∀ c ∈ srcs, c.toNat < 61) ∧ d.toNat < 48 := by
  simp [needsBadCode, laneNeeds]

theorem needsBadReg_lane (n : Nat) :
    needsBadReg (laneNeeds srcs d samples) n = false ↔
      (∀ c ∈ srcs, c.toNat < 48 → c.toNat < n) ∧ (d.toNat < 48 → d.toNat < n) := by
  simp [needsBadReg, singleRegs, laneNeeds]

theorem needsBadLatch_lane (g : Group) (ts : List Nat) :
    needsBadLatch (laneNeeds srcs d samples) g ts = false ↔ ∀ c ∈ srcs, ∀ t ∈ ts,
      (c = 56#6 → (g.thread t).b0.valid = true) ∧ (c = 57#6 → (g.thread t).b1.valid = true) := by
  simp only [needsBadLatch, laneNeeds, List.any_eq_false, Bool.or_eq_true, Bool.and_eq_true, List.any_eq_true, beq_iff_eq,
    exists_eq_right, Bool.not_eq_true', not_or, not_and, Bool.not_eq_false]
  exact ⟨fun h c hc t ht => ⟨fun e => (h t ht).1 (e ▸ hc), fun e => (h t ht).2 (e ▸ hc)⟩,
    fun h t ht => ⟨fun hc => (h _ hc t ht).1 rfl, fun hc => (h _ hc t ht).2 rfl⟩⟩

/-- A list of causes in order gives none where its first cause does not apply and the rest gives none. -/
theorem ite_some_eq_none_iff {α : Type} {p : Prop} [Decidable p] {a : α} {x : Option α} :
    (if p then some a else x) = none ↔ ¬p ∧ x = none := by
  by_cases h : p
  · simp only [h, if_true, reduceCtorEq, not_true, false_and]
  · simp only [h, if_false, not_false_eq_true, true_and]

/-- R51 for a lane form by its checks: causes 3, 4, 7 and 8 are the ones it can have. -/
theorem illopCause_lane_checks {i : Instr} (hn : i.needs = laneNeeds srcs d samples) (hr : recipeRefuses i = false)
    (g : Group) (ts : List Nat) :
    illopCause i g ts false false = none ↔
      needsBadCode (laneNeeds srcs d samples) = false ∧ needsBadReg (laneNeeds srcs d samples) g.nregs = false ∧
      needsBadLatch (laneNeeds srcs d samples) g ts = false ∧
        (samples = true → (RMode.ofCode g.fpmode).isSome = true) := by
  have run : needsBadRun (laneNeeds srcs d samples) = false := rfl
  have first : (!(laneNeeds srcs d samples).sel || g.recipe && false || false) = false := by
    rw [Bool.and_false]; rfl
  have priv : ((laneNeeds srcs d samples).priv && g.mode == Mode.user) = false := rfl
  have mode : ((laneNeeds srcs d samples).samples && (RMode.ofCode g.fpmode).isNone) = false ↔
      (samples = true → (RMode.ofCode g.fpmode).isSome = true) := by
    rw [Bool.and_eq_false_imp, Option.isNone_eq_false_iff]
    exact Iff.rfl
  have wins : ((laneNeeds srcs d samples).wins.any fun w => !(g.win w.toNat).set) = false := rfl
  simp only [illopCause, hn, hr, first, priv, run, wins, Bool.or_false, ite_some_eq_none_iff, Bool.not_eq_true,
    Bool.false_eq_true, if_false, and_true, mode]

/-- R51 for a lane form: its sources are readable, its destination is a register of the entry, and the rounding mode is
assigned where it samples one. -/
theorem illopCause_lane {i : Instr} (hn : i.needs = laneNeeds srcs d samples) (hr : recipeRefuses i = false) (g : Group)
    (ts : List Nat) :
    illopCause i g ts false false = none ↔
      (∀ c ∈ srcs, g.Readable ts c) ∧ d.toNat < 48 ∧ d.toNat < g.nregs ∧
        (samples = true → (RMode.ofCode g.fpmode).isSome = true) := by
  rw [illopCause_lane_checks srcs d samples hn hr, needsBadCode_lane, needsBadReg_lane, needsBadLatch_lane]
  constructor
  · rintro ⟨⟨code, h48⟩, ⟨reg, hd⟩, latch, mode⟩
    exact ⟨fun c hc => ⟨code c hc, reg c hc, latch c hc⟩, h48, hd h48, mode⟩
  · rintro ⟨readable, h48, hd, mode⟩
    exact ⟨⟨fun c hc => (readable c hc).code, h48⟩, ⟨fun c hc => (readable c hc).reg, fun _ => hd⟩,
      fun c hc => (readable c hc).latch, mode⟩

end

/-! ## Per-thread forms that compute the same -/

/-- A thread's result leaves a near group near. -/
theorem Group.Near.laneResult {g h : Group} (hn : g.Near h) (w : Bool) (d : Nat) {t : Nat} (ht : t < 32)
    (r : Word × Flags) : g.Near (h.laneResult w d t r) :=
  (laneResult_part g w d t ht (fun _ _ => r) fun _ _ _ => rfl).near h hn

/-- A thread's result leaves every other thread as it was. -/
theorem laneResult_thread_other (h : Group) (w : Bool) (d : Nat) {t u : Nat} (ht : t < 32) (hu : u ≠ t)
    (r : Word × Flags) : (h.laneResult w d t r).thread u = h.thread u :=
  (laneResult_part h w d t ht (fun _ _ => r) fun _ _ _ => rfl).other h u hu

/-- Two forms whose results agree wherever a thread still stands as it did before the instruction make the same group. -/
theorem eachThread_laneResult_congr {g : Group} (w : Bool) (d : Nat) {op op' : Group → Nat → Word × Flags}
    (hop : ∀ h t, g.Near h → h.thread t = g.thread t → op h t = op' h t) (ts : List Nat) (hd : ts.Nodup)
    (hlt : ∀ t ∈ ts, t < 32) (h : Group) (hn : g.Near h) (hs : ∀ t ∈ ts, h.thread t = g.thread t) :
    (h.eachThread ts fun h t => h.laneResult w d t (op h t)) = h.eachThread ts fun h t => h.laneResult w d t (op' h t) := by
  induction ts generalizing h with
  | nil => rfl
  | cons t ts ih =>
    obtain ⟨hnt, hd⟩ := List.nodup_cons.1 hd
    obtain ⟨ht, hlt⟩ := List.forall_mem_cons.1 hlt
    obtain ⟨hst, hs⟩ := List.forall_mem_cons.1 hs
    simp only [Group.eachThread, List.foldl_cons, hop h t hn hst]
    refine ih hd hlt _ (hn.laneResult w d ht _) fun u hu => ?_
    rw [laneResult_thread_other h w d ht (fun e => hnt (e ▸ hu)), hs u hu]

/-- The same over the active threads of the group. -/
theorem active_laneResult_congr {g : Group} (w : Bool) (d : Nat) {op op' : Group → Nat → Word × Flags}
    (hop : ∀ h t, g.Near h → h.thread t = g.thread t → op h t = op' h t) :
    (g.eachThread g.active fun h t => h.laneResult w d t (op h t)) =
      g.eachThread g.active fun h t => h.laneResult w d t (op' h t) :=
  eachThread_laneResult_congr w d hop g.active (active_nodup g) (fun _ => active_lt) g (Group.Near.rfl' g) fun _ _ => rfl

/-- A source code below 48 reads the thread's register. -/
theorem Group.src_reg (g : Group) {c : BitVec 6} (h : c.toNat < 48) (t : Nat) : g.src c t = (g.thread t).reg c.toNat := by
  simp [Group.src, h]

/-- The code `z` reads zero. -/
theorem Group.src_z (g : Group) (t : Nat) : g.src 60#6 t = 0#32 := rfl

end Sys2Proof.Machine

namespace Sys2Proof.Spec

open Sys2Proof.Machine

/-! ## The 16-bit forms and their counterparts (R33) -/

/-- The destination of a 16-bit form as the 6-bit code of its counterpart. -/
def wideD (f : H16) : BitVec 6 := f.d.setWidth 6

theorem wideD_toNat (f : H16) : (wideD f).toNat = f.d.toNat := by
  simp only [wideD, BitVec.toNat_setWidth]
  omega

theorem wideD_lt (f : H16) : (wideD f).toNat < 48 := by
  rw [wideD_toNat]
  omega

/-- The fields of the counterpart with g = 0, W = 0 and a = d. -/
def twoAddress (f : H16) : T3 := ⟨false, 0#3, f.s, wideD f, wideD f, false⟩

/-- What R33 says of operation `k`: `i` is the 16-bit form and `j` the 32-bit counterpart of the fields `f`. -/
def HalfMatches (k : Nat) (f : H16) (i j : Instr) : Prop :=
  encodeWord i = some (2 * k + 32 * f.d.toNat + 1024 * f.s.toNat) ∧ i.size = 2 ∧
    ∀ (s : State) (g : Group), Ready i s g g.active →
      ∃ g', exec i s = .next (s.retire g' 2 (laneCycles g) false) ∧
        exec j s = .next (s.retire g' 4 (laneCycles g) false)

/-- How the model encodes, runs and checks the 16-bit form `i` of operation `k`: `op` of d and s, its sources being s and
`extra`. -/
structure HalfForm (k : Nat) (f : H16) (i : Instr) (op : Group → Nat → Word → Word → Word × Flags)
    (extra : List (BitVec 6)) (samples : Bool) : Prop where
  word   : encodeWord i = some (f.bits + 2 * k)
  size   : i.size = 2
  runs   : ∀ s, exec i s = laneH16 i f op s
  needs  : i.needs = laneNeeds (f.s :: extra) (BitVec.ofNat 6 f.d.toNat) samples
  recipe : recipeRefuses i = false

/-- How the model runs and checks the class 00 form `j` of two operands: `op` of a and b. -/
structure WideForm (f : T3) (j : Instr) (op : Group → Nat → Word → Word → Word × Flags) (samples : Bool) : Prop where
  runs   : ∀ s, exec j s = laneT3 j f op s
  needs  : j.needs = laneNeeds [f.a, f.b] f.d samples
  recipe : recipeRefuses j = false

section
variable {k : Nat} {f : H16} {i j : Instr} {op : Group → Nat → Word → Word → Word × Flags} {extra : List (BitVec 6)}
  {samples : Bool}

/-- A counterpart reads what the 16-bit form reads, its destination and `z`: where that has no ILLOP cause, neither has
this. -/
theorem HalfForm.ready_of_reads (hi : HalfForm k f i op extra samples) {srcs : List (BitVec 6)}
    (hj : j.needs = laneNeeds srcs (wideD f) samples) (hr : recipeRefuses j = false)
    (hs : ∀ c ∈ srcs, c ∈ f.s :: extra ∨ c = wideD f ∨ c = 60#6) {s : State} {g : Group} (h : Ready i s g g.active) :
    Ready j s g g.active := by
  obtain ⟨hg, hc⟩ := h
  obtain ⟨readable, h48, hn, mode⟩ := (illopCause_lane _ _ _ hi.needs hi.recipe g g.active).1 hc
  rw [BitVec.ofNat_toNat] at h48 hn
  refine ⟨hg, (illopCause_lane _ _ _ hj hr g g.active).2 ⟨fun c hc => ?_, h48, hn, mode⟩⟩
  obtain hc | rfl | rfl := hs c hc
  · exact readable c hc
  · exact Group.readable_reg _ h48 hn
  · exact Group.readable_z g _

/-- A 16-bit form matches a counterpart that gives each active thread, as it stood before the instruction, the same
result. -/
theorem HalfForm.matches_of_runs (hi : HalfForm k f i op extra samples) {op' : Group → Group → Nat → Word × Flags}
    (hj : ∀ (s : State) (g : Group), Ready i s g g.active → exec j s = .next (s.retire
      (g.eachThread g.active fun h t => h.laneResult false f.d.toNat t (op' g h t)) 4 (laneCycles g) false))
    (hop : ∀ g h t, g.Near h → h.thread t = g.thread t →
      op g t ((h.thread t).reg f.d.toNat) (h.src f.s t) = op' g h t) : HalfMatches k f i j := by
  refine ⟨?_, hi.size, fun s g h => ⟨_, ?_, hj s g h⟩⟩
  · rw [hi.word, H16.bits]
    congr 1
    omega
  · rw [← active_laneResult_congr false f.d.toNat (hop g)]
    exact (hi.runs s).trans (issuePlain_next h.1 h.2)

/-- A ready class 00 form with no guard and W = 0 gives each active thread its result. -/
theorem WideForm.exec_ready {a b d : BitVec 6} (hj : WideForm ⟨false, 0#3, b, a, d, false⟩ j op samples) {s : State}
    {g : Group} (h : Ready j s g g.active) :
    exec j s = .next (s.retire (g.eachThread g.active fun h t =>
      h.laneResult false d.toNat t (op g t (h.src a t) (h.src b t))) 4 (laneCycles g) false) := by
  obtain ⟨hg, hc⟩ := h
  rw [hj.runs, laneT3, issueChecked_next hg (by rw [participants_zero]; exact hc), participants_zero]
  rfl

/-- A 16-bit form matches the class 00 form of the same operation with a = d. -/
theorem HalfMatches.of_wideForm (hi : HalfForm k f i op [] samples) (hj : WideForm (twoAddress f) j op samples) :
    HalfMatches k f i j := by
  refine hi.matches_of_runs (op' := fun g h t => op g t (h.src (wideD f) t) (h.src f.s t))
    (fun s g h => ?_) fun g h t _ _ => ?_
  · rw [← wideD_toNat]
    exact hj.exec_ready (hi.ready_of_reads hj.needs hj.recipe (by simp [twoAddress]) h)
  · rw [Group.src_reg h (wideD_lt f), wideD_toNat]

end

theorem add_16_matches (f : H16) : HalfMatches 1 f (.add_16 f) (.add (twoAddress f)) :=
  .of_wideForm (op := fun _ _ a b => noFlags (a + b))
    ⟨rfl, rfl, fun _ => rfl, rfl, rfl⟩ ⟨fun _ => rfl, rfl, rfl⟩
theorem sub_16_matches (f : H16) : HalfMatches 2 f (.sub_16 f) (.sub (twoAddress f)) :=
  .of_wideForm (op := fun _ _ a b => noFlags (a - b))
    ⟨rfl, rfl, fun _ => rfl, rfl, rfl⟩ ⟨fun _ => rfl, rfl, rfl⟩
theorem mul_16_matches (f : H16) : HalfMatches 3 f (.mul_16 f) (.mul (twoAddress f)) :=
  .of_wideForm (op := fun _ _ a b => noFlags (a * b))
    ⟨rfl, rfl, fun _ => rfl, rfl, rfl⟩ ⟨fun _ => rfl, rfl, rfl⟩
theorem and_16_matches (f : H16) : HalfMatches 4 f (.and_16 f) (.and (twoAddress f)) :=
  .of_wideForm (op := fun _ _ a b => noFlags (a &&& b))
    ⟨rfl, rfl, fun _ => rfl, rfl, rfl⟩ ⟨fun _ => rfl, rfl, rfl⟩
theorem or_16_matches (f : H16) : HalfMatches 5 f (.or_16 f) (.or (twoAddress f)) :=
  .of_wideForm (op := fun _ _ a b => noFlags (a ||| b))
    ⟨rfl, rfl, fun _ => rfl, rfl, rfl⟩ ⟨fun _ => rfl, rfl, rfl⟩
theorem xor_16_matches (f : H16) : HalfMatches 6 f (.xor_16 f) (.xor (twoAddress f)) :=
  .of_wideForm (op := fun _ _ a b => noFlags (a ^^^ b))
    ⟨rfl, rfl, fun _ => rfl, rfl, rfl⟩ ⟨fun _ => rfl, rfl, rfl⟩
theorem shl_16_matches (f : H16) : HalfMatches 7 f (.shl_16 f) (.shl (twoAddress f)) :=
  .of_wideForm (op := fun _ _ a b => noFlags (shl a b))
    ⟨rfl, rfl, fun _ => rfl, rfl, rfl⟩ ⟨fun _ => rfl, rfl, rfl⟩
theorem shr_16_matches (f : H16) : HalfMatches 8 f (.shr_16 f) (.shr (twoAddress f)) :=
  .of_wideForm (op := fun _ _ a b => noFlags (shr a b))
    ⟨rfl, rfl, fun _ => rfl, rfl, rfl⟩ ⟨fun _ => rfl, rfl, rfl⟩
theorem fadd_16_matches (f : H16) : HalfMatches 9 f (.fadd_16 f) (.fadd (twoAddress f)) :=
  .of_wideForm (op := fun g t a b => (fAdd fp32 (g.laneRnd t 0) a.toNat b.toNat).word)
    ⟨rfl, rfl, fun _ => rfl, rfl, rfl⟩ ⟨fun _ => rfl, rfl, rfl⟩
theorem fsub_16_matches (f : H16) : HalfMatches 10 f (.fsub_16 f) (.fsub (twoAddress f)) :=
  .of_wideForm (op := fun g t a b => (fSub fp32 (g.laneRnd t 0) a.toNat b.toNat).word)
    ⟨rfl, rfl, fun _ => rfl, rfl, rfl⟩ ⟨fun _ => rfl, rfl, rfl⟩
theorem fmul_16_matches (f : H16) : HalfMatches 11 f (.fmul_16 f) (.fmul (twoAddress f)) :=
  .of_wideForm (op := fun g t a b => (fMul fp32 (g.laneRnd t 0) a.toNat b.toNat).word)
    ⟨rfl, rfl, fun _ => rfl, rfl, rfl⟩ ⟨fun _ => rfl, rfl, rfl⟩
theorem fmin_16_matches (f : H16) : HalfMatches 12 f (.fmin_16 f) (.fmin (twoAddress f)) :=
  .of_wideForm (op := fun _ _ a b => (fMinMax fp32 false a.toNat b.toNat).word)
    ⟨rfl, rfl, fun _ => rfl, rfl, rfl⟩ ⟨fun _ => rfl, rfl, rfl⟩
theorem fmax_16_matches (f : H16) : HalfMatches 13 f (.fmax_16 f) (.fmax (twoAddress f)) :=
  .of_wideForm (op := fun _ _ a b => (fMinMax fp32 true a.toNat b.toNat).word)
    ⟨rfl, rfl, fun _ => rfl, rfl, rfl⟩ ⟨fun _ => rfl, rfl, rfl⟩
theorem fadd2F16_16_matches (f : H16) : HalfMatches 15 f (.fadd2F16_16 f) (.fadd2F16 (twoAddress f)) :=
  .of_wideForm (op := fun g t a b => (packed2 (fAdd fp16) (g.laneRnd t) a.toNat b.toNat).word)
    ⟨rfl, rfl, fun _ => rfl, rfl, rfl⟩ ⟨fun _ => rfl, rfl, rfl⟩

/-- `mov` is `or d, s, z`. -/
theorem mov_matches (f : H16) : HalfMatches 0 f (.mov f) (.or ⟨false, 0#3, 60#6, f.s, wideD f, false⟩) := by
  have hi : HalfForm 0 f (.mov f) (fun _ _ _ b => noFlags b) [] false := ⟨rfl, rfl, fun _ => rfl, rfl, rfl⟩
  have hj : WideForm ⟨false, 0#3, 60#6, f.s, wideD f, false⟩ (.or ⟨false, 0#3, 60#6, f.s, wideD f, false⟩)
    (fun _ _ a b => noFlags (a ||| b)) false := ⟨fun _ => rfl, rfl, rfl⟩
  refine hi.matches_of_runs (op' := fun _ h t => noFlags (h.src f.s t ||| h.src 60#6 t))
    (fun s g h => ?_) fun g h t _ _ => ?_
  · rw [← wideD_toNat]
    exact hj.exec_ready (hi.ready_of_reads hj.needs hj.recipe (by simp) h)
  · rw [Group.src_z, BitVec.or_zero]

/-- `ffmb` takes b0 as it stood before the instruction, `ffma` as it stands when the thread's turn comes: no other thread's
turn changes it. -/
theorem ffmb_matches (f : H16) : HalfMatches 14 f (.ffmb f) (.ffma ⟨wideD f, 56#6, f.s, wideD f, false⟩) := by
  have hi : HalfForm 14 f (.ffmb f)
      (fun g t a b => (fFma fp32 (g.laneRnd t 0) b.toNat (g.src 56#6 t).toNat a.toNat).word) [56#6] true :=
    ⟨rfl, rfl, fun _ => rfl, rfl, rfl⟩
  refine hi.matches_of_runs (op' := fun g h t =>
    (fFma fp32 (g.laneRnd t 0) (h.src f.s t).toNat (h.src 56#6 t).toNat (h.src (wideD f) t).toNat).word)
    (fun s g h => ?_) fun g h t hn ht => ?_
  · rw [← wideD_toNat]
    obtain ⟨hg, hc⟩ := hi.ready_of_reads (j := .ffma ⟨wideD f, 56#6, f.s, wideD f, false⟩) rfl rfl (by simp) h
    exact issuePlain_next hg hc
  · rw [Group.src_reg h (wideD_lt f), wideD_toNat, hn.src ht 56#6]

/-- Every entry of the table matches at its index. -/
theorem halfTable_matches : ∀ p ∈ halfTable.zipIdx, ∀ f, HalfMatches p.2 f (p.1.1 f) (p.1.2 f) := by
  simp only [halfTable, List.zipIdx_cons, List.zipIdx_nil, List.forall_mem_cons]
  exact ⟨mov_matches, add_16_matches, sub_16_matches, mul_16_matches, and_16_matches, or_16_matches, xor_16_matches,
    shl_16_matches, shr_16_matches, fadd_16_matches, fsub_16_matches, fmul_16_matches,
    fmin_16_matches, fmax_16_matches, ffmb_matches, fadd2F16_16_matches, nofun⟩

/-- Settles O4: every row of R33's table, by the lemma of its entry. -/
theorem halfwordFormsMatch : Obligations.HalfwordFormsMatch :=
  fun _ e he f => halfTable_matches (e, _) (List.mem_zipIdx_iff_getElem?.2 he) f

end Sys2Proof.Spec

namespace Sys2Proof.Machine

/-! ## Patterns as numbers -/

section
variable {n : Nat}

theorem ofInt_natCast_toNat (a : BitVec n) : BitVec.ofInt n a.toNat = a := by
  rw [BitVec.ofInt_natCast, BitVec.ofNat_toNat, BitVec.setWidth_eq]

theorem ofInt_sub (x y : Int) : BitVec.ofInt n (x - y) = BitVec.ofInt n x - BitVec.ofInt n y := by
  rw [Int.sub_eq_add_neg, BitVec.ofInt_add, BitVec.ofInt_neg, BitVec.sub_eq_add_neg]

/-- A left shift multiplies by the power of two. -/
theorem shiftLeft_eq_ofInt (a : BitVec n) (k : Nat) : a <<< k = BitVec.ofInt n (a.toNat * 2 ^ k) := by
  apply BitVec.eq_of_toNat_eq
  rw [BitVec.toNat_shiftLeft, Nat.shiftLeft_eq, ← BitVec.toNat_ofNat, ← BitVec.ofInt_natCast]
  norm_cast

/-- A logical right shift divides by the power of two. -/
theorem ushiftRight_eq_ofInt (a : BitVec n) (k : Nat) : a >>> k = BitVec.ofInt n (a.toNat / 2 ^ k) := by
  have h : ((a >>> k).toNat : Int) = a.toNat / 2 ^ k := by
    rw [BitVec.toNat_ushiftRight, Nat.shiftRight_eq_div_pow]
    norm_cast
  rw [← h, ofInt_natCast_toNat]

/-- An arithmetic right shift divides the signed number, rounding down. -/
theorem sshiftRight_eq_ofInt (a : BitVec n) (k : Nat) : a.sshiftRight k = BitVec.ofInt n (a.toInt / 2 ^ k) := by
  rw [BitVec.sshiftRight, Int.shiftRight_eq_div_pow]
  norm_cast

/-- The smaller of two signed numbers. -/
theorem ite_slt_min (a b : BitVec n) : (if b.slt a then b else a) = if a.toInt ≤ b.toInt then a else b := by
  simp only [BitVec.slt_iff_toInt_lt, ← Int.not_le, ite_not]

/-- The larger of two signed numbers. -/
theorem ite_slt_max (a b : BitVec n) : (if a.slt b then b else a) = if a.toInt ≤ b.toInt then b else a := by
  rcases Int.lt_trichotomy a.toInt b.toInt with h | h | h
  · simp [BitVec.slt_iff_toInt_lt, h, Int.le_of_lt h]
  · simp [BitVec.toInt_inj.1 h]
  · simp [BitVec.slt_iff_toInt_lt, Int.not_lt.2 (Int.le_of_lt h), Int.not_le.2 h]

/-- The smaller of two unsigned numbers. -/
theorem ite_ult_min (a b : BitVec n) : (if b.ult a then b else a) = if a.toNat ≤ b.toNat then a else b := by
  simp only [BitVec.ult_iff_lt, BitVec.lt_def, ← Nat.not_le, ite_not]

/-- The larger of two unsigned numbers. -/
theorem ite_ult_max (a b : BitVec n) : (if a.ult b then b else a) = if a.toNat ≤ b.toNat then b else a := by
  rcases Nat.lt_trichotomy a.toNat b.toNat with h | h | h
  · simp [BitVec.ult_iff_lt, BitVec.lt_def, h, Nat.le_of_lt h]
  · simp [BitVec.eq_of_toNat_eq h]
  · simp [BitVec.ult_iff_lt, BitVec.lt_def, Nat.not_lt.2 (Nat.le_of_lt h), Nat.not_le.2 h]

/-- The complement of signed `<` is `≤` the other way. -/
theorem not_slt_iff_toInt_le (a b : BitVec n) : (!a.slt b) = true ↔ b.toInt ≤ a.toInt := by
  rw [← BitVec.sle_eq_not_slt, BitVec.sle_iff_toInt_le]

/-- The complement of unsigned `<` is `≤` the other way. -/
theorem not_ult_iff_toNat_le (a b : BitVec n) : (!a.ult b) = true ↔ b.toNat ≤ a.toNat := by
  rw [← BitVec.ule_eq_not_ult, BitVec.ule_iff_toNat_le]

end

/-! ## Bits of a word, counted and mirrored -/

/-- The mask of a list has the bits that the list names. -/
theorem getLsbD_maskOf_iff (ts : List Nat) (i : Nat) : (maskOf ts).getLsbD i = true ↔ i < 32 ∧ i ∈ ts := by
  suffices h : ∀ m : Word, (ts.foldl (fun m t => m ||| (1#32 <<< t)) m).getLsbD i = true ↔
      m.getLsbD i = true ∨ i < 32 ∧ i ∈ ts by
    rw [maskOf, h 0#32, BitVec.getLsbD_zero]
    simp
  intro m
  induction ts generalizing m with
  | nil => simp
  | cons t ts ih =>
    have own : (1#32 <<< t).getLsbD i = true ↔ i < 32 ∧ i = t := by
      simp
      omega
    rw [List.foldl_cons, ih, BitVec.getLsbD_or, Bool.or_eq_true, own, or_assoc, ← and_or_left, List.mem_cons]

/-- The places below `k` with a 1 bit, counted. -/
theorem countBits_eq_length (a k : Nat) : countBits a k = ((List.range k).filter a.testBit).length := by
  induction k with
  | zero => rfl
  | succ k ih => rw [countBits, ih, List.range_succ, List.filter_append]; by_cases h : a.testBit k <;> simp [h]

/-- The bits below `k` stand mirrored. -/
theorem testBit_reverseBits (a k i : Nat) : (reverseBits a k).testBit i = (decide (i < k) && a.testBit (k - 1 - i)) := by
  induction k generalizing i with
  | zero => simp [reverseBits]
  | succ k ih =>
    cases i with
    | zero => by_cases h : a.testBit k <;> simp [reverseBits, h, Nat.testBit_zero]
    | succ i =>
      have half : reverseBits a (k + 1) / 2 = reverseBits a k := by
        rw [reverseBits]; split <;> omega
      simp only [Nat.testBit_add_one, half, ih, Nat.add_lt_add_iff_right, Nat.add_sub_cancel]
      rw [Nat.sub_add_eq, Nat.sub_right_comm]

/-- The places up to the first one where a test fails are as many as precede it. -/
theorem length_takeWhile_range {p : Nat → Bool} {m n : Nat} (hm : m < n) (hp : ∀ i < m, p i = true) (hf : p m = false) :
    ((List.range n).takeWhile p).length = m := by
  obtain ⟨k, rfl⟩ := Nat.exists_eq_add_of_lt hm
  rw [Nat.add_assoc, List.range_add, List.takeWhile_append_of_pos (by simpa using hp), List.range_succ_eq_map]
  simp [hf]

/-! ## Participants and the flashback state -/

/-- No register written leaves the flashback state. -/
theorem touchAll_nil (x : Option Flash) : touchAll [] x = x := by
  cases x <;> rfl

/-- A group's participants stand in ascending order (R228). -/
theorem participants_sorted (g : Group) (c : BitVec 3) : (g.participants c).Pairwise (· < ·) :=
  (List.pairwise_lt_range.filter _).filter _

end Sys2Proof.Machine

namespace Sys2Proof.Spec

open Sys2Proof.Machine

/-! ## The integer values (R229, R230) -/

theorem wrap_natCast (n : Nat) : wrap n = BitVec.ofNat 32 n := BitVec.ofInt_natCast ..
theorem wrap_toInt (a : Word) : wrap a.toInt = a := BitVec.ofInt_toInt

theorem add_eq_wrap (a b : Word) : a + b = wrap (a.toNat + b.toNat) := by
  rw [wrap, BitVec.ofInt_add, ofInt_natCast_toNat, ofInt_natCast_toNat]

theorem sub_eq_wrap (a b : Word) : a - b = wrap (a.toNat - b.toNat) := by
  rw [wrap, ofInt_sub, ofInt_natCast_toNat, ofInt_natCast_toNat]

theorem mul_eq_wrap (a b : Word) : a * b = wrap (a.toNat * b.toNat) := by
  rw [wrap, BitVec.ofInt_mul, ofInt_natCast_toNat, ofInt_natCast_toNat]

theorem mulHi_true_eq_wrap (a b : Word) : mulHi true a b = wrap (a.toInt * b.toInt / 2 ^ 32) := rfl

theorem mulHi_false_eq_wrap (a b : Word) : mulHi false a b = wrap ((a.toNat : Int) * b.toNat / 2 ^ 32) := by
  rw [wrap, ← Int.natCast_mul]; rfl

theorem shl_eq_shiftLeft (a b : Word) : shl a b = shiftLeft a b := by
  rw [shl, shiftLeft, shiftLeft_eq_ofInt]; rfl

theorem shr_eq_shiftRight (a b : Word) : shr a b = shiftRight a b := by
  rw [shr, shiftRight, ushiftRight_eq_ofInt]; rfl

theorem sar_eq_shiftArith (a b : Word) : sar a b = shiftArith a b := by
  rw [sar, shiftArith, sshiftRight_eq_ofInt, BitVec.msb_eq_toInt]
  simp only [decide_eq_true_eq]
  rfl

theorem rotl_eq_rotate (a b : Word) : rotl a b = rotate a b := by
  rw [rotl, BitVec.rotateLeft, BitVec.rotateLeftAux, Nat.mod_mod, shiftLeft_eq_ofInt, ushiftRight_eq_ofInt]; rfl

theorem bfe_eq_extract (sgn : Bool) (a b : Word) : bfe sgn a b = extract sgn a b := by
  simp only [bfe, Bool.and_eq_true, decide_eq_true_eq, and_assoc]
  rfl

theorem absS_eq_wrap (a : Word) : absS a = wrap (a.toInt.natAbs : Int) := by
  rw [absS, BitVec.msb_eq_toInt]
  by_cases h : a.toInt < 0
  · rw [decide_eq_true h, if_pos rfl, Int.ofNat_natAbs_of_nonpos (by omega), wrap, BitVec.ofInt_neg, BitVec.ofInt_toInt]
  · rw [decide_eq_false h, if_neg (by decide), Int.natAbs_of_nonneg (by omega), wrap_toInt]

theorem neg_eq_wrap (a : Word) : -a = wrap (-a.toInt) := by
  rw [wrap, BitVec.ofInt_neg, BitVec.ofInt_toInt]

theorem popc_eq_ones (a : Word) : popc a = wrap (ones a) := by
  rw [popc, countBits_eq_length, wrap_natCast]; rfl

theorem brev_eq_reversed (a : Word) : brev a = reversed a := by
  apply BitVec.eq_of_getLsbD_eq
  intro i hi
  rw [Bool.eq_iff_iff, reversed, getLsbD_maskOf_iff, brev, BitVec.getLsbD_ofNat, testBit_reverseBits]
  simp [hi, BitVec.getLsbD]

/-- The highest 1 bit of a word stands below the leading zeros. -/
theorem leadingZeros_of_ne {a : Word} (h : a ≠ 0#32) : leadingZeros a = 31 - Nat.log2 a.toNat := by
  have hn : a.toNat ≠ 0 := fun e => h (BitVec.eq_of_toNat_eq e)
  have hk : Nat.log2 a.toNat < 32 := (Nat.log2_lt hn).2 a.isLt
  refine length_takeWhile_range (by omega) (fun i hi => ?_) ?_
  · have low : a.toNat < 2 ^ (31 - i) := (Nat.log2_lt hn).1 (by omega)
    rw [BitVec.getLsbD, Nat.testBit_lt_two_pow low]; rfl
  · rw [show 31 - (31 - Nat.log2 a.toNat) = Nat.log2 a.toNat by omega, BitVec.getLsbD, Nat.testBit_log2 hn]; rfl

theorem clz_eq_leadingZeros (a : Word) : clz a = wrap (leadingZeros a) := by
  by_cases h : a = 0#32
  · subst h; decide
  · rw [clz, if_neg h, wrap_natCast, leadingZeros_of_ne h]

/-! ## Lane forms with one result a participant -/

/-- The statements' flashback rule is that of the laws. -/
theorem flashAfter_eq_touchAll (g : Group) (ds : List Nat) : flashAfter g ds = touchAll ds g.flash := rfl

/-- Threads that set no flag join none. -/
theorem flagsOver_zero (ts : List Nat) : (flagsOver ts fun _ => 0#7) = 0#7 := foldl_noFlags ts 0#7

/-- A form over distinct threads that reads no thread but the one it writes gives each its result. -/
theorem laneResults_eachThread (g : Group) (w : Bool) (d : Nat) (op : Group → Nat → Word × Flags)
    (hop : ∀ h t, g.Near h → h.thread t = g.thread t → op h t = op g t) {ts : List Nat} (hd : ts.Nodup)
    (hlt : ∀ t ∈ ts, t < 32) :
    LaneResults g (g.eachThread ts fun h t => h.laneResult w d t (op h t)) ts w d (fun t => (op g t).1)
      (flagsOver ts fun t => (op g t).2) := by
  obtain ⟨near, threads, flash, flags⟩ := eachThread_parts (touchAll_idem _) ts hd
    (fun t ht => laneResult_part g w d t (hlt t ht) op (hop · t)) g (Group.Near.rfl' g) fun _ _ => rfl
  refine ⟨fun t _ => threads t, near, ?_, flags.trans (foldl_flags ..)⟩
  rw [flash, flashAfter_eq_touchAll]
  cases w <;> cases ts <;> simp [touchAll_nil]

/-- Flags joined after the results. -/
theorem LaneResults.orFlags {g g' : Group} {ts : List Nat} {w : Bool} {d : Nat} {r : Nat → Word} {fl : Flags}
    (h : LaneResults g g' ts w d r fl) (fl' : Flags) : LaneResults g (g'.orFlags fl') ts w d r (fl ||| fl') := by
  obtain ⟨threads, near, flash, flags⟩ := h
  refine ⟨threads, near, flash, ?_⟩
  rw [← BitVec.or_assoc, ← flags]
  rfl

/-- A class 00 form of two operands gives each participant its result of a and b, and FFLAGS the flags of them all. -/
theorem laneT3_completes {i : Instr} {f : T3} {op : Group → Nat → Word → Word → Word × Flags} {s : State} (g : Group)
    (hi : exec i s = laneT3 i f op s) :
    Completes i s g (g.participants f.g) 4 (laneCycles g) f.e fun g' =>
      LaneResults g g' (g.participants f.g) f.w f.d.toNat (fun t => (op g t (g.src f.a t) (g.src f.b t)).1)
        (flagsOver (g.participants f.g) fun t => (op g t (g.src f.a t) (g.src f.b t)).2) := by
  rintro ⟨hg, hc⟩
  exact ⟨_, hi.trans (issueChecked_next hg hc),
    laneResults_eachThread g f.w f.d.toNat (fun h t => op g t (h.src f.a t) (h.src f.b t))
      (fun h t hn ht => by rw [hn.src ht, hn.src ht]) (participants_nodup g f.g) fun _ => participants_lt⟩

/-- A class 00 form of one operand likewise. -/
theorem laneT2_completes {i : Instr} {f : T2} {op : Group → Nat → Word → Word × Flags} {s : State} (g : Group)
    (hi : exec i s = laneT2 i f op s) :
    Completes i s g (g.participants f.g) 4 (laneCycles g) f.e fun g' =>
      LaneResults g g' (g.participants f.g) f.w f.d.toNat (fun t => (op g t (g.src f.a t)).1)
        (flagsOver (g.participants f.g) fun t => (op g t (g.src f.a t)).2) := by
  rintro ⟨hg, hc⟩
  exact ⟨_, hi.trans (issueChecked_next hg hc),
    laneResults_eachThread g f.w f.d.toNat (fun h t => op g t (h.src f.a t))
      (fun h t hn ht => by rw [hn.src ht]) (participants_nodup g f.g) fun _ => participants_lt⟩

/-! ## The integer instructions of class 00 -/

/-- The model runs `mk` as a class 00 form of two operands with the value `v` and no flag. -/
def IntForm (mk : T3 → Instr) (v : Word → Word → Word) : Prop :=
  ∀ f s, exec (mk f) s = laneT3 (mk f) f (fun _ _ a b => noFlags (v a b)) s

/-- The model runs `mk` as a class 00 form of one operand with the value `v` and no flag. -/
def IntForm1 (mk : T2 → Instr) (v : Word → Word) : Prop :=
  ∀ f s, exec (mk f) s = laneT2 (mk f) f (fun _ _ a => noFlags (v a)) s

/-- A form has one value under every name of it. -/
theorem IntForm.congr {mk : T3 → Instr} {v v' : Word → Word → Word} (h : IntForm mk v) (e : ∀ a b, v a b = v' a b) :
    IntForm mk v' := by
  rwa [← show v = v' from funext fun a => funext (e a)]

theorem IntForm1.congr {mk : T2 → Instr} {v v' : Word → Word} (h : IntForm1 mk v) (e : ∀ a, v a = v' a) :
    IntForm1 mk v' := by
  rwa [← funext e]

/-- Each row of the two-operand table has the value that the model computes. -/
theorem intTable_forms : ∀ e ∈ intTable, IntForm e.1 e.2 := by
  simp only [intTable, List.forall_mem_cons]
  exact ⟨.congr (fun _ _ => rfl) add_eq_wrap, .congr (fun _ _ => rfl) sub_eq_wrap, .congr (fun _ _ => rfl) mul_eq_wrap,
    .congr (fun _ _ => rfl) mulHi_true_eq_wrap, .congr (fun _ _ => rfl) mulHi_false_eq_wrap,
    .congr (fun _ _ => rfl) ite_slt_min, .congr (fun _ _ => rfl) ite_ult_min,
    .congr (fun _ _ => rfl) ite_slt_max, .congr (fun _ _ => rfl) ite_ult_max,
    fun _ _ => rfl, fun _ _ => rfl, fun _ _ => rfl, fun _ _ => rfl,
    .congr (fun _ _ => rfl) shl_eq_shiftLeft, .congr (fun _ _ => rfl) shr_eq_shiftRight,
    .congr (fun _ _ => rfl) sar_eq_shiftArith, .congr (fun _ _ => rfl) rotl_eq_rotate,
    .congr (fun _ _ => rfl) (bfe_eq_extract true), .congr (fun _ _ => rfl) (bfe_eq_extract false), nofun⟩

/-- Each row of the one-operand table has the value that the model computes. -/
theorem intTable1_forms : ∀ e ∈ intTable1, IntForm1 e.1 e.2 := by
  simp only [intTable1, List.forall_mem_cons]
  exact ⟨.congr (fun _ _ => rfl) absS_eq_wrap, .congr (fun _ _ => rfl) neg_eq_wrap,
    .congr (fun _ _ => rfl) clz_eq_leadingZeros, .congr (fun _ _ => rfl) popc_eq_ones,
    .congr (fun _ _ => rfl) brev_eq_reversed, nofun⟩

/-- Settles O1: every row of the tables is a lane form with the row's value, and such a form gives each participant its
result. -/
theorem integerLaneResults : Obligations.IntegerLaneResults := by
  refine ⟨fun e he f s g => ?_, fun e he f s g => ?_⟩
  · rw [← flagsOver_zero (g.participants f.g)]
    exact laneT3_completes g (intTable_forms e he f s)
  · rw [← flagsOver_zero (g.participants f.g)]
    exact laneT2_completes g (intTable1_forms e he f s)

/-! ## Values that move through time (R242) -/

/-- Results computed before any is written: each thread of the list receives its own, and FFLAGS the flags. -/
theorem laneResults_writeExchange (g : Group) (w : Bool) (d : Nat) (v : Nat → Word) (fl : Flags) {ts : List Nat}
    (hd : ts.Nodup) (hlt : ∀ t ∈ ts, t < 32) :
    LaneResults g (writeExchange g w d (ts.map fun t => (t, v t)) fl) ts w d v fl := by
  have each := laneResults_eachThread g w d (fun _ t => (v t, 0#7)) (fun _ _ _ _ => rfl) hd hlt
  have all := each.orFlags fl
  rw [flagsOver_zero, BitVec.zero_or] at all
  rw [writeExchange, List.foldl_map]
  exact all

/-- An exchange whose latch entries are valid gives each participant its value, and FFLAGS the flags. -/
theorem laneExchange_completes {i : Instr} {guard : BitVec 3} {w : Bool} {d : BitVec 6} {e : Bool} {passes : Group → Nat}
    {readers : Group → List Nat} {badLatch : Group → Bool} {op : Group → List Nat → List (Nat × Word) × Flags} {s : State}
    {g : Group} {v : Nat → Word} (hi : exec i s = laneExchange i guard w d e passes readers badLatch op s)
    (hl : badLatch g = false)
    (hv : (op g (g.participants guard)).1 = (g.participants guard).map fun t => (t, v t)) :
    Completes i s g (readers g) 4 (laneCycles g * passes g) e fun g' =>
      LaneResults g g' (g.participants guard) w d.toNat v (op g (g.participants guard)).2 := by
  rintro ⟨hg, hc⟩
  refine ⟨_, hi.trans (issueChecked_next hg (by rw [hl]; exact hc)), ?_⟩
  rw [hv]
  exact laneResults_writeExchange g w d.toNat v _ (participants_nodup g guard) fun _ => participants_lt

/-- In an ascending list the members below one of them are those before it. -/
theorem filter_lt_of_sorted {pre ts : List Nat} {t : Nat} (h : (pre ++ t :: ts).Pairwise (· < ·)) :
    ((pre ++ t :: ts).filter fun u => decide (u < t)) = pre := by
  obtain ⟨-, after, before⟩ := List.pairwise_append.1 h
  have after := (List.pairwise_cons.1 after).1
  rw [List.filter_append, List.filter_eq_self.2, List.filter_eq_nil_iff.2, List.append_nil]
  · rintro u hu
    obtain rfl | hu := List.mem_cons.1 hu
    · simp
    · simpa using Nat.le_of_lt (after u hu)
  · exact fun u hu => decide_eq_true (before u hu t List.mem_cons_self)

/-- In an ascending list the members above one of them are those after it. -/
theorem filter_gt_of_sorted {pre ts : List Nat} {t : Nat} (h : (pre ++ t :: ts).Pairwise (· < ·)) :
    ((pre ++ t :: ts).filter fun u => decide (t < u)) = ts := by
  obtain ⟨-, after, before⟩ := List.pairwise_append.1 h
  have after := (List.pairwise_cons.1 after).1
  rw [List.filter_append, List.filter_eq_nil_iff.2, List.nil_append, List.filter_cons_of_neg (by simp),
    List.filter_eq_self.2]
  · exact fun u hu => decide_eq_true (after u hu)
  · exact fun u hu => by simpa using Nat.le_of_lt (before u hu t List.mem_cons_self)

/-- R242: a value of the thread found, or one's own where there is none. -/
def foundOr {α : Type} (x : Option Nat) (own : α) (a : Nat → α) : α :=
  match x with
  | some u => a u
  | none => own

/-- `prev` over the rest of an ascending list, the part before it being `pre`. -/
theorem prevValues_append (a b : Nat → Word) (pre ts : List Nat) (h : (pre ++ ts).Pairwise (· < ·)) :
    prevValues a b pre.getLast? ts =
      ts.map fun t => (t, foundOr ((pre ++ ts).filter fun u => decide (u < t)).getLast? (b t) a) := by
  induction ts generalizing pre with
  | nil => cases pre.getLast? <;> rfl
  | cons t ts ih =>
    have rest := ih (pre ++ [t]) (by simpa using h)
    rw [List.getLast?_concat, List.append_assoc, List.singleton_append] at rest
    rw [List.map_cons, filter_lt_of_sorted h, ← rest]
    cases pre.getLast? <;> rfl

/-- `next` over the rest of an ascending list, the part before it being `pre`. -/
theorem nextValues_append (a b : Nat → Word) (pre ts : List Nat) (h : (pre ++ ts).Pairwise (· < ·)) :
    nextValues a b ts =
      ts.map fun t => (t, foundOr ((pre ++ ts).filter fun u => decide (t < u)).head? (b t) a) := by
  induction ts generalizing pre with
  | nil => rfl
  | cons t ts ih =>
    have rest := ih (pre ++ [t]) (by simpa using h)
    rw [List.append_assoc, List.singleton_append] at rest
    rw [List.map_cons, filter_gt_of_sorted h, ← rest]
    cases ts <;> rfl

/-- R242: each participant of `prev` takes a from the last participant before it, or its own b. -/
theorem prevValues_eq_map (a b : Nat → Word) {ts : List Nat} (h : ts.Pairwise (· < ·)) :
    prevValues a b none ts = ts.map fun t => (t, foundOr (ts.filter fun u => decide (u < t)).getLast? (b t) a) :=
  prevValues_append a b [] ts h

/-- R242: each participant of `next` takes a from the first participant after it, or its own b. -/
theorem nextValues_eq_map (a b : Nat → Word) {ts : List Nat} (h : ts.Pairwise (· < ·)) :
    nextValues a b ts = ts.map fun t => (t, foundOr (ts.filter fun u => decide (t < u)).head? (b t) a) :=
  nextValues_append a b [] ts h

theorem prev_completes (f : T3) (s : State) (g : Group) (hl : prevBadLatch g f = false) :
    Completes (.prev f) s g [] 4 (laneCycles g) f.e fun g' =>
      LaneResults g g' (g.participants f.g) f.w f.d.toNat
        (fun t => foundOr ((g.participants f.g).filter fun u => decide (u < t)).getLast? (g.src f.b t) (g.src f.a)) 0#7 := by
  rw [← Nat.mul_one (laneCycles g)]
  exact laneExchange_completes (op := fun g ts => (prevValues (g.src f.a) (g.src f.b) none ts, 0#7))
    (passes := onePass) (readers := fun _ => []) (badLatch := fun g => prevBadLatch g f) rfl hl
    (prevValues_eq_map _ _ (participants_sorted g f.g))

theorem next_completes (f : T3) (s : State) (g : Group) (hl : nextBadLatch g f = false) :
    Completes (.next f) s g [] 4 (laneCycles g * 2) f.e fun g' =>
      LaneResults g g' (g.participants f.g) f.w f.d.toNat
        (fun t => foundOr ((g.participants f.g).filter fun u => decide (t < u)).head? (g.src f.b t) (g.src f.a)) 0#7 :=
  laneExchange_completes (op := fun g ts => (nextValues (g.src f.a) (g.src f.b) ts, 0#7))
    (passes := twoPasses) (readers := fun _ => []) (badLatch := fun g => nextBadLatch g f) rfl hl
    (nextValues_eq_map _ _ (participants_sorted g f.g))

/-- The thread that `bcast` takes from, thread 0 where it has no participant. -/
theorem bcastSource_getD (g : Group) (f : T3) :
    (bcastSource g f).getD 0 = foundOr (g.participants f.g).head? 0 fun t => (g.src f.b t).toNat % 32 := by
  rw [bcastSource]
  cases (g.participants f.g).head? <;> rfl

theorem bcast_completes (f : T3) (s : State) (g : Group) (hl : bcastBadLatch g f = false) :
    Completes (.bcast f) s g [] 4
      (laneCycles g * if (bcastSource g f).getD 0 ≤ g.active.headD 0 then 1 else 2) f.e fun g' =>
      LaneResults g g' (g.participants f.g) f.w f.d.toNat (fun _ => takeFrom g f.a ((bcastSource g f).getD 0)) 0#7 :=
  laneExchange_completes (op := fun g ts => (ts.map fun t => (t, takeFrom g f.a ((bcastSource g f).getD 0)), 0#7))
    (passes := fun g => if (bcastSource g f).getD 0 ≤ g.active.headD 0 then 1 else 2) (readers := fun _ => [])
    (badLatch := fun g => bcastBadLatch g f) rfl hl rfl

theorem perm_completes (f : T3) (s : State) (g : Group) (hl : permBadLatch g f = false) :
    Completes (.perm f) s g [] 4 (laneCycles g * 2) f.e fun g' =>
      LaneResults g g' (g.participants f.g) f.w f.d.toNat
        (fun t => takeFrom g f.a ((g.src f.b t).toNat % 32)) 0#7 :=
  laneExchange_completes (op := fun g ts => (ts.map fun t => (t, takeFrom g f.a ((g.src f.b t).toNat % 32)), 0#7))
    (passes := twoPasses) (readers := fun _ => []) (badLatch := fun g => permBadLatch g f) rfl hl rfl

/-- Settles O6: the four moving instructions, each by its exchange. -/
theorem valuesMoveThroughTime : Obligations.ValuesMoveThroughTime := by
  refine ⟨prev_completes, next_completes, fun f s g hl => ?_, perm_completes⟩
  have h := bcast_completes f s g hl
  rw [bcastSource_getD] at h
  exact h

/-! ## Uniform instructions (R244) -/

/-- A uniform register written, as the statements put it. -/
theorem writeS_eq_uniWritten (g : Group) (n : Nat) (v : DWord) : g.writeS n v = uniWritten g n v := by
  simp only [Group.writeS, Group.touchS, uniWritten, flashAfter, List.any_cons, List.any_nil, Bool.or_false]
  cases hf : g.flash with
  | none => simp only [Group.setSreg, ← hf]
  | some x =>
    by_cases live : x.live.getLsbD (48 + n) = true
    · simp only [live, if_true, Group.setSreg, Group.voidFlash]
    · simp only [live, if_false, Group.setSreg, ← hf, Bool.false_eq_true]

/-- The second operand of a uniform form. -/
theorem uniOperand_eq (g : Group) (f : UniF) :
    uniOperand g f = if f.i = 0#7 then g.sreg f.b.toNat else wrap64 f.i.toInt := rfl

theorem gadd_eq_wrap64 (a y : DWord) : a + y = wrap64 (a.toInt + y.toInt) := by
  rw [wrap64, BitVec.ofInt_add, BitVec.ofInt_toInt, BitVec.ofInt_toInt]

theorem gsub_eq_wrap64 (a y : DWord) : a - y = wrap64 (a.toInt - y.toInt) := by
  rw [wrap64, ofInt_sub, BitVec.ofInt_toInt, BitVec.ofInt_toInt]

theorem gmul_eq_wrap64 (a y : DWord) : a * y = wrap64 (a.toInt * y.toInt) := by
  rw [wrap64, BitVec.ofInt_mul, BitVec.ofInt_toInt, BitVec.ofInt_toInt]

theorem gshl_eq_wrap64 (a y : DWord) :
    gshl a y = if y.toNat % 256 < 64 then wrap64 (a.toNat * 2 ^ (y.toNat % 256)) else 0#64 := by
  rw [gshl, shiftLeft_eq_ofInt]; rfl

theorem gshr_eq_wrap64 (a y : DWord) :
    gshr a y = if y.toNat % 256 < 64 then wrap64 (a.toNat / 2 ^ (y.toNat % 256)) else 0#64 := by
  rw [gshr, ushiftRight_eq_ofInt]; rfl

/-- `gmovhi` puts sixteen bits below the register's. -/
theorem shiftLeft_or_eq_wrap64 (a : DWord) (i : BitVec 16) :
    (a <<< 16) ||| i.setWidth 64 = wrap64 (a.toNat * 65536 + i.toNat) := by
  have apart : (a <<< 16) &&& i.setWidth 64 = 0#64 := by
    ext j hj
    by_cases h : j < 16
    · simp [h]
    · simp [h, BitVec.getLsbD_of_ge i j (by omega)]
  rw [← BitVec.add_eq_or_of_and_eq_zero _ _ apart, wrap64, BitVec.ofInt_add, shiftLeft_eq_ofInt, ← BitVec.ofNat_toNat,
    BitVec.ofInt_natCast]
  rfl

/-- R54: the model's test is the condition. -/
theorem condHolds_iff {n : Nat} (c : BitVec 3) (a b : BitVec n) : condHolds c a b = true ↔ Cond c.toNat a b := by
  have hc : c.toNat < 8 := c.isLt
  unfold condHolds Cond
  generalize c.toNat = k at hc
  match k, hc with
  | 0, _ => exact beq_iff_eq
  | 1, _ => exact bne_iff_ne
  | 2, _ => exact BitVec.slt_iff_toInt_lt
  | 3, _ => exact not_slt_iff_toInt_le a b
  | 4, _ => exact BitVec.ult_iff_lt
  | 5, _ => exact not_ult_iff_toNat_le a b
  | 6, _ => exact bne_iff_ne
  | 7, _ => exact beq_iff_eq

/-- The model runs `mk` as a uniform form with the value `v`. -/
def UniForm (mk : UniF → Instr) (v : DWord → DWord → DWord) : Prop := ∀ f s, exec (mk f) s = uniform (mk f) f v s

theorem UniForm.congr {mk : UniF → Instr} {v v' : DWord → DWord → DWord} (h : UniForm mk v) (e : ∀ a y, v a y = v' a y) :
    UniForm mk v' := by
  rwa [← show v = v' from funext fun a => funext (e a)]

/-- Each row of the uniform table has the value that the model computes. -/
theorem uniTable_forms : ∀ e ∈ uniTable, UniForm e.1 e.2 := by
  simp only [uniTable, List.forall_mem_cons]
  exact ⟨.congr (fun _ _ => rfl) gadd_eq_wrap64, .congr (fun _ _ => rfl) gsub_eq_wrap64,
    .congr (fun _ _ => rfl) gmul_eq_wrap64, fun _ _ => rfl, fun _ _ => rfl, fun _ _ => rfl,
    .congr (fun _ _ => rfl) gshl_eq_wrap64, .congr (fun _ _ => rfl) gshr_eq_wrap64,
    .congr (fun _ _ => rfl) ite_slt_min, .congr (fun _ _ => rfl) ite_slt_max, nofun⟩

/-- An instruction of one cycle that writes a uniform register alone. -/
theorem issuePlain_writeS {i : Instr} {s : State} {g : Group} {n : Nat} {e : Bool} {v : Group → DWord}
    (hi : exec i s = issuePlain i s fun g => s.retire (g.writeS n (v g)) 4 1 e) (h : Ready i s g g.active) :
    exec i s = .next (s.retire (uniWritten g n (v g)) 4 1 e) := by
  obtain ⟨hg, hc⟩ := h
  rw [hi, issuePlain_next hg hc, writeS_eq_uniWritten]

theorem gcmp_writes {f : UniCmp} {s : State} {g : Group} (h : Ready (.gcmp f) s g g.active) :
    exec (.gcmp f) s = .next (s.retire (uniWritten g f.d.toNat
      (if condHolds f.c (g.sreg f.a.toNat) (g.sreg f.b.toNat) then 1#64 else 0#64)) 4 1 f.e) :=
  issuePlain_writeS (v := fun g => if condHolds f.c (g.sreg f.a.toNat) (g.sreg f.b.toNat) then 1#64 else 0#64) rfl h

theorem gmovi_writes {f : UniMov17} {s : State} {g : Group} (h : Ready (.gmovi f) s g g.active) :
    exec (.gmovi f) s = .next (s.retire (uniWritten g f.d.toNat (wrap64 f.i.toInt)) 4 1 f.e) :=
  issuePlain_writeS (v := fun _ => f.i.signExtend 64) rfl h

theorem gmovhi_writes {f : UniMov16} {s : State} {g : Group} (h : Ready (.gmovhi f) s g g.active) :
    exec (.gmovhi f) s = .next (s.retire (uniWritten g f.d.toNat
      (wrap64 ((g.sreg f.d.toNat).toNat * 65536 + f.i.toNat))) 4 1 f.e) := by
  rw [← shiftLeft_or_eq_wrap64]
  exact issuePlain_writeS (v := fun g => (g.sreg f.d.toNat <<< 16) ||| f.i.setWidth 64) rfl h

/-- Settles O8: every form writes its one register, with the value of its row. -/
theorem uniformArithmetic : Obligations.UniformArithmetic := by
  refine ⟨fun e he f s g h => ?_, fun f s g h => ⟨_, gcmp_writes h, ?_, ?_⟩, fun f s g h => gmovi_writes h,
    fun f s g h => gmovhi_writes h⟩
  · rw [← uniOperand_eq]
    exact issuePlain_writeS (v := fun g => e.2 (g.sreg f.a.toNat) (uniOperand g f)) (uniTable_forms e he f s) h
  · split
    · exact .inl rfl
    · exact .inr rfl
  · rw [← condHolds_iff, ite_eq_left_iff]
    simp

end Sys2Proof.Spec
